-- ==== Sys2Proof/Word.lean ====
section
/-! DEFINITION. The word types of MOE: bytes, byte strings, command words and context handles. -/

namespace Sys2Proof

/-- An 8-bit unsigned value (00 R20). -/
abbrev Byte := BitVec 8

/-- A byte string; byte 0 comes first in the stream (00 R20). -/
abbrev Bytes := List Byte

/-- A 32-bit command word (30 R110). -/
abbrev CommandWord := BitVec 32

/-- A context handle, an opaque identifier (10 R30). -/
abbrev Handle := Nat

end Sys2Proof
end

