-- ==== Sys2Proof/Syntax.lean ====
section
/-! DEFINITION. The syntax of MOE's commands: the enumerations of 30_encoding.md rules R111 to R114 and one constructor
of `Instr` per row of spec/opcode_table.json (30 R128). -/

namespace Sys2Proof

/-- The algorithms (00 R4, 30 R113). -/
inductive Alg where
  | aes128
  | aes192
  | aes256
  | des
  | tdes
deriving DecidableEq, Repr

/-- The modes of operation (00 R5, 30 R112). -/
inductive Mode where
  | ecb
  | cbc
  | cbcPad
  | cfb
  | ctr
  | ccm
  | gcm
  | gmac
deriving DecidableEq, Repr

/-- The directions (00 R6, 30 R111); for GMAC, `enc` generates a tag and `dec` verifies one. -/
inductive Dir where
  | enc
  | dec
deriving DecidableEq, Repr

/-- The four operations that take a mode, a direction and an algorithm (30 R114). -/
inductive Op where
  | init
  | update
  | final
  | atomic
deriving DecidableEq, Repr

/-- The 65 commands (00 R7, 30 R128). Each but ABORT carries the ALG field of its word. The operand record does not
stand in the word (30 R119): it is in the state. -/
inductive Instr where
  /-- INIT.ECB.ENC, rule R180. -/
  | initEcbEnc (alg : Alg)
  /-- INIT.ECB.DEC, rule R181. -/
  | initEcbDec (alg : Alg)
  /-- UPDATE.ECB.ENC, rule R182. -/
  | updateEcbEnc (alg : Alg)
  /-- UPDATE.ECB.DEC, rule R183. -/
  | updateEcbDec (alg : Alg)
  /-- FINAL.ECB.ENC, rule R184. -/
  | finalEcbEnc (alg : Alg)
  /-- FINAL.ECB.DEC, rule R185. -/
  | finalEcbDec (alg : Alg)
  /-- ATOMIC.ECB.ENC, rule R186. -/
  | atomicEcbEnc (alg : Alg)
  /-- ATOMIC.ECB.DEC, rule R187. -/
  | atomicEcbDec (alg : Alg)
  /-- INIT.CBC.ENC, rule R190. -/
  | initCbcEnc (alg : Alg)
  /-- INIT.CBC.DEC, rule R191. -/
  | initCbcDec (alg : Alg)
  /-- UPDATE.CBC.ENC, rule R192. -/
  | updateCbcEnc (alg : Alg)
  /-- UPDATE.CBC.DEC, rule R193. -/
  | updateCbcDec (alg : Alg)
  /-- FINAL.CBC.ENC, rule R194. -/
  | finalCbcEnc (alg : Alg)
  /-- FINAL.CBC.DEC, rule R195. -/
  | finalCbcDec (alg : Alg)
  /-- ATOMIC.CBC.ENC, rule R196. -/
  | atomicCbcEnc (alg : Alg)
  /-- ATOMIC.CBC.DEC, rule R197. -/
  | atomicCbcDec (alg : Alg)
  /-- INIT.CBC_PAD.ENC, rule R260. -/
  | initCbcPadEnc (alg : Alg)
  /-- INIT.CBC_PAD.DEC, rule R261. -/
  | initCbcPadDec (alg : Alg)
  /-- UPDATE.CBC_PAD.ENC, rule R262. -/
  | updateCbcPadEnc (alg : Alg)
  /-- UPDATE.CBC_PAD.DEC, rule R263. -/
  | updateCbcPadDec (alg : Alg)
  /-- FINAL.CBC_PAD.ENC, rule R264. -/
  | finalCbcPadEnc (alg : Alg)
  /-- FINAL.CBC_PAD.DEC, rule R265. -/
  | finalCbcPadDec (alg : Alg)
  /-- ATOMIC.CBC_PAD.ENC, rule R266. -/
  | atomicCbcPadEnc (alg : Alg)
  /-- ATOMIC.CBC_PAD.DEC, rule R267. -/
  | atomicCbcPadDec (alg : Alg)
  /-- INIT.CFB.ENC, rule R200. -/
  | initCfbEnc (alg : Alg)
  /-- INIT.CFB.DEC, rule R201. -/
  | initCfbDec (alg : Alg)
  /-- UPDATE.CFB.ENC, rule R202. -/
  | updateCfbEnc (alg : Alg)
  /-- UPDATE.CFB.DEC, rule R203. -/
  | updateCfbDec (alg : Alg)
  /-- FINAL.CFB.ENC, rule R204. -/
  | finalCfbEnc (alg : Alg)
  /-- FINAL.CFB.DEC, rule R205. -/
  | finalCfbDec (alg : Alg)
  /-- ATOMIC.CFB.ENC, rule R206. -/
  | atomicCfbEnc (alg : Alg)
  /-- ATOMIC.CFB.DEC, rule R207. -/
  | atomicCfbDec (alg : Alg)
  /-- INIT.CTR.ENC, rule R210. -/
  | initCtrEnc (alg : Alg)
  /-- INIT.CTR.DEC, rule R211. -/
  | initCtrDec (alg : Alg)
  /-- UPDATE.CTR.ENC, rule R212. -/
  | updateCtrEnc (alg : Alg)
  /-- UPDATE.CTR.DEC, rule R213. -/
  | updateCtrDec (alg : Alg)
  /-- FINAL.CTR.ENC, rule R214. -/
  | finalCtrEnc (alg : Alg)
  /-- FINAL.CTR.DEC, rule R215. -/
  | finalCtrDec (alg : Alg)
  /-- ATOMIC.CTR.ENC, rule R216. -/
  | atomicCtrEnc (alg : Alg)
  /-- ATOMIC.CTR.DEC, rule R217. -/
  | atomicCtrDec (alg : Alg)
  /-- INIT.CCM.ENC, rule R320. -/
  | initCcmEnc (alg : Alg)
  /-- INIT.CCM.DEC, rule R321. -/
  | initCcmDec (alg : Alg)
  /-- UPDATE.CCM.ENC, rule R322. -/
  | updateCcmEnc (alg : Alg)
  /-- UPDATE.CCM.DEC, rule R323. -/
  | updateCcmDec (alg : Alg)
  /-- FINAL.CCM.ENC, rule R324. -/
  | finalCcmEnc (alg : Alg)
  /-- FINAL.CCM.DEC, rule R325. -/
  | finalCcmDec (alg : Alg)
  /-- ATOMIC.CCM.ENC, rule R326. -/
  | atomicCcmEnc (alg : Alg)
  /-- ATOMIC.CCM.DEC, rule R327. -/
  | atomicCcmDec (alg : Alg)
  /-- INIT.GCM.ENC, rule R400. -/
  | initGcmEnc (alg : Alg)
  /-- INIT.GCM.DEC, rule R401. -/
  | initGcmDec (alg : Alg)
  /-- UPDATE.GCM.ENC, rule R402. -/
  | updateGcmEnc (alg : Alg)
  /-- UPDATE.GCM.DEC, rule R403. -/
  | updateGcmDec (alg : Alg)
  /-- FINAL.GCM.ENC, rule R404. -/
  | finalGcmEnc (alg : Alg)
  /-- FINAL.GCM.DEC, rule R405. -/
  | finalGcmDec (alg : Alg)
  /-- ATOMIC.GCM.ENC, rule R406. -/
  | atomicGcmEnc (alg : Alg)
  /-- ATOMIC.GCM.DEC, rule R407. -/
  | atomicGcmDec (alg : Alg)
  /-- INIT.GMAC.ENC, rule R410. -/
  | initGmacEnc (alg : Alg)
  /-- INIT.GMAC.DEC, rule R411. -/
  | initGmacDec (alg : Alg)
  /-- UPDATE.GMAC.ENC, rule R412. -/
  | updateGmacEnc (alg : Alg)
  /-- UPDATE.GMAC.DEC, rule R413. -/
  | updateGmacDec (alg : Alg)
  /-- FINAL.GMAC.ENC, rule R414. -/
  | finalGmacEnc (alg : Alg)
  /-- FINAL.GMAC.DEC, rule R415. -/
  | finalGmacDec (alg : Alg)
  /-- ATOMIC.GMAC.ENC, rule R416. -/
  | atomicGmacEnc (alg : Alg)
  /-- ATOMIC.GMAC.DEC, rule R417. -/
  | atomicGmacDec (alg : Alg)
  /-- ABORT, rule R475. -/
  | abort
deriving DecidableEq, Repr

end Sys2Proof
end

