-- ==== Sys2Proof/WellFormed.lean ====
section
/-! DEFINITION. Which command words are legal, written from the list of reserved encodings (30_encoding.md rule R126) and
apart from the decoder. Every value of `Instr` is a legal command: its fields are enumerations. -/

namespace Sys2Proof

/-- The five fields of a command word as numbers (30 R110). -/
structure WordFields where
  op : Nat
  mode : Nat
  dir : Nat
  alg : Nat
  rsv : Nat
deriving DecidableEq, Repr

/-- The reserved encodings of 30 R126 are excluded: OP 5 to 15, MODE 8 to 15, ALG 5 to 7, a bit set in 31:12, and for
ABORT (OP 4) a bit set in 31:4. -/
def WordFields.wellFormed (f : WordFields) : Bool :=
  decide (f.op ≤ 4) && decide (f.mode ≤ 7) && decide (f.dir ≤ 1) && decide (f.alg ≤ 4) && decide (f.rsv = 0) &&
    (decide (f.op ≠ 4) || (decide (f.mode = 0) && decide (f.dir = 0) && decide (f.alg = 0)))

end Sys2Proof
end

