-- ==== Sys2Proof/Decode.lean ====
section
/-! DEFINITION. The decoder of command words (30_encoding.md rules R110 to R118, R126), total on every 32-bit word, and
the encoder written from the same tables (30 R116). -/

namespace Sys2Proof

/-- Bits `hi` down to `lo` of a command word (00 R21). -/
def wordBits (w : CommandWord) (hi lo : Nat) : Nat := (w.toNat >>> lo) % 2 ^ (hi + 1 - lo)

/-- The fields of a command word (30 R110). -/
def wordFields (w : CommandWord) : WordFields where
  op := wordBits w 3 0
  mode := wordBits w 7 4
  dir := wordBits w 8 8
  alg := wordBits w 11 9
  rsv := wordBits w 31 12

/-- Field OP of the four operations (30 R114); 4 is ABORT, which `decode` takes first. -/
def opOfCode : Nat → Option Op
  | 0 => some .init
  | 1 => some .update
  | 2 => some .final
  | 3 => some .atomic
  | _ => none

/-- Field MODE (30 R112). -/
def modeOfCode : Nat → Option Mode
  | 0 => some .ecb
  | 1 => some .cbc
  | 2 => some .cbcPad
  | 3 => some .cfb
  | 4 => some .ctr
  | 5 => some .ccm
  | 6 => some .gcm
  | 7 => some .gmac
  | _ => none

/-- Field DIR (30 R111). -/
def dirOfCode : Nat → Option Dir
  | 0 => some .enc
  | 1 => some .dec
  | _ => none

/-- Field ALG (30 R113). -/
def algOfCode : Nat → Option Alg
  | 0 => some .aes128
  | 1 => some .aes192
  | 2 => some .aes256
  | 3 => some .des
  | 4 => some .tdes
  | _ => none

/-- Field OP of an operation (30 R114). -/
def Op.code : Op → Nat
  | .init => 0
  | .update => 1
  | .final => 2
  | .atomic => 3

/-- Field MODE of a mode (30 R112). -/
def Mode.code : Mode → Nat
  | .ecb => 0
  | .cbc => 1
  | .cbcPad => 2
  | .cfb => 3
  | .ctr => 4
  | .ccm => 5
  | .gcm => 6
  | .gmac => 7

/-- Field DIR of a direction (30 R111). -/
def Dir.code : Dir → Nat
  | .enc => 0
  | .dec => 1

/-- Field ALG of an algorithm (30 R113). -/
def Alg.code : Alg → Nat
  | .aes128 => 0
  | .aes192 => 1
  | .aes256 => 2
  | .des => 3
  | .tdes => 4

/-- The command of an operation, a mode, a direction and an algorithm (the opcode map, 30 R128). -/
def instrOf (op : Op) (m : Mode) (d : Dir) (a : Alg) : Instr :=
  match op, m, d with
  | .init, .ecb, .enc => .initEcbEnc a
  | .init, .ecb, .dec => .initEcbDec a
  | .update, .ecb, .enc => .updateEcbEnc a
  | .update, .ecb, .dec => .updateEcbDec a
  | .final, .ecb, .enc => .finalEcbEnc a
  | .final, .ecb, .dec => .finalEcbDec a
  | .atomic, .ecb, .enc => .atomicEcbEnc a
  | .atomic, .ecb, .dec => .atomicEcbDec a
  | .init, .cbc, .enc => .initCbcEnc a
  | .init, .cbc, .dec => .initCbcDec a
  | .update, .cbc, .enc => .updateCbcEnc a
  | .update, .cbc, .dec => .updateCbcDec a
  | .final, .cbc, .enc => .finalCbcEnc a
  | .final, .cbc, .dec => .finalCbcDec a
  | .atomic, .cbc, .enc => .atomicCbcEnc a
  | .atomic, .cbc, .dec => .atomicCbcDec a
  | .init, .cbcPad, .enc => .initCbcPadEnc a
  | .init, .cbcPad, .dec => .initCbcPadDec a
  | .update, .cbcPad, .enc => .updateCbcPadEnc a
  | .update, .cbcPad, .dec => .updateCbcPadDec a
  | .final, .cbcPad, .enc => .finalCbcPadEnc a
  | .final, .cbcPad, .dec => .finalCbcPadDec a
  | .atomic, .cbcPad, .enc => .atomicCbcPadEnc a
  | .atomic, .cbcPad, .dec => .atomicCbcPadDec a
  | .init, .cfb, .enc => .initCfbEnc a
  | .init, .cfb, .dec => .initCfbDec a
  | .update, .cfb, .enc => .updateCfbEnc a
  | .update, .cfb, .dec => .updateCfbDec a
  | .final, .cfb, .enc => .finalCfbEnc a
  | .final, .cfb, .dec => .finalCfbDec a
  | .atomic, .cfb, .enc => .atomicCfbEnc a
  | .atomic, .cfb, .dec => .atomicCfbDec a
  | .init, .ctr, .enc => .initCtrEnc a
  | .init, .ctr, .dec => .initCtrDec a
  | .update, .ctr, .enc => .updateCtrEnc a
  | .update, .ctr, .dec => .updateCtrDec a
  | .final, .ctr, .enc => .finalCtrEnc a
  | .final, .ctr, .dec => .finalCtrDec a
  | .atomic, .ctr, .enc => .atomicCtrEnc a
  | .atomic, .ctr, .dec => .atomicCtrDec a
  | .init, .ccm, .enc => .initCcmEnc a
  | .init, .ccm, .dec => .initCcmDec a
  | .update, .ccm, .enc => .updateCcmEnc a
  | .update, .ccm, .dec => .updateCcmDec a
  | .final, .ccm, .enc => .finalCcmEnc a
  | .final, .ccm, .dec => .finalCcmDec a
  | .atomic, .ccm, .enc => .atomicCcmEnc a
  | .atomic, .ccm, .dec => .atomicCcmDec a
  | .init, .gcm, .enc => .initGcmEnc a
  | .init, .gcm, .dec => .initGcmDec a
  | .update, .gcm, .enc => .updateGcmEnc a
  | .update, .gcm, .dec => .updateGcmDec a
  | .final, .gcm, .enc => .finalGcmEnc a
  | .final, .gcm, .dec => .finalGcmDec a
  | .atomic, .gcm, .enc => .atomicGcmEnc a
  | .atomic, .gcm, .dec => .atomicGcmDec a
  | .init, .gmac, .enc => .initGmacEnc a
  | .init, .gmac, .dec => .initGmacDec a
  | .update, .gmac, .enc => .updateGmacEnc a
  | .update, .gmac, .dec => .updateGmacDec a
  | .final, .gmac, .enc => .finalGmacEnc a
  | .final, .gmac, .dec => .finalGmacDec a
  | .atomic, .gmac, .enc => .atomicGmacEnc a
  | .atomic, .gmac, .dec => .atomicGmacDec a

/-- The operation, mode, direction and algorithm of a command; none for ABORT, which has none (30 R115). -/
def Instr.parts : Instr → Option (Op × Mode × Dir × Alg)
  | .initEcbEnc a => some (.init, .ecb, .enc, a)
  | .initEcbDec a => some (.init, .ecb, .dec, a)
  | .updateEcbEnc a => some (.update, .ecb, .enc, a)
  | .updateEcbDec a => some (.update, .ecb, .dec, a)
  | .finalEcbEnc a => some (.final, .ecb, .enc, a)
  | .finalEcbDec a => some (.final, .ecb, .dec, a)
  | .atomicEcbEnc a => some (.atomic, .ecb, .enc, a)
  | .atomicEcbDec a => some (.atomic, .ecb, .dec, a)
  | .initCbcEnc a => some (.init, .cbc, .enc, a)
  | .initCbcDec a => some (.init, .cbc, .dec, a)
  | .updateCbcEnc a => some (.update, .cbc, .enc, a)
  | .updateCbcDec a => some (.update, .cbc, .dec, a)
  | .finalCbcEnc a => some (.final, .cbc, .enc, a)
  | .finalCbcDec a => some (.final, .cbc, .dec, a)
  | .atomicCbcEnc a => some (.atomic, .cbc, .enc, a)
  | .atomicCbcDec a => some (.atomic, .cbc, .dec, a)
  | .initCbcPadEnc a => some (.init, .cbcPad, .enc, a)
  | .initCbcPadDec a => some (.init, .cbcPad, .dec, a)
  | .updateCbcPadEnc a => some (.update, .cbcPad, .enc, a)
  | .updateCbcPadDec a => some (.update, .cbcPad, .dec, a)
  | .finalCbcPadEnc a => some (.final, .cbcPad, .enc, a)
  | .finalCbcPadDec a => some (.final, .cbcPad, .dec, a)
  | .atomicCbcPadEnc a => some (.atomic, .cbcPad, .enc, a)
  | .atomicCbcPadDec a => some (.atomic, .cbcPad, .dec, a)
  | .initCfbEnc a => some (.init, .cfb, .enc, a)
  | .initCfbDec a => some (.init, .cfb, .dec, a)
  | .updateCfbEnc a => some (.update, .cfb, .enc, a)
  | .updateCfbDec a => some (.update, .cfb, .dec, a)
  | .finalCfbEnc a => some (.final, .cfb, .enc, a)
  | .finalCfbDec a => some (.final, .cfb, .dec, a)
  | .atomicCfbEnc a => some (.atomic, .cfb, .enc, a)
  | .atomicCfbDec a => some (.atomic, .cfb, .dec, a)
  | .initCtrEnc a => some (.init, .ctr, .enc, a)
  | .initCtrDec a => some (.init, .ctr, .dec, a)
  | .updateCtrEnc a => some (.update, .ctr, .enc, a)
  | .updateCtrDec a => some (.update, .ctr, .dec, a)
  | .finalCtrEnc a => some (.final, .ctr, .enc, a)
  | .finalCtrDec a => some (.final, .ctr, .dec, a)
  | .atomicCtrEnc a => some (.atomic, .ctr, .enc, a)
  | .atomicCtrDec a => some (.atomic, .ctr, .dec, a)
  | .initCcmEnc a => some (.init, .ccm, .enc, a)
  | .initCcmDec a => some (.init, .ccm, .dec, a)
  | .updateCcmEnc a => some (.update, .ccm, .enc, a)
  | .updateCcmDec a => some (.update, .ccm, .dec, a)
  | .finalCcmEnc a => some (.final, .ccm, .enc, a)
  | .finalCcmDec a => some (.final, .ccm, .dec, a)
  | .atomicCcmEnc a => some (.atomic, .ccm, .enc, a)
  | .atomicCcmDec a => some (.atomic, .ccm, .dec, a)
  | .initGcmEnc a => some (.init, .gcm, .enc, a)
  | .initGcmDec a => some (.init, .gcm, .dec, a)
  | .updateGcmEnc a => some (.update, .gcm, .enc, a)
  | .updateGcmDec a => some (.update, .gcm, .dec, a)
  | .finalGcmEnc a => some (.final, .gcm, .enc, a)
  | .finalGcmDec a => some (.final, .gcm, .dec, a)
  | .atomicGcmEnc a => some (.atomic, .gcm, .enc, a)
  | .atomicGcmDec a => some (.atomic, .gcm, .dec, a)
  | .initGmacEnc a => some (.init, .gmac, .enc, a)
  | .initGmacDec a => some (.init, .gmac, .dec, a)
  | .updateGmacEnc a => some (.update, .gmac, .enc, a)
  | .updateGmacDec a => some (.update, .gmac, .dec, a)
  | .finalGmacEnc a => some (.final, .gmac, .enc, a)
  | .finalGmacDec a => some (.final, .gmac, .dec, a)
  | .atomicGmacEnc a => some (.atomic, .gmac, .enc, a)
  | .atomicGmacDec a => some (.atomic, .gmac, .dec, a)
  | .abort => none

/-- Decoding of a command word (30 R117). `none` is the rule's MECHANISM_INVALID. -/
def decode (w : CommandWord) : Option Instr :=
  let f := wordFields w
  if f.op = 4 then
    if wordBits w 31 4 = 0 then some .abort else none
  else if f.rsv ≠ 0 then none
  else
    match opOfCode f.op, modeOfCode f.mode, dirOfCode f.dir, algOfCode f.alg with
    | some op, some m, some d, some a => some (instrOf op m d a)
    | _, _, _, _ => none

/-- The command word of a command (30 R115, R116). -/
def encode (i : Instr) : CommandWord :=
  match i.parts with
  | none => 4
  | some (op, m, d, a) =>
    BitVec.ofNat 32 (op.code ||| (m.code <<< 4) ||| (d.code <<< 8) ||| (a.code <<< 9))

/-- The command word the host numbers by the opcode table's bits: its low `nbits` bits are `w`, the bits above are 0. -/
def tableWord (nbits w : Nat) : CommandWord := BitVec.ofNat 32 (w % 2 ^ nbits)

/-- What the decoder reads from a word numbered as the opcode table numbers it. -/
def decodeTableWord (nbits w : Nat) : Option Instr := decode (tableWord nbits w)

end Sys2Proof
end

