-- ==== Sys2Proof/Config.lean ====
section
/-! DEFINITION. What an implementation fixes (00_scope.md rules R14 to R18) and the free values. The plain-data part,
`HostConfig`, stands in the state so that every statement holds for every configuration; the Block Primitive's functions
and the free bytes are opaque constants: nothing can evaluate them. -/

namespace Sys2Proof

/-- A key schedule (10 R35, R57), an opaque handle to MOE: the algorithm and key that E and D depend on. DEDUCED,
safe: log 3. -/
structure KeySchedule where
  alg : Alg
  key : Bytes
deriving DecidableEq, Repr

/-- The configuration the host gives before the first command (70 R581, R584). -/
structure HostConfig where
  /-- MAX_XFER, the bytes one job covers at most (00 R14). -/
  maxXfer : Nat
  /-- The open entries of ALG_MODE_SUPPORTED that are false (00 R15). -/
  unsupported : List (Alg × Mode)
  /-- PRIM_ERRORS, the Block Primitive's error codes (00 R17, 92 D13). -/
  primErrors : List Nat
  /-- MAX_CONTEXTS; none is unbounded (00 R18). -/
  maxContexts : Option Nat
deriving DecidableEq, Repr

namespace Config

/-- The Block Primitive (00 R16): for each key schedule a permutation of the blocks of `B` bytes. E is the permutation and
D its inverse, which is exactly "D(ks, E(ks, X)) = X" with both depending on ks and X alone. DEDUCED, safe: log 3. -/
opaque cipher (B : Nat) (ks : KeySchedule) : Equiv.Perm (List.Vector Byte B)

/-- Free bytes: what the output region holds where the spec says "any bytes" (20 R85, R91). Applied to a counter of the
state. DESIGN CHOICE, safe: log 5. -/
opaque freeByte : Nat → Byte

end Config

end Sys2Proof
end

