-- ==== Sys2Proof/Machine/Bytes.lean ====
section
/-! DEFINITION. The notation of 00_scope.md rules R20 and R21: byte strings, XOR, zero padding, big-endian numbers, and
the blocks of a byte string. -/

namespace Sys2Proof.Machine

/-- `zeros(n)` (00 R20). -/
def zeros (n : Nat) : Bytes := List.replicate n 0

/-- `pad0(s, n)` (00 R20). -/
def pad0 (s : Bytes) (n : Nat) : Bytes := s ++ zeros (n - s.length)

/-- `a XOR b`, bytewise over the first min(len(a), len(b)) bytes (00 R20, 40 R155). -/
def xorBytes (a b : Bytes) : Bytes := List.zipWith (fun x y => x ^^^ y) a b

/-- `be_int(s)` (00 R21). -/
def beInt (s : Bytes) : Nat := s.foldl (fun v b => v * 256 + b.toNat) 0

/-- `be_bytes_n(v)`, the n-byte big-endian representation of v mod 2^(8n) (00 R21). -/
def beBytes : Nat → Nat → Bytes
  | 0, _ => []
  | n + 1, v => BitVec.ofNat 8 (v >>> (8 * n)) :: beBytes n v

/-- `ceil(n / d)`. -/
def ceilDiv (n d : Nat) : Nat := (n + d - 1) / d

/-- The blocks of a byte string, `s[kB : min(kB + B, len(s))]` for k in 0 .. ceil(len(s)/B) - 1 (20 R86). Only the last may
be partial. -/
def chunks (B : Nat) (s : Bytes) : List Bytes :=
  (List.range (ceilDiv s.length B)).map fun k => (s.drop (k * B)).take B

end Sys2Proof.Machine
end

