-- ==== Sys2Proof/Machine/Primitive.lean ====
section
/-! DEFINITION. The Block Primitive as MOE sees it (00_scope.md rules R12, R13, R16): block and key sizes, and the functions
E and D. Every engine takes the primitive as an argument; the machine's is `Prim.external`. -/

namespace Sys2Proof.Machine

/-- The block size B(alg) in bytes (00 R12, 10 R34). -/
def blockSize : Alg → Nat
  | .aes128 | .aes192 | .aes256 => 16
  | .des | .tdes => 8

/-- The key length KEYLEN(alg) in bytes (00 R13). -/
def keyLen : Alg → Nat
  | .aes128 => 16
  | .aes192 => 24
  | .aes256 => 32
  | .des => 8
  | .tdes => 24

/-- The key_type operand of an algorithm's family: 0 AES, 1 DES, 2 DES3 (30 R120, 44 R462). -/
def keyTypeOf : Alg → BitVec 8
  | .aes128 | .aes192 | .aes256 => 0
  | .des => 1
  | .tdes => 2

/-- The two functions of the Block Primitive's port (00 R16, 60 R540). -/
structure Prim where
  E : KeySchedule → Bytes → Bytes
  D : KeySchedule → Bytes → Bytes

/-- A block of exactly `B` bytes. MOE only submits such blocks; a longer string is cut and a shorter one zero-padded so
that E and D are total. DESIGN CHOICE: log 19. -/
def fitBlock (B : Nat) (X : Bytes) : List.Vector Byte B :=
  ⟨(pad0 X B).take B, by simp [pad0, zeros]; omega⟩

/-- `E(ks, X)` of the external primitive (00 R16). -/
def encryptBlock (ks : KeySchedule) (X : Bytes) : Bytes :=
  (Config.cipher (blockSize ks.alg) ks (fitBlock (blockSize ks.alg) X)).toList

/-- `D(ks, X)` of the external primitive (00 R16). -/
def decryptBlock (ks : KeySchedule) (X : Bytes) : Bytes :=
  ((Config.cipher (blockSize ks.alg) ks).symm (fitBlock (blockSize ks.alg) X)).toList

/-- The Block Primitive of the machine, an external collaborator (00 R2, R9). -/
def Prim.external : Prim where
  E := encryptBlock
  D := decryptBlock

/-- `keysched(alg, key)` (44 R462): key setup uses no Block Primitive. -/
def keySchedule (alg : Alg) (key : Bytes) : KeySchedule := ⟨alg, key⟩

end Sys2Proof.Machine
end

