-- ==== Sys2Proof/Machine/Chaining.lean ====
section
/-! DEFINITION. The Chaining Core (40_chaining_core.md rules R150 to R174): the block functions, the counter, the
byte-stream engine of CFB and CTR, and the grouping of primitive uses into jobs. -/

namespace Sys2Proof.Machine

/-- `ecb_blocks` over the blocks of the data, `f` being E or D (40 R154). -/
def ecbBlocks (f : Bytes → Bytes) (Xs : List Bytes) : Bytes := Xs.flatMap f

/-- The encrypt branch of `cbc_blocks`: the output and the next chaining value, the last ciphertext block produced (40
R156, R161). -/
def cbcEncBlocks (E : Bytes → Bytes) (v : Bytes) : List Bytes → Bytes × Bytes
  | [] => ([], v)
  | X :: Xs =>
    let Y := E (xorBytes X v)
    let r := cbcEncBlocks E Y Xs
    (Y ++ r.1, r.2)

/-- The decrypt branch of `cbc_blocks`: the next chaining value is the input block (40 R156, R162). -/
def cbcDecBlocks (D : Bytes → Bytes) (v : Bytes) : List Bytes → Bytes × Bytes
  | [] => ([], v)
  | X :: Xs =>
    let r := cbcDecBlocks D X Xs
    (xorBytes (D X) v ++ r.1, r.2)

/-- `cbc_mac(acc, data)` over the blocks of the data (40 R174). -/
def cbcMac (E : Bytes → Bytes) (acc : Bytes) (Xs : List Bytes) : Bytes :=
  Xs.foldl (fun a X => E (xorBytes X a)) acc

/-- `inc(ctr, cb)`: one is added to the low `cb` bits, modulo 2^cb, and the bits above are kept (40 R158, R159). -/
def inc (ctr : Bytes) (cb : Nat) : Bytes :=
  let v := beInt ctr
  beBytes ctr.length (((v >>> cb) <<< cb) ||| ((v + 1) % 2 ^ cb))

/-- The fields of a stream-mode context that the stream function reads and writes: iv_or_counter, last_block and lb_pad
(10 R36, R38). -/
structure Keystream where
  iv : Bytes
  last : Bytes
  pad : Nat
deriving DecidableEq, Repr

/-- What the stream function takes from the context besides the keystream: whether the mode is CFB (else CTR), the
direction, B and counter_bits. -/
structure StreamParams where
  cfb : Bool
  dir : Dir
  B : Nat
  counterBits : Nat
deriving DecidableEq, Repr

/-- One byte drained from the keystream cache (40 R167): the output byte and the cache after it. -/
def drainByte (p : StreamParams) (k : Keystream) (x : Byte) : Byte × Keystream :=
  let j := p.B - k.pad
  let o := x ^^^ k.last.getD j 0
  let last := if p.cfb then k.last.set j (if p.dir = .enc then o else x) else k.last
  let pad := k.pad - 1
  (o, { iv := if pad = 0 ∧ p.cfb then last else k.iv, last := last, pad := pad })

/-- The draining loop of `stream` (40 R165, R167): the output, the cache after it, and the input not consumed. -/
def drain (p : StreamParams) (k : Keystream) : Bytes → Bytes × Keystream × Bytes
  | [] => ([], k, [])
  | x :: xs =>
    if k.pad = 0 then ([], k, x :: xs)
    else
      let d := drainByte p k x
      let r := drain p d.2 xs
      (d.1 :: r.1, r.2.1, r.2.2)

/-- One block of the rest, whole or partial (40 R163 to R165, R168): its output and the keystream state after it. -/
def streamBlock (E : Bytes → Bytes) (p : StreamParams) (k : Keystream) (chunk : Bytes) : Bytes × Keystream :=
  let r := chunk.length
  let X := pad0 chunk p.B
  let K := E k.iv
  let Y := xorBytes X K
  let C := if p.cfb ∧ p.dir = .dec then X else Y
  let iv := if p.cfb then k.iv else inc k.iv p.counterBits
  let k' : Keystream :=
    if r = p.B then { k with iv := if p.cfb then C else iv }
    else { iv := iv, last := C.take r ++ K.drop r, pad := p.B - r }
  (Y.take r, k')

/-- The block loop of `stream` (40 R165). -/
def streamBlocks (E : Bytes → Bytes) (p : StreamParams) (k : Keystream) : List Bytes → Bytes × Keystream
  | [] => ([], k)
  | x :: xs =>
    let d := streamBlock E p k x
    let r := streamBlocks E p d.2 xs
    (d.1 ++ r.1, r.2)

/-- `stream(ctx, in)` (40 R165). -/
def stream (E : Bytes → Bytes) (p : StreamParams) (k : Keystream) (input : Bytes) : Bytes × Keystream :=
  let d := drain p k input
  let r := streamBlocks E p d.2.1 (chunks p.B d.2.2)
  (d.1 ++ r.1, r.2)

/-- The keystream blocks a stream-mode command computes for `n` input bytes when `pad` bytes are cached (40 R165, R170). -/
def streamUses (B pad n : Nat) : Nat := ceilDiv (n - pad) B

/-- `n` primitive uses in jobs of at most `cap` blocks, in order (40 R172). Full jobs first: DEDUCED, unsafe for
counts: log 9. -/
def splitJobs (cap n : Nat) : List Nat :=
  List.replicate (n / cap) cap ++ (if n % cap = 0 then [] else [n % cap])

/-- The jobs of `n` CTR blocks from counter block `ctr`: none runs the low `cb` bits past a roll-over (40 R171). -/
def splitCtrJobs (cap cb : Nat) (ctr : Bytes) (n : Nat) : List Nat :=
  let room := 2 ^ cb - beInt ctr % 2 ^ cb
  if n ≤ room then splitJobs cap n
  else splitJobs cap room ++ (splitJobs (2 ^ cb) (n - room)).flatMap (splitJobs cap)

end Sys2Proof.Machine
end

