-- ==== Sys2Proof/Machine/Ccm.lean ====
section
/-! DEFINITION. The CCM Engine's functions (42_ccm.md rules R301 to R313). -/

namespace Sys2Proof.Machine

/-- B0, the first MAC block (42 R301): `n` the nonce, `a` = aad_len, `t` = tag_len, `p` = data_len. -/
def ccmB0 (nonce : Bytes) (a t p : Nat) : Bytes :=
  let q := 15 - nonce.length
  BitVec.ofNat 8 (64 * (if a > 0 then 1 else 0) + 8 * ((t - 2) / 2) + (q - 1)) :: (nonce ++ beBytes q p)

/-- The AAD length prefix L(a) (42 R304). -/
def ccmAadPrefix (a : Nat) : Bytes :=
  if a < 2 ^ 16 - 2 ^ 8 then beBytes 2 a
  else if a < 2 ^ 32 then [0xff, 0xfe] ++ beBytes 4 a
  else [0xff, 0xff] ++ beBytes 8 a

/-- The formatted AAD, `L(a) ‖ AAD` zero-padded to whole blocks, as blocks; none when there is no AAD (42 R304). -/
def ccmAadBlocks (aad : Bytes) : List Bytes :=
  if aad.length > 0 then (chunks 16 (ccmAadPrefix aad.length ++ aad)).map (pad0 · 16) else []

/-- `ccm_init_mac` (42 R304). -/
def ccmInitMac (E : Bytes → Bytes) (nonce aad : Bytes) (t p : Nat) : Bytes :=
  cbcMac E (E (ccmB0 nonce aad.length t p)) (ccmAadBlocks aad)

/-- A0 = Ctr_0 (42 R303). -/
def ccmCtr0 (nonce : Bytes) : Bytes :=
  let q := 15 - nonce.length
  BitVec.ofNat 8 (q - 1) :: (nonce ++ zeros q)

/-- What CCM's loops carry: the running CBC-MAC block and the counter block. -/
structure MacCtr where
  acc : Bytes
  ctr : Bytes
deriving DecidableEq, Repr

/-- `ccm_enc_blocks` over the blocks of the data (42 R305). -/
def ccmEncBlocks (E : Bytes → Bytes) (cb : Nat) (k : MacCtr) : List Bytes → Bytes × MacCtr
  | [] => ([], k)
  | X :: Xs =>
    let r := ccmEncBlocks E cb { acc := E (xorBytes k.acc X), ctr := inc k.ctr cb } Xs
    (xorBytes X (E k.ctr) ++ r.1, r.2)

/-- The loop of `ccm_dec_final` over the ciphertext's blocks, the last of which may be partial (42 R310): the plaintext, and
the MAC and counter after it. -/
def ccmDecBlocks (E : Bytes → Bytes) (cb : Nat) (k : MacCtr) : List Bytes → Bytes × MacCtr
  | [] => ([], k)
  | Ck :: Cs =>
    let Pk := xorBytes Ck (E k.ctr)
    let r := ccmDecBlocks E cb { acc := E (xorBytes k.acc (pad0 Pk 16)), ctr := inc k.ctr cb } Cs
    (Pk ++ r.1, r.2)

/-- The tag `(E(ks, ctr0) XOR acc)[0 : t]` (42 R307). -/
def ccmTag (E : Bytes → Bytes) (ctr0 acc : Bytes) (t : Nat) : Bytes := (xorBytes (E ctr0) acc).take t

/-- The encrypt FINAL's output, the encrypted residue and the tag (42 R306, R307, R324). -/
def ccmEncFinal (E : Bytes → Bytes) (ctr0 : Bytes) (t : Nat) (k : MacCtr) (residue : Bytes) : Bytes :=
  if residue.length > 0 then
    xorBytes residue (E k.ctr) ++ ccmTag E ctr0 (E (xorBytes k.acc (pad0 residue 16))) t
  else ccmTag E ctr0 k.acc t

/-- `ccm_dec_final`: the plaintext, or none for INVALID_MAC (42 R310). -/
def ccmDecFinal (E : Bytes → Bytes) (cb : Nat) (ctr0 : Bytes) (p t : Nat) (k : MacCtr) (scratch : Bytes) :
    Option Bytes :=
  let r := ccmDecBlocks E cb k (chunks 16 (scratch.take p))
  if ccmTag E ctr0 r.2.acc t = (scratch.drop p).take t then some r.1 else none

/-- INIT's primitive uses (42 R313). -/
def ccmInitUses (aad : Bytes) : Nat := 1 + (ccmAadBlocks aad).length

/-- The encrypt FINAL's primitive uses (42 R313). -/
def ccmEncFinalUses (r : Nat) : Nat := (if r > 0 then 2 else 0) + 1

/-- The decrypt FINAL's primitive uses (42 R313). -/
def ccmDecFinalUses (p : Nat) : Nat := 2 * ceilDiv p 16 + 1

end Sys2Proof.Machine
end

