-- ==== Sys2Proof/Machine/State.lean ====
section
/-! DEFINITION. The state of MOE (10_state.md, 70_reset_and_hazards.md rule R581): the context table, the in-flight
records, the Block Primitive's jobs, the configuration, the callers' memory, the command port and its reports. All of it is
plain data. -/

namespace Sys2Proof.Machine

/-- Status codes (60 R520). -/
inductive Status where
  | success
  | canceled
  | hostMemory
  | dataLenRange
  | encryptedDataLenRange
  | bufferTooSmall
  | mechanismInvalid
  | mechanismParamInvalid
  | keySizeRange
  | keyTypeInconsistent
  | unsupported
  | invalidMac
  /-- PRIM(e), the Block Primitive's error `e` unchanged (60 R541). -/
  | prim (e : Nat)
deriving DecidableEq, Repr

/-- One range of a scatter/gather region (20 R80). -/
structure ByteRange where
  base : Nat
  len : Nat
deriving DecidableEq, Repr

/-- A BufferView from its cursor to its end: an ordered sequence of byte ranges (20 R80 to R82). -/
abbrev View := List ByteRange

/-- The draws the host makes for one command: the handle (10 R30), and whether each allocation succeeds (60 R542). Inputs
of the model, log 4. -/
structure Draws where
  handle : Handle := 0
  contextOk : Bool := true
  scratchOk : Bool := true
deriving DecidableEq, Repr

/-- The operand record (30 R119 to R124). A command ignores the operands it does not use (30 R125). -/
structure Operands where
  handle : Handle := 0
  key : Bytes := []
  keyType : BitVec 8 := 0
  iv : Bytes := []
  counterBits : BitVec 8 := 0
  aad : Bytes := []
  tagLen : BitVec 8 := 0
  dataLen : BitVec 64 := 0
  inView : View := []
  outView : View := []
  draws : Draws := {}
deriving DecidableEq, Repr

/-- A context: the CipherContext and, from `tagLen` to `scratch`, the AeadSubContext (10 R31 to R48). A field the mode does
not use holds no value (10 R55), which is `[]`, `0` or `false` here: log 12. The block size B (10 R34) is `blockSize alg`. -/
structure Context where
  alg : Alg
  mode : Mode
  dir : Dir
  ks : KeySchedule
  /-- iv_or_counter (10 R36) -/
  iv : Bytes := []
  residue : Bytes := []
  lastBlock : Bytes := []
  lbPad : Nat := 0
  heldValid : Bool := false
  counterBits : Nat := 0
  tagLen : Nat := 0
  aadLen : Nat := 0
  dataLen : Nat := 0
  acc : Bytes := []
  /-- H, the hash subkey (10 R45) -/
  hashKey : Bytes := []
  ctr0 : Bytes := []
  processedDataLen : Nat := 0
  scratch : Bytes := []
  /-- The issue number of the INIT that made the context: which context it is, even after its handle is returned again. The
  model's own: log 27. -/
  serial : Nat := 0
deriving DecidableEq, Repr

/-- What a command's completion does to its output region (20 R82, R85). -/
inductive Region where
  /-- The bytes are written to the first bytes of the view; `[]` leaves the region as it was. -/
  | bytes (b : Bytes)
  /-- The region holds any bytes. -/
  | anyBytes
deriving DecidableEq, Repr

/-- All the effects a command commits at its completion (20 R96, 60 R543). -/
structure Commit where
  status : Status
  size : Nat
  /-- the context afterwards; none ends it, and the handle is ABSENT -/
  ctx : Option Context
  region : Region
  /-- the handle an INIT returns -/
  returns : Option Handle := none
deriving DecidableEq, Repr

/-- The in-flight record of a BUSY handle (10 R50). -/
structure InFlight where
  /-- the command's issue number -/
  id : Nat
  /-- the command in flight -/
  command : Instr
  /-- the snapshot: the context as it was, or none for the phase ABSENT (INIT and ATOMIC) -/
  snapshot : Option Context
  inView : View
  outView : View
  /-- the sizes, in blocks, of the jobs not yet submitted, in order -/
  jobsLeft : List Nat
  /-- the number of the job submitted and not completed -/
  current : Option Nat
  /-- how many jobs have completed -/
  jobsDone : Nat
  /-- what the last completion commits; invisible until then (log 6) -/
  commit : Commit
deriving DecidableEq, Repr

/-- What the table holds for a handle that is not ABSENT (10 R32). -/
inductive Slot where
  | active (c : Context)
  | busy (f : InFlight)
deriving DecidableEq, Repr

/-- A job in the Block Primitive (60 R540, R544). A cancelled job may still run, its result discarded (60 R547). -/
structure PrimJob where
  id : Nat
  handle : Handle
  /-- the context the job is of, by its serial number (60 R555) -/
  context : Nat
  blocks : Nat
  cancelled : Bool
deriving DecidableEq, Repr

/-- The result of a job completion (60 R541). -/
inductive JobResult where
  | ok
  | error (e : Nat)
deriving DecidableEq, Repr

/-- One step of an agent (70 R610, 60 R555). -/
inductive Event where
  /-- the host fixes the configuration (70 R584) -/
  | configure (cfg : HostConfig)
  /-- a caller issues a command word with its operand record (44 R460) -/
  | issue (word : CommandWord) (args : Operands)
  /-- MOE submits the next job of the command in flight on a handle (60 R544) -/
  | submit (h : Handle)
  /-- the Block Primitive completes a job (60 R541) -/
  | complete (job : Nat) (r : JobResult)
  /-- a caller or the host stores to its memory (20 R100, 70 R592) -/
  | hostWrite (addr : Nat) (b : Bytes)
deriving DecidableEq, Repr

/-- What a completed command reports to its caller (10 R49, 60 R556, 70 R596). -/
structure Report where
  /-- the command's issue number -/
  id : Nat
  status : Status
  size : Nat
  /-- the handle a successful INIT returns -/
  handle : Option Handle
  /-- the output bytes written on SUCCESS -/
  output : Bytes
deriving DecidableEq, Repr

/-- The state. -/
structure State where
  /-- the configuration, fixed from the first command on (70 R581) -/
  config : HostConfig
  /-- the context table (10 R30): the handles that are not ABSENT, strictly rising -/
  table : List (Handle × Slot)
  /-- the handles the callers have been given (44 R460, R461), without repeats -/
  known : List Handle
  /-- the jobs in the Block Primitive (70 R581), in submission order -/
  jobs : List PrimJob
  /-- the number of the next job -/
  nextJob : Nat
  /-- the callers' memory (20 R80), in the form of `Memory.wf` -/
  mem : List Host.Cell
  /-- the operand record of the command being issued (30 R119) -/
  args : Operands
  /-- the agents' next steps, in order (log 1) -/
  events : List Event
  /-- how many commands have been issued -/
  issued : Nat
  /-- the completions reported, in completion order -/
  reports : List Report
  /-- how many free bytes have been drawn (log 5) -/
  freeUsed : Nat
deriving DecidableEq, Repr

/-- MOE raises no faults: an error is a status (60 R535). The one stop is the spec's own `stuck`. -/
inductive Fault where
  /-- Raised by `step` when no event is left and a command is still in flight: a run whose job never completes (93 U15,
  70 R596). Safe. -/
  | jobNeverCompletes
deriving DecidableEq, Repr

/-- Runs the spec refuses (44 R461), and schedules that are no run of MOE (log 24). -/
inductive Refusal where
  /-- Raised by an arm of `exec` that has no meaning yet. Safe. -/
  | notModelled (mnemonic : String)
  /-- Raised by UPDATE, FINAL and ABORT naming a handle never returned (44 R461). Safe. -/
  | unknownHandle (h : Handle)
  /-- Raised by UPDATE and FINAL naming an ABSENT handle (44 R461). Safe. -/
  | absentHandle (h : Handle)
  /-- Raised by UPDATE and FINAL naming a BUSY handle (44 R461). Safe. -/
  | busyHandle (h : Handle)
  /-- Raised by UPDATE and ATOMIC whose views overlap other than exactly in place (44 R461, 20 R84). Safe. -/
  | viewsOverlap
  /-- Raised by UPDATE, FINAL and ATOMIC whose views overlap those of a command in flight where one writes (44 R461,
  20 R97). Safe. -/
  | viewsInFlight
  /-- Raised by a store into a view of a command in flight (70 R592). Safe. -/
  | storeInFlight
  /-- Raised by a configuration after the first command (70 R584) or outside the ranges of 00 R14 and R17. Safe. -/
  | badConfiguration
  /-- Raised by a submission on a handle with no job to submit (60 R544). Safe. -/
  | nothingToSubmit (h : Handle)
  /-- Raised by a completion of a job that is not in the Block Primitive (60 R544). Safe. -/
  | noSuchJob (job : Nat)
  /-- Raised by a completion of a job while a command waits for an earlier job of its context (60 R555). Safe. -/
  | outOfOrder (job : Nat)
  /-- Raised by a completion with an error outside PRIM_ERRORS (60 R541). Safe. -/
  | notAPrimError (e : Nat)
deriving DecidableEq, Repr

/-- The outcome of a command. -/
abbrev Result := Host.Outcome State Fault Refusal

/-- The configuration before the host gives one (00 R14 to R18). DESIGN CHOICE, unsafe: log 2. -/
def resetConfig : HostConfig where
  maxXfer := 2 ^ 64
  unsupported := []
  primErrors := []
  maxContexts := none

/-- The machine right after reset: the context table is empty and every handle is ABSENT (10 R54, 70 R580, R581). -/
def State.reset : State where
  config := resetConfig
  table := []
  known := []
  jobs := []
  nextJob := 0
  mem := []
  args := {}
  events := []
  issued := 0
  reports := []
  freeUsed := 0

end Sys2Proof.Machine
end

