-- ==== Sys2Proof/Machine/Flags.lean ====
section
/-! DEFINITION. What MOE has in place of flags (10_state.md rule R49, 00 R25): the status codes (60 R520), which statuses end
a context, and the required output sizes a command reports (44_dispatcher.md rule R469). -/

namespace Sys2Proof.Machine

/-- The numeric code of a status (60 R520); PRIM(e) carries e unchanged (92 D13). -/
def Status.code : Status → Nat
  | .success => 0
  | .canceled => 1
  | .hostMemory => 2
  | .dataLenRange => 3
  | .encryptedDataLenRange => 4
  | .bufferTooSmall => 5
  | .mechanismInvalid => 6
  | .mechanismParamInvalid => 7
  | .keySizeRange => 8
  | .keyTypeInconsistent => 9
  | .unsupported => 10
  | .invalidMac => 11
  | .prim e => e

/-- Whether a status ends the context it is raised on (44 R477, 60 R520). -/
def Status.terminal : Status → Bool
  | .success | .canceled | .bufferTooSmall => false
  | _ => true

/-- B of a context (10 R34). -/
def Context.B (c : Context) : Nat := blockSize c.alg

/-- DATA_LEN_RANGE when encrypting, ENCRYPTED_DATA_LEN_RANGE when decrypting (44 R467, R474). -/
def lengthStatus : Dir → Status
  | .enc => .dataLenRange
  | .dec => .encryptedDataLenRange

/-- `floor((len(residue) + n) / B) · B`: the usable length of an UPDATE of `n` input bytes, and its required size in ECB,
CBC, CBC_PAD encrypt, CCM encrypt and GCM encrypt (40 R151, 44 R469). -/
def Context.usableLen (c : Context) (n : Nat) : Nat := (c.residue.length + n) / c.B * c.B

/-- The required size of a CBC_PAD decrypt UPDATE of `n` input bytes (41 R257). -/
def Context.padDecNeed (c : Context) (n : Nat) : Nat :=
  let k := (c.residue.length + n) / c.B
  if k = 0 then 0 else (if c.heldValid then c.B else 0) + (k - 1) * c.B

/-- The required size of an AEAD encrypt FINAL (42 R312, 43 R396). -/
def Context.finalEncNeed (c : Context) : Nat := c.residue.length + c.tagLen

/-- The required size of a CBC_PAD encrypt ATOMIC of `n` input bytes (41 R266). -/
def padEncNeed (B n : Nat) : Nat := (n / B + 1) * B

end Sys2Proof.Machine
end

