-- ==== Sys2Proof/Machine/Gcm.lean ====
section
/-! DEFINITION. The GCM/GMAC Engine's functions (43_gcm_gmac.md rules R380 to R399). -/

namespace Sys2Proof.Machine

/-- The loop of `gf_mult` over bits n - 1 down to 0 of x, with the accumulators z and v (43 R381). -/
def gfLoop (x : Nat) : Nat → Nat → Nat → Nat
  | 0, z, _ => z
  | n + 1, z, v =>
    gfLoop x n (if x.testBit n then z ^^^ v else z)
      (if v.testBit 0 then (v >>> 1) ^^^ (0xE1 <<< 120) else v >>> 1)

/-- Multiplication in GF(2^128) on 128-bit big-endian integers (20 R88, 43 R381). -/
def gfMult (x y : Nat) : Nat := gfLoop x 128 0 y

/-- One GHASH step, `(acc XOR X) ⊗ H` (43 R382). -/
def ghashStep (H acc X : Bytes) : Bytes := beBytes 16 (gfMult (beInt (xorBytes acc X)) (beInt H))

/-- `ghash(acc, s)`: a step on each block of s, the last zero-padded (43 R382). -/
def ghash (H acc s : Bytes) : Bytes := (chunks 16 s).foldl (fun a x => ghashStep H a (pad0 x 16)) acc

/-- J0 from the IV (43 R385). -/
def gcmJ0 (H iv : Bytes) : Bytes :=
  if iv.length = 12 then iv ++ beBytes 4 1
  else ghash H (zeros 16) (pad0 iv (16 * ceilDiv iv.length 16) ++ zeros 8 ++ beBytes 8 (8 * iv.length))

/-- The length block (43 R389), `a` and `c` in bytes. -/
def gcmLengthBlock (a c : Nat) : Bytes := beBytes 8 (8 * a) ++ beBytes 8 (8 * c)

/-- `ghash_final` and the tag (43 R390). -/
def gcmTag (E : Bytes → Bytes) (H j0 acc : Bytes) (a c t : Nat) : Bytes :=
  (xorBytes (E j0) (ghash H acc (gcmLengthBlock a c))).take t

/-- What GCM's encrypt loop carries: the GHASH block and the counter block. -/
structure HashCtr where
  acc : Bytes
  ctr : Bytes
deriving DecidableEq, Repr

/-- `gcm_enc_blocks` over the blocks of the data (43 R391). -/
def gcmEncBlocks (E : Bytes → Bytes) (H : Bytes) (k : HashCtr) : List Bytes → Bytes × HashCtr
  | [] => ([], k)
  | X :: Xs =>
    let C := xorBytes X (E k.ctr)
    let r := gcmEncBlocks E H { acc := ghash H k.acc C, ctr := inc k.ctr 32 } Xs
    (C ++ r.1, r.2)

/-- The encrypt FINAL's output, the encrypted residue and the tag over `c` ciphertext bytes in all (43 R392, R404). -/
def gcmEncFinal (E : Bytes → Bytes) (H j0 : Bytes) (a c t : Nat) (k : HashCtr) (residue : Bytes) : Bytes :=
  let y := if residue.length > 0 then xorBytes residue (E k.ctr) else []
  y ++ gcmTag E H j0 (ghash H k.acc y) a c t

/-- The counter-mode loop of `gcm_dec_final` (43 R394). -/
def gcmCtrBlocks (E : Bytes → Bytes) (ctr : Bytes) : List Bytes → Bytes
  | [] => []
  | Ck :: Cs => xorBytes Ck (E ctr) ++ gcmCtrBlocks E (inc ctr 32) Cs

/-- `gcm_dec_final` over scratch = ciphertext ‖ tag: the plaintext, or none for INVALID_MAC (43 R394). -/
def gcmDecFinal (E : Bytes → Bytes) (H j0 : Bytes) (a t : Nat) (k : HashCtr) (scratch : Bytes) : Option Bytes :=
  let c := scratch.length - t
  let C := scratch.take c
  if gcmTag E H j0 (ghash H k.acc C) a c t = (scratch.drop c).take t then
    some (gcmCtrBlocks E k.ctr (chunks 16 C))
  else none

/-- The encrypt FINAL's primitive uses (43 R397). -/
def gcmEncFinalUses (r : Nat) : Nat := (if r > 0 then 1 else 0) + 1

end Sys2Proof.Machine
end

