-- ==== Sys2Proof/Machine/Ops.lean ====
section
/-! DEFINITION. The named operations over the context table, the callers' memory and its views, and a command's issue,
completion and ending (44_dispatcher.md rules R460, R461, R472, R477; 60_exceptions.md rules R535, R543, R548). -/

namespace Sys2Proof.Machine

/-! ### Association lists with strictly rising keys -/

/-- The value at a key. -/
def Assoc.get {α : Type} (k : Nat) : List (Nat × α) → Option α
  | [] => none
  | (j, v) :: t => if j = k then some v else Assoc.get k t

/-- The list with the value at a key set, in key order. -/
def Assoc.set {α : Type} (k : Nat) (v : α) : List (Nat × α) → List (Nat × α)
  | [] => [(k, v)]
  | (j, w) :: t =>
    if k < j then (k, v) :: (j, w) :: t else if j = k then (k, v) :: t else (j, w) :: Assoc.set k v t

/-- The list without a key. -/
def Assoc.erase {α : Type} (k : Nat) (l : List (Nat × α)) : List (Nat × α) := l.filter fun e => e.1 ≠ k

/-- The keys rise strictly. -/
abbrev Assoc.Sorted {α : Type} (l : List (Nat × α)) : Prop := l.Pairwise fun a b => a.1 < b.1

/-! ### The callers' memory -/

/-- What an address no entry lists reads as. DESIGN CHOICE, unsafe: log 7. -/
def Memory.background : Byte := 0

/-- The byte at an address. -/
def Memory.read (m : List Host.Cell) (a : Nat) : Byte := (Assoc.get a m).getD Memory.background

/-- The memory with one byte written, in canonical form. -/
def Memory.write (m : List Host.Cell) (a : Nat) (b : Byte) : List Host.Cell :=
  if b = Memory.background then Assoc.erase a m else Assoc.set a b m

/-- The canonical form: addresses strictly rising, and no entry that reads as an unlisted address does. -/
abbrev Memory.wf (m : List Host.Cell) : Prop := Assoc.Sorted m ∧ ∀ e ∈ m, e.2 ≠ Memory.background

/-- Bytes written to a list of addresses in order; the shorter list ends it (20 R82).
DESIGN CHOICE where an address stands twice: log 23. -/
def Memory.writeAll : List Host.Cell → List Nat → Bytes → List Host.Cell
  | m, a :: as, b :: bs => Memory.writeAll (Memory.write m a b) as bs
  | m, _, _ => m

/-! ### Views -/

/-- The addresses of a view, in stream order (20 R81, R82). -/
def View.addrs (v : View) : List Nat := v.flatMap fun r => List.range' r.base r.len

/-- The remaining length of a view: `len(in)`, `cap(out)` (00 R23). -/
def View.size (v : View) : Nat := (v.map ByteRange.len).sum

/-- Whether two byte ranges share a byte. -/
def ByteRange.overlaps (r q : ByteRange) : Bool :=
  decide (0 < r.len) && decide (0 < q.len) && decide (r.base < q.base + q.len) && decide (q.base < r.base + r.len)

/-- Whether two views share a byte. -/
def View.overlaps (v w : View) : Bool := v.any fun r => w.any fun q => r.overlaps q

/-- The views of one command are disjoint, or name the same bytes from the same byte on (20 R84). DEDUCED, safe: log 8. -/
def View.inPlaceOk (inV outV : View) : Bool :=
  !View.overlaps inV outV || decide (View.addrs inV = View.addrs outV)

/-- The bytes a view names, from the cursor to the end (20 R81). -/
def State.readView (s : State) (v : View) : Bytes := (View.addrs v).map (Memory.read s.mem)

/-- `MemRead(in, len(in))` of the command being issued (00 R23). -/
def State.input (s : State) : Bytes := s.readView s.args.inView

/-- `cap(out)` of the command being issued (00 R23). -/
def State.cap (s : State) : Nat := View.size s.args.outView

/-! ### The context table -/

/-- What the table holds for a handle; none is the phase ABSENT (10 R32). -/
def State.lookup (s : State) (h : Handle) : Option Slot := Assoc.get h s.table

/-- The handle's slot set. -/
def State.put (s : State) (h : Handle) (x : Slot) : State := { s with table := Assoc.set h x s.table }

/-- The handle made ABSENT, its context freed (44 R477). The zeroed scratch of 60 R533 is not observable and is dropped
with the context (93 U14, log 16). -/
def State.drop (s : State) (h : Handle) : State := { s with table := Assoc.erase h s.table }

/-- The handle ACTIVE with a context, or ABSENT. -/
def State.setContext (s : State) (h : Handle) : Option Context → State
  | some c => s.put h (.active c)
  | none => s.drop h

/-- A handle the caller now holds (44 R461). -/
def State.know (s : State) (h : Handle) : State :=
  { s with known := if h ∈ s.known then s.known else h :: s.known }

/-- A handle that is ABSENT: the drawn one if it is, else one above every live handle (10 R30). Log 4. -/
def State.freshHandle (s : State) (draw : Handle) : Handle :=
  if (s.lookup draw).isNone then draw else s.table.foldl (fun m e => max m (e.1 + 1)) 0

/-! ### Refusals (44 R461) -/

/-- Whether views overlap those of a command in flight where one of the two writes (20 R97). -/
def State.viewsClash (s : State) (inV outV : View) : Bool :=
  s.table.any fun e =>
    match e.2 with
    | .active _ => false
    | .busy f => View.overlaps outV f.inView || View.overlaps outV f.outView || View.overlaps inV f.outView

/-- The refusal the views of a command call for, if any. -/
def State.viewRefusal (s : State) (inV outV : View) : Option Refusal :=
  if View.inPlaceOk inV outV = false then some .viewsOverlap
  else if s.viewsClash inV outV then some .viewsInFlight
  else none

/-! ### Issue, completion and ending of a command -/

/-- A command takes the next issue number and its operand record is no longer held (20 R83). -/
def State.accept (s : State) : State := { s with issued := s.issued + 1, args := {} }

/-- A report to the caller (60 R556). -/
def State.tell (s : State) (r : Report) : State := { s with reports := s.reports ++ [r] }

/-- A command completed at its issue with a status and a reported size, with no other effect (44 R466). -/
def State.answer (s : State) (st : Status) (size : Nat) : State :=
  s.accept.tell { id := s.issued, status := st, size := size, handle := none, output := [] }

/-- `raise BUFFER_TOO_SMALL(need)`: recoverable, nothing changes (44 R472). -/
def State.tooSmall (s : State) (need : Nat) : State := s.answer .bufferTooSmall need

/-- Error entry for a terminal status on the context of the named handle: the context ends and the status is reported with
size 0 (44 R477, 60 R535). -/
def State.raiseTerminal (s : State) (st : Status) : State := (s.drop s.args.handle).answer st 0

/-- The region of a view holding any bytes (20 R85): each byte is a free byte. -/
def State.havoc (s : State) (v : View) : State :=
  let n := (View.addrs v).length
  { s with
    mem := Memory.writeAll s.mem (View.addrs v) ((List.range n).map fun k => Config.freeByte (s.freeUsed + k))
    freeUsed := s.freeUsed + n }

/-- A completion's effect on the output region (20 R82, R85). -/
def State.applyRegion (s : State) (v : View) : Region → State
  | .bytes b => { s with mem := Memory.writeAll s.mem (View.addrs v) b }
  | .anyBytes => s.havoc v

/-- The bytes a completion reports as written. -/
def Commit.output (c : Commit) : Bytes :=
  match c.status, c.region with
  | .success, .bytes b => b
  | _, _ => []

/-- The handle an INIT returns, if the completion is one, is now the caller's. -/
def State.knowReturned (s : State) : Option Handle → State
  | some h => s.know h
  | none => s

/-- The completion of command `id` on handle `h` with output view `v`: its effects, all at once (20 R96, 60 R543). -/
def State.finish (s : State) (id : Nat) (h : Handle) (v : View) (c : Commit) : State :=
  (((s.setContext h c.ctx).knowReturned c.returns).applyRegion v c.region).tell
    { id := id, status := c.status, size := c.size, handle := c.returns, output := c.output }

/-- A command that has passed its checks (44 R460): with no job it completes at once; with jobs its handle becomes BUSY
with the in-flight record of 10 R50, and is known to the caller from then on (log 26). -/
def State.launch (s : State) (i : Instr) (h : Handle) (snapshot : Option Context) (inV outV : View) (jobs : List Nat)
    (c : Commit) : State :=
  if jobs = [] then s.accept.finish s.issued h outV c
  else
    (s.accept.put h (.busy
      { id := s.issued, command := i, snapshot := snapshot, inView := inV, outView := outV, jobsLeft := jobs
        current := none, jobsDone := 0, commit := c })).know h

/-- Blocks one job covers at most: MAX_XFER / B (40 R172). -/
def State.jobBlocks (s : State) (B : Nat) : Nat := max 1 (s.config.maxXfer / B)

/-! ### What a command commits -/

/-- SUCCESS with the context kept: the output is written and its length reported. -/
def Commit.keep (c : Context) (out : Bytes) : Commit :=
  { status := .success, size := out.length, ctx := some c, region := .bytes out }

/-- SUCCESS with the context consumed (44 R478). -/
def Commit.consume (out : Bytes) : Commit :=
  { status := .success, size := out.length, ctx := none, region := .bytes out }

/-- A status that ends the context, with the output region unchanged (20 R85). -/
def Commit.fail (st : Status) : Commit := { status := st, size := 0, ctx := none, region := .bytes [] }

/-- The unpad failure of ATOMIC.CBC_PAD.DEC: the output region holds any bytes (20 R85). -/
def Commit.failAny (st : Status) : Commit := { status := st, size := 0, ctx := none, region := .anyBytes }

/-- BUFFER_TOO_SMALL after the jobs of ATOMIC.CBC_PAD.DEC: nothing is written (41 R267). -/
def Commit.tooSmall (need : Nat) : Commit :=
  { status := .bufferTooSmall, size := need, ctx := none, region := .bytes [] }

/-- A plaintext released, or INVALID_MAC with nothing written (60 R532). -/
def Commit.verified : Option Bytes → Commit
  | some p => Commit.consume p
  | none => Commit.fail .invalidMac

end Sys2Proof.Machine
end

