-- ==== Sys2Proof/Machine/Padding.lean ====
section
/-! DEFINITION. The Padding Module (41_padding.md rules R250 to R253). -/

namespace Sys2Proof.Machine

/-- `pad(data, B)`: `pl` bytes of value `pl` are appended, 1 ≤ pl ≤ B (41 R251). -/
def pad (data : Bytes) (B : Nat) : Bytes :=
  let pl := B - data.length % B
  data ++ List.replicate pl (BitVec.ofNat 8 pl)

/-- The pad byte of a string: its last byte (41 R252). -/
def padByte (data : Bytes) : Nat := (data.getLastD 0).toNat

/-- Whether a pad byte is in 1..B (41 R252). -/
def padByteOk (pl B : Nat) : Bool := decide (1 ≤ pl) && decide (pl ≤ B)

/-- `unpad(data, B)`; none is ENCRYPTED_DATA_LEN_RANGE. Only the last byte is examined (41 R252). -/
def unpad (data : Bytes) (B : Nat) : Option Bytes :=
  if data.length % B ≠ 0 ∨ data.length < B then none
  else if padByteOk (padByte data) B then some (data.take (data.length - padByte data))
  else none

end Sys2Proof.Machine
end

