-- ==== Sys2Proof/Machine/Operands.lean ====
section
/-! DEFINITION. The operand forms of the commands: INIT's checks and the fields it sets (44_dispatcher.md rules R462, R463;
10_state.md rule R55), ATOMIC's temporary context (44 R471), and the check of UPDATE's and FINAL's operands (44 R461, R465).
-/

namespace Sys2Proof.Machine

/-- The AEAD modes (00 R27). -/
def aeadMode : Mode → Bool
  | .ccm | .gcm | .gmac => true
  | _ => false

/-- ALG_MODE_SUPPORTED(alg, mode): false for an AEAD mode with 8-byte blocks; else the host's table (00 R15). -/
def algModeSupported (cfg : HostConfig) (a : Alg) (m : Mode) : Bool :=
  !(aeadMode m && decide (blockSize a ≠ 16)) && decide ((a, m) ∉ cfg.unsupported)

/-- The configuration is in the ranges of 00 R14 and 92 D13. -/
def configValid (cfg : HostConfig) : Bool :=
  decide (cfg.maxXfer % 16 = 0) && decide (16 ≤ cfg.maxXfer) && cfg.primErrors.all fun e => decide (12 ≤ e)

/-- `params_ok` (44 R463). -/
def paramsOk (m : Mode) (a : Alg) (o : Operands) : Bool :=
  match m with
  | .ecb => true
  | .cbc | .cbcPad | .cfb => decide (o.iv.length = blockSize a)
  | .ctr =>
    decide (o.iv.length = blockSize a) && decide (1 ≤ o.counterBits.toNat) &&
      decide (o.counterBits.toNat ≤ 8 * blockSize a)
  | .ccm =>
    decide (7 ≤ o.iv.length) && decide (o.iv.length ≤ 13) && decide (o.tagLen.toNat ∈ [4, 6, 8, 10, 12, 14, 16]) &&
      decide (o.dataLen.toNat < 2 ^ (8 * (15 - o.iv.length))) && decide (o.aad.length < 2 ^ 64)
  | .gcm | .gmac => decide (1 ≤ o.iv.length) && decide (o.tagLen.toNat ∈ [4, 8, 12, 13, 14, 15, 16])

/-- Whether a context can be allocated: fewer than MAX_CONTEXTS handles are live, and the host's draw grants it (00 R18, 60
R542). DESIGN CHOICE: log 20. -/
def State.canAllocate (s : State) : Bool :=
  s.args.draws.contextOk && (match s.config.maxContexts with
    | none => true
    | some n => decide (s.table.length < n))

/-- `init_checks(mode, dir)`: the first failing check's status, or the handle allocated (44 R462). -/
def State.initChecks (s : State) (m : Mode) (a : Alg) : Except Status Handle :=
  if algModeSupported s.config a m = false then .error .mechanismInvalid
  else if s.args.keyType ≠ keyTypeOf a then .error .keyTypeInconsistent
  else if s.args.key.length ≠ keyLen a then .error .keySizeRange
  else if paramsOk m a s.args = false then .error .mechanismParamInvalid
  else if s.canAllocate = false then .error .hostMemory
  else .ok (s.freshHandle s.args.draws.handle)

/-- The fields every mode's INIT sets (44 R462, 10 R55). -/
def baseContext (m : Mode) (d : Dir) (a : Alg) (o : Operands) : Context where
  alg := a
  mode := m
  dir := d
  ks := keySchedule a o.key

/-- The context a CCM INIT makes (42 R320). -/
def ccmContext (P : Prim) (d : Dir) (a : Alg) (o : Operands) : Context :=
  let c := baseContext .ccm d a o
  let q := 15 - o.iv.length
  { c with
    tagLen := o.tagLen.toNat
    aadLen := o.aad.length
    dataLen := o.dataLen.toNat
    counterBits := 8 * q
    ctr0 := ccmCtr0 o.iv
    iv := inc (ccmCtr0 o.iv) (8 * q)
    acc := ccmInitMac (P.E c.ks) o.iv o.aad o.tagLen.toNat o.dataLen.toNat }

/-- The context a GCM or GMAC INIT makes (43 R400, R410). -/
def gcmContext (P : Prim) (m : Mode) (d : Dir) (a : Alg) (o : Operands) : Context :=
  let c := baseContext m d a o
  let H := P.E c.ks (zeros 16)
  let j0 := gcmJ0 H o.iv
  { c with
    tagLen := o.tagLen.toNat
    aadLen := o.aad.length
    counterBits := 32
    hashKey := H
    ctr0 := j0
    iv := inc j0 32
    acc := ghash H (zeros 16) o.aad }

/-- The context INIT makes (10 R55). -/
def initContext (P : Prim) (m : Mode) (d : Dir) (a : Alg) (o : Operands) : Context :=
  match m with
  | .ecb => baseContext .ecb d a o
  | .cbc | .cbcPad | .cfb => { baseContext m d a o with iv := o.iv }
  | .ctr => { baseContext .ctr d a o with iv := o.iv, counterBits := o.counterBits.toNat }
  | .ccm => ccmContext P d a o
  | .gcm | .gmac => gcmContext P m d a o

/-- The context an INIT being issued makes, with its serial number. -/
def State.newContext (s : State) (P : Prim) (m : Mode) (d : Dir) (a : Alg) : Context :=
  { initContext P m d a s.args with serial := s.issued }

/-- INIT's primitive uses (42 R313, 43 R397; none in the other modes). -/
def initUses (m : Mode) (o : Operands) : Nat :=
  match m with
  | .ccm => ccmInitUses o.aad
  | .gcm | .gmac => 1
  | _ => 0

/-- INIT (44 R462, R464): the checks, then the new context; CCM, GCM and GMAC submit jobs first. -/
def initCommand (P : Prim) (i : Instr) (m : Mode) (d : Dir) (a : Alg) (s : State) : Result :=
  match s.initChecks m a with
  | .error st => .next (s.answer st 0)
  | .ok h =>
    .next (s.launch i h none [] [] (splitJobs (s.jobBlocks (blockSize a)) (initUses m s.args))
      { status := .success, size := 0, ctx := some (s.newContext P m d a), region := .bytes [], returns := some h })

/-- ATOMIC's operands (44 R471): the views, then `init_checks`; `k` goes on with the handle of the temporary
context. DESIGN CHOICE, the views first: log 13. -/
def onAtomic (s : State) (m : Mode) (a : Alg) (k : Handle → Result) : Result :=
  match s.viewRefusal s.args.inView s.args.outView with
  | some r => .refused r
  | none =>
    match s.initChecks m a with
    | .error st => .next (s.answer st 0)
    | .ok h => k h

/-- UPDATE's and FINAL's operands: the refusals of 44 R461, then `check_context` (44 R465); `k` goes on with the context.
FINAL has no input view: it passes `[]`. -/
def onContext (s : State) (inV : View) (m : Mode) (d : Dir) (a : Alg) (k : Context → Result) : Result :=
  match s.lookup s.args.handle with
  | none =>
    .refused (if s.args.handle ∈ s.known then .absentHandle s.args.handle else .unknownHandle s.args.handle)
  | some (.busy _) => .refused (.busyHandle s.args.handle)
  | some (.active c) =>
    match s.viewRefusal inV s.args.outView with
    | some r => .refused r
    | none =>
      if c.mode = m ∧ c.dir = d ∧ c.alg = a then k c
      else .next (s.raiseTerminal .mechanismInvalid)

/-- An UPDATE that passed its checks: `uses` primitive uses, then the commit. -/
def State.runUpdate (s : State) (i : Instr) (c : Context) (jobs : List Nat) (r : Commit) : Result :=
  .next (s.launch i s.args.handle (some c) s.args.inView s.args.outView jobs r)

/-- A FINAL that passed its checks. -/
def State.runFinal (s : State) (i : Instr) (c : Context) (jobs : List Nat) (r : Commit) : Result :=
  .next (s.launch i s.args.handle (some c) [] s.args.outView jobs r)

/-- An ATOMIC that passed its checks, on its temporary handle. -/
def State.runAtomic (s : State) (i : Instr) (h : Handle) (jobs : List Nat) (r : Commit) : Result :=
  .next (s.launch i h none s.args.inView s.args.outView jobs r)

/-- `n` primitive uses of a command under algorithm `a`, as jobs (40 R172). -/
def State.jobsOf (s : State) (a : Alg) (n : Nat) : List Nat := splitJobs (s.jobBlocks (blockSize a)) n

/-- `block_partition(ctx, in)`: the whole blocks, and the context with the new residue (40 R152). -/
def Context.partition (c : Context) (input : Bytes) : List Bytes × Context :=
  let data := c.residue ++ input
  let n := data.length / c.B * c.B
  (chunks c.B (data.take n), { c with residue := data.drop n })

end Sys2Proof.Machine
end

