-- ==== Sys2Proof/Machine/Agents.lean ====
section
/-! DEFINITION. The steps of the agents other than a command's issue (60_exceptions.md rules R540 to R548, R555;
70_reset_and_hazards.md rules R584, R592, R610): job submission, job completion, cancellation, the host's configuration and
stores. -/

namespace Sys2Proof.Machine

/-- The host fixes the configuration, before the first command and within its ranges (70 R584). -/
def configure (cfg : HostConfig) (s : State) : Result :=
  if s.issued = 0 ∧ configValid cfg then .next { s with config := cfg } else .refused .badConfiguration

/-- The serial number of the context a command in flight is on: its snapshot's, or, for the new context of an INIT and the
temporary one of an ATOMIC, the command's own issue number. -/
def InFlight.context (f : InFlight) : Nat :=
  match f.snapshot with
  | some c => c.serial
  | none => f.id

/-- Whether two jobs are of one context. -/
def PrimJob.sameContext (j k : PrimJob) : Bool := decide (j.handle = k.handle ∧ j.context = k.context)

/-- Whether a command waits for an earlier job of the same context. -/
def State.earlierJob (s : State) (j : PrimJob) : Bool :=
  s.jobs.any fun k => k.sameContext j && decide (k.id < j.id) && !k.cancelled

/-- The jobs left in the Block Primitive once `j` has completed. Completions come in submission order per context (60 R555), so
the earlier jobs of its context, which are cancelled, complete no more (R547). -/
def State.jobsAfter (s : State) (j : PrimJob) : List PrimJob :=
  s.jobs.filter fun k => !(k.sameContext j && decide (k.id ≤ j.id))

/-- MOE submits the next job of the command in flight on a handle (60 R544). -/
def submitJob (h : Handle) (s : State) : Result :=
  match s.lookup h with
  | some (.busy f) =>
    match f.current, f.jobsLeft with
    | none, n :: rest =>
      .next { s.put h (.busy { f with current := some s.nextJob, jobsLeft := rest }) with
        jobs := s.jobs ++ [{ id := s.nextJob, handle := h, context := f.context, blocks := n, cancelled := false }]
        nextJob := s.nextJob + 1 }
    | _, _ => .refused (.nothingToSubmit h)
  | _ => .refused (.nothingToSubmit h)

/-- A command in flight whose job failed: PRIM(e), terminal, and the output region holds any bytes (60 R541, 20 R85). -/
def State.failInFlight (s : State) (h : Handle) (f : InFlight) (e : Nat) : State :=
  s.finish f.id h f.outView (.failAny (.prim e))

/-- A command in flight whose current job completed with success: the last one commits (60 R543, R544). -/
def State.jobSucceeded (s : State) (h : Handle) (f : InFlight) : State :=
  if f.jobsLeft = [] then s.finish f.id h f.outView f.commit
  else s.put h (.busy { f with current := none, jobsDone := f.jobsDone + 1 })

/-- What the completion of a job that is not cancelled does to the command in flight: success or PRIM(e) (60 R541). -/
def State.jobEnded (s : State) (h : Handle) (f : InFlight) : JobResult → State
  | .ok => s.jobSucceeded h f
  | .error e => s.failInFlight h f e

/-- A job's result is one the Block Primitive can give (60 R541). -/
def State.possibleResult (s : State) : JobResult → Option Refusal
  | .ok => none
  | .error e => if e ∈ s.config.primErrors then none else some (.notAPrimError e)

/-- The Block Primitive's completion callback (60 R540, R541). Completions come in submission order per context (R555), and a
cancelled job's result is discarded (R547). -/
def completeJob (job : Nat) (r : JobResult) (s : State) : Result :=
  match s.jobs.find? fun j => j.id = job with
  | none => .refused (.noSuchJob job)
  | some j =>
    if s.earlierJob j then .refused (.outOfOrder job)
    else
      match s.possibleResult r with
      | some e => .refused e
      | none =>
        let s' := { s with jobs := s.jobsAfter j }
        if j.cancelled then .next s'
        else
          match s.lookup j.handle with
          | some (.busy f) => .next (s'.jobEnded j.handle f r)
          | _ => .refused (.noSuchJob job)

/-- The job in the Block Primitive, if any, of a cancelled command: its result will be discarded (60 R547). -/
def State.cancelJob (s : State) (current : Option Nat) : State :=
  { s with jobs := s.jobs.map fun j => if current = some j.id then { j with cancelled := true } else j }

/-- The rollback of 60 R548: the command in flight completes with CANCELED, size 0; the handle takes its snapshot, or is
ABSENT for INIT and ATOMIC; the output region holds any bytes. -/
def State.cancel (s : State) (h : Handle) (f : InFlight) : State :=
  (s.cancelJob f.current).finish f.id h f.outView
    { status := .canceled, size := 0, ctx := f.snapshot, region := .anyBytes }

/-- ABORT (44 R475): SUCCESS for the ABORT itself; no effect on a handle that is not BUSY. -/
def abortCommand (s : State) : Result :=
  match s.lookup s.args.handle with
  | some (.busy f) => .next ((s.cancel s.args.handle f).answer .success 0)
  | some (.active _) => .next (s.answer .success 0)
  | none =>
    if s.args.handle ∈ s.known then .next (s.answer .success 0) else .refused (.unknownHandle s.args.handle)

/-- A caller or the host stores to its own memory; into a view of a command in flight that is refused (20 R100, 70 R592).
Log 25. -/
def hostWrite (addr : Nat) (b : Bytes) (s : State) : Result :=
  let v : View := [{ base := addr, len := b.length }]
  if s.viewsClash v v then .refused .storeInFlight
  else .next { s with mem := Memory.writeAll s.mem (View.addrs v) b }

/-- Whether a byte lies in the output view of a command in flight. -/
def State.inFlightOutput (s : State) (a : Nat) : Bool :=
  s.table.any fun e =>
    match e.2 with
    | .active _ => false
    | .busy f => decide (a ∈ View.addrs f.outView)

/-- The byte a caller reads: any byte in the output region of a BUSY command (20 R91, 70 R592), else the memory's. `k`
numbers the read, so that each read draws its own free byte. DESIGN CHOICE: log 17. -/
def State.callerRead (s : State) (k a : Nat) : Byte :=
  if s.inFlightOutput a then Config.freeByte (s.freeUsed + k) else Memory.read s.mem a

end Sys2Proof.Machine
end

