-- ==== Sys2Proof/Machine/AbortCommand.lean ====
section
/-! DEFINITION. The meaning of ABORT (44_dispatcher.md rule R475). -/

namespace Sys2Proof.Machine

/-- ABORT, rule R475. -/
def execAbort (s : State) : Result := abortCommand s

end Sys2Proof.Machine
end

