-- ==== Sys2Proof/Machine/BlockModes.lean ====
section
/-! DEFINITION. The shared operations of the ECB, CBC and CBC_PAD commands (40_chaining_core.md rules R150 to R197,
41_padding.md rules R254 to R267). -/

namespace Sys2Proof.Machine

/-- What an ECB UPDATE makes of its input: the output and the context after it (40 R182, R183). -/
def ecbUpdate (P : Prim) (c : Context) (input : Bytes) : Bytes × Context :=
  let q := c.partition input
  (ecbBlocks (match c.dir with
    | .enc => P.E c.ks
    | .dec => P.D c.ks) q.1, q.2)

/-- What a CBC UPDATE, or a CBC_PAD encrypt UPDATE, makes of its input (40 R192, R193, 41 R262). -/
def cbcUpdate (P : Prim) (c : Context) (input : Bytes) : Bytes × Context :=
  let q := c.partition input
  let r := match c.dir with
    | .enc => cbcEncBlocks (P.E c.ks) c.iv q.1
    | .dec => cbcDecBlocks (P.D c.ks) c.iv q.1
  (r.1, { q.2 with iv := r.2 })

/-- `cbcpad_dec_update(ctx, in)` (41 R255): the last decrypted block is held, an earlier held block is emitted. -/
def cbcPadDecUpdate (P : Prim) (c : Context) (input : Bytes) : Bytes × Context :=
  let r := cbcUpdate P c input
  let y := r.1
  if y.length = 0 then ([], r.2)
  else
    ((if c.heldValid then c.lastBlock else []) ++ y.take (y.length - c.B),
      { r.2 with lastBlock := y.drop (y.length - c.B), heldValid := true })

/-- UPDATE of a block mode that emits the blocks it completes (40 R182, R192). -/
def updateBlocks (upd : Context → Bytes → Bytes × Context) (i : Instr) (m : Mode) (d : Dir) (a : Alg) (s : State) :
    Result :=
  onContext s s.args.inView m d a fun c =>
    let need := c.usableLen s.input.length
    if s.cap < need then .next (s.tooSmall need)
    else
      let r := upd c s.input
      s.runUpdate i c (s.jobsOf a (need / c.B)) (.keep r.2 r.1)

/-- UPDATE.CBC_PAD.DEC (41 R263). -/
def updatePadDec (P : Prim) (i : Instr) (a : Alg) (s : State) : Result :=
  onContext s s.args.inView .cbcPad .dec a fun c =>
    let need := c.padDecNeed s.input.length
    if s.cap < need then .next (s.tooSmall need)
    else
      let r := cbcPadDecUpdate P c s.input
      s.runUpdate i c (s.jobsOf a (c.usableLen s.input.length / c.B)) (.keep r.2 r.1)

/-- FINAL of ECB and CBC: a residue is a length error, else nothing is emitted (40 R184, R185, 44 R474). -/
def finalBlocks (i : Instr) (m : Mode) (d : Dir) (a : Alg) (s : State) : Result :=
  onContext s [] m d a fun c =>
    if c.residue ≠ [] then .next (s.raiseTerminal (lengthStatus d))
    else s.runFinal i c [] (.consume [])

/-- FINAL.CBC_PAD.ENC: the residue is padded to exactly one block (41 R264). -/
def finalPadEnc (P : Prim) (i : Instr) (a : Alg) (s : State) : Result :=
  onContext s [] .cbcPad .enc a fun c =>
    if s.cap < c.B then .next (s.tooSmall c.B)
    else
      let y := (cbcEncBlocks (P.E c.ks) c.iv (chunks c.B (pad c.residue c.B))).1
      s.runFinal i c (s.jobsOf a 1) (.consume y)

/-- FINAL.CBC_PAD.DEC: the data condition, the pad byte, then the capacity (41 R258, R265). Log 15. -/
def finalPadDec (i : Instr) (a : Alg) (s : State) : Result :=
  onContext s [] .cbcPad .dec a fun c =>
    if c.residue ≠ [] ∨ c.heldValid = false then .next (s.raiseTerminal .encryptedDataLenRange)
    else
      let pl := padByte c.lastBlock
      if padByteOk pl c.B = false then .next (s.raiseTerminal .encryptedDataLenRange)
      else if s.cap < c.B - pl then .next (s.tooSmall (c.B - pl))
      else s.runFinal i c [] (.consume (c.lastBlock.take (c.B - pl)))

/-- ATOMIC of ECB and CBC (40 R186, R187, R196, R197). -/
def atomicBlocks (P : Prim) (upd : Context → Bytes → Bytes × Context) (i : Instr) (m : Mode) (d : Dir) (a : Alg)
    (s : State) : Result :=
  onAtomic s m a fun h =>
    let n := s.input.length
    if n % blockSize a ≠ 0 then .next (s.answer (lengthStatus d) 0)
    else if s.cap < n then .next (s.tooSmall n)
    else s.runAtomic i h (s.jobsOf a (n / blockSize a)) (.consume (upd (initContext P m d a s.args) s.input).1)

/-- ATOMIC.CBC_PAD.ENC (41 R266). -/
def atomicPadEnc (P : Prim) (i : Instr) (a : Alg) (s : State) : Result :=
  onAtomic s .cbcPad a fun h =>
    let B := blockSize a
    let need := padEncNeed B s.input.length
    if s.cap < need then .next (s.tooSmall need)
    else
      let c := initContext P .cbcPad .enc a s.args
      s.runAtomic i h (s.jobsOf a (need / B)) (.consume (cbcEncBlocks (P.E c.ks) c.iv (chunks B (pad s.input B))).1)

/-- What ATOMIC.CBC_PAD.DEC commits once its jobs have given the plaintext `x`: the unpad check, then the capacity (41
R267). -/
def atomicPadDecCommit (B cap : Nat) (x : Bytes) : Commit :=
  let pl := padByte x
  if padByteOk pl B = false then .failAny .encryptedDataLenRange
  else if cap < x.length - pl then .tooSmall (x.length - pl)
  else .consume (x.take (x.length - pl))

/-- ATOMIC.CBC_PAD.DEC (41 R267). -/
def atomicPadDec (P : Prim) (i : Instr) (a : Alg) (s : State) : Result :=
  onAtomic s .cbcPad a fun h =>
    let B := blockSize a
    let n := s.input.length
    if n % B ≠ 0 ∨ n < B then .next (s.answer .encryptedDataLenRange 0)
    else
      let c := initContext P .cbcPad .dec a s.args
      let x := (cbcDecBlocks (P.D c.ks) c.iv (chunks B s.input)).1
      s.runAtomic i h (s.jobsOf a (n / B)) (atomicPadDecCommit B s.cap x)

end Sys2Proof.Machine
end

