-- ==== Sys2Proof/Machine/CbcCommands.lean ====
section
/-! DEFINITION. The meanings of the CBC commands (40_chaining_core.md rules R190 to R197), one definition per command. -/

namespace Sys2Proof.Machine

/-- INIT.CBC.ENC, rule R190. -/
def execInitCbcEnc (a : Alg) (s : State) : Result :=
  initCommand Prim.external (.initCbcEnc a) .cbc .enc a s

/-- INIT.CBC.DEC, rule R191. -/
def execInitCbcDec (a : Alg) (s : State) : Result :=
  initCommand Prim.external (.initCbcDec a) .cbc .dec a s

/-- UPDATE.CBC.ENC, rule R192. -/
def execUpdateCbcEnc (a : Alg) (s : State) : Result :=
  updateBlocks (cbcUpdate Prim.external) (.updateCbcEnc a) .cbc .enc a s

/-- UPDATE.CBC.DEC, rule R193. -/
def execUpdateCbcDec (a : Alg) (s : State) : Result :=
  updateBlocks (cbcUpdate Prim.external) (.updateCbcDec a) .cbc .dec a s

/-- FINAL.CBC.ENC, rule R194. -/
def execFinalCbcEnc (a : Alg) (s : State) : Result :=
  finalBlocks (.finalCbcEnc a) .cbc .enc a s

/-- FINAL.CBC.DEC, rule R195. -/
def execFinalCbcDec (a : Alg) (s : State) : Result :=
  finalBlocks (.finalCbcDec a) .cbc .dec a s

/-- ATOMIC.CBC.ENC, rule R196. -/
def execAtomicCbcEnc (a : Alg) (s : State) : Result :=
  atomicBlocks Prim.external (cbcUpdate Prim.external) (.atomicCbcEnc a) .cbc .enc a s

/-- ATOMIC.CBC.DEC, rule R197. -/
def execAtomicCbcDec (a : Alg) (s : State) : Result :=
  atomicBlocks Prim.external (cbcUpdate Prim.external) (.atomicCbcDec a) .cbc .dec a s

end Sys2Proof.Machine
end

