-- ==== Sys2Proof/Machine/CbcPadCommands.lean ====
section
/-! DEFINITION. The meanings of the CBC_PAD commands (41_padding.md rules R260 to R267), one definition per command. -/

namespace Sys2Proof.Machine

/-- INIT.CBC_PAD.ENC, rule R260. -/
def execInitCbcPadEnc (a : Alg) (s : State) : Result :=
  initCommand Prim.external (.initCbcPadEnc a) .cbcPad .enc a s

/-- INIT.CBC_PAD.DEC, rule R261. -/
def execInitCbcPadDec (a : Alg) (s : State) : Result :=
  initCommand Prim.external (.initCbcPadDec a) .cbcPad .dec a s

/-- UPDATE.CBC_PAD.ENC, rule R262. -/
def execUpdateCbcPadEnc (a : Alg) (s : State) : Result :=
  updateBlocks (cbcUpdate Prim.external) (.updateCbcPadEnc a) .cbcPad .enc a s

/-- UPDATE.CBC_PAD.DEC, rule R263. -/
def execUpdateCbcPadDec (a : Alg) (s : State) : Result :=
  updatePadDec Prim.external (.updateCbcPadDec a) a s

/-- FINAL.CBC_PAD.ENC, rule R264. -/
def execFinalCbcPadEnc (a : Alg) (s : State) : Result :=
  finalPadEnc Prim.external (.finalCbcPadEnc a) a s

/-- FINAL.CBC_PAD.DEC, rule R265. -/
def execFinalCbcPadDec (a : Alg) (s : State) : Result :=
  finalPadDec (.finalCbcPadDec a) a s

/-- ATOMIC.CBC_PAD.ENC, rule R266. -/
def execAtomicCbcPadEnc (a : Alg) (s : State) : Result :=
  atomicPadEnc Prim.external (.atomicCbcPadEnc a) a s

/-- ATOMIC.CBC_PAD.DEC, rule R267. -/
def execAtomicCbcPadDec (a : Alg) (s : State) : Result :=
  atomicPadDec Prim.external (.atomicCbcPadDec a) a s

end Sys2Proof.Machine
end

