-- ==== Sys2Proof/Machine/AeadModes.lean ====
section
/-! DEFINITION. The shared operations of the CCM, GCM and GMAC commands (42_ccm.md rules R305 to R327, 43_gcm_gmac.md rules
R391 to R417). -/

namespace Sys2Proof.Machine

/-! ### CCM -/

/-- What a CCM encrypt UPDATE makes of its input (42 R305, R322). -/
def ccmEncUpdate (P : Prim) (c : Context) (input : Bytes) : Bytes × Context :=
  let q := c.partition input
  let r := ccmEncBlocks (P.E c.ks) c.counterBits { acc := c.acc, ctr := c.iv } q.1
  (r.1, { q.2 with acc := r.2.acc, iv := r.2.ctr, processedDataLen := c.processedDataLen + input.length })

/-- What a CCM encrypt FINAL emits (42 R324). -/
def ccmFinalOutput (P : Prim) (c : Context) : Bytes :=
  ccmEncFinal (P.E c.ks) c.ctr0 c.tagLen { acc := c.acc, ctr := c.iv } c.residue

/-- The plaintext a CCM decrypt FINAL releases, or none for INVALID_MAC (42 R310). -/
def ccmFinalPlain (P : Prim) (c : Context) : Option Bytes :=
  ccmDecFinal (P.E c.ks) c.counterBits c.ctr0 c.dataLen c.tagLen { acc := c.acc, ctr := c.iv } c.scratch

/-- UPDATE.CCM.ENC (42 R322). -/
def updateCcmEnc (P : Prim) (i : Instr) (a : Alg) (s : State) : Result :=
  onContext s s.args.inView .ccm .enc a fun c =>
    let n := s.input.length
    if c.processedDataLen + n > c.dataLen then .next (s.raiseTerminal .dataLenRange)
    else
      let need := c.usableLen n
      if s.cap < need then .next (s.tooSmall need)
      else
        let r := ccmEncUpdate P c s.input
        s.runUpdate i c (s.jobsOf a (2 * (need / c.B))) (.keep r.2 r.1)

/-- FINAL.CCM.ENC (42 R324). -/
def finalCcmEnc (P : Prim) (i : Instr) (a : Alg) (s : State) : Result :=
  onContext s [] .ccm .enc a fun c =>
    if c.processedDataLen ≠ c.dataLen then .next (s.raiseTerminal .dataLenRange)
    else if s.cap < c.finalEncNeed then .next (s.tooSmall c.finalEncNeed)
    else s.runFinal i c (s.jobsOf a (ccmEncFinalUses c.residue.length)) (.consume (ccmFinalOutput P c))

/-- FINAL.CCM.DEC (42 R325). -/
def finalCcmDec (P : Prim) (i : Instr) (a : Alg) (s : State) : Result :=
  onContext s [] .ccm .dec a fun c =>
    if c.scratch.length ≠ c.dataLen + c.tagLen then .next (s.raiseTerminal .encryptedDataLenRange)
    else if s.cap < c.dataLen then .next (s.tooSmall c.dataLen)
    else s.runFinal i c (s.jobsOf a (ccmDecFinalUses c.dataLen)) (.verified (ccmFinalPlain P c))

/-- ATOMIC.CCM.ENC: INIT; UPDATE; FINAL on the temporary context (42 R326). -/
def atomicCcmEnc (P : Prim) (i : Instr) (a : Alg) (s : State) : Result :=
  onAtomic s .ccm a fun h =>
    let n := s.input.length
    let c := initContext P .ccm .enc a s.args
    if n ≠ c.dataLen then .next (s.answer .dataLenRange 0)
    else if s.cap < c.dataLen + c.tagLen then .next (s.tooSmall (c.dataLen + c.tagLen))
    else
      let r := ccmEncUpdate P c s.input
      s.runAtomic i h (s.jobsOf a (ccmInitUses s.args.aad + 2 * (n / 16) + ccmEncFinalUses (n % 16)))
        (.consume (r.1 ++ ccmFinalOutput P r.2))

/-- ATOMIC.CCM.DEC (42 R327). -/
def atomicCcmDec (P : Prim) (i : Instr) (a : Alg) (s : State) : Result :=
  onAtomic s .ccm a fun h =>
    let n := s.input.length
    let c := initContext P .ccm .dec a s.args
    if n > c.dataLen + c.tagLen then .next (s.answer .dataLenRange 0)
    else if n < c.dataLen + c.tagLen then .next (s.answer .encryptedDataLenRange 0)
    else if s.cap < c.dataLen then .next (s.tooSmall c.dataLen)
    else if s.args.draws.scratchOk = false then .next (s.answer .hostMemory 0)
    else
      s.runAtomic i h (s.jobsOf a (ccmInitUses s.args.aad + ccmDecFinalUses c.dataLen))
        (.verified (ccmFinalPlain P { c with scratch := s.input, processedDataLen := n }))

/-! ### Decrypt scratch -/

/-- Whether growing scratch by the input fails: the allocator's draw (60 R542); an empty input allocates nothing (44 R476,
log 14). -/
def State.scratchDenied (s : State) : Bool := decide (s.input ≠ []) && !s.args.draws.scratchOk

/-- The AEAD decrypt context with its input appended to scratch (42 R323, 43 R403, R413). -/
def Context.grow (c : Context) (input : Bytes) : Context :=
  { c with scratch := c.scratch ++ input, processedDataLen := (c.scratch ++ input).length }

/-- The common part of the AEAD decrypt UPDATEs: scratch grows, or HOST_MEMORY ends the context (42 R309, 43 R393). -/
def growScratch (s : State) (i : Instr) (c : Context) : Result :=
  if s.scratchDenied then .next (s.raiseTerminal .hostMemory)
  else s.runUpdate i c [] (.keep (c.grow s.input) [])

/-- UPDATE.CCM.DEC (42 R323). -/
def updateCcmDec (i : Instr) (a : Alg) (s : State) : Result :=
  onContext s s.args.inView .ccm .dec a fun c =>
    if c.scratch.length + s.input.length > c.dataLen + c.tagLen then .next (s.raiseTerminal .dataLenRange)
    else growScratch s i c

/-- UPDATE.GCM.DEC (43 R403). -/
def updateGcmDec (i : Instr) (a : Alg) (s : State) : Result :=
  onContext s s.args.inView .gcm .dec a fun c => growScratch s i c

/-- UPDATE.GMAC.DEC (43 R413). -/
def updateGmacDec (i : Instr) (a : Alg) (s : State) : Result :=
  onContext s s.args.inView .gmac .dec a fun c =>
    if c.scratch.length + s.input.length > c.tagLen then .next (s.raiseTerminal .unsupported)
    else growScratch s i c

/-! ### GCM and GMAC -/

/-- What a GCM encrypt UPDATE makes of its input (43 R391, R402). -/
def gcmEncUpdate (P : Prim) (c : Context) (input : Bytes) : Bytes × Context :=
  let q := c.partition input
  let r := gcmEncBlocks (P.E c.ks) c.hashKey { acc := c.acc, ctr := c.iv } q.1
  (r.1, { q.2 with acc := r.2.acc, iv := r.2.ctr, processedDataLen := c.processedDataLen + input.length })

/-- What a GCM encrypt FINAL emits (43 R404). -/
def gcmFinalOutput (P : Prim) (c : Context) : Bytes :=
  gcmEncFinal (P.E c.ks) c.hashKey c.ctr0 c.aadLen c.processedDataLen c.tagLen { acc := c.acc, ctr := c.iv } c.residue

/-- The plaintext a GCM or GMAC decrypt FINAL releases, or none for INVALID_MAC (43 R394, R399). -/
def gcmFinalPlain (P : Prim) (c : Context) : Option Bytes :=
  gcmDecFinal (P.E c.ks) c.hashKey c.ctr0 c.aadLen c.tagLen { acc := c.acc, ctr := c.iv } c.scratch

/-- The tag a GMAC encrypt FINAL emits (43 R398, R414). -/
def gmacTag (P : Prim) (c : Context) : Bytes :=
  gcmTag (P.E c.ks) c.hashKey c.ctr0 c.acc c.aadLen 0 c.tagLen

/-- The jobs of a GCM decryption: `first` uses up to E(J0), then, only on a match, one use per ciphertext block (43 R397).
The comparison stands between the two groups: log 9. -/
def gcmDecJobs (s : State) (a : Alg) (first c : Nat) (plain : Option Bytes) : List Nat :=
  s.jobsOf a first ++ (if plain.isSome then s.jobsOf a (ceilDiv c 16) else [])

/-- UPDATE.GCM.ENC (43 R402). -/
def updateGcmEnc (P : Prim) (i : Instr) (a : Alg) (s : State) : Result :=
  onContext s s.args.inView .gcm .enc a fun c =>
    let need := c.usableLen s.input.length
    if s.cap < need then .next (s.tooSmall need)
    else
      let r := gcmEncUpdate P c s.input
      s.runUpdate i c (s.jobsOf a (need / c.B)) (.keep r.2 r.1)

/-- FINAL.GCM.ENC (43 R404). -/
def finalGcmEnc (P : Prim) (i : Instr) (a : Alg) (s : State) : Result :=
  onContext s [] .gcm .enc a fun c =>
    if s.cap < c.finalEncNeed then .next (s.tooSmall c.finalEncNeed)
    else s.runFinal i c (s.jobsOf a (gcmEncFinalUses c.residue.length)) (.consume (gcmFinalOutput P c))

/-- FINAL.GCM.DEC (43 R405). -/
def finalGcmDec (P : Prim) (i : Instr) (a : Alg) (s : State) : Result :=
  onContext s [] .gcm .dec a fun c =>
    if c.scratch.length < c.tagLen then .next (s.raiseTerminal .encryptedDataLenRange)
    else
      let n := c.scratch.length - c.tagLen
      if s.cap < n then .next (s.tooSmall n)
      else
        let p := gcmFinalPlain P c
        s.runFinal i c (gcmDecJobs s a 1 n p) (.verified p)

/-- ATOMIC.GCM.ENC (43 R406). -/
def atomicGcmEnc (P : Prim) (i : Instr) (a : Alg) (s : State) : Result :=
  onAtomic s .gcm a fun h =>
    let n := s.input.length
    let c := initContext P .gcm .enc a s.args
    if s.cap < n + c.tagLen then .next (s.tooSmall (n + c.tagLen))
    else
      let r := gcmEncUpdate P c s.input
      s.runAtomic i h (s.jobsOf a (1 + n / 16 + gcmEncFinalUses (n % 16))) (.consume (r.1 ++ gcmFinalOutput P r.2))

/-- ATOMIC.GCM.DEC (43 R407). -/
def atomicGcmDec (P : Prim) (i : Instr) (a : Alg) (s : State) : Result :=
  onAtomic s .gcm a fun h =>
    let n := s.input.length
    let c := initContext P .gcm .dec a s.args
    if n < c.tagLen then .next (s.answer .encryptedDataLenRange 0)
    else if s.cap < n - c.tagLen then .next (s.tooSmall (n - c.tagLen))
    else if s.args.draws.scratchOk = false then .next (s.answer .hostMemory 0)
    else
      let p := gcmFinalPlain P { c with scratch := s.input, processedDataLen := n }
      s.runAtomic i h (gcmDecJobs s a 2 (n - c.tagLen) p) (.verified p)

/-- UPDATE.GMAC.ENC (43 R412). -/
def updateGmacEnc (i : Instr) (a : Alg) (s : State) : Result :=
  onContext s s.args.inView .gmac .enc a fun c =>
    if s.input.length > 0 then .next (s.raiseTerminal .unsupported)
    else s.runUpdate i c [] (.keep c [])

/-- FINAL.GMAC.ENC (43 R414). -/
def finalGmacEnc (P : Prim) (i : Instr) (a : Alg) (s : State) : Result :=
  onContext s [] .gmac .enc a fun c =>
    if s.cap < c.tagLen then .next (s.tooSmall c.tagLen)
    else s.runFinal i c (s.jobsOf a 1) (.consume (gmacTag P c))

/-- FINAL.GMAC.DEC (43 R415): no output capacity is needed, and a match emits 0 bytes. -/
def finalGmacDec (P : Prim) (i : Instr) (a : Alg) (s : State) : Result :=
  onContext s [] .gmac .dec a fun c =>
    if c.scratch.length ≠ c.tagLen then .next (s.raiseTerminal .encryptedDataLenRange)
    else s.runFinal i c (s.jobsOf a 1) (.verified (gcmFinalPlain P c))

/-- ATOMIC.GMAC.ENC (43 R416). -/
def atomicGmacEnc (P : Prim) (i : Instr) (a : Alg) (s : State) : Result :=
  onAtomic s .gmac a fun h =>
    let c := initContext P .gmac .enc a s.args
    if s.input.length > 0 then .next (s.answer .unsupported 0)
    else if s.cap < c.tagLen then .next (s.tooSmall c.tagLen)
    else s.runAtomic i h (s.jobsOf a 2) (.consume (gmacTag P c))

/-- ATOMIC.GMAC.DEC (43 R417); the scratch allocation may fail (60 R520): log 21. -/
def atomicGmacDec (P : Prim) (i : Instr) (a : Alg) (s : State) : Result :=
  onAtomic s .gmac a fun h =>
    let n := s.input.length
    let c := initContext P .gmac .dec a s.args
    if n > c.tagLen then .next (s.answer .unsupported 0)
    else if n < c.tagLen then .next (s.answer .encryptedDataLenRange 0)
    else if s.args.draws.scratchOk = false then .next (s.answer .hostMemory 0)
    else
      s.runAtomic i h (s.jobsOf a 2) (.verified (gcmFinalPlain P { c with scratch := s.input, processedDataLen := n }))

end Sys2Proof.Machine
end

