-- ==== Sys2Proof/Machine/CcmCommands.lean ====
section
/-! DEFINITION. The meanings of the CCM commands (42_ccm.md rules R320 to R327), one definition per command. -/

namespace Sys2Proof.Machine

/-- INIT.CCM.ENC, rule R320. -/
def execInitCcmEnc (a : Alg) (s : State) : Result :=
  initCommand Prim.external (.initCcmEnc a) .ccm .enc a s

/-- INIT.CCM.DEC, rule R321. -/
def execInitCcmDec (a : Alg) (s : State) : Result :=
  initCommand Prim.external (.initCcmDec a) .ccm .dec a s

/-- UPDATE.CCM.ENC, rule R322. -/
def execUpdateCcmEnc (a : Alg) (s : State) : Result :=
  updateCcmEnc Prim.external (.updateCcmEnc a) a s

/-- UPDATE.CCM.DEC, rule R323. -/
def execUpdateCcmDec (a : Alg) (s : State) : Result :=
  updateCcmDec (.updateCcmDec a) a s

/-- FINAL.CCM.ENC, rule R324. -/
def execFinalCcmEnc (a : Alg) (s : State) : Result :=
  finalCcmEnc Prim.external (.finalCcmEnc a) a s

/-- FINAL.CCM.DEC, rule R325. -/
def execFinalCcmDec (a : Alg) (s : State) : Result :=
  finalCcmDec Prim.external (.finalCcmDec a) a s

/-- ATOMIC.CCM.ENC, rule R326. -/
def execAtomicCcmEnc (a : Alg) (s : State) : Result :=
  atomicCcmEnc Prim.external (.atomicCcmEnc a) a s

/-- ATOMIC.CCM.DEC, rule R327. -/
def execAtomicCcmDec (a : Alg) (s : State) : Result :=
  atomicCcmDec Prim.external (.atomicCcmDec a) a s

end Sys2Proof.Machine
end

