-- ==== Sys2Proof/Machine/StreamModes.lean ====
section
/-! DEFINITION. The shared operations of the CFB and CTR commands (40_chaining_core.md rules R157 to R173, R200 to R217). -/

namespace Sys2Proof.Machine

/-- The stream function's parameters from a context (40 R165). -/
def Context.streamParams (c : Context) : StreamParams where
  cfb := decide (c.mode = .cfb)
  dir := c.dir
  B := c.B
  counterBits := c.counterBits

/-- The stream function's fields of a context (10 R36, R38). -/
def Context.keystream (c : Context) : Keystream where
  iv := c.iv
  last := c.lastBlock
  pad := c.lbPad

/-- What a stream-mode UPDATE makes of its input (40 R165). -/
def streamUpdate (P : Prim) (c : Context) (input : Bytes) : Bytes × Context :=
  let r := stream (P.E c.ks) c.streamParams c.keystream input
  (r.1, { c with iv := r.2.iv, lastBlock := r.2.last, lbPad := r.2.pad })

/-- The jobs of a stream-mode command of `n` input bytes on a context (40 R171, R172). -/
def streamJobs (s : State) (c : Context) (n : Nat) : List Nat :=
  let uses := streamUses c.B c.lbPad n
  if c.mode = .cfb then s.jobsOf c.alg uses else splitCtrJobs (s.jobBlocks c.B) c.counterBits c.iv uses

/-- UPDATE of CFB and CTR (40 R202, R212). -/
def updateStream (P : Prim) (i : Instr) (m : Mode) (d : Dir) (a : Alg) (s : State) : Result :=
  onContext s s.args.inView m d a fun c =>
    let n := s.input.length
    if s.cap < n then .next (s.tooSmall n)
    else
      let r := streamUpdate P c s.input
      s.runUpdate i c (streamJobs s c n) (.keep r.2 r.1)

/-- FINAL of CFB and CTR: the keystream cache is discarded (40 R204, R214). -/
def finalStream (i : Instr) (m : Mode) (d : Dir) (a : Alg) (s : State) : Result :=
  onContext s [] m d a fun c => s.runFinal i c [] (.consume [])

/-- ATOMIC of CFB and CTR (40 R206, R216). -/
def atomicStream (P : Prim) (i : Instr) (m : Mode) (d : Dir) (a : Alg) (s : State) : Result :=
  onAtomic s m a fun h =>
    let n := s.input.length
    if s.cap < n then .next (s.tooSmall n)
    else
      let c := initContext P m d a s.args
      s.runAtomic i h (streamJobs s c n) (.consume (streamUpdate P c s.input).1)

end Sys2Proof.Machine
end

