-- ==== Sys2Proof/Machine/CfbCommands.lean ====
section
/-! DEFINITION. The meanings of the CFB commands (40_chaining_core.md rules R200 to R207), one definition per command. -/

namespace Sys2Proof.Machine

/-- INIT.CFB.ENC, rule R200. -/
def execInitCfbEnc (a : Alg) (s : State) : Result :=
  initCommand Prim.external (.initCfbEnc a) .cfb .enc a s

/-- INIT.CFB.DEC, rule R201. -/
def execInitCfbDec (a : Alg) (s : State) : Result :=
  initCommand Prim.external (.initCfbDec a) .cfb .dec a s

/-- UPDATE.CFB.ENC, rule R202. -/
def execUpdateCfbEnc (a : Alg) (s : State) : Result :=
  updateStream Prim.external (.updateCfbEnc a) .cfb .enc a s

/-- UPDATE.CFB.DEC, rule R203. -/
def execUpdateCfbDec (a : Alg) (s : State) : Result :=
  updateStream Prim.external (.updateCfbDec a) .cfb .dec a s

/-- FINAL.CFB.ENC, rule R204. -/
def execFinalCfbEnc (a : Alg) (s : State) : Result :=
  finalStream (.finalCfbEnc a) .cfb .enc a s

/-- FINAL.CFB.DEC, rule R205. -/
def execFinalCfbDec (a : Alg) (s : State) : Result :=
  finalStream (.finalCfbDec a) .cfb .dec a s

/-- ATOMIC.CFB.ENC, rule R206. -/
def execAtomicCfbEnc (a : Alg) (s : State) : Result :=
  atomicStream Prim.external (.atomicCfbEnc a) .cfb .enc a s

/-- ATOMIC.CFB.DEC, rule R207. -/
def execAtomicCfbDec (a : Alg) (s : State) : Result :=
  atomicStream Prim.external (.atomicCfbDec a) .cfb .dec a s

end Sys2Proof.Machine
end

