-- ==== Sys2Proof/Machine/CtrCommands.lean ====
section
/-! DEFINITION. The meanings of the CTR commands (40_chaining_core.md rules R210 to R217), one definition per command. -/

namespace Sys2Proof.Machine

/-- INIT.CTR.ENC, rule R210. -/
def execInitCtrEnc (a : Alg) (s : State) : Result :=
  initCommand Prim.external (.initCtrEnc a) .ctr .enc a s

/-- INIT.CTR.DEC, rule R211. -/
def execInitCtrDec (a : Alg) (s : State) : Result :=
  initCommand Prim.external (.initCtrDec a) .ctr .dec a s

/-- UPDATE.CTR.ENC, rule R212. -/
def execUpdateCtrEnc (a : Alg) (s : State) : Result :=
  updateStream Prim.external (.updateCtrEnc a) .ctr .enc a s

/-- UPDATE.CTR.DEC, rule R213. -/
def execUpdateCtrDec (a : Alg) (s : State) : Result :=
  updateStream Prim.external (.updateCtrDec a) .ctr .dec a s

/-- FINAL.CTR.ENC, rule R214. -/
def execFinalCtrEnc (a : Alg) (s : State) : Result :=
  finalStream (.finalCtrEnc a) .ctr .enc a s

/-- FINAL.CTR.DEC, rule R215. -/
def execFinalCtrDec (a : Alg) (s : State) : Result :=
  finalStream (.finalCtrDec a) .ctr .dec a s

/-- ATOMIC.CTR.ENC, rule R216. -/
def execAtomicCtrEnc (a : Alg) (s : State) : Result :=
  atomicStream Prim.external (.atomicCtrEnc a) .ctr .enc a s

/-- ATOMIC.CTR.DEC, rule R217. -/
def execAtomicCtrDec (a : Alg) (s : State) : Result :=
  atomicStream Prim.external (.atomicCtrDec a) .ctr .dec a s

end Sys2Proof.Machine
end

