-- ==== Sys2Proof/Machine/EcbCommands.lean ====
section
/-! DEFINITION. The meanings of the ECB commands (40_chaining_core.md rules R180 to R187), one definition per command. -/

namespace Sys2Proof.Machine

/-- INIT.ECB.ENC, rule R180. -/
def execInitEcbEnc (a : Alg) (s : State) : Result :=
  initCommand Prim.external (.initEcbEnc a) .ecb .enc a s

/-- INIT.ECB.DEC, rule R181. -/
def execInitEcbDec (a : Alg) (s : State) : Result :=
  initCommand Prim.external (.initEcbDec a) .ecb .dec a s

/-- UPDATE.ECB.ENC, rule R182. -/
def execUpdateEcbEnc (a : Alg) (s : State) : Result :=
  updateBlocks (ecbUpdate Prim.external) (.updateEcbEnc a) .ecb .enc a s

/-- UPDATE.ECB.DEC, rule R183. -/
def execUpdateEcbDec (a : Alg) (s : State) : Result :=
  updateBlocks (ecbUpdate Prim.external) (.updateEcbDec a) .ecb .dec a s

/-- FINAL.ECB.ENC, rule R184. -/
def execFinalEcbEnc (a : Alg) (s : State) : Result :=
  finalBlocks (.finalEcbEnc a) .ecb .enc a s

/-- FINAL.ECB.DEC, rule R185. -/
def execFinalEcbDec (a : Alg) (s : State) : Result :=
  finalBlocks (.finalEcbDec a) .ecb .dec a s

/-- ATOMIC.ECB.ENC, rule R186. -/
def execAtomicEcbEnc (a : Alg) (s : State) : Result :=
  atomicBlocks Prim.external (ecbUpdate Prim.external) (.atomicEcbEnc a) .ecb .enc a s

/-- ATOMIC.ECB.DEC, rule R187. -/
def execAtomicEcbDec (a : Alg) (s : State) : Result :=
  atomicBlocks Prim.external (ecbUpdate Prim.external) (.atomicEcbDec a) .ecb .dec a s

end Sys2Proof.Machine
end

