-- ==== Sys2Proof/Machine/GcmCommands.lean ====
section
/-! DEFINITION. The meanings of the GCM commands (43_gcm_gmac.md rules R400 to R407), one definition per command. -/

namespace Sys2Proof.Machine

/-- INIT.GCM.ENC, rule R400. -/
def execInitGcmEnc (a : Alg) (s : State) : Result :=
  initCommand Prim.external (.initGcmEnc a) .gcm .enc a s

/-- INIT.GCM.DEC, rule R401. -/
def execInitGcmDec (a : Alg) (s : State) : Result :=
  initCommand Prim.external (.initGcmDec a) .gcm .dec a s

/-- UPDATE.GCM.ENC, rule R402. -/
def execUpdateGcmEnc (a : Alg) (s : State) : Result :=
  updateGcmEnc Prim.external (.updateGcmEnc a) a s

/-- UPDATE.GCM.DEC, rule R403. -/
def execUpdateGcmDec (a : Alg) (s : State) : Result :=
  updateGcmDec (.updateGcmDec a) a s

/-- FINAL.GCM.ENC, rule R404. -/
def execFinalGcmEnc (a : Alg) (s : State) : Result :=
  finalGcmEnc Prim.external (.finalGcmEnc a) a s

/-- FINAL.GCM.DEC, rule R405. -/
def execFinalGcmDec (a : Alg) (s : State) : Result :=
  finalGcmDec Prim.external (.finalGcmDec a) a s

/-- ATOMIC.GCM.ENC, rule R406. -/
def execAtomicGcmEnc (a : Alg) (s : State) : Result :=
  atomicGcmEnc Prim.external (.atomicGcmEnc a) a s

/-- ATOMIC.GCM.DEC, rule R407. -/
def execAtomicGcmDec (a : Alg) (s : State) : Result :=
  atomicGcmDec Prim.external (.atomicGcmDec a) a s

end Sys2Proof.Machine
end

