-- ==== Sys2Proof/Machine/GmacCommands.lean ====
section
/-! DEFINITION. The meanings of the GMAC commands (43_gcm_gmac.md rules R410 to R417), one definition per command. -/

namespace Sys2Proof.Machine

/-- INIT.GMAC.ENC, rule R410. -/
def execInitGmacEnc (a : Alg) (s : State) : Result :=
  initCommand Prim.external (.initGmacEnc a) .gmac .enc a s

/-- INIT.GMAC.DEC, rule R411. -/
def execInitGmacDec (a : Alg) (s : State) : Result :=
  initCommand Prim.external (.initGmacDec a) .gmac .dec a s

/-- UPDATE.GMAC.ENC, rule R412. -/
def execUpdateGmacEnc (a : Alg) (s : State) : Result :=
  updateGmacEnc (.updateGmacEnc a) a s

/-- UPDATE.GMAC.DEC, rule R413. -/
def execUpdateGmacDec (a : Alg) (s : State) : Result :=
  updateGmacDec (.updateGmacDec a) a s

/-- FINAL.GMAC.ENC, rule R414. -/
def execFinalGmacEnc (a : Alg) (s : State) : Result :=
  finalGmacEnc Prim.external (.finalGmacEnc a) a s

/-- FINAL.GMAC.DEC, rule R415. -/
def execFinalGmacDec (a : Alg) (s : State) : Result :=
  finalGmacDec Prim.external (.finalGmacDec a) a s

/-- ATOMIC.GMAC.ENC, rule R416. -/
def execAtomicGmacEnc (a : Alg) (s : State) : Result :=
  atomicGmacEnc Prim.external (.atomicGmacEnc a) a s

/-- ATOMIC.GMAC.DEC, rule R417. -/
def execAtomicGmacDec (a : Alg) (s : State) : Result :=
  atomicGmacDec Prim.external (.atomicGmacDec a) a s

end Sys2Proof.Machine
end

