-- ==== Sys2Proof/Machine/Dispatch.lean ====
section
/-! DEFINITION. The dispatch of the 65 commands, one arm per constructor. -/

namespace Sys2Proof.Machine

def exec (i : Instr) (s : State) : Host.Outcome State Fault Refusal :=
  match i with
  | .initEcbEnc alg => Sys2Proof.Machine.execInitEcbEnc alg s
  | .initEcbDec alg => Sys2Proof.Machine.execInitEcbDec alg s
  | .updateEcbEnc alg => Sys2Proof.Machine.execUpdateEcbEnc alg s
  | .updateEcbDec alg => Sys2Proof.Machine.execUpdateEcbDec alg s
  | .finalEcbEnc alg => Sys2Proof.Machine.execFinalEcbEnc alg s
  | .finalEcbDec alg => Sys2Proof.Machine.execFinalEcbDec alg s
  | .atomicEcbEnc alg => Sys2Proof.Machine.execAtomicEcbEnc alg s
  | .atomicEcbDec alg => Sys2Proof.Machine.execAtomicEcbDec alg s
  | .initCbcEnc alg => Sys2Proof.Machine.execInitCbcEnc alg s
  | .initCbcDec alg => Sys2Proof.Machine.execInitCbcDec alg s
  | .updateCbcEnc alg => Sys2Proof.Machine.execUpdateCbcEnc alg s
  | .updateCbcDec alg => Sys2Proof.Machine.execUpdateCbcDec alg s
  | .finalCbcEnc alg => Sys2Proof.Machine.execFinalCbcEnc alg s
  | .finalCbcDec alg => Sys2Proof.Machine.execFinalCbcDec alg s
  | .atomicCbcEnc alg => Sys2Proof.Machine.execAtomicCbcEnc alg s
  | .atomicCbcDec alg => Sys2Proof.Machine.execAtomicCbcDec alg s
  | .initCbcPadEnc alg => Sys2Proof.Machine.execInitCbcPadEnc alg s
  | .initCbcPadDec alg => Sys2Proof.Machine.execInitCbcPadDec alg s
  | .updateCbcPadEnc alg => Sys2Proof.Machine.execUpdateCbcPadEnc alg s
  | .updateCbcPadDec alg => Sys2Proof.Machine.execUpdateCbcPadDec alg s
  | .finalCbcPadEnc alg => Sys2Proof.Machine.execFinalCbcPadEnc alg s
  | .finalCbcPadDec alg => Sys2Proof.Machine.execFinalCbcPadDec alg s
  | .atomicCbcPadEnc alg => Sys2Proof.Machine.execAtomicCbcPadEnc alg s
  | .atomicCbcPadDec alg => Sys2Proof.Machine.execAtomicCbcPadDec alg s
  | .initCfbEnc alg => Sys2Proof.Machine.execInitCfbEnc alg s
  | .initCfbDec alg => Sys2Proof.Machine.execInitCfbDec alg s
  | .updateCfbEnc alg => Sys2Proof.Machine.execUpdateCfbEnc alg s
  | .updateCfbDec alg => Sys2Proof.Machine.execUpdateCfbDec alg s
  | .finalCfbEnc alg => Sys2Proof.Machine.execFinalCfbEnc alg s
  | .finalCfbDec alg => Sys2Proof.Machine.execFinalCfbDec alg s
  | .atomicCfbEnc alg => Sys2Proof.Machine.execAtomicCfbEnc alg s
  | .atomicCfbDec alg => Sys2Proof.Machine.execAtomicCfbDec alg s
  | .initCtrEnc alg => Sys2Proof.Machine.execInitCtrEnc alg s
  | .initCtrDec alg => Sys2Proof.Machine.execInitCtrDec alg s
  | .updateCtrEnc alg => Sys2Proof.Machine.execUpdateCtrEnc alg s
  | .updateCtrDec alg => Sys2Proof.Machine.execUpdateCtrDec alg s
  | .finalCtrEnc alg => Sys2Proof.Machine.execFinalCtrEnc alg s
  | .finalCtrDec alg => Sys2Proof.Machine.execFinalCtrDec alg s
  | .atomicCtrEnc alg => Sys2Proof.Machine.execAtomicCtrEnc alg s
  | .atomicCtrDec alg => Sys2Proof.Machine.execAtomicCtrDec alg s
  | .initCcmEnc alg => Sys2Proof.Machine.execInitCcmEnc alg s
  | .initCcmDec alg => Sys2Proof.Machine.execInitCcmDec alg s
  | .updateCcmEnc alg => Sys2Proof.Machine.execUpdateCcmEnc alg s
  | .updateCcmDec alg => Sys2Proof.Machine.execUpdateCcmDec alg s
  | .finalCcmEnc alg => Sys2Proof.Machine.execFinalCcmEnc alg s
  | .finalCcmDec alg => Sys2Proof.Machine.execFinalCcmDec alg s
  | .atomicCcmEnc alg => Sys2Proof.Machine.execAtomicCcmEnc alg s
  | .atomicCcmDec alg => Sys2Proof.Machine.execAtomicCcmDec alg s
  | .initGcmEnc alg => Sys2Proof.Machine.execInitGcmEnc alg s
  | .initGcmDec alg => Sys2Proof.Machine.execInitGcmDec alg s
  | .updateGcmEnc alg => Sys2Proof.Machine.execUpdateGcmEnc alg s
  | .updateGcmDec alg => Sys2Proof.Machine.execUpdateGcmDec alg s
  | .finalGcmEnc alg => Sys2Proof.Machine.execFinalGcmEnc alg s
  | .finalGcmDec alg => Sys2Proof.Machine.execFinalGcmDec alg s
  | .atomicGcmEnc alg => Sys2Proof.Machine.execAtomicGcmEnc alg s
  | .atomicGcmDec alg => Sys2Proof.Machine.execAtomicGcmDec alg s
  | .initGmacEnc alg => Sys2Proof.Machine.execInitGmacEnc alg s
  | .initGmacDec alg => Sys2Proof.Machine.execInitGmacDec alg s
  | .updateGmacEnc alg => Sys2Proof.Machine.execUpdateGmacEnc alg s
  | .updateGmacDec alg => Sys2Proof.Machine.execUpdateGmacDec alg s
  | .finalGmacEnc alg => Sys2Proof.Machine.execFinalGmacEnc alg s
  | .finalGmacDec alg => Sys2Proof.Machine.execFinalGmacDec alg s
  | .atomicGmacEnc alg => Sys2Proof.Machine.execAtomicGmacEnc alg s
  | .atomicGmacDec alg => Sys2Proof.Machine.execAtomicGmacDec alg s
  | .abort => Sys2Proof.Machine.execAbort s

end Sys2Proof.Machine
end

