-- ==== Sys2Proof/Machine/Issue.lean ====
section
/-! DEFINITION. The issue of a command (44_dispatcher.md rules R460, R465), and the agents' events. -/

namespace Sys2Proof.Machine

/-- A caller issues a command word with its operand record (44 R460): the word decodes and the command runs; a reserved
word completes with MECHANISM_INVALID and changes no handle (44 R465). -/
def issueCommand (w : CommandWord) (args : Operands) (s : State) : Result :=
  match decode w with
  | some i => exec i { s with args := args }
  | none => .next ({ s with args := args }.answer .mechanismInvalid 0)

/-- The step of one agent (70 R610). -/
def runEvent (e : Event) (s : State) : Result :=
  match e with
  | .configure cfg => configure cfg s
  | .issue w args => issueCommand w args s
  | .submit h => submitJob h s
  | .complete job r => completeJob job r s
  | .hostWrite addr b => hostWrite addr b s

/-- Whether a handle is BUSY; a run that ends so is incomplete (70 R596). -/
def State.anyBusy (s : State) : Bool :=
  s.table.any fun e =>
    match e.2 with
    | .active _ => false
    | .busy _ => true

/-- No event is left: a complete run is over and nothing more happens (70 R596); with a command still in flight the run is
stuck (93 U15). Logs 1 and 18. -/
def runOut (s : State) : Result := if s.anyBusy then .fault .jobNeverCompletes else .next s

/-- The state with a command word issued next, its operand record empty. -/
def placeWord (s : State) (w : CommandWord) : State := { s with events := .issue w {} :: s.events }

end Sys2Proof.Machine
end

