-- ==== Sys2Proof/Machine/Step.lean ====
section
/-! DEFINITION. The step of the machine: the next event of the schedule (70_reset_and_hazards.md rule R610). -/

namespace Sys2Proof.Machine

/-- One step: the first event of the schedule happens; with none left, `runOut`. -/
def step (s : State) : Host.Outcome State Fault Refusal :=
  match s.events with
  | e :: rest => runEvent e { s with events := rest }
  | [] => runOut s

/-- The state in which the next step issues the command word `w` of the opcode table. -/
def State.withFetchWord (s : State) (nbits w : Nat) : State := placeWord s (tableWord nbits w)

end Sys2Proof.Machine
end

