-- ==== Sys2Proof/Safety.lean ====
section
/-! DEFINITION. What counts as a safe run, in the terms the claims use: the context invariants of 10_state.md rule R51 with the
field widths of R56, the invariant of the whole state, the settling of a command's jobs, and what it means that a command
completes with given effects and no others. -/

namespace Sys2Proof.Machine

/-- The context invariants (10 R51) and the field widths (10 R56). -/
structure Context.Ok (c : Context) : Prop where
  schedule : c.ks.alg = c.alg
  /-- 10 R51, 1 -/
  residue_lt : c.residue.length < c.B
  /-- 10 R51, 2 -/
  stream_residue : c.mode = .cfb ∨ c.mode = .ctr → c.residue = []
  /-- 10 R51, 3 -/
  pad_stream : 0 < c.lbPad → c.mode = .cfb ∨ c.mode = .ctr
  pad_lt : c.lbPad < c.B
  pad_block : 0 < c.lbPad → c.lastBlock.length = c.B
  /-- 10 R51, 4 -/
  held_mode : c.heldValid = true → c.mode = .cbcPad ∧ c.dir = .dec
  held_block : c.heldValid = true → c.lastBlock.length = c.B
  /-- 10 R51, 5 -/
  scratch_mode : c.scratch ≠ [] → c.dir = .dec ∧ aeadMode c.mode = true
  /-- 10 R51, 6 -/
  ccm_enc : c.mode = .ccm → c.dir = .enc → c.processedDataLen ≤ c.dataLen
  /-- 10 R51, 6 -/
  ccm_dec : c.mode = .ccm → c.dir = .dec → c.scratch.length ≤ c.dataLen + c.tagLen
  /-- 10 R51, 6 -/
  gmac_dec : c.mode = .gmac → c.dir = .dec → c.scratch.length ≤ c.tagLen
  /-- 10 R51, 7 -/
  enc_whole : c.mode = .ccm ∨ c.mode = .gcm → c.dir = .enc →
    c.residue.length ≤ c.processedDataLen ∧ (c.processedDataLen - c.residue.length) % 16 = 0
  /-- 10 R36 -/
  iv_block : c.mode ≠ .ecb → c.iv.length = c.B
  /-- 10 R37 -/
  aead_residue : aeadMode c.mode = true → c.dir = .dec ∨ c.mode = .gmac → c.residue = []
  /-- 10 R44, R46, 00 R15 -/
  aead_blocks : aeadMode c.mode = true → c.B = 16 ∧ c.acc.length = 16 ∧ c.ctr0.length = 16
  /-- 10 R45 -/
  hash_block : c.mode = .gcm ∨ c.mode = .gmac → c.hashKey.length = 16
  /-- 00 R19 -/
  tag_range : aeadMode c.mode = true → 4 ≤ c.tagLen ∧ c.tagLen ≤ 16
  /-- 10 R40 -/
  counter_range : c.mode = .ctr ∨ aeadMode c.mode = true → 1 ≤ c.counterBits ∧ c.counterBits ≤ 8 * c.B
  /-- 10 R47 -/
  dec_processed : aeadMode c.mode = true → c.dir = .dec → c.processedDataLen = c.scratch.length

/-- The fields that INIT alone writes are the same (10 R33 to R35, R40 to R43, R45, R46), and the serial number. -/
structure Context.SameFixed (c c' : Context) : Prop where
  alg : c'.alg = c.alg
  mode : c'.mode = c.mode
  dir : c'.dir = c.dir
  ks : c'.ks = c.ks
  counterBits : c'.counterBits = c.counterBits
  tagLen : c'.tagLen = c.tagLen
  aadLen : c'.aadLen = c.aadLen
  dataLen : c'.dataLen = c.dataLen
  hashKey : c'.hashKey = c.hashKey
  ctr0 : c'.ctr0 = c.ctr0
  serial : c'.serial = c.serial

/-- `f'` is the record of the same command as `f`, whose jobs alone may have gone on (60 R543, R546): what it was issued with, the
snapshot it falls back to and what it will commit are the same. -/
structure InFlight.SameCommand (f f' : InFlight) : Prop where
  id : f'.id = f.id
  command : f'.command = f.command
  snapshot : f'.snapshot = f.snapshot
  inView : f'.inView = f.inView
  outView : f'.outView = f.outView
  commit : f'.commit = f.commit

/-- An in-flight record is consistent: its snapshot and the context it will commit meet the context invariants and agree on
the read-only fields, its command was issued, and a job is submitted or left to submit. -/
structure InFlight.Ok (issued : Nat) (f : InFlight) : Prop where
  snapshot_ok : ∀ c, f.snapshot = some c → c.Ok
  commit_ok : ∀ c, f.commit.ctx = some c → c.Ok
  fixed : ∀ c c', f.snapshot = some c → f.commit.ctx = some c' → c.SameFixed c'
  id_lt : f.id < issued
  running : f.current = none → f.jobsLeft ≠ []

/-- What a slot of the table holds is consistent. -/
def Slot.Ok (issued : Nat) : Slot → Prop
  | .active c => c.Ok
  | .busy f => f.Ok issued

/-- A non-SUCCESS status reports size 0, except BUFFER_TOO_SMALL (60 R534). -/
def Report.Ok (r : Report) : Prop := r.status ≠ .success → r.status ≠ .bufferTooSmall → r.size = 0

/-- A completion in the making obeys 60 R534 too. -/
def Slot.reportOk : Slot → Prop
  | .active _ => True
  | .busy f => f.commit.status ≠ .success → f.commit.status ≠ .bufferTooSmall → f.commit.size = 0

/-- The invariant of the whole state. -/
structure State.Inv (s : State) : Prop where
  table_sorted : Assoc.Sorted s.table
  mem_wf : Memory.wf s.mem
  known_nodup : s.known.Nodup
  /-- every live handle has been given to a caller -/
  table_known : ∀ e ∈ s.table, e.1 ∈ s.known
  slots_ok : ∀ e ∈ s.table, Slot.Ok s.issued e.2
  job_ids : s.jobs.Pairwise fun j k => j.id < k.id
  jobs_before : ∀ j ∈ s.jobs, j.id < s.nextJob
  /-- the job a command waits for is in the Block Primitive -/
  current_job : ∀ h f j, s.lookup h = some (.busy f) → f.current = some j →
    ∃ job ∈ s.jobs, job.id = j ∧ job.handle = h ∧ job.cancelled = false
  /-- a job that is not cancelled is one a command waits for -/
  live_job : ∀ job ∈ s.jobs, job.cancelled = false →
    ∃ f, s.lookup job.handle = some (.busy f) ∧ f.current = some job.id ∧ job.context = f.context
  /-- no command in flight writes what another one reads or writes (20 R97) -/
  views_apart : ∀ h k f g, h ≠ k → s.lookup h = some (.busy f) → s.lookup k = some (.busy g) →
    View.overlaps f.outView g.outView = false ∧ View.overlaps f.outView g.inView = false
  /-- at most MAX_CONTEXTS handles are live (10 R30) -/
  room : ∀ n, s.config.maxContexts = some n → s.table.length ≤ n
  config_ok : configValid s.config = true
  fresh : s.issued = 0 → s.table = []
  reports_ok : ∀ r ∈ s.reports, r.Ok
  commits_ok : ∀ e ∈ s.table, Slot.reportOk e.2

/-- A finite run is complete: no event is left and no handle is BUSY (70 R596). -/
def State.complete (s : State) : Bool := s.events.isEmpty && !s.anyBusy

/-- The state once the jobs of the command in flight on `h`, none of which is submitted yet, have all been submitted and
completed with success, and no other event has happened (60 R543, R544). With no command in flight nothing changes. -/
def State.settle (s : State) (h : Handle) : State :=
  match s.lookup h with
  | some (.busy f) => { s with nextJob := s.nextJob + f.jobsLeft.length }.finish f.id h f.outView f.commit
  | _ => s

/-- The events that settle `n` jobs of the handle `h`, the first of which will get the number `first`. -/
def settleEvents (h : Handle) (first n : Nat) : List Event :=
  (List.range n).flatMap fun k => [.submit h, .complete (first + k) .ok]

/-- What a command leaves: the handle's context afterwards (none is ABSENT), its status, its reported size, the handle it
returns, and the bytes it writes. -/
structure Effect where
  handle : Handle
  ctx : Option Context
  status : Status
  size : Nat
  returns : Option Handle := none
  output : Bytes := []

/-- `u` is the state `s` after a command with the given effect and NO OTHER: the handle's slot, one report, the output bytes
in the first bytes of the output view; every other handle, byte of memory, the configuration, the schedule, the jobs in the
Block Primitive and the free bytes are as before, and the operand record is no longer held. -/
structure After (s : State) (e : Effect) (u : State) : Prop where
  slot : u.lookup e.handle = e.ctx.map .active
  others : ∀ h, h ≠ e.handle → u.lookup h = s.lookup h
  report : u.reports =
    s.reports ++ [{ id := s.issued, status := e.status, size := e.size, handle := e.returns, output := e.output }]
  issued : u.issued = s.issued + 1
  mem : u.mem = Memory.writeAll s.mem (View.addrs s.args.outView) e.output
  config : u.config = s.config
  jobs : u.jobs = s.jobs
  events : u.events = s.events
  free : u.freeUsed = s.freeUsed
  args : u.args = {}
  /-- handles once known stay known -/
  known : ∀ h ∈ s.known, h ∈ u.known
  /-- a returned handle is the caller's -/
  returned : ∀ h, e.returns = some h → h ∈ u.known
  /-- no other handle becomes known -/
  learned : ∀ h ∈ u.known, h ∈ s.known ∨ h = e.handle

/-- While a command is in flight nothing of it shows (20 R96): the handle is BUSY with the snapshot, and memory, the reports,
every other handle and the configuration are as before. -/
structure Pending (s : State) (h : Handle) (snapshot : Option Context) (t : State) : Prop where
  slot : ∃ f, t.lookup h = some (.busy f) ∧ f.snapshot = snapshot ∧ f.id = s.issued ∧ f.current = none ∧
    f.jobsLeft ≠ []
  others : ∀ h', h' ≠ h → t.lookup h' = s.lookup h'
  reports : t.reports = s.reports
  issued : t.issued = s.issued + 1
  mem : t.mem = s.mem
  config : t.config = s.config
  jobs : t.jobs = s.jobs
  events : t.events = s.events
  free : t.freeUsed = s.freeUsed
  args : t.args = {}
  known : h ∈ t.known

/-- The command answers a next state `t`, and has the effect `e` and no other: at once, or, when it needs jobs, once they have
completed with success; until then nothing of it shows. `snapshot` is the handle's context before. -/
def Completes (s : State) (o : Result) (snapshot : Option Context) (e : Effect) : Prop :=
  ∃ t, o = .next t ∧ (After s e t ∨ Pending s e.handle snapshot t) ∧ After s e (t.settle e.handle)

/-- `t` is the state `s` after a command that completed at its issue with a status and a reported size and did nothing else: the
context table, memory, the configuration, the schedule and the jobs are as before (44 R466, R472). -/
structure Answered (s : State) (st : Status) (size : Nat) (t : State) : Prop where
  table : t.table = s.table
  known : t.known = s.known
  mem : t.mem = s.mem
  report : t.reports = s.reports ++ [{ id := s.issued, status := st, size := size, handle := none, output := [] }]
  issued : t.issued = s.issued + 1
  config : t.config = s.config
  jobs : t.jobs = s.jobs
  nextJob : t.nextJob = s.nextJob
  events : t.events = s.events
  free : t.freeUsed = s.freeUsed
  args : t.args = {}

/-- UPDATE (`inV` the input view) or FINAL (`inV` empty) may run on the context `c`: the operand handle is ACTIVE with it, the
word's mode, direction and algorithm are the context's, and no view is refused (44 R461, R465). -/
structure Ready (s : State) (inV : View) (c : Context) (m : Mode) (d : Dir) (a : Alg) : Prop where
  active : s.lookup s.args.handle = some (.active c)
  mode : c.mode = m
  dir : c.dir = d
  alg : c.alg = a
  views : s.viewRefusal inV s.args.outView = none

/-- INIT's checks all pass (44 R462), and the handle drawn is `h`. -/
structure InitReady (s : State) (m : Mode) (a : Alg) (h : Handle) : Prop where
  supported : algModeSupported s.config a m = true
  keyType : s.args.keyType = keyTypeOf a
  keyLen : s.args.key.length = keyLen a
  params : paramsOk m a s.args = true
  room : s.canAllocate = true
  drawn : s.args.draws.handle = h
  absent : s.lookup h = none

/-- The handle an event addresses: the one an UPDATE, FINAL or ABORT names, the one a job is submitted for, or the one of a job
that completes. -/
def State.addressed (s : State) : Event → Option Handle
  | .configure _ => none
  | .issue w args =>
    match decode w with
    | none => none
    | some i =>
      match i.parts with
      | some (.init, _) => none
      | some (.atomic, _) => none
      | _ => some args.handle
  | .submit h => some h
  | .complete job _ => (s.jobs.find? fun j => j.id = job).map PrimJob.handle
  | .hostWrite _ _ => none

/-! ### The length checks and the required sizes (44 R469, R473) -/

/-- UPDATE's length check on `n` input bytes, if it fails (42 R308, R309, 43 R398, R399). -/
def Context.updateError (c : Context) (n : Nat) : Option Status :=
  match c.mode, c.dir with
  | .ccm, .enc => if c.processedDataLen + n > c.dataLen then some .dataLenRange else none
  | .ccm, .dec => if c.scratch.length + n > c.dataLen + c.tagLen then some .dataLenRange else none
  | .gmac, .enc => if n > 0 then some .unsupported else none
  | .gmac, .dec => if c.scratch.length + n > c.tagLen then some .unsupported else none
  | _, _ => none

/-- Column UPDATE of the table of 44 R469. -/
def Context.updateNeed (c : Context) (n : Nat) : Nat :=
  let k := (c.residue.length + n) / c.B
  match c.mode, c.dir with
  | .ecb, _ => k * c.B
  | .cbc, _ => k * c.B
  | .cbcPad, .enc => k * c.B
  | .cbcPad, .dec => if k = 0 then 0 else (if c.heldValid then c.B else 0) + (k - 1) * c.B
  | .cfb, _ => n
  | .ctr, _ => n
  | .ccm, .enc => k * 16
  | .ccm, .dec => 0
  | .gcm, .enc => k * 16
  | .gcm, .dec => 0
  | .gmac, _ => 0

/-- FINAL's length check, if it fails (44 R474, 41 R258, 42 R308, R310, 43 R394, R399). -/
def Context.finalError (c : Context) : Option Status :=
  match c.mode, c.dir with
  | .ecb, d => if c.residue ≠ [] then some (lengthStatus d) else none
  | .cbc, d => if c.residue ≠ [] then some (lengthStatus d) else none
  | .cbcPad, .dec =>
    if c.residue ≠ [] ∨ c.heldValid = false ∨ padByte c.lastBlock < 1 ∨ c.B < padByte c.lastBlock then
      some .encryptedDataLenRange
    else none
  | .ccm, .enc => if c.processedDataLen ≠ c.dataLen then some .dataLenRange else none
  | .ccm, .dec => if c.scratch.length ≠ c.dataLen + c.tagLen then some .encryptedDataLenRange else none
  | .gcm, .dec => if c.scratch.length < c.tagLen then some .encryptedDataLenRange else none
  | .gmac, .dec => if c.scratch.length ≠ c.tagLen then some .encryptedDataLenRange else none
  | _, _ => none

/-- Column FINAL of the table of 44 R469. -/
def Context.finalNeed (c : Context) : Nat :=
  match c.mode, c.dir with
  | .cbcPad, .enc => c.B
  | .cbcPad, .dec => c.B - padByte c.lastBlock
  | .ccm, .enc => c.residue.length + c.tagLen
  | .ccm, .dec => c.dataLen
  | .gcm, .enc => c.residue.length + c.tagLen
  | .gcm, .dec => c.scratch.length - c.tagLen
  | .gmac, .enc => c.tagLen
  | _, _ => 0

/-- ATOMIC's length checks on `n` input bytes, if one fails (44 R467, R471, 42 R326, R327, 43 R407, R416, R417). -/
def atomicError (m : Mode) (d : Dir) (a : Alg) (o : Operands) (n : Nat) : Option Status :=
  let B := blockSize a
  let t := o.tagLen.toNat
  let p := o.dataLen.toNat
  match m, d with
  | .ecb, _ => if n % B ≠ 0 then some (lengthStatus d) else none
  | .cbc, _ => if n % B ≠ 0 then some (lengthStatus d) else none
  | .cbcPad, .dec => if n % B ≠ 0 ∨ n < B then some .encryptedDataLenRange else none
  | .ccm, .enc => if n ≠ p then some .dataLenRange else none
  | .ccm, .dec => if n > p + t then some .dataLenRange else if n < p + t then some .encryptedDataLenRange else none
  | .gcm, .dec => if n < t then some .encryptedDataLenRange else none
  | .gmac, .enc => if n > 0 then some .unsupported else none
  | .gmac, .dec => if n > t then some .unsupported else if n < t then some .encryptedDataLenRange else none
  | _, _ => none

/-- Column ATOMIC of the table of 44 R469; that of CBC_PAD decryption is known only after its jobs. -/
def atomicNeed (m : Mode) (d : Dir) (a : Alg) (o : Operands) (n : Nat) : Nat :=
  let t := o.tagLen.toNat
  let p := o.dataLen.toNat
  match m, d with
  | .ecb, _ => n
  | .cbc, _ => n
  | .cbcPad, .enc => (n / blockSize a + 1) * blockSize a
  | .cbcPad, .dec => 0
  | .cfb, _ => n
  | .ctr, _ => n
  | .ccm, .enc => p + t
  | .ccm, .dec => p
  | .gcm, .enc => n + t
  | .gcm, .dec => n - t
  | .gmac, .enc => t
  | .gmac, .dec => 0

/-! ### Runs of one context (30 R130) -/

/-- UPDATE on a context with unbounded capacity and no allocation failure: the status it fails with, or its output and the
context after it. -/
def Context.update (c : Context) (x : Bytes) : Except Status (Bytes × Context) :=
  match c.updateError x.length with
  | some st => .error st
  | none =>
    match c.mode, c.dir with
    | .ecb, _ => .ok (ecbUpdate Prim.external c x)
    | .cbc, _ => .ok (cbcUpdate Prim.external c x)
    | .cbcPad, .enc => .ok (cbcUpdate Prim.external c x)
    | .cbcPad, .dec => .ok (cbcPadDecUpdate Prim.external c x)
    | .cfb, _ => .ok (streamUpdate Prim.external c x)
    | .ctr, _ => .ok (streamUpdate Prim.external c x)
    | .ccm, .enc => .ok (ccmEncUpdate Prim.external c x)
    | .gcm, .enc => .ok (gcmEncUpdate Prim.external c x)
    | .gmac, .enc => .ok ([], c)
    | _, .dec => .ok ([], c.grow x)

/-- What an AEAD decryption gives: the plaintext, or INVALID_MAC. -/
def verified : Option Bytes → Except Status Bytes
  | some p => .ok p
  | none => .error .invalidMac

/-- FINAL on a context with unbounded capacity: the status it fails with, or its output. -/
def Context.final (c : Context) : Except Status Bytes :=
  match c.finalError with
  | some st => .error st
  | none =>
    match c.mode, c.dir with
    | .cbcPad, .enc => .ok (cbcEncBlocks (encryptBlock c.ks) c.iv (chunks c.B (pad c.residue c.B))).1
    | .cbcPad, .dec => .ok (c.lastBlock.take (c.B - padByte c.lastBlock))
    | .ccm, .enc => .ok (ccmFinalOutput Prim.external c)
    | .ccm, .dec => verified (ccmFinalPlain Prim.external c)
    | .gcm, .enc => .ok (gcmFinalOutput Prim.external c)
    | .gcm, .dec => verified (gcmFinalPlain Prim.external c)
    | .gmac, .enc => .ok (gmacTag Prim.external c)
    | .gmac, .dec => verified (gcmFinalPlain Prim.external c)
    | _, _ => .ok []

/-- `RUN` from an existing context: an UPDATE for each chunk, then FINAL, stopping at the first status other than SUCCESS. Its
result is the outputs joined, those before an error included, and the last status (30 R130). -/
def Context.run (c : Context) : List Bytes → Bytes × Status
  | [] =>
    match c.final with
    | .error st => ([], st)
    | .ok y => (y, .success)
  | x :: xs =>
    match c.update x with
    | .error st => ([], st)
    | .ok r => (r.1 ++ (r.2.run xs).1, (r.2.run xs).2)

/-- `RUN` of the operands `s.args` and the chunks `xs`, its INIT on `s`: a failing INIT is the whole run (30 R130). -/
def State.run (s : State) (m : Mode) (d : Dir) (a : Alg) (xs : List Bytes) : Bytes × Status :=
  match s.initChecks m a with
  | .error st => ([], st)
  | .ok _ => (initContext Prim.external m d a s.args).run xs

end Sys2Proof.Machine
end

