-- ==== Sys2Proof/Certificates/Slice0/Obligations.lean ====
section
/-! DEFINITION. The statements for the provers. Each docstring names the rules of spec/ it formalises and, where the
statement says that commands complete, the constructors of `Instr` it says it for. -/

open Sys2Proof Sys2Proof.Machine

/-! ### Words and steps -/

/-- One word per family, written out from the fields of 30 R110 to R116, decodes to its command; the first words of reserved
ranges do not decode (30 R126). -/
def Obligations.DecodeSpecWords : Prop :=
  decode 0x000#32 = some (.initEcbEnc .aes128) ∧
  decode (0x1 ||| 0x10 ||| 0x100 ||| 0x400 : BitVec 32) = some (.updateCbcDec .aes256) ∧
  decode 0x922#32 = some (.finalCbcPadDec .tdes) ∧
  decode 0x633#32 = some (.atomicCfbEnc .des) ∧
  decode 0x340#32 = some (.initCtrDec .aes192) ∧
  decode 0x253#32 = some (.atomicCcmEnc .aes192) ∧
  decode 0x161#32 = some (.updateGcmDec .aes128) ∧
  decode 0x472#32 = some (.finalGmacEnc .aes256) ∧
  decode 0x004#32 = some .abort ∧
  decode 0x005#32 = none ∧ decode 0x080#32 = none ∧ decode 0xA00#32 = none ∧ decode 0x1000#32 = none ∧
  decode 0x014#32 = none

/-- 30 R116, R117: a word decodes to a command exactly when it is the word of that command. So decoding an encoded command
gives it back with every field, every other word is refused, and no two commands share a word. -/
def Obligations.DecodeInvertsEncode : Prop :=
  ∀ (w : CommandWord) (i : Instr), decode w = some i ↔ w = encode i

/-- 30 R126, R117: the reserved encodings, and no others, decode to MECHANISM_INVALID, which is `none`. -/
def Obligations.ReservedWordsAreRefused : Prop :=
  ∀ w : CommandWord,
    decode w = none ↔
      (5 ≤ w.toNat % 2 ^ 4 ∨ 8 ≤ w.toNat / 2 ^ 4 % 2 ^ 4 ∨ 5 ≤ w.toNat / 2 ^ 9 % 2 ^ 3 ∨ w.toNat / 2 ^ 12 ≠ 0 ∨
        (w.toNat % 2 ^ 4 = 4 ∧ w.toNat / 2 ^ 4 ≠ 0))

/-- 44 R465: a reserved word completes at once with MECHANISM_INVALID and changes no handle; an UPDATE or FINAL on a handle
that is not ACTIVE is refused; one whose MODE, DIR or ALG differs from the context's raises MECHANISM_INVALID and the handle
becomes ABSENT. -/
def Obligations.WordCheckedAgainstContext : Prop :=
  (∀ (s : State) (w : CommandWord) (args : Operands), decode w = none →
    ∃ t, issueCommand w args s = .next t ∧ Answered s .mechanismInvalid 0 t) ∧
  (∀ (s : State) (op : Op) (m : Mode) (d : Dir) (a : Alg), op = .update ∨ op = .final →
    (∀ c, s.lookup s.args.handle ≠ some (.active c)) →
    ∃ r, exec (instrOf op m d a) s = .refused r) ∧
  (∀ (s : State) (op : Op) (m : Mode) (d : Dir) (a : Alg) (c : Context), op = .update ∨ op = .final →
    s.lookup s.args.handle = some (.active c) →
    s.viewRefusal (if op = .update then s.args.inView else []) s.args.outView = none →
    ¬(c.mode = m ∧ c.dir = d ∧ c.alg = a) →
    ∃ t, exec (instrOf op m d a) s = .next t ∧
      After s { handle := s.args.handle, ctx := none, status := .mechanismInvalid, size := 0 } t)

/-- A step runs the command whose word is issued next, on the state with the event taken and the operand record latched
(70 R610); `withFetchWord` places a word so; and with no event left nothing happens, or a command in flight is stuck
(70 R596). That the machine idles once a complete run's schedule is empty, and the schedule itself, are the model's, log 1.
That an empty schedule with a handle BUSY is stuck is the model's reading of 93 U15, log 18. -/
def Obligations.StepRunsDecodedCommand : Prop :=
  (∀ (s : State) (w : CommandWord) (args : Operands) (rest : List Event) (i : Instr),
    s.events = .issue w args :: rest → decode w = some i →
    step s = exec i { s with events := rest, args := args }) ∧
  (∀ (s : State) (nbits w : Nat) (i : Instr), decodeTableWord nbits w = some i →
    step (s.withFetchWord nbits w) = exec i { s with args := {} }) ∧
  (∀ s : State, s.events = [] → s.anyBusy = false → step s = .next s) ∧
  (∀ s : State, s.events = [] → s.anyBusy = true → step s = .fault .jobNeverCompletes)

/-- 10 R54, 70 R580, R581, R583: after reset every handle is ABSENT, no job is in flight and no handle is known; INIT answers a
next state whatever its operands, ATOMIC does unless its own views overlap; UPDATE, FINAL and ABORT are refused.
That memory then lists no byte is the model's choice, log 7. -/
def Obligations.ResetAndFirstCommand : Prop :=
  (∀ h, State.reset.lookup h = none) ∧ State.reset.jobs = [] ∧ State.reset.known = [] ∧ State.reset.mem = [] ∧
  ∀ (o : Operands) (m : Mode) (d : Dir) (a : Alg),
    let s : State := { State.reset with args := o }
    (∃ t, exec (instrOf .init m d a) s = .next t) ∧
    (View.inPlaceOk o.inView o.outView = true → ∃ t, exec (instrOf .atomic m d a) s = .next t) ∧
    exec (instrOf .update m d a) s = .refused (.unknownHandle o.handle) ∧
    exec (instrOf .final m d a) s = .refused (.unknownHandle o.handle) ∧
    exec .abort s = .refused (.unknownHandle o.handle)

/-! ### The whole machine -/

/-- The invariant of the whole state holds after reset. -/
def Obligations.ResetMeetsInvariant : Prop := State.reset.Inv

/-- Every step keeps the invariant: the context invariants of 10 R51 and the field widths of R56 in every live context, the
canonical form of memory and of the context table, no status but BUFFER_TOO_SMALL with a size beside SUCCESS (60 R534), and
the agreement of the in-flight records with the Block Primitive's jobs (60 R544). -/
def Obligations.StepKeepsInvariant : Prop :=
  ∀ s t : State, s.Inv → step s = .next t → t.Inv

/-- 70 R581, R584: the host's configuration is taken when it is in range and no command was issued, and from the first command
on it never changes. The configuration before the host gives one is the model's choice, log 2. -/
def Obligations.ConfigurationFixedByFirstCommand : Prop :=
  (∀ (s : State) (cfg : HostConfig) (rest : List Event), s.events = .configure cfg :: rest → s.issued = 0 →
    configValid cfg = true → step s = .next { s with events := rest, config := cfg }) ∧
  (∀ s t : State, step s = .next t → 0 < s.issued → t.config = s.config) ∧
  (∀ s t : State, step s = .next t → s.issued ≤ t.issued)

/-- 10 R33 to R35, R40 to R43, R45, R46: no step changes the fields of a context that INIT alone writes, whether its command
completes at its issue or is in flight. -/
def Obligations.ReadOnlyFieldsKept : Prop :=
  ∀ (s t : State) (h : Handle) (c' : Context), s.Inv → step s = .next t → t.lookup h = some (.active c') →
    (∀ c, s.lookup h = some (.active c) → c.SameFixed c') ∧
    (∀ f c, s.lookup h = some (.busy f) → f.snapshot = some c → c.SameFixed c')

/-- 20 R97, 60 R551: a step leaves every live handle as it was but the one its event addresses. -/
def Obligations.OtherContextsUnchanged : Prop :=
  ∀ (s t : State) (e : Event) (rest : List Event) (h : Handle) (x : Slot), s.events = e :: rest → step s = .next t →
    s.addressed e ≠ some h → s.lookup h = some x → t.lookup h = some x

/-- 10 R30, 60 R551: what an UPDATE or FINAL does to its context and what it reports depends on its own context, its operands,
its input bytes and the configuration, and on nothing else of the state. -/
def Obligations.OutcomeDependsOnlyOnOwnContext : Prop :=
  ∀ (s₁ s₂ t₁ : State) (op : Op) (m : Mode) (d : Dir) (a : Alg) (c : Context), op = .update ∨ op = .final →
    s₁.args = s₂.args → s₁.config = s₂.config → s₁.issued = s₂.issued → s₁.input = s₂.input →
    s₁.lookup s₁.args.handle = some (.active c) → s₂.lookup s₂.args.handle = some (.active c) →
    s₁.viewRefusal (if op = .update then s₁.args.inView else []) s₁.args.outView = none →
    s₂.viewRefusal (if op = .update then s₂.args.inView else []) s₂.args.outView = none →
    exec (instrOf op m d a) s₁ = .next t₁ →
    ∃ t₂ r, exec (instrOf op m d a) s₂ = .next t₂ ∧ t₂.lookup s₁.args.handle = t₁.lookup s₁.args.handle ∧
      t₁.reports = s₁.reports ++ r ∧ t₂.reports = s₂.reports ++ r

/-- 20 R82, R85: the frame of memory. A command changes no byte outside its output view (ABORT: outside the output view of the
command it cancels); INIT and a job submission change none; a job completion changes none outside the output view of the
command it belongs to. -/
def Obligations.MemoryFrame : Prop :=
  (∀ (s t : State) (i : Instr) (addr : Nat), exec i s = .next t → i ≠ .abort → addr ∉ View.addrs s.args.outView →
    Memory.read t.mem addr = Memory.read s.mem addr) ∧
  (∀ (s t : State) (addr : Nat), exec .abort s = .next t →
    (∀ f, s.lookup s.args.handle = some (.busy f) → addr ∉ View.addrs f.outView) →
    Memory.read t.mem addr = Memory.read s.mem addr) ∧
  (∀ (s t : State) (m : Mode) (d : Dir) (a : Alg), exec (instrOf .init m d a) s = .next t → t.mem = s.mem) ∧
  (∀ (s t : State) (h : Handle), submitJob h s = .next t → t.mem = s.mem) ∧
  (∀ (s t : State) (n : Nat) (r : JobResult) (addr : Nat), completeJob n r s = .next t →
    (∀ job f, job ∈ s.jobs → job.id = n → s.lookup job.handle = some (.busy f) → addr ∉ View.addrs f.outView) →
    Memory.read t.mem addr = Memory.read s.mem addr)

/-- 20 R82: after a command that wrote output, the first bytes of the output view read back as that output, in order, and every
other byte reads as before. -/
def Obligations.OutputReadsBack : Prop :=
  ∀ (s u : State) (e : Effect), After s e u → (View.addrs s.args.outView).Nodup → e.output.length ≤ s.cap →
    ((View.addrs s.args.outView).take e.output.length).map (Memory.read u.mem) = e.output ∧
    ∀ addr, addr ∉ (View.addrs s.args.outView).take e.output.length →
      Memory.read u.mem addr = Memory.read s.mem addr

/-! ### INIT -/

/-- 44 R463: the table of the mode parameter checks. -/
def Obligations.ParameterRanges : Prop :=
  ∀ (a : Alg) (o : Operands),
    (paramsOk .ecb a o = true) ∧
    (∀ m, m = .cbc ∨ m = .cbcPad ∨ m = .cfb → (paramsOk m a o = true ↔ o.iv.length = blockSize a)) ∧
    (paramsOk .ctr a o = true ↔
      o.iv.length = blockSize a ∧ 1 ≤ o.counterBits.toNat ∧ o.counterBits.toNat ≤ 8 * blockSize a) ∧
    (paramsOk .ccm a o = true ↔
      7 ≤ o.iv.length ∧ o.iv.length ≤ 13 ∧ o.tagLen.toNat ∈ [4, 6, 8, 10, 12, 14, 16] ∧
        o.dataLen.toNat < 2 ^ (8 * (15 - o.iv.length)) ∧ o.aad.length < 2 ^ 64) ∧
    (∀ m, m = .gcm ∨ m = .gmac →
      (paramsOk m a o = true ↔ 1 ≤ o.iv.length ∧ o.tagLen.toNat ∈ [4, 8, 12, 13, 14, 15, 16]))

/-- 44 R462, R473: INIT, and ATOMIC whose views are not refused, report the first of the five checks that fails, in the order of
the rule, and do nothing else. That the last check fails exactly when the draw denies the context or MAX_CONTEXTS handles, BUSY
and temporary ones counted, are live, and that ATOMIC makes it too, is the model's choice, log 20. -/
def Obligations.InitChecksInOrder : Prop :=
  ∀ (s : State) (op : Op) (m : Mode) (d : Dir) (a : Alg),
    op = .init ∨ (op = .atomic ∧ s.viewRefusal s.args.inView s.args.outView = none) →
    let answers (st : Status) : Prop := ∃ t, exec (instrOf op m d a) s = .next t ∧ Answered s st 0 t
    let supported : Prop := (aeadMode m = true → blockSize a = 16) ∧ (a, m) ∉ s.config.unsupported
    let room : Prop := s.args.draws.contextOk = true ∧ ∀ n, s.config.maxContexts = some n → s.table.length < n
    (¬supported → answers .mechanismInvalid) ∧
    (supported → s.args.keyType ≠ keyTypeOf a → answers .keyTypeInconsistent) ∧
    (supported → s.args.keyType = keyTypeOf a → s.args.key.length ≠ keyLen a → answers .keySizeRange) ∧
    (supported → s.args.keyType = keyTypeOf a → s.args.key.length = keyLen a → paramsOk m a s.args = false →
      answers .mechanismParamInvalid) ∧
    (supported → s.args.keyType = keyTypeOf a → s.args.key.length = keyLen a → paramsOk m a s.args = true → ¬room →
      answers .hostMemory)

/-- 40 R180, R181, R190, R191, R200, R201, R210, R211, 41 R260, R261, 10 R55: INIT of ECB, CBC, CBC_PAD, CFB and CTR, ENC and
DEC, completes at its issue with SUCCESS, size 0 and the handle drawn, ACTIVE with the fields of R55. Completion of
initEcbEnc, initEcbDec, initCbcEnc, initCbcDec, initCbcPadEnc, initCbcPadDec, initCfbEnc, initCfbDec, initCtrEnc, initCtrDec.
That the handle is the one drawn rests on log 4, the values of the fields the mode does not use on log 12, and the serial number
is the model's own, log 27. -/
def Obligations.InitWithoutJobs : Prop :=
  ∀ (s : State) (m : Mode) (d : Dir) (a : Alg) (h : Handle), aeadMode m = false → InitReady s m a h →
    ∃ t, exec (instrOf .init m d a) s = .next t ∧
      After s
        { handle := h, status := .success, size := 0, returns := some h
          ctx := some
            { alg := a, mode := m, dir := d, ks := { alg := a, key := s.args.key }
              iv := if m = .ecb then [] else s.args.iv
              counterBits := if m = .ctr then s.args.counterBits.toNat else 0
              serial := s.issued } } t

/-- 42 R320, R321, R301 to R304: INIT of CCM, ENC and DEC, completes with SUCCESS and size 0; the new context holds Ctr_0,
Ctr_1 and the CBC-MAC of B0 and the formatted AAD. Completion of initCcmEnc, initCcmDec. That the handle is the one drawn
rests on log 4, the values of the fields CCM does not use (lastBlock, hashKey) on log 12, and the serial number is the model's
own, log 27. -/
def Obligations.InitCcm : Prop :=
  ∀ (s : State) (d : Dir) (a : Alg) (h : Handle), InitReady s .ccm a h →
    let o := s.args
    let q := 15 - o.iv.length
    let ks : KeySchedule := { alg := a, key := o.key }
    Completes s (exec (instrOf .init .ccm d a) s) none
      { handle := h, status := .success, size := 0, returns := some h
        ctx := some
          { alg := a, mode := .ccm, dir := d, ks := ks, counterBits := 8 * q, tagLen := o.tagLen.toNat
            aadLen := o.aad.length, dataLen := o.dataLen.toNat, serial := s.issued
            ctr0 := BitVec.ofNat 8 (q - 1) :: (o.iv ++ beBytes q 0)
            iv := BitVec.ofNat 8 (q - 1) :: (o.iv ++ beBytes q 1)
            acc :=
              if o.aad = [] then encryptBlock ks (ccmB0 o.iv 0 o.tagLen.toNat o.dataLen.toNat)
              else
                let f := ccmAadPrefix o.aad.length ++ o.aad
                cbcMac (encryptBlock ks) (encryptBlock ks (ccmB0 o.iv o.aad.length o.tagLen.toNat o.dataLen.toNat))
                  (chunks 16 (pad0 f (16 * ceilDiv f.length 16))) } }

/-- 43 R400, R401, R410, R411, R384 to R388: INIT of GCM and GMAC, ENC and DEC, completes with SUCCESS and size 0; the new
context holds H, J0, inc32(J0) and the GHASH of the AAD. Completion of initGcmEnc, initGcmDec, initGmacEnc, initGmacDec. That
the handle is the one drawn rests on log 4, the values of the fields GCM and GMAC do not use (dataLen, lastBlock) on log 12,
and the serial number is the model's own, log 27. -/
def Obligations.InitGcmGmac : Prop :=
  ∀ (s : State) (m : Mode) (d : Dir) (a : Alg) (h : Handle), m = .gcm ∨ m = .gmac → InitReady s m a h →
    let o := s.args
    let ks : KeySchedule := { alg := a, key := o.key }
    let H := encryptBlock ks (zeros 16)
    let j0 :=
      if o.iv.length = 12 then o.iv ++ [0, 0, 0, 1]
      else ghash H (zeros 16) (pad0 o.iv (16 * ceilDiv o.iv.length 16) ++ zeros 8 ++ beBytes 8 (8 * o.iv.length))
    Completes s (exec (instrOf .init m d a) s) none
      { handle := h, status := .success, size := 0, returns := some h
        ctx := some
          { alg := a, mode := m, dir := d, ks := ks, counterBits := 32, tagLen := o.tagLen.toNat
            aadLen := o.aad.length, hashKey := H, ctr0 := j0, iv := inc j0 32, acc := ghash H (zeros 16) o.aad
            serial := s.issued } }

/-! ### UPDATE -/

/-- 40 R151, R152, R154, R182, R183: UPDATE of ECB emits E (or D) of each whole block of residue and input and keeps the rest.
Completion of updateEcbEnc, updateEcbDec. -/
def Obligations.UpdateEcb : Prop :=
  ∀ (s : State) (c : Context) (d : Dir) (a : Alg), Ready s s.args.inView c .ecb d a → c.Ok →
    let data := c.residue ++ s.input
    let n := data.length / c.B * c.B
    n ≤ s.cap →
    Completes s (exec (instrOf .update .ecb d a) s) (some c)
      { handle := s.args.handle, status := .success, size := n
        ctx := some { c with residue := data.drop n }
        output := (chunks c.B (data.take n)).flatMap (match d with
          | .enc => encryptBlock c.ks
          | .dec => decryptBlock c.ks) }

/-- 40 R156, R161, R162, R192, R193, 41 R254, R262: UPDATE of CBC, and of CBC_PAD encryption, chains the whole blocks of residue
and input and keeps the rest; the next chaining value is the last ciphertext block, if any. Completion of updateCbcEnc,
updateCbcDec, updateCbcPadEnc. -/
def Obligations.UpdateCbc : Prop :=
  ∀ (s : State) (c : Context) (m : Mode) (d : Dir) (a : Alg), m = .cbc ∨ (m = .cbcPad ∧ d = .enc) →
    Ready s s.args.inView c m d a → c.Ok →
    let data := c.residue ++ s.input
    let n := data.length / c.B * c.B
    let Xs := chunks c.B (data.take n)
    let out := match d with
      | .enc => (cbcEncBlocks (encryptBlock c.ks) c.iv Xs).1
      | .dec => (cbcDecBlocks (decryptBlock c.ks) c.iv Xs).1
    let ciphertext := match d with
      | .enc => out
      | .dec => data.take n
    n ≤ s.cap →
    Completes s (exec (instrOf .update m d a) s) (some c)
      { handle := s.args.handle, status := .success, size := n, output := out
        ctx := some
          { c with residue := data.drop n, iv := if n = 0 then c.iv else ciphertext.drop (n - c.B) } }

/-- 41 R255 to R257, R263: UPDATE of CBC_PAD decryption emits the block held before and every block it decrypts but the last,
which it holds; an UPDATE that completes no block emits nothing. Completion of updateCbcPadDec. -/
def Obligations.UpdateCbcPadDec : Prop :=
  ∀ (s : State) (c : Context) (a : Alg), Ready s s.args.inView c .cbcPad .dec a → c.Ok →
    let data := c.residue ++ s.input
    let n := data.length / c.B
    let Xs := chunks c.B (data.take (n * c.B))
    let y := (cbcDecBlocks (decryptBlock c.ks) c.iv Xs).1
    let held := if c.heldValid then c.lastBlock else []
    (n = 0 →
      Completes s (exec (.updateCbcPadDec a) s) (some c)
        { handle := s.args.handle, status := .success, size := 0, ctx := some { c with residue := data } }) ∧
    (0 < n → held.length + (n - 1) * c.B ≤ s.cap →
      Completes s (exec (.updateCbcPadDec a) s) (some c)
        { handle := s.args.handle, status := .success, size := held.length + (n - 1) * c.B
          output := held ++ y.take ((n - 1) * c.B)
          ctx := some
            { c with
              residue := data.drop (n * c.B), iv := (data.take (n * c.B)).drop ((n - 1) * c.B)
              lastBlock := y.drop ((n - 1) * c.B), heldValid := true } })

/-- 40 R165 to R168, R202, R203, R212, R213: UPDATE of CFB and CTR drains the keystream cache, then takes the rest in blocks; it
emits exactly len(in) bytes. Completion of updateCfbEnc, updateCfbDec, updateCtrEnc, updateCtrDec. -/
def Obligations.UpdateStream : Prop :=
  ∀ (s : State) (c : Context) (m : Mode) (d : Dir) (a : Alg), m = .cfb ∨ m = .ctr → Ready s s.args.inView c m d a →
    c.Ok → s.input.length ≤ s.cap →
    let p : StreamParams := { cfb := decide (m = .cfb), dir := d, B := c.B, counterBits := c.counterBits }
    let k : Keystream := { iv := c.iv, last := c.lastBlock, pad := c.lbPad }
    let drained := drain p k s.input
    let rest := streamBlocks (encryptBlock c.ks) p drained.2.1 (chunks c.B drained.2.2)
    Completes s (exec (instrOf .update m d a) s) (some c)
      { handle := s.args.handle, status := .success, size := s.input.length, output := drained.1 ++ rest.1
        ctx := some { c with iv := rest.2.iv, lastBlock := rest.2.last, lbPad := rest.2.pad } }

/-- 40 R170: an UPDATE of CFB or CTR whose input fits within the keystream cache completes at its issue, with no job, and its
output is the XOR of the input with the cached keystream. -/
def Obligations.CachedKeystreamNeedsNoJob : Prop :=
  ∀ (s : State) (c : Context) (m : Mode) (d : Dir) (a : Alg), m = .cfb ∨ m = .ctr → Ready s s.args.inView c m d a →
    c.Ok → s.input.length ≤ s.cap → s.input.length ≤ c.lbPad →
    ∃ t c', exec (instrOf .update m d a) s = .next t ∧ c'.lbPad = c.lbPad - s.input.length ∧
      After s
        { handle := s.args.handle, status := .success, size := s.input.length, ctx := some c'
          output := xorBytes s.input (c.lastBlock.drop (c.B - c.lbPad)) } t

/-- 40 R169: after an UPDATE of CFB or CTR the number of cached keystream bytes is (B - total mod B) mod B, where total counts
the data bytes of the context; INIT starts at total 0. -/
def Obligations.KeystreamCacheLength : Prop :=
  (∀ (m : Mode) (d : Dir) (a : Alg) (o : Operands), (initContext Prim.external m d a o).lbPad = 0) ∧
  (∀ (c : Context) (x : Bytes) (total : Nat), c.Ok → c.mode = .cfb ∨ c.mode = .ctr →
    c.lbPad = (c.B - total % c.B) % c.B →
    ∃ y c', c.update x = .ok (y, c') ∧ y.length = x.length ∧ c'.lbPad = (c.B - (total + x.length) % c.B) % c.B)

/-- 42 R305, R308, R322: UPDATE of CCM encryption within the declared length emits, for each whole block X of residue and input,
X XOR E(ctr), and folds X into the MAC. Completion of updateCcmEnc. -/
def Obligations.UpdateCcmEnc : Prop :=
  ∀ (s : State) (c : Context) (a : Alg), Ready s s.args.inView c .ccm .enc a → c.Ok →
    let data := c.residue ++ s.input
    let n := data.length / 16 * 16
    let Xs := chunks 16 (data.take n)
    c.processedDataLen + s.input.length ≤ c.dataLen → n ≤ s.cap →
    Completes s (exec (.updateCcmEnc a) s) (some c)
      { handle := s.args.handle, status := .success, size := n
        output := (Xs.zipIdx.map fun e => xorBytes e.1 (encryptBlock c.ks ((inc · c.counterBits)^[e.2] c.iv))).flatten
        ctx := some
          { c with
            residue := data.drop n, processedDataLen := c.processedDataLen + s.input.length
            acc := cbcMac (encryptBlock c.ks) c.acc Xs, iv := (inc · c.counterBits)^[Xs.length] c.iv } }

/-- 43 R391, R402: UPDATE of GCM encryption emits, for each whole block X of residue and input, C = X XOR E(ctr), and folds C
into the GHASH. Completion of updateGcmEnc. -/
def Obligations.UpdateGcmEnc : Prop :=
  ∀ (s : State) (c : Context) (a : Alg), Ready s s.args.inView c .gcm .enc a → c.Ok →
    let data := c.residue ++ s.input
    let n := data.length / 16 * 16
    let Xs := chunks 16 (data.take n)
    let out := (Xs.zipIdx.map fun e => xorBytes e.1 (encryptBlock c.ks ((inc · 32)^[e.2] c.iv))).flatten
    n ≤ s.cap →
    Completes s (exec (.updateGcmEnc a) s) (some c)
      { handle := s.args.handle, status := .success, size := n, output := out
        ctx := some
          { c with
            residue := data.drop n, processedDataLen := c.processedDataLen + s.input.length
            acc := ghash c.hashKey c.acc out, iv := (inc · 32)^[Xs.length] c.iv } }

/-- 42 R309, R323, 43 R393, R399, R403, R413, 44 R476: UPDATE of CCM, GCM and GMAC decryption within its limit completes at
its issue: it appends its input to scratch, emits nothing and needs no capacity. Completion of updateCcmDec, updateGcmDec,
updateGmacDec. Its allocation is granted, or its input is empty: that an empty UPDATE succeeds even where the allocation is
denied is the model's reading of R476, log 14. -/
def Obligations.UpdateAeadDec : Prop :=
  ∀ (s : State) (c : Context) (m : Mode) (a : Alg), aeadMode m = true → Ready s s.args.inView c m .dec a →
    (m = .ccm → c.scratch.length + s.input.length ≤ c.dataLen + c.tagLen) →
    (m = .gmac → c.scratch.length + s.input.length ≤ c.tagLen) →
    (s.input = [] ∨ s.args.draws.scratchOk = true) →
    ∃ t, exec (instrOf .update m .dec a) s = .next t ∧
      After s
        { handle := s.args.handle, status := .success, size := 0
          ctx := some
            { c with
              scratch := c.scratch ++ s.input, processedDataLen := c.scratch.length + s.input.length } } t

/-- 43 R398, R412: UPDATE of GMAC encryption with no input completes at its issue with no effect; with input it raises
UNSUPPORTED and the context ends. Completion of updateGmacEnc. -/
def Obligations.UpdateGmacEnc : Prop :=
  ∀ (s : State) (c : Context) (a : Alg), Ready s s.args.inView c .gmac .enc a →
    (s.input = [] →
      ∃ t, exec (.updateGmacEnc a) s = .next t ∧
        After s { handle := s.args.handle, status := .success, size := 0, ctx := some c } t) ∧
    (s.input ≠ [] →
      ∃ t, exec (.updateGmacEnc a) s = .next t ∧
        After s { handle := s.args.handle, status := .unsupported, size := 0, ctx := none } t)

/-- 44 R469, R472, R473, R477: UPDATE's pre-checks in their order. A failing length check ends the context with its status;
else a capacity below the required size is BUFFER_TOO_SMALL with that size and changes nothing. -/
def Obligations.UpdatePreChecks : Prop :=
  ∀ (s : State) (c : Context) (m : Mode) (d : Dir) (a : Alg), Ready s s.args.inView c m d a → c.Ok →
    (∀ st, c.updateError s.input.length = some st →
      ∃ t, exec (instrOf .update m d a) s = .next t ∧
        After s { handle := s.args.handle, ctx := none, status := st, size := 0 } t) ∧
    (c.updateError s.input.length = none → s.cap < c.updateNeed s.input.length →
      ∃ t, exec (instrOf .update m d a) s = .next t ∧
        Answered s .bufferTooSmall (c.updateNeed s.input.length) t)

/-- 44 R476: an UPDATE with no input succeeds at its issue with size 0 in every mode, with no job and no change of the
context; a context mismatch still gives MECHANISM_INVALID. That an AEAD decryption's empty UPDATE succeeds even where the scratch
allocation is denied is the model's reading of R476, log 14. -/
def Obligations.EmptyUpdateChangesNothing : Prop :=
  ∀ (s : State) (c : Context) (m : Mode) (d : Dir) (a : Alg), s.input = [] → c.Ok →
    s.lookup s.args.handle = some (.active c) → s.viewRefusal s.args.inView s.args.outView = none →
    (c.mode = m ∧ c.dir = d ∧ c.alg = a →
      ∃ t, exec (instrOf .update m d a) s = .next t ∧
        After s { handle := s.args.handle, status := .success, size := 0, ctx := some c } t) ∧
    (¬(c.mode = m ∧ c.dir = d ∧ c.alg = a) →
      ∃ t, exec (instrOf .update m d a) s = .next t ∧
        After s { handle := s.args.handle, ctx := none, status := .mechanismInvalid, size := 0 } t)

/-- 60 R523, R542: when the scratch allocation of an AEAD decryption fails, UPDATE with input ends its context with HOST_MEMORY,
and ATOMIC past its other checks completes with HOST_MEMORY and leaves its handle ABSENT. The empty UPDATE and the draw of
ATOMIC.GMAC.DEC rest on logs 14 and 21. -/
def Obligations.ScratchAllocationFailure : Prop :=
  (∀ (s : State) (c : Context) (m : Mode) (a : Alg), aeadMode m = true → Ready s s.args.inView c m .dec a →
    c.updateError s.input.length = none → s.input ≠ [] → s.args.draws.scratchOk = false →
    ∃ t, exec (instrOf .update m .dec a) s = .next t ∧
      After s { handle := s.args.handle, ctx := none, status := .hostMemory, size := 0 } t) ∧
  (∀ (s : State) (m : Mode) (a : Alg) (h : Handle), aeadMode m = true → InitReady s m a h →
    s.viewRefusal s.args.inView s.args.outView = none → atomicError m .dec a s.args s.input.length = none →
    atomicNeed m .dec a s.args s.input.length ≤ s.cap → s.args.draws.scratchOk = false →
    ∃ t, exec (instrOf .atomic m .dec a) s = .next t ∧ Answered s .hostMemory 0 t)

/-! ### FINAL -/

/-- 44 R474, R478, 40 R184, R185, R194, R195, R204, R205, R214, R215: FINAL of ECB, CBC, CFB and CTR emits nothing and
consumes the context; in ECB and CBC a residue is DATA_LEN_RANGE or ENCRYPTED_DATA_LEN_RANGE, which ends the context.
Completion of finalEcbEnc, finalEcbDec, finalCbcEnc, finalCbcDec, finalCfbEnc, finalCfbDec, finalCtrEnc, finalCtrDec. -/
def Obligations.FinalWithoutPadding : Prop :=
  ∀ (s : State) (c : Context) (m : Mode) (d : Dir) (a : Alg), Ready s [] c m d a →
    (m = .ecb ∨ m = .cbc → c.residue = [] →
      ∃ t, exec (instrOf .final m d a) s = .next t ∧
        After s { handle := s.args.handle, status := .success, size := 0, ctx := none } t) ∧
    (m = .ecb ∨ m = .cbc → c.residue ≠ [] →
      ∃ t, exec (instrOf .final m d a) s = .next t ∧
        After s
          { handle := s.args.handle, size := 0, ctx := none
            status := match d with
              | .enc => .dataLenRange
              | .dec => .encryptedDataLenRange } t) ∧
    (m = .cfb ∨ m = .ctr →
      ∃ t, exec (instrOf .final m d a) s = .next t ∧
        After s { handle := s.args.handle, status := .success, size := 0, ctx := none } t)

/-- 41 R251, R254, R264: FINAL of CBC_PAD encryption emits exactly one block, the CBC encryption of the padded residue.
Completion of finalCbcPadEnc. -/
def Obligations.FinalCbcPadEnc : Prop :=
  ∀ (s : State) (c : Context) (a : Alg), Ready s [] c .cbcPad .enc a → c.Ok → c.B ≤ s.cap →
    let pl := c.B - c.residue.length
    Completes s (exec (.finalCbcPadEnc a) s) (some c)
      { handle := s.args.handle, status := .success, size := c.B, ctx := none
        output := encryptBlock c.ks (xorBytes (c.residue ++ List.replicate pl (BitVec.ofNat 8 pl)) c.iv) }

/-- 41 R252, R258, R265: FINAL of CBC_PAD decryption checks the data condition, then the pad byte, then the capacity, submits no
job, and emits the held block without its padding. Completion of finalCbcPadDec. That its pad failure leaves the output region
as it was rests on log 15. -/
def Obligations.FinalCbcPadDec : Prop :=
  ∀ (s : State) (c : Context) (a : Alg), Ready s [] c .cbcPad .dec a →
    let pl := (c.lastBlock.getLastD 0).toNat
    let answers (e : Effect) : Prop := ∃ t, exec (.finalCbcPadDec a) s = .next t ∧ After s e t
    let ok : Prop := c.residue = [] ∧ c.heldValid = true
    (¬ok → answers { handle := s.args.handle, ctx := none, status := .encryptedDataLenRange, size := 0 }) ∧
    (ok → pl < 1 ∨ c.B < pl →
      answers { handle := s.args.handle, ctx := none, status := .encryptedDataLenRange, size := 0 }) ∧
    (ok → 1 ≤ pl → pl ≤ c.B → s.cap < c.B - pl →
      answers { handle := s.args.handle, ctx := some c, status := .bufferTooSmall, size := c.B - pl }) ∧
    (ok → 1 ≤ pl → pl ≤ c.B → c.B - pl ≤ s.cap → c.lastBlock.length = c.B →
      answers
        { handle := s.args.handle, ctx := none, status := .success, size := c.B - pl
          output := c.lastBlock.take (c.B - pl) })

/-- 42 R306, R307, R324: FINAL of CCM encryption, all declared data received, emits the encrypted residue and the tag.
Completion of finalCcmEnc. -/
def Obligations.FinalCcmEnc : Prop :=
  ∀ (s : State) (c : Context) (a : Alg), Ready s [] c .ccm .enc a → c.Ok → c.processedDataLen = c.dataLen →
    c.residue.length + c.tagLen ≤ s.cap →
    let E := encryptBlock c.ks
    let acc := if c.residue = [] then c.acc else E (xorBytes c.acc (pad0 c.residue 16))
    Completes s (exec (.finalCcmEnc a) s) (some c)
      { handle := s.args.handle, status := .success, size := c.residue.length + c.tagLen, ctx := none
        output := xorBytes c.residue (E c.iv) ++ (xorBytes (E c.ctr0) acc).take c.tagLen }

/-- 42 R310, R311, R325: FINAL of CCM decryption, all declared data received, decrypts the ciphertext in scratch, computes the
tag over the plaintext and compares it with the received tag: on a match it emits the plaintext, else INVALID_MAC with nothing
written. Completion of finalCcmDec. -/
def Obligations.FinalCcmDec : Prop :=
  ∀ (s : State) (c : Context) (a : Alg), Ready s [] c .ccm .dec a → c.Ok →
    c.scratch.length = c.dataLen + c.tagLen → c.dataLen ≤ s.cap →
    let E := encryptBlock c.ks
    let Cs := chunks 16 (c.scratch.take c.dataLen)
    let Ps := Cs.zipIdx.map fun e => xorBytes e.1 (E ((inc · c.counterBits)^[e.2] c.iv))
    let acc := Ps.foldl (fun v P => E (xorBytes v (pad0 P 16))) c.acc
    let tag := (xorBytes (E c.ctr0) acc).take c.tagLen
    Completes s (exec (.finalCcmDec a) s) (some c)
      (if tag = c.scratch.drop c.dataLen then
        { handle := s.args.handle, status := .success, size := c.dataLen, ctx := none, output := Ps.flatten }
      else { handle := s.args.handle, status := .invalidMac, size := 0, ctx := none })

/-- 43 R389, R390, R392, R404: FINAL of GCM encryption emits the encrypted residue and the tag. Completion of finalGcmEnc. -/
def Obligations.FinalGcmEnc : Prop :=
  ∀ (s : State) (c : Context) (a : Alg), Ready s [] c .gcm .enc a → c.Ok → c.residue.length + c.tagLen ≤ s.cap →
    let E := encryptBlock c.ks
    let y := xorBytes c.residue (E c.iv)
    let S := ghash c.hashKey (ghash c.hashKey c.acc y) (beBytes 8 (8 * c.aadLen) ++ beBytes 8 (8 * c.processedDataLen))
    Completes s (exec (.finalGcmEnc a) s) (some c)
      { handle := s.args.handle, status := .success, size := c.residue.length + c.tagLen, ctx := none
        output := y ++ (xorBytes (E c.ctr0) S).take c.tagLen }

/-- 43 R394, R405: FINAL of GCM decryption, at least a tag received, hashes the ciphertext in scratch and compares the tag: on a
match it emits the decrypted ciphertext, else INVALID_MAC with nothing written. Completion of finalGcmDec. -/
def Obligations.FinalGcmDec : Prop :=
  ∀ (s : State) (c : Context) (a : Alg), Ready s [] c .gcm .dec a → c.Ok → c.tagLen ≤ c.scratch.length →
    let n := c.scratch.length - c.tagLen
    let E := encryptBlock c.ks
    let C := c.scratch.take n
    let S := ghash c.hashKey (ghash c.hashKey c.acc C) (beBytes 8 (8 * c.aadLen) ++ beBytes 8 (8 * n))
    let P := ((chunks 16 C).zipIdx.map fun e => xorBytes e.1 (E ((inc · 32)^[e.2] c.iv))).flatten
    n ≤ s.cap →
    Completes s (exec (.finalGcmDec a) s) (some c)
      (if (xorBytes (E c.ctr0) S).take c.tagLen = c.scratch.drop n then
        { handle := s.args.handle, status := .success, size := n, ctx := none, output := P }
      else { handle := s.args.handle, status := .invalidMac, size := 0, ctx := none })

/-- 43 R398, R399, R414, R415: FINAL of GMAC. Encryption emits the tag over the AAD alone; decryption, exactly a tag received,
compares it and emits nothing, whatever the capacity. Completion of finalGmacEnc, finalGmacDec. -/
def Obligations.FinalGmac : Prop :=
  ∀ (s : State) (c : Context) (d : Dir) (a : Alg), Ready s [] c .gmac d a → c.Ok →
    let tag :=
      (xorBytes (encryptBlock c.ks c.ctr0) (ghash c.hashKey c.acc (beBytes 8 (8 * c.aadLen) ++ zeros 8))).take c.tagLen
    (d = .enc → c.tagLen ≤ s.cap →
      Completes s (exec (.finalGmacEnc a) s) (some c)
        { handle := s.args.handle, status := .success, size := c.tagLen, ctx := none, output := tag }) ∧
    (d = .dec → c.scratch.length = c.tagLen →
      Completes s (exec (.finalGmacDec a) s) (some c)
        { handle := s.args.handle, size := 0, ctx := none
          status := if tag = c.scratch then .success else .invalidMac })

/-- 44 R469, R472, R473, R477: FINAL's pre-checks in their order, as UPDATE's. That the pad failure of CBC_PAD decryption leaves
memory as it was is the model's reading of 20 R85, log 15. -/
def Obligations.FinalPreChecks : Prop :=
  ∀ (s : State) (c : Context) (m : Mode) (d : Dir) (a : Alg), Ready s [] c m d a →
    (∀ st, c.finalError = some st →
      ∃ t, exec (instrOf .final m d a) s = .next t ∧
        After s { handle := s.args.handle, ctx := none, status := st, size := 0 } t) ∧
    (c.finalError = none → s.cap < c.finalNeed →
      ∃ t, exec (instrOf .final m d a) s = .next t ∧ Answered s .bufferTooSmall c.finalNeed t)

/-- 30 R130, 44 R469: with enough capacity and its allocation granted, what UPDATE and FINAL do is what `RUN` says of them, in
every mode. Completion of every UPDATE and every FINAL. -/
def Obligations.CommandsFollowRun : Prop :=
  (∀ (s : State) (c c' : Context) (m : Mode) (d : Dir) (a : Alg) (y : Bytes), Ready s s.args.inView c m d a → c.Ok →
    s.args.draws.scratchOk = true → c.update s.input = .ok (y, c') → y.length ≤ s.cap →
    Completes s (exec (instrOf .update m d a) s) (some c)
      { handle := s.args.handle, status := .success, size := y.length, ctx := some c', output := y }) ∧
  (∀ (s : State) (c : Context) (m : Mode) (d : Dir) (a : Alg) (y : Bytes), Ready s [] c m d a → c.Ok →
    c.final = .ok y → y.length ≤ s.cap →
    Completes s (exec (instrOf .final m d a) s) (some c)
      { handle := s.args.handle, status := .success, size := y.length, ctx := none, output := y })

/-! ### ATOMIC -/

/-- 44 R471: ATOMIC is INIT, one UPDATE and FINAL on a temporary context. With capacity for any output of the mode and its
allocation granted it reports what the run gives: the joined output on SUCCESS, else the run's status with nothing written,
even where the run emitted before its error. The one error after which the output region is not as before, the unpad failure
of ATOMIC.CBC_PAD.DEC, is in AtomicCbcPadDec. Completion of every ATOMIC. -/
def Obligations.AtomicIsRun : Prop :=
  ∀ (s : State) (m : Mode) (d : Dir) (a : Alg) (h : Handle), InitReady s m a h →
    s.viewRefusal s.args.inView s.args.outView = none → s.args.draws.scratchOk = true → s.input.length + 16 ≤ s.cap →
    let r := s.run m d a [s.input]
    (r.2 = .success →
      Completes s (exec (instrOf .atomic m d a) s) none
        { handle := h, status := .success, size := r.1.length, ctx := none, output := r.1 }) ∧
    (r.2 ≠ .success → ¬(m = .cbcPad ∧ d = .dec) →
      Completes s (exec (instrOf .atomic m d a) s) none { handle := h, status := r.2, size := 0, ctx := none })

/-- 40 R186, R187, R196, R197, R206, R207, R216, R217, 41 R266: ATOMIC of ECB, CBC, CBC_PAD encryption, CFB and CTR, its length
legal and its capacity enough, emits the whole input transformed. Completion of atomicEcbEnc, atomicEcbDec, atomicCbcEnc,
atomicCbcDec, atomicCbcPadEnc, atomicCfbEnc, atomicCfbDec, atomicCtrEnc, atomicCtrDec. -/
def Obligations.AtomicUnauthenticated : Prop :=
  ∀ (s : State) (m : Mode) (d : Dir) (a : Alg) (h : Handle), InitReady s m a h →
    s.viewRefusal s.args.inView s.args.outView = none → aeadMode m = false → ¬(m = .cbcPad ∧ d = .dec) →
    let B := blockSize a
    let ks : KeySchedule := { alg := a, key := s.args.key }
    let p : StreamParams := { cfb := decide (m = .cfb), dir := d, B := B, counterBits := s.args.counterBits.toNat }
    let out := match m, d with
      | .ecb, .enc => (chunks B s.input).flatMap (encryptBlock ks)
      | .ecb, .dec => (chunks B s.input).flatMap (decryptBlock ks)
      | .cbc, .enc => (cbcEncBlocks (encryptBlock ks) s.args.iv (chunks B s.input)).1
      | .cbc, .dec => (cbcDecBlocks (decryptBlock ks) s.args.iv (chunks B s.input)).1
      | .cbcPad, _ => (cbcEncBlocks (encryptBlock ks) s.args.iv (chunks B (pad s.input B))).1
      | _, _ => (streamBlocks (encryptBlock ks) p { iv := s.args.iv, last := [], pad := 0 } (chunks B s.input)).1
    let n := if m = .cbcPad then (s.input.length / B + 1) * B else s.input.length
    (m = .ecb ∨ m = .cbc → s.input.length % B = 0) → n ≤ s.cap →
    Completes s (exec (instrOf .atomic m d a) s) none
      { handle := h, status := .success, size := n, ctx := none, output := out }

/-- 41 R267, 20 R85: ATOMIC of CBC_PAD decryption of a legal length decrypts, then checks the pad byte, then the capacity.
After the unpad failure the output region holds any bytes, the failure is reported, and every handle, all other memory, the
configuration, the jobs and the schedule are as before. Completion of atomicCbcPadDec. -/
def Obligations.AtomicCbcPadDec : Prop :=
  ∀ (s : State) (a : Alg) (h : Handle), InitReady s .cbcPad a h →
    s.viewRefusal s.args.inView s.args.outView = none → s.input.length % blockSize a = 0 →
    blockSize a ≤ s.input.length →
    let ks : KeySchedule := { alg := a, key := s.args.key }
    let x := (cbcDecBlocks (decryptBlock ks) s.args.iv (chunks (blockSize a) s.input)).1
    let pl := (x.getLastD 0).toNat
    let n := s.input.length - pl
    (1 ≤ pl → pl ≤ blockSize a → n ≤ s.cap →
      Completes s (exec (.atomicCbcPadDec a) s) none
        { handle := h, status := .success, size := n, ctx := none, output := x.take n }) ∧
    (1 ≤ pl → pl ≤ blockSize a → s.cap < n →
      Completes s (exec (.atomicCbcPadDec a) s) none
        { handle := h, status := .bufferTooSmall, size := n, ctx := none }) ∧
    (pl < 1 ∨ blockSize a < pl →
      ∃ t, exec (.atomicCbcPadDec a) s = .next t ∧ Pending s h none t ∧
        (∀ k, (t.settle h).lookup k = s.lookup k) ∧
        (t.settle h).reports = s.reports ++
          [{ id := s.issued, status := .encryptedDataLenRange, size := 0, handle := none, output := [] }] ∧
        (∀ addr, addr ∉ View.addrs s.args.outView → Memory.read (t.settle h).mem addr = Memory.read s.mem addr) ∧
        (t.settle h).config = s.config ∧ (t.settle h).jobs = s.jobs ∧ (t.settle h).events = s.events ∧
        (t.settle h).issued = s.issued + 1 ∧ (t.settle h).args = {} ∧ (∀ k ∈ s.known, k ∈ (t.settle h).known) ∧
        ∀ k ∈ (t.settle h).known, k ∈ s.known ∨ k = h)

/-- 42 R326, R327, 43 R406, R407, R416, R417: ATOMIC of CCM, GCM and GMAC, its length legal, its allocation granted and its
capacity enough, on the fields that InitCcm and InitGcmGmac give the temporary context. Encryption emits the input XORed with
the keystream, then the tag; decryption emits the plaintext if the tag over it matches, else INVALID_MAC with nothing written.
Completion of atomicCcmEnc, atomicCcmDec, atomicGcmEnc, atomicGcmDec, atomicGmacEnc, atomicGmacDec. -/
def Obligations.AtomicAead : Prop :=
  ∀ (s : State) (m : Mode) (a : Alg) (h : Handle), aeadMode m = true → InitReady s m a h →
    s.viewRefusal s.args.inView s.args.outView = none →
    let t := s.args.tagLen.toNat
    let c := initContext Prim.external m .enc a s.args
    let E := encryptBlock c.ks
    let masked (X : Bytes) : List Bytes :=
      (chunks 16 X).zipIdx.map fun e => xorBytes e.1 (E ((inc · c.counterBits)^[e.2] c.iv))
    let tagOf (plain : List Bytes) (cipher : Bytes) : Bytes :=
      let S :=
        if m = .ccm then plain.foldl (fun v P => E (xorBytes v (pad0 P 16))) c.acc
        else ghash c.hashKey (ghash c.hashKey c.acc cipher) (beBytes 8 (8 * c.aadLen) ++ beBytes 8 (8 * cipher.length))
      (xorBytes (E c.ctr0) S).take t
    let y := (masked s.input).flatten
    let n := s.input.length - t
    let p := masked (s.input.take n)
    ((m = .ccm → s.input.length = s.args.dataLen.toNat) → (m = .gmac → s.input = []) → s.input.length + t ≤ s.cap →
      Completes s (exec (instrOf .atomic m .enc a) s) none
        { handle := h, status := .success, size := s.input.length + t, ctx := none
          output := y ++ tagOf (chunks 16 s.input) y }) ∧
    (t ≤ s.input.length → (m = .ccm → n = s.args.dataLen.toNat) → (m = .gmac → n = 0) →
      s.args.draws.scratchOk = true → n ≤ s.cap →
      Completes s (exec (instrOf .atomic m .dec a) s) none
        (if tagOf p (s.input.take n) = s.input.drop n then
          { handle := h, status := .success, size := n, ctx := none, output := p.flatten }
        else { handle := h, status := .invalidMac, size := 0, ctx := none }))

/-- 44 R469, R471 to R473: ATOMIC's pre-checks in their order, on a state in which INIT's checks pass; nothing else changes. -/
def Obligations.AtomicPreChecks : Prop :=
  ∀ (s : State) (m : Mode) (d : Dir) (a : Alg) (h : Handle), InitReady s m a h →
    s.viewRefusal s.args.inView s.args.outView = none →
    (∀ st, atomicError m d a s.args s.input.length = some st →
      ∃ t, exec (instrOf .atomic m d a) s = .next t ∧ Answered s st 0 t) ∧
    (atomicError m d a s.args s.input.length = none → s.cap < atomicNeed m d a s.args s.input.length →
      ∃ t, exec (instrOf .atomic m d a) s = .next t ∧
        Answered s .bufferTooSmall (atomicNeed m d a s.args s.input.length) t)

/-! ### Jobs, cancellation and refusals -/

/-- 60 R543, R544, R555, 70 R612: submitting and completing, in order, the jobs of the command in flight on a handle reaches the
state `settle` describes: the command is complete, with its commit's effects and no others. That jobs of cancelled commands of
its context may still be in the Block Primitive then, and complete no more, is the model's reading of R547 and R555, log 10; that
a job's context is told by a serial number is the model's choice, log 27. -/
def Obligations.SettleIsReached : Prop :=
  ∀ (s : State) (h : Handle) (f : InFlight) (rest : List Event), s.Inv → s.lookup h = some (.busy f) →
    f.current = none → s.events = settleEvents h s.nextJob f.jobsLeft.length ++ rest →
    let others := s.jobs.filter fun job => ¬(job.handle = h ∧ job.context = f.context)
    Host.Core.run Sys2Proof.core (2 * f.jobsLeft.length) s =
      .next ({ s with events := rest, jobs := others }.settle h)

/-- 44 R475, 60 R547, R548: ABORT of a command in flight succeeds; that command reports CANCELED with size 0, its handle takes
its snapshot, its job in the Block Primitive, if any, is only marked, and memory outside its output view is as before. ABORT
on a handle that is ACTIVE, or ABSENT and once returned, has no effect and returns SUCCESS. Completion of abort. The order of
the two reports is the model's, log 11. -/
def Obligations.AbortCancels : Prop :=
  (∀ (s : State) (f : InFlight), s.lookup s.args.handle = some (.busy f) →
    ∃ t, exec .abort s = .next t ∧ t.lookup s.args.handle = f.snapshot.map .active ∧
      (∀ k, k ≠ s.args.handle → t.lookup k = s.lookup k) ∧
      t.reports = s.reports ++
        [{ id := f.id, status := .canceled, size := 0, handle := none, output := [] },
          { id := s.issued, status := .success, size := 0, handle := none, output := [] }] ∧
      t.jobs = s.jobs.map (fun j => if f.current = some j.id then { j with cancelled := true } else j) ∧
      (∀ addr, addr ∉ View.addrs f.outView → Memory.read t.mem addr = Memory.read s.mem addr) ∧
      t.known = s.known ∧ t.config = s.config ∧ t.events = s.events ∧ t.issued = s.issued + 1) ∧
  (∀ s : State, (∀ f, s.lookup s.args.handle ≠ some (.busy f)) →
    (s.lookup s.args.handle).isSome = true ∨ s.args.handle ∈ s.known →
    ∃ t, exec .abort s = .next t ∧ Answered s .success 0 t)

/-- 44 R475, 60 R522, R546, R548: "callers treat an aborted call as if it never started". A command that went in flight and is
aborted before its first job is submitted leaves every handle, the jobs, the configuration and all memory outside its output view
as they were before it. And aborted while still in flight after any number of steps, whatever jobs of it were submitted and
completed and whatever other commands did meanwhile, its handle is as it was before it, and every other handle, the configuration,
the jobs but for the mark on its own, and all memory outside its output view are as they were when it was aborted. The order of
the two reports is the model's, log 11. -/
def Obligations.AbortUndoesCommand : Prop :=
  ∀ (s t : State) (i : Instr) (h : Handle) (f : InFlight), s.Inv → exec i s = .next t →
    t.lookup h = some (.busy f) → f.id = s.issued →
    (∃ u, exec .abort { t with args := { handle := h } } = .next u ∧ (∀ k, u.lookup k = s.lookup k) ∧
      u.jobs = s.jobs ∧ u.config = s.config ∧ u.events = s.events ∧
      u.reports = s.reports ++
        [{ id := s.issued, status := .canceled, size := 0, handle := none, output := [] },
          { id := s.issued + 1, status := .success, size := 0, handle := none, output := [] }] ∧
      ∀ addr, addr ∉ View.addrs f.outView → Memory.read u.mem addr = Memory.read s.mem addr) ∧
    (∀ (n : Nat) (v : State) (f' : InFlight), Host.Core.run Sys2Proof.core n t = .next v →
      v.lookup h = some (.busy f') → f'.id = f.id →
      ∃ u, exec .abort { v with args := { handle := h } } = .next u ∧ u.lookup h = s.lookup h ∧
        (∀ k, k ≠ h → u.lookup k = v.lookup k) ∧
        u.jobs = v.jobs.map (fun j => if f'.current = some j.id then { j with cancelled := true } else j) ∧
        u.config = v.config ∧ u.events = v.events ∧
        u.reports = v.reports ++
          [{ id := f.id, status := .canceled, size := 0, handle := none, output := [] },
            { id := v.issued, status := .success, size := 0, handle := none, output := [] }] ∧
        ∀ addr, addr ∉ View.addrs f.outView → Memory.read u.mem addr = Memory.read v.mem addr)

/-- 60 R541, R547, R555, 20 R85: a job of a command in flight that completes with e in PRIM_ERRORS ends the command with PRIM(e)
and size 0, its handle is ABSENT, and memory outside its output view is as before. A cancelled job's completion changes nothing but
the list of jobs. And completions come in submission order per context: once a job has completed no earlier one of its context
does, and none completes while a command waits for an earlier one. That a completion takes the earlier, cancelled jobs of its context out
is the model's reading of R547 and R555, log 10; that completions which come too late or too early are refused, as noSuchJob and
outOfOrder, is its choice, log 24, and so are the names of jobs, log 10, and of contexts, log 27. The last clause speaks of states
no run reaches, log 10. -/
def Obligations.JobFailureAndCancelledJob : Prop :=
  (∀ (s : State) (job : PrimJob) (f : InFlight) (e : Nat), s.Inv → job ∈ s.jobs → job.cancelled = false →
    s.earlierJob job = false → s.lookup job.handle = some (.busy f) → e ∈ s.config.primErrors →
    ∃ t, completeJob job.id (.error e) s = .next t ∧ t.lookup job.handle = none ∧
      (∀ k, k ≠ job.handle → t.lookup k = s.lookup k) ∧
      t.reports = s.reports ++ [{ id := f.id, status := .prim e, size := 0, handle := none, output := [] }] ∧
      t.jobs = s.jobsAfter job ∧
      (∀ addr, addr ∉ View.addrs f.outView → Memory.read t.mem addr = Memory.read s.mem addr) ∧
      t.known = s.known ∧ t.config = s.config ∧ t.events = s.events ∧ t.issued = s.issued) ∧
  (∀ (s : State) (job : PrimJob) (r : JobResult), s.Inv → job ∈ s.jobs → job.cancelled = true →
    s.earlierJob job = false → (∀ e, r = .error e → e ∈ s.config.primErrors) →
    completeJob job.id r s = .next { s with jobs := s.jobsAfter job }) ∧
  (∀ (s t : State) (job early : PrimJob) (r r' : JobResult), s.Inv → job ∈ s.jobs → early ∈ s.jobs →
    early.handle = job.handle → early.context = job.context → early.id < job.id → completeJob job.id r s = .next t →
    completeJob early.id r' t = .refused (.noSuchJob early.id)) ∧
  (∀ (s : State) (job early : PrimJob) (r : JobResult), s.Inv → job ∈ s.jobs → early ∈ s.jobs →
    early.handle = job.handle → early.context = job.context → early.id < job.id → early.cancelled = false →
    completeJob job.id r s = .refused (.outOfOrder job.id))

/-- 40 R171, R172: every job of a command in flight covers at least one block and at most MAX_XFER bytes; the jobs of an
UPDATE or ATOMIC of CTR cover all its keystream blocks, and none runs the low counter bits past a roll-over, counted on from
the counter block of the context (of an ATOMIC, its iv operand) by the blocks of the jobs before; and so does the split they
are made by. -/
def Obligations.JobsWithinLimits : Prop :=
  (∀ (s t : State) (i : Instr) (h : Handle) (f : InFlight) (op : Op) (m : Mode) (d : Dir) (a : Alg), s.Inv →
    exec i s = .next t → t.lookup h = some (.busy f) → f.id = s.issued → i.parts = some (op, m, d, a) →
    ∀ n ∈ f.jobsLeft, 1 ≤ n ∧ n * blockSize a ≤ s.config.maxXfer) ∧
  (∀ (s t : State) (h : Handle) (f : InFlight) (c : Context) (d : Dir) (a : Alg), s.Inv →
    exec (instrOf .update .ctr d a) s = .next t → t.lookup h = some (.busy f) → f.id = s.issued →
    s.lookup s.args.handle = some (.active c) →
    f.jobsLeft.sum = ceilDiv (s.input.length - c.lbPad) c.B ∧
    ∀ before job after, f.jobsLeft = before ++ job :: after →
      (beInt c.iv + before.sum) % 2 ^ c.counterBits + job ≤ 2 ^ c.counterBits) ∧
  (∀ (s t : State) (h : Handle) (f : InFlight) (d : Dir) (a : Alg), s.Inv →
    exec (instrOf .atomic .ctr d a) s = .next t → t.lookup h = some (.busy f) → f.id = s.issued →
    f.jobsLeft.sum = ceilDiv s.input.length (blockSize a) ∧
    ∀ before job after, f.jobsLeft = before ++ job :: after →
      (beInt s.args.iv + before.sum) % 2 ^ s.args.counterBits.toNat + job ≤ 2 ^ s.args.counterBits.toNat) ∧
  (∀ (cap cb n : Nat) (ctr : Bytes), 1 ≤ cap →
    (splitCtrJobs cap cb ctr n).sum = n ∧
    ∀ before job after, splitCtrJobs cap cb ctr n = before ++ job :: after →
      1 ≤ job ∧ job ≤ cap ∧ (beInt ctr + before.sum) % 2 ^ cb + job ≤ 2 ^ cb)

/-- 44 R461, 70 R592: an UPDATE, FINAL or ABORT naming a handle never returned, an UPDATE or FINAL naming an ABSENT or a BUSY
handle, a command whose views overlap other than exactly in place, or overlap those of a command in flight where one writes,
and a store into a view in flight are refused. That a refusal comes before every status check is the model's choice, log 13;
that views which share a byte are exactly in place only where they name the same addresses, an output view longer than the
input it starts on being refused, is its reading of 20 R84, log 8. -/
def Obligations.CallerDutyRefusals : Prop :=
  (∀ (s : State) (i : Instr) (op : Op) (m : Mode) (d : Dir) (a : Alg),
    i = .abort ∨ (i = instrOf op m d a ∧ op ≠ .init ∧ op ≠ .atomic) →
    s.lookup s.args.handle = none → s.args.handle ∉ s.known → exec i s = .refused (.unknownHandle s.args.handle)) ∧
  (∀ (s : State) (op : Op) (m : Mode) (d : Dir) (a : Alg), op = .update ∨ op = .final →
    (s.lookup s.args.handle = none → s.args.handle ∈ s.known →
      exec (instrOf op m d a) s = .refused (.absentHandle s.args.handle)) ∧
    (∀ f, s.lookup s.args.handle = some (.busy f) →
      exec (instrOf op m d a) s = .refused (.busyHandle s.args.handle))) ∧
  (∀ (s : State) (op : Op) (m : Mode) (d : Dir) (a : Alg),
    op = .atomic ∨ (op = .update ∧ ∃ c, s.lookup s.args.handle = some (.active c)) →
    (View.addrs s.args.inView ≠ View.addrs s.args.outView →
      (∃ addr, addr ∈ View.addrs s.args.inView ∧ addr ∈ View.addrs s.args.outView) →
      exec (instrOf op m d a) s = .refused .viewsOverlap) ∧
    (View.inPlaceOk s.args.inView s.args.outView = true →
      (∃ k f addr, s.lookup k = some (.busy f) ∧
        ((addr ∈ View.addrs s.args.outView ∧ (addr ∈ View.addrs f.inView ∨ addr ∈ View.addrs f.outView)) ∨
          (addr ∈ View.addrs s.args.inView ∧ addr ∈ View.addrs f.outView))) →
      exec (instrOf op m d a) s = .refused .viewsInFlight)) ∧
  (∀ (s : State) (m : Mode) (d : Dir) (a : Alg) (c : Context), s.lookup s.args.handle = some (.active c) →
    (∃ k f addr, s.lookup k = some (.busy f) ∧ addr ∈ View.addrs s.args.outView ∧
      (addr ∈ View.addrs f.inView ∨ addr ∈ View.addrs f.outView)) →
    exec (instrOf .final m d a) s = .refused .viewsInFlight) ∧
  (∀ (s : State) (base : Nat) (b : Bytes),
    (∃ k f addr, s.lookup k = some (.busy f) ∧ base ≤ addr ∧ addr < base + b.length ∧
      (addr ∈ View.addrs f.inView ∨ addr ∈ View.addrs f.outView)) →
    hostWrite base b s = .refused .storeInFlight)

/-! ### The engines -/

/-- 44 R470, 30 R130: streaming equivalence. However an input is cut into UPDATEs, `RUN` ends with the same status and, on
SUCCESS, gives the same output, tag included, as `RUN` with the whole input in one UPDATE; an AEAD decryption and GMAC give no
output before an error. ATOMIC, whose views are not refused, whose allocation is granted and whose capacity suffices, ends
with the status of `RUN` and, on SUCCESS, its output; and where INIT's checks fail, both end with INIT's status and no output.
-/
def Obligations.StreamingEquivalence : Prop :=
  (∀ (c : Context) (xs : List Bytes), c.Ok →
    (c.run xs).2 = (c.run [xs.flatten]).2 ∧ ((c.run xs).2 = .success → (c.run xs).1 = (c.run [xs.flatten]).1) ∧
    (c.mode = .gmac ∨ (aeadMode c.mode = true ∧ c.dir = .dec) → (c.run xs).2 ≠ .success → (c.run xs).1 = [])) ∧
  (∀ (s : State) (m : Mode) (d : Dir) (a : Alg) (h : Handle) (xs : List Bytes), InitReady s m a h →
    s.viewRefusal s.args.inView s.args.outView = none → s.args.draws.scratchOk = true → s.input.length + 16 ≤ s.cap →
    xs.flatten = s.input →
    let r := s.run m d a xs
    (r.2 = .success →
      Completes s (exec (instrOf .atomic m d a) s) none
        { handle := h, status := .success, size := r.1.length, ctx := none, output := r.1 }) ∧
    (r.2 ≠ .success →
      ∃ t, exec (instrOf .atomic m d a) s = .next t ∧
        (t.settle h).reports =
          s.reports ++ [{ id := s.issued, status := r.2, size := 0, handle := none, output := [] }])) ∧
  (∀ (s : State) (m : Mode) (d : Dir) (a : Alg) (xs : List Bytes) (st : Status), s.initChecks m a = .error st →
    s.viewRefusal s.args.inView s.args.outView = none →
    s.run m d a xs = ([], st) ∧ ∃ t, exec (instrOf .atomic m d a) s = .next t ∧ Answered s st 0 t)

/-- 70 R613, 41 R253, 00 R16: round trip of ECB, CBC, CBC_PAD, CFB and CTR. Decrypting, in any chunks, what encrypting gives
under the same INIT operands gives the plaintext back. -/
def Obligations.RoundTrip : Prop :=
  ∀ (m : Mode) (a : Alg) (o : Operands) (P C : Bytes) (xs : List Bytes), aeadMode m = false → paramsOk m a o = true →
    (initContext Prim.external m .enc a o).run [P] = (C, .success) → xs.flatten = C →
    (initContext Prim.external m .dec a o).run xs = (P, .success)

/-- 70 R613, 42 R307, R310, 43 R392, R394, R399: round trip and tag check of CCM, GCM and GMAC. What encryption gives is a
ciphertext as long as the plaintext and a tag of tag_len bytes; decrypting it gives the plaintext back, and decrypting the same
ciphertext with any other tag of that length gives INVALID_MAC and no output. -/
def Obligations.AeadRoundTripAndTamper : Prop :=
  ∀ (m : Mode) (a : Alg) (o : Operands) (P C : Bytes), aeadMode m = true → blockSize a = 16 → paramsOk m a o = true →
    (initContext Prim.external m .enc a o).run [P] = (C, .success) →
    C.length = P.length + o.tagLen.toNat ∧ (initContext Prim.external m .dec a o).run [C] = (P, .success) ∧
    ∀ tag : Bytes, tag.length = o.tagLen.toNat → tag ≠ C.drop P.length →
      (initContext Prim.external m .dec a o).run [C.take P.length ++ tag] = ([], .invalidMac)

/-- 43 R381, 20 R88: multiplication in GF(2^128) in GCM's bit order. It is additive in both arguments and keeps to 128 bits;
the block with bit 127 alone is the unit; and the block with bit 126 alone, the polynomial x, shifts right by one and reduces
by x^128 + x^7 + x^2 + x + 1. -/
def Obligations.GfMultiplication : Prop :=
  (∀ x x' y : Nat, gfMult (x ^^^ x') y = gfMult x y ^^^ gfMult x' y) ∧
  (∀ x y y' : Nat, gfMult x (y ^^^ y') = gfMult x y ^^^ gfMult x y') ∧
  (∀ x y : Nat, y < 2 ^ 128 → gfMult x y < 2 ^ 128) ∧
  (∀ y : Nat, gfMult (2 ^ 127) y = y) ∧
  (∀ y : Nat, gfMult (2 ^ 126) y =
    if y % 2 = 1 then (y / 2) ^^^ ((2 ^ 7 + 2 ^ 6 + 2 ^ 5 + 1) * 2 ^ 120) else y / 2)

/-- 41 R253: unpad undoes pad, for every byte string and every block size a pad byte can name. -/
def Obligations.UnpadInvertsPad : Prop :=
  ∀ (P : Bytes) (B : Nat), 1 ≤ B → B ≤ 255 → unpad (pad P B) B = some P

/-- 40 R158: the counter increment adds one to the low `cb` bits of the block read big-endian, modulo 2^cb, and leaves every bit
above them as it was. -/
def Obligations.CounterIncrement : Prop :=
  ∀ (ctr : Bytes) (cb : Nat), 1 ≤ cb → cb ≤ 8 * ctr.length →
    (inc ctr cb).length = ctr.length ∧ beInt (inc ctr cb) % 2 ^ cb = (beInt ctr % 2 ^ cb + 1) % 2 ^ cb ∧
    beInt (inc ctr cb) / 2 ^ cb = beInt ctr / 2 ^ cb

/-- 70 R600, 42 R311, 60 R532, 20 R96: no plaintext before verification. In CCM, GCM and GMAC decryption an UPDATE writes
nothing to memory and leaves no command in flight; a FINAL or ATOMIC writes nothing at its issue unless it completes there
with SUCCESS; as long as it is in flight every step, whatever agent makes it, leaves each byte of its output view, its word, its
snapshot (60 R546), its views and what it will commit as they were; and, once its jobs have completed, memory is as before unless it
reports SUCCESS. The clause on the steps in flight holds for every command. -/
def Obligations.NoPlaintextBeforeVerification : Prop :=
  (∀ (s t : State) (op : Op) (m : Mode) (a : Alg) (h : Handle), aeadMode m = true → op ≠ .init →
    exec (instrOf op m .dec a) s = .next t →
    h = (if op = .atomic then s.freshHandle s.args.draws.handle else s.args.handle) →
    (op = .update → t.mem = s.mem ∧ ∀ f, t.lookup h ≠ some (.busy f)) ∧
    ((t.settle h).mem = s.mem ∨
      ∃ r, (t.settle h).reports = s.reports ++ [r] ∧ r.status = .success) ∧
    (t.mem = s.mem ∨ ∃ r, t.reports = s.reports ++ [r] ∧ r.status = .success)) ∧
  (∀ (u v : State) (h : Handle) (f f' : InFlight), u.Inv → step u = .next v →
    u.lookup h = some (.busy f) → v.lookup h = some (.busy f') →
    f.SameCommand f' ∧ ∀ addr, addr ∈ View.addrs f.outView → Memory.read v.mem addr = Memory.read u.mem addr)
end

