-- ==== Sys2Proof/Laws/Assoc.lean ====
section
/-! SUPPORT. Association lists: reading back what was set, leaving other keys alone, and keeping the keys rising. -/

namespace Sys2Proof.Machine

variable {α : Type}

@[simp] theorem Assoc.get_set_same (k : Nat) (v : α) (l : List (Nat × α)) :
    Assoc.get k (Assoc.set k v l) = some v := by
  induction l with
  | nil => simp [Assoc.set, Assoc.get]
  | cons e t ih =>
    obtain ⟨j, w⟩ := e
    by_cases h1 : k < j
    · simp [Assoc.set, Assoc.get, h1]
    · by_cases h2 : j = k
      · simp [Assoc.set, Assoc.get, h2]
      · simp [Assoc.set, Assoc.get, h1, h2, ih]

theorem Assoc.get_set_ne {j k : Nat} (h : j ≠ k) (v : α) (l : List (Nat × α)) :
    Assoc.get j (Assoc.set k v l) = Assoc.get j l := by
  induction l with
  | nil => simp [Assoc.set, Assoc.get, Ne.symm h]
  | cons e t ih =>
    obtain ⟨i, w⟩ := e
    by_cases h1 : k < i
    · simp [Assoc.set, Assoc.get, h1, Ne.symm h]
    · by_cases h2 : i = k
      · subst h2
        simp [Assoc.set, Assoc.get, Ne.symm h]
      · by_cases h3 : i = j
        · subst h3
          simp [Assoc.set, Assoc.get, h1, h2]
        · simp [Assoc.set, Assoc.get, h1, h2, h3, ih]

@[simp] theorem Assoc.get_erase_same (k : Nat) (l : List (Nat × α)) : Assoc.get k (Assoc.erase k l) = none := by
  induction l with
  | nil => rfl
  | cons e t ih =>
    obtain ⟨j, w⟩ := e
    unfold Assoc.erase at ih
    by_cases h : j = k
    · simp [Assoc.erase, h]; simpa using ih
    · simp [Assoc.erase, h, Assoc.get]; simpa using ih

theorem Assoc.get_erase_ne {j k : Nat} (h : j ≠ k) (l : List (Nat × α)) :
    Assoc.get j (Assoc.erase k l) = Assoc.get j l := by
  induction l with
  | nil => rfl
  | cons e t ih =>
    obtain ⟨i, w⟩ := e
    unfold Assoc.erase at ih
    by_cases h1 : i = k
    · subst h1
      simp [Assoc.erase, Assoc.get, Ne.symm h]; simpa using ih
    · by_cases h2 : i = j
      · subst h2
        simp [Assoc.erase, Assoc.get, h1]
      · simp [Assoc.erase, h1, Assoc.get, h2]; simpa using ih

/-- What a list holds after a key is set: the new entry, or an old one under another key. -/
theorem Assoc.mem_of_mem_set {k : Nat} {v : α} {l : List (Nat × α)} {e : Nat × α} (h : e ∈ Assoc.set k v l) :
    e = (k, v) ∨ e ∈ l := by
  induction l with
  | nil => simpa [Assoc.set] using h
  | cons d t ih =>
    obtain ⟨j, w⟩ := d
    unfold Assoc.set at h
    split at h
    · simpa using h
    · split at h
      · simp only [List.mem_cons] at h ⊢; tauto
      · simp only [List.mem_cons] at h ⊢
        rcases h with h | h
        · tauto
        · rcases ih h with h | h <;> tauto

theorem Assoc.mem_of_mem_erase {k : Nat} {l : List (Nat × α)} {e : Nat × α} (h : e ∈ Assoc.erase k l) :
    e ∈ l ∧ e.1 ≠ k := by
  simpa [Assoc.erase] using h

theorem Assoc.sorted_set {l : List (Nat × α)} (hl : Assoc.Sorted l) (k : Nat) (v : α) :
    Assoc.Sorted (Assoc.set k v l) := by
  induction l with
  | nil => simp [Assoc.set]
  | cons d t ih =>
    obtain ⟨j, w⟩ := d
    have ht := (List.pairwise_cons.mp hl).2
    have hj := (List.pairwise_cons.mp hl).1
    unfold Assoc.set
    split
    · rename_i hk
      refine List.pairwise_cons.mpr ⟨fun e he => ?_, hl⟩
      rcases List.mem_cons.mp he with rfl | he
      · exact hk
      · exact lt_trans hk (hj e he)
    · split
      · rename_i hk
        subst hk
        exact List.pairwise_cons.mpr ⟨fun e he => hj e he, ht⟩
      · rename_i hk hne
        refine List.pairwise_cons.mpr ⟨fun e he => ?_, ih ht⟩
        rcases Assoc.mem_of_mem_set he with rfl | he
        · show j < k
          omega
        · exact hj e he

theorem Assoc.sorted_erase {l : List (Nat × α)} (hl : Assoc.Sorted l) (k : Nat) : Assoc.Sorted (Assoc.erase k l) :=
  hl.filter _

/-- A value read stands in the list. -/
theorem Assoc.mem_of_get {k : Nat} {v : α} {l : List (Nat × α)} (h : Assoc.get k l = some v) : (k, v) ∈ l := by
  induction l with
  | nil => simp [Assoc.get] at h
  | cons d t ih =>
    obtain ⟨j, w⟩ := d
    by_cases hj : j = k
    · simp [Assoc.get, hj] at h
      simp [hj, h]
    · simp [Assoc.get, hj] at h
      exact List.mem_cons_of_mem _ (ih h)

/-- In a list whose keys rise strictly, an entry is what its key reads. -/
theorem Assoc.get_of_mem {k : Nat} {v : α} {l : List (Nat × α)} (hl : Assoc.Sorted l) (h : (k, v) ∈ l) :
    Assoc.get k l = some v := by
  induction l with
  | nil => simp at h
  | cons d t ih =>
    obtain ⟨j, w⟩ := d
    rcases List.mem_cons.mp h with h | h
    · cases h
      simp [Assoc.get]
    · have := (List.pairwise_cons.mp hl).1 _ h
      have hne : j ≠ k := Nat.ne_of_lt this
      simp [Assoc.get, hne, ih (List.pairwise_cons.mp hl).2 h]

/-- Setting an absent key adds one entry. -/
theorem Assoc.length_set_le (k : Nat) (v : α) (l : List (Nat × α)) : (Assoc.set k v l).length ≤ l.length + 1 := by
  induction l with
  | nil => simp [Assoc.set]
  | cons d t ih =>
    obtain ⟨j, w⟩ := d
    unfold Assoc.set
    split
    · simp
    · split
      · simp
      · simpa using ih

/-- Setting a key that is there keeps the number of entries. -/
theorem Assoc.length_set_of_get {k : Nat} {w : α} {l : List (Nat × α)} (hl : Assoc.Sorted l)
    (h : Assoc.get k l = some w) (v : α) : (Assoc.set k v l).length = l.length := by
  induction l with
  | nil => simp [Assoc.get] at h
  | cons d t ih =>
    obtain ⟨j, x⟩ := d
    unfold Assoc.set
    split
    · rename_i hk
      have hne : j ≠ k := Nat.ne_of_gt hk
      simp [Assoc.get, hne] at h
      have := (List.pairwise_cons.mp hl).1 _ (Assoc.mem_of_get h)
      simp at this
      omega
    · split
      · simp
      · rename_i hk hne
        simp [Assoc.get, hne] at h
        simp [ih (List.pairwise_cons.mp hl).2 h]

theorem Assoc.length_erase_le (k : Nat) (l : List (Nat × α)) : (Assoc.erase k l).length ≤ l.length :=
  List.length_filter_le _ _

/-- Erasing a key that is not there changes nothing. -/
theorem Assoc.erase_of_get_none {k : Nat} {l : List (Nat × α)} (h : Assoc.get k l = none) : Assoc.erase k l = l := by
  induction l with
  | nil => rfl
  | cons d t ih =>
    obtain ⟨j, w⟩ := d
    by_cases hj : j = k
    · simp [Assoc.get, hj] at h
    · simp [Assoc.get, hj] at h
      have := ih h
      unfold Assoc.erase at this ⊢
      simp [hj]
      simpa using this

end Sys2Proof.Machine
end

