-- ==== Sys2Proof/Laws/Memory.lean ====
section
/-! SUPPORT. The callers' memory: a read after a write, and the canonical form, which every memory operation keeps. -/

namespace Sys2Proof.Machine

@[simp] theorem Memory.read_write_same (m : List Host.Cell) (a : Nat) (b : Byte) :
    Memory.read (Memory.write m a b) a = b := by
  unfold Memory.read Memory.write
  split
  · rename_i h
    simp [h]
  · simp

theorem Memory.read_write_ne {a a' : Nat} (h : a' ≠ a) (m : List Host.Cell) (b : Byte) :
    Memory.read (Memory.write m a b) a' = Memory.read m a' := by
  unfold Memory.read Memory.write
  split
  · rw [Assoc.get_erase_ne h]
  · rw [Assoc.get_set_ne h]

theorem Memory.wf_write {m : List Host.Cell} (h : Memory.wf m) (a : Nat) (b : Byte) : Memory.wf (Memory.write m a b) := by
  unfold Memory.write
  split
  · exact ⟨Assoc.sorted_erase h.1 a, fun e he => h.2 e (Assoc.mem_of_mem_erase he).1⟩
  · rename_i hb
    refine ⟨Assoc.sorted_set h.1 a b, fun e he => ?_⟩
    rcases Assoc.mem_of_mem_set he with rfl | he
    · exact hb
    · exact h.2 e he

theorem Memory.wf_writeAll {m : List Host.Cell} (h : Memory.wf m) (as : List Nat) (bs : Bytes) :
    Memory.wf (Memory.writeAll m as bs) := by
  induction as generalizing m bs with
  | nil => simpa [Memory.writeAll] using h
  | cons a as ih =>
    cases bs with
    | nil => simpa [Memory.writeAll] using h
    | cons b bs => exact ih (Memory.wf_write h a b) bs

@[simp] theorem Memory.writeAll_nil (m : List Host.Cell) (as : List Nat) : Memory.writeAll m as [] = m := by
  cases as <;> rfl

/-- Bytes outside the addresses written read as before. -/
theorem Memory.read_writeAll_of_notMem {a : Nat} (m : List Host.Cell) (as : List Nat) (bs : Bytes)
    (h : a ∉ as.take bs.length) : Memory.read (Memory.writeAll m as bs) a = Memory.read m a := by
  induction as generalizing m bs with
  | nil => simp [Memory.writeAll]
  | cons c as ih =>
    cases bs with
    | nil => simp
    | cons b bs =>
      simp only [List.length_cons, List.take_succ_cons, List.mem_cons, not_or] at h
      rw [Memory.writeAll, ih _ _ h.2, Memory.read_write_ne h.1]

/-- Bytes written to distinct addresses read back. -/
theorem Memory.read_writeAll_map (m : List Host.Cell) (as : List Nat) (bs : Bytes) (hn : as.Nodup)
    (hl : bs.length ≤ as.length) : (as.take bs.length).map (Memory.read (Memory.writeAll m as bs)) = bs := by
  induction as generalizing m bs with
  | nil =>
    have : bs = [] := by simpa using hl
    simp [this]
  | cons c as ih =>
    cases bs with
    | nil => simp
    | cons b bs =>
      have hc := (List.nodup_cons.mp hn).1
      simp only [List.length_cons, List.take_succ_cons, List.map_cons, Memory.writeAll]
      rw [ih _ _ (List.nodup_cons.mp hn).2 (by simpa using hl),
        Memory.read_writeAll_of_notMem _ _ _ fun h => hc (List.mem_of_mem_take h)]
      simp

/-- An effect on an output region changes no byte outside the view. -/
theorem State.read_applyRegion {a : Nat} {v : View} (ha : a ∉ View.addrs v) (s : State) (r : Region) :
    Memory.read (s.applyRegion v r).mem a = Memory.read s.mem a := by
  cases r <;> exact Memory.read_writeAll_of_notMem _ _ _ fun hm => ha (List.mem_of_mem_take hm)

theorem State.havoc_wf {s : State} (h : Memory.wf s.mem) (v : View) : Memory.wf (s.havoc v).mem :=
  Memory.wf_writeAll h _ _

theorem State.applyRegion_wf {s : State} (h : Memory.wf s.mem) (v : View) (r : Region) :
    Memory.wf (s.applyRegion v r).mem := by
  cases r with
  | bytes b => exact Memory.wf_writeAll h _ _
  | anyBytes => exact State.havoc_wf h v

theorem State.reset_mem_wf : Memory.wf State.reset.mem := by
  simp [State.reset, Memory.wf]

end Sys2Proof.Machine
end

