-- ==== Sys2Proof/Laws/State.lean ====
section
/-! SUPPORT. What each update of the state does to each field. -/

namespace Sys2Proof.Machine

@[simp] theorem State.put_config (s : State) (h : Handle) (x : Slot) : (s.put h x).config = s.config := rfl
@[simp] theorem State.put_table (s : State) (h : Handle) (x : Slot) : (s.put h x).table = Assoc.set h x s.table := rfl
@[simp] theorem State.put_known (s : State) (h : Handle) (x : Slot) : (s.put h x).known = s.known := rfl
@[simp] theorem State.put_jobs (s : State) (h : Handle) (x : Slot) : (s.put h x).jobs = s.jobs := rfl
@[simp] theorem State.put_nextJob (s : State) (h : Handle) (x : Slot) : (s.put h x).nextJob = s.nextJob := rfl
@[simp] theorem State.put_mem (s : State) (h : Handle) (x : Slot) : (s.put h x).mem = s.mem := rfl
@[simp] theorem State.put_args (s : State) (h : Handle) (x : Slot) : (s.put h x).args = s.args := rfl
@[simp] theorem State.put_events (s : State) (h : Handle) (x : Slot) : (s.put h x).events = s.events := rfl
@[simp] theorem State.put_issued (s : State) (h : Handle) (x : Slot) : (s.put h x).issued = s.issued := rfl
@[simp] theorem State.put_reports (s : State) (h : Handle) (x : Slot) : (s.put h x).reports = s.reports := rfl
@[simp] theorem State.put_freeUsed (s : State) (h : Handle) (x : Slot) : (s.put h x).freeUsed = s.freeUsed := rfl

@[simp] theorem State.drop_config (s : State) (h : Handle) : (s.drop h).config = s.config := rfl
@[simp] theorem State.drop_table (s : State) (h : Handle) : (s.drop h).table = Assoc.erase h s.table := rfl
@[simp] theorem State.drop_known (s : State) (h : Handle) : (s.drop h).known = s.known := rfl
@[simp] theorem State.drop_jobs (s : State) (h : Handle) : (s.drop h).jobs = s.jobs := rfl
@[simp] theorem State.drop_nextJob (s : State) (h : Handle) : (s.drop h).nextJob = s.nextJob := rfl
@[simp] theorem State.drop_mem (s : State) (h : Handle) : (s.drop h).mem = s.mem := rfl
@[simp] theorem State.drop_args (s : State) (h : Handle) : (s.drop h).args = s.args := rfl
@[simp] theorem State.drop_events (s : State) (h : Handle) : (s.drop h).events = s.events := rfl
@[simp] theorem State.drop_issued (s : State) (h : Handle) : (s.drop h).issued = s.issued := rfl
@[simp] theorem State.drop_reports (s : State) (h : Handle) : (s.drop h).reports = s.reports := rfl
@[simp] theorem State.drop_freeUsed (s : State) (h : Handle) : (s.drop h).freeUsed = s.freeUsed := rfl

@[simp] theorem State.know_config (s : State) (h : Handle) : (s.know h).config = s.config := rfl
@[simp] theorem State.know_table (s : State) (h : Handle) : (s.know h).table = s.table := rfl
@[simp] theorem State.know_known (s : State) (h : Handle) :
    (s.know h).known = if h ∈ s.known then s.known else h :: s.known := rfl
@[simp] theorem State.know_jobs (s : State) (h : Handle) : (s.know h).jobs = s.jobs := rfl
@[simp] theorem State.know_nextJob (s : State) (h : Handle) : (s.know h).nextJob = s.nextJob := rfl
@[simp] theorem State.know_mem (s : State) (h : Handle) : (s.know h).mem = s.mem := rfl
@[simp] theorem State.know_args (s : State) (h : Handle) : (s.know h).args = s.args := rfl
@[simp] theorem State.know_events (s : State) (h : Handle) : (s.know h).events = s.events := rfl
@[simp] theorem State.know_issued (s : State) (h : Handle) : (s.know h).issued = s.issued := rfl
@[simp] theorem State.know_reports (s : State) (h : Handle) : (s.know h).reports = s.reports := rfl
@[simp] theorem State.know_freeUsed (s : State) (h : Handle) : (s.know h).freeUsed = s.freeUsed := rfl

@[simp] theorem State.accept_config (s : State) : (s.accept).config = s.config := rfl
@[simp] theorem State.accept_table (s : State) : (s.accept).table = s.table := rfl
@[simp] theorem State.accept_known (s : State) : (s.accept).known = s.known := rfl
@[simp] theorem State.accept_jobs (s : State) : (s.accept).jobs = s.jobs := rfl
@[simp] theorem State.accept_nextJob (s : State) : (s.accept).nextJob = s.nextJob := rfl
@[simp] theorem State.accept_mem (s : State) : (s.accept).mem = s.mem := rfl
@[simp] theorem State.accept_args (s : State) : (s.accept).args = {} := rfl
@[simp] theorem State.accept_events (s : State) : (s.accept).events = s.events := rfl
@[simp] theorem State.accept_issued (s : State) : (s.accept).issued = s.issued + 1 := rfl
@[simp] theorem State.accept_reports (s : State) : (s.accept).reports = s.reports := rfl
@[simp] theorem State.accept_freeUsed (s : State) : (s.accept).freeUsed = s.freeUsed := rfl

@[simp] theorem State.tell_config (s : State) (r : Report) : (s.tell r).config = s.config := rfl
@[simp] theorem State.tell_table (s : State) (r : Report) : (s.tell r).table = s.table := rfl
@[simp] theorem State.tell_known (s : State) (r : Report) : (s.tell r).known = s.known := rfl
@[simp] theorem State.tell_jobs (s : State) (r : Report) : (s.tell r).jobs = s.jobs := rfl
@[simp] theorem State.tell_nextJob (s : State) (r : Report) : (s.tell r).nextJob = s.nextJob := rfl
@[simp] theorem State.tell_mem (s : State) (r : Report) : (s.tell r).mem = s.mem := rfl
@[simp] theorem State.tell_args (s : State) (r : Report) : (s.tell r).args = s.args := rfl
@[simp] theorem State.tell_events (s : State) (r : Report) : (s.tell r).events = s.events := rfl
@[simp] theorem State.tell_issued (s : State) (r : Report) : (s.tell r).issued = s.issued := rfl
@[simp] theorem State.tell_reports (s : State) (r : Report) : (s.tell r).reports = s.reports ++ [r] := rfl
@[simp] theorem State.tell_freeUsed (s : State) (r : Report) : (s.tell r).freeUsed = s.freeUsed := rfl

@[simp] theorem State.answer_config (s : State) (st : Status) (n : Nat) : (s.answer st n).config = s.config := rfl
@[simp] theorem State.answer_table (s : State) (st : Status) (n : Nat) : (s.answer st n).table = s.table := rfl
@[simp] theorem State.answer_known (s : State) (st : Status) (n : Nat) : (s.answer st n).known = s.known := rfl
@[simp] theorem State.answer_jobs (s : State) (st : Status) (n : Nat) : (s.answer st n).jobs = s.jobs := rfl
@[simp] theorem State.answer_nextJob (s : State) (st : Status) (n : Nat) : (s.answer st n).nextJob = s.nextJob := rfl
@[simp] theorem State.answer_mem (s : State) (st : Status) (n : Nat) : (s.answer st n).mem = s.mem := rfl
@[simp] theorem State.answer_args (s : State) (st : Status) (n : Nat) : (s.answer st n).args = {} := rfl
@[simp] theorem State.answer_events (s : State) (st : Status) (n : Nat) : (s.answer st n).events = s.events := rfl
@[simp] theorem State.answer_issued (s : State) (st : Status) (n : Nat) : (s.answer st n).issued = s.issued + 1 := rfl
@[simp] theorem State.answer_reports (s : State) (st : Status) (n : Nat) :
    (s.answer st n).reports = s.reports ++ [{ id := s.issued, status := st, size := n, handle := none, output := [] }] := rfl
@[simp] theorem State.answer_freeUsed (s : State) (st : Status) (n : Nat) :
    (s.answer st n).freeUsed = s.freeUsed := rfl

@[simp] theorem State.havoc_config (s : State) (v : View) : (s.havoc v).config = s.config := rfl
@[simp] theorem State.havoc_table (s : State) (v : View) : (s.havoc v).table = s.table := rfl
@[simp] theorem State.havoc_known (s : State) (v : View) : (s.havoc v).known = s.known := rfl
@[simp] theorem State.havoc_jobs (s : State) (v : View) : (s.havoc v).jobs = s.jobs := rfl
@[simp] theorem State.havoc_nextJob (s : State) (v : View) : (s.havoc v).nextJob = s.nextJob := rfl
@[simp] theorem State.havoc_args (s : State) (v : View) : (s.havoc v).args = s.args := rfl
@[simp] theorem State.havoc_events (s : State) (v : View) : (s.havoc v).events = s.events := rfl
@[simp] theorem State.havoc_issued (s : State) (v : View) : (s.havoc v).issued = s.issued := rfl
@[simp] theorem State.havoc_reports (s : State) (v : View) : (s.havoc v).reports = s.reports := rfl
@[simp] theorem State.havoc_freeUsed (s : State) (v : View) :
    (s.havoc v).freeUsed = s.freeUsed + (View.addrs v).length := rfl

@[simp] theorem State.cancelJob_config (s : State) (j : Option Nat) : (s.cancelJob j).config = s.config := rfl
@[simp] theorem State.cancelJob_table (s : State) (j : Option Nat) : (s.cancelJob j).table = s.table := rfl
@[simp] theorem State.cancelJob_known (s : State) (j : Option Nat) : (s.cancelJob j).known = s.known := rfl
@[simp] theorem State.cancelJob_nextJob (s : State) (j : Option Nat) : (s.cancelJob j).nextJob = s.nextJob := rfl
@[simp] theorem State.cancelJob_mem (s : State) (j : Option Nat) : (s.cancelJob j).mem = s.mem := rfl
@[simp] theorem State.cancelJob_args (s : State) (j : Option Nat) : (s.cancelJob j).args = s.args := rfl
@[simp] theorem State.cancelJob_events (s : State) (j : Option Nat) : (s.cancelJob j).events = s.events := rfl
@[simp] theorem State.cancelJob_issued (s : State) (j : Option Nat) : (s.cancelJob j).issued = s.issued := rfl
@[simp] theorem State.cancelJob_reports (s : State) (j : Option Nat) : (s.cancelJob j).reports = s.reports := rfl
@[simp] theorem State.cancelJob_freeUsed (s : State) (j : Option Nat) : (s.cancelJob j).freeUsed = s.freeUsed := rfl

@[simp] theorem placeWord_config (s : State) (w : CommandWord) : (placeWord s w).config = s.config := rfl
@[simp] theorem placeWord_table (s : State) (w : CommandWord) : (placeWord s w).table = s.table := rfl
@[simp] theorem placeWord_known (s : State) (w : CommandWord) : (placeWord s w).known = s.known := rfl
@[simp] theorem placeWord_jobs (s : State) (w : CommandWord) : (placeWord s w).jobs = s.jobs := rfl
@[simp] theorem placeWord_nextJob (s : State) (w : CommandWord) : (placeWord s w).nextJob = s.nextJob := rfl
@[simp] theorem placeWord_mem (s : State) (w : CommandWord) : (placeWord s w).mem = s.mem := rfl
@[simp] theorem placeWord_args (s : State) (w : CommandWord) : (placeWord s w).args = s.args := rfl
@[simp] theorem placeWord_events (s : State) (w : CommandWord) :
    (placeWord s w).events = .issue w {} :: s.events := rfl
@[simp] theorem placeWord_issued (s : State) (w : CommandWord) : (placeWord s w).issued = s.issued := rfl
@[simp] theorem placeWord_reports (s : State) (w : CommandWord) : (placeWord s w).reports = s.reports := rfl
@[simp] theorem placeWord_freeUsed (s : State) (w : CommandWord) : (placeWord s w).freeUsed = s.freeUsed := rfl

@[simp] theorem State.setContext_config (s : State) (h : Handle) (c : Option Context) : (s.setContext h c).config = s.config := by
  cases c <;> rfl
@[simp] theorem State.setContext_known (s : State) (h : Handle) (c : Option Context) : (s.setContext h c).known = s.known := by
  cases c <;> rfl
@[simp] theorem State.setContext_jobs (s : State) (h : Handle) (c : Option Context) : (s.setContext h c).jobs = s.jobs := by
  cases c <;> rfl
@[simp] theorem State.setContext_nextJob (s : State) (h : Handle) (c : Option Context) : (s.setContext h c).nextJob = s.nextJob := by
  cases c <;> rfl
@[simp] theorem State.setContext_mem (s : State) (h : Handle) (c : Option Context) : (s.setContext h c).mem = s.mem := by
  cases c <;> rfl
@[simp] theorem State.setContext_args (s : State) (h : Handle) (c : Option Context) : (s.setContext h c).args = s.args := by
  cases c <;> rfl
@[simp] theorem State.setContext_events (s : State) (h : Handle) (c : Option Context) : (s.setContext h c).events = s.events := by
  cases c <;> rfl
@[simp] theorem State.setContext_issued (s : State) (h : Handle) (c : Option Context) : (s.setContext h c).issued = s.issued := by
  cases c <;> rfl
@[simp] theorem State.setContext_reports (s : State) (h : Handle) (c : Option Context) : (s.setContext h c).reports = s.reports := by
  cases c <;> rfl
@[simp] theorem State.setContext_freeUsed (s : State) (h : Handle) (c : Option Context) : (s.setContext h c).freeUsed = s.freeUsed := by
  cases c <;> rfl

@[simp] theorem State.knowReturned_config (s : State) (r : Option Handle) : (s.knowReturned r).config = s.config := by
  cases r <;> rfl
@[simp] theorem State.knowReturned_table (s : State) (r : Option Handle) : (s.knowReturned r).table = s.table := by
  cases r <;> rfl
@[simp] theorem State.knowReturned_jobs (s : State) (r : Option Handle) : (s.knowReturned r).jobs = s.jobs := by
  cases r <;> rfl
@[simp] theorem State.knowReturned_nextJob (s : State) (r : Option Handle) : (s.knowReturned r).nextJob = s.nextJob := by
  cases r <;> rfl
@[simp] theorem State.knowReturned_mem (s : State) (r : Option Handle) : (s.knowReturned r).mem = s.mem := by
  cases r <;> rfl
@[simp] theorem State.knowReturned_args (s : State) (r : Option Handle) : (s.knowReturned r).args = s.args := by
  cases r <;> rfl
@[simp] theorem State.knowReturned_events (s : State) (r : Option Handle) : (s.knowReturned r).events = s.events := by
  cases r <;> rfl
@[simp] theorem State.knowReturned_issued (s : State) (r : Option Handle) : (s.knowReturned r).issued = s.issued := by
  cases r <;> rfl
@[simp] theorem State.knowReturned_reports (s : State) (r : Option Handle) : (s.knowReturned r).reports = s.reports := by
  cases r <;> rfl
@[simp] theorem State.knowReturned_freeUsed (s : State) (r : Option Handle) : (s.knowReturned r).freeUsed = s.freeUsed := by
  cases r <;> rfl

@[simp] theorem State.applyRegion_config (s : State) (v : View) (r : Region) : (s.applyRegion v r).config = s.config := by
  cases r <;> rfl
@[simp] theorem State.applyRegion_table (s : State) (v : View) (r : Region) : (s.applyRegion v r).table = s.table := by
  cases r <;> rfl
@[simp] theorem State.applyRegion_known (s : State) (v : View) (r : Region) : (s.applyRegion v r).known = s.known := by
  cases r <;> rfl
@[simp] theorem State.applyRegion_jobs (s : State) (v : View) (r : Region) : (s.applyRegion v r).jobs = s.jobs := by
  cases r <;> rfl
@[simp] theorem State.applyRegion_nextJob (s : State) (v : View) (r : Region) : (s.applyRegion v r).nextJob = s.nextJob := by
  cases r <;> rfl
@[simp] theorem State.applyRegion_args (s : State) (v : View) (r : Region) : (s.applyRegion v r).args = s.args := by
  cases r <;> rfl
@[simp] theorem State.applyRegion_events (s : State) (v : View) (r : Region) : (s.applyRegion v r).events = s.events := by
  cases r <;> rfl
@[simp] theorem State.applyRegion_issued (s : State) (v : View) (r : Region) : (s.applyRegion v r).issued = s.issued := by
  cases r <;> rfl
@[simp] theorem State.applyRegion_reports (s : State) (v : View) (r : Region) : (s.applyRegion v r).reports = s.reports := by
  cases r <;> rfl

@[simp] theorem State.finish_config (s : State) (id : Nat) (h : Handle) (v : View) (c : Commit) : (s.finish id h v c).config = s.config := by
  simp [State.finish]
@[simp] theorem State.finish_jobs (s : State) (id : Nat) (h : Handle) (v : View) (c : Commit) : (s.finish id h v c).jobs = s.jobs := by
  simp [State.finish]
@[simp] theorem State.finish_nextJob (s : State) (id : Nat) (h : Handle) (v : View) (c : Commit) : (s.finish id h v c).nextJob = s.nextJob := by
  simp [State.finish]
@[simp] theorem State.finish_args (s : State) (id : Nat) (h : Handle) (v : View) (c : Commit) : (s.finish id h v c).args = s.args := by
  simp [State.finish]
@[simp] theorem State.finish_events (s : State) (id : Nat) (h : Handle) (v : View) (c : Commit) : (s.finish id h v c).events = s.events := by
  simp [State.finish]
@[simp] theorem State.finish_issued (s : State) (id : Nat) (h : Handle) (v : View) (c : Commit) : (s.finish id h v c).issued = s.issued := by
  simp [State.finish]
@[simp] theorem State.finish_reports (s : State) (id : Nat) (h : Handle) (v : View) (c : Commit) :
    (s.finish id h v c).reports =
      s.reports ++ [{ id := id, status := c.status, size := c.size, handle := c.returns, output := c.output }] := by
  simp [State.finish]
@[simp] theorem State.finish_table (s : State) (id : Nat) (h : Handle) (v : View) (c : Commit) : (s.finish id h v c).table = (s.setContext h c.ctx).table := by
  simp [State.finish]
@[simp] theorem State.finish_known (s : State) (id : Nat) (h : Handle) (v : View) (c : Commit) : (s.finish id h v c).known = (s.knowReturned c.returns).known := by
  cases hr : c.returns <;> simp [State.finish, hr, State.knowReturned]
@[simp] theorem State.finish_mem (s : State) (id : Nat) (h : Handle) (v : View) (c : Commit) : (s.finish id h v c).mem = (s.applyRegion v c.region).mem := by
  cases hr : c.region <;> simp [State.finish, hr, State.applyRegion, State.havoc]
@[simp] theorem State.finish_freeUsed (s : State) (id : Nat) (h : Handle) (v : View) (c : Commit) :
    (s.finish id h v c).freeUsed = (s.applyRegion v c.region).freeUsed := by
  cases hr : c.region <;> simp [State.finish, hr, State.applyRegion, State.havoc]

@[simp] theorem State.jobEnded_config (s : State) (h : Handle) (f : InFlight) (r : JobResult) :
    (s.jobEnded h f r).config = s.config := by
  cases r <;> simp only [State.jobEnded, State.failInFlight, State.jobSucceeded]
  · split <;> simp
  · simp
@[simp] theorem State.jobEnded_jobs (s : State) (h : Handle) (f : InFlight) (r : JobResult) :
    (s.jobEnded h f r).jobs = s.jobs := by
  cases r <;> simp only [State.jobEnded, State.failInFlight, State.jobSucceeded]
  · split <;> simp
  · simp
@[simp] theorem State.jobEnded_nextJob (s : State) (h : Handle) (f : InFlight) (r : JobResult) :
    (s.jobEnded h f r).nextJob = s.nextJob := by
  cases r <;> simp only [State.jobEnded, State.failInFlight, State.jobSucceeded]
  · split <;> simp
  · simp
@[simp] theorem State.jobEnded_args (s : State) (h : Handle) (f : InFlight) (r : JobResult) :
    (s.jobEnded h f r).args = s.args := by
  cases r <;> simp only [State.jobEnded, State.failInFlight, State.jobSucceeded]
  · split <;> simp
  · simp
@[simp] theorem State.jobEnded_events (s : State) (h : Handle) (f : InFlight) (r : JobResult) :
    (s.jobEnded h f r).events = s.events := by
  cases r <;> simp only [State.jobEnded, State.failInFlight, State.jobSucceeded]
  · split <;> simp
  · simp
@[simp] theorem State.jobEnded_issued (s : State) (h : Handle) (f : InFlight) (r : JobResult) :
    (s.jobEnded h f r).issued = s.issued := by
  cases r <;> simp only [State.jobEnded, State.failInFlight, State.jobSucceeded]
  · split <;> simp
  · simp

end Sys2Proof.Machine
end

