-- ==== Sys2Proof/Laws/Commands.lean ====
section
/-! SUPPORT. What the shared operations of the commands do, said once: the operand checks when they pass, a command's launch,
and a command answered at its issue. -/

namespace Sys2Proof.Machine

/-! ### The table -/

@[simp] theorem State.lookup_put_same (s : State) (h : Handle) (x : Slot) : (s.put h x).lookup h = some x :=
  Assoc.get_set_same h x s.table

theorem State.lookup_put_ne {h h' : Handle} (hne : h' ≠ h) (s : State) (x : Slot) :
    (s.put h x).lookup h' = s.lookup h' := Assoc.get_set_ne hne x s.table

@[simp] theorem State.lookup_drop_same (s : State) (h : Handle) : (s.drop h).lookup h = none :=
  Assoc.get_erase_same h s.table

theorem State.lookup_drop_ne {h h' : Handle} (hne : h' ≠ h) (s : State) : (s.drop h).lookup h' = s.lookup h' :=
  Assoc.get_erase_ne hne s.table

@[simp] theorem State.lookup_setContext_same (s : State) (h : Handle) (c : Option Context) :
    (s.setContext h c).lookup h = c.map .active := by
  cases c <;> simp [State.setContext]

theorem State.lookup_setContext_ne {h h' : Handle} (hne : h' ≠ h) (s : State) (c : Option Context) :
    (s.setContext h c).lookup h' = s.lookup h' := by
  cases c with
  | none => exact State.lookup_drop_ne hne s
  | some c => exact State.lookup_put_ne hne s _

/-- A state with the same table reads the same slots. -/
theorem State.lookup_congr {s t : State} (h : t.table = s.table) (k : Handle) : t.lookup k = s.lookup k := by
  unfold State.lookup
  rw [h]

@[simp] theorem State.lookup_finish_same (s : State) (id : Nat) (h : Handle) (v : View) (c : Commit) :
    (s.finish id h v c).lookup h = c.ctx.map .active := by
  rw [State.lookup_congr (State.finish_table s id h v c), State.lookup_setContext_same]

theorem State.lookup_finish_ne {h h' : Handle} (hne : h' ≠ h) (s : State) (id : Nat) (v : View) (c : Commit) :
    (s.finish id h v c).lookup h' = s.lookup h' := by
  rw [State.lookup_congr (State.finish_table s id h v c), State.lookup_setContext_ne hne]

/-- A completion changes no byte outside its output view. -/
theorem State.read_finish {a : Nat} {v : View} (ha : a ∉ View.addrs v) (s : State) (id : Nat) (h : Handle) (c : Commit) :
    Memory.read (s.finish id h v c).mem a = Memory.read s.mem a := by
  rw [State.finish_mem, State.read_applyRegion ha]

/-- A launch leaves every slot but its own. -/
theorem State.lookup_launch_ne {h k : Handle} (hk : k ≠ h) (s : State) (i : Instr) (snapshot : Option Context)
    (inV outV : View) (jobs : List Nat) (c : Commit) :
    (s.launch i h snapshot inV outV jobs c).lookup k = s.lookup k := by
  unfold State.launch
  split
  · exact State.lookup_finish_ne hk _ _ _ _
  · exact State.lookup_put_ne hk _ _

/-- A launch changes no byte outside its output view. -/
theorem State.read_launch {a : Nat} {outV : View} (ha : a ∉ View.addrs outV) (s : State) (i : Instr) (h : Handle)
    (snapshot : Option Context) (inV : View) (jobs : List Nat) (c : Commit) :
    Memory.read (s.launch i h snapshot inV outV jobs c).mem a = Memory.read s.mem a := by
  unfold State.launch
  split
  · exact State.read_finish ha _ _ _ _
  · rfl

theorem State.mem_know {s : State} {h k : Handle} : k ∈ (s.know h).known ↔ k = h ∨ k ∈ s.known := by
  unfold State.know
  by_cases hk : h ∈ s.known
  · simp only [hk, if_true]
    constructor
    · exact .inr
    · rintro (rfl | h1)
      · exact hk
      · exact h1
  · simp [hk]

/-! ### The commit of a command -/

/-- The commits whose effects `Completes` describes: the output region is written, and only on SUCCESS. -/
def Commit.plain (c : Commit) : Prop := ∃ b, c.region = .bytes b ∧ (c.status = .success ∨ b = [])

theorem Commit.plain_keep (c : Context) (out : Bytes) : (Commit.keep c out).plain := ⟨out, rfl, .inl rfl⟩

theorem Commit.plain_consume (out : Bytes) : (Commit.consume out).plain := ⟨out, rfl, .inl rfl⟩

theorem Commit.plain_fail (st : Status) : (Commit.fail st).plain := ⟨[], rfl, .inr rfl⟩

theorem Commit.plain_tooSmall (n : Nat) : (Commit.tooSmall n).plain := ⟨[], rfl, .inr rfl⟩

theorem Commit.plain_verified (p : Option Bytes) : (Commit.verified p).plain := by
  cases p
  · exact Commit.plain_fail _
  · exact Commit.plain_consume _

/-- A plain commit writes exactly the bytes it reports. -/
theorem State.applyRegion_of_plain {c : Commit} (hc : c.plain) (s : State) (v : View) :
    s.applyRegion v c.region = { s with mem := Memory.writeAll s.mem (View.addrs v) c.output } := by
  obtain ⟨b, hb, hs⟩ := hc
  rcases hs with hs | rfl
  · simp [State.applyRegion, hb, Commit.output, hs]
  · have : c.output = [] := by
      unfold Commit.output
      split
      · rename_i h1 h2
        rw [hb] at h2
        cases h2
        rfl
      · rfl
    simp [State.applyRegion, hb, this]

/-- The effect a commit makes. -/
def Commit.effect (c : Commit) (h : Handle) : Effect where
  handle := h
  ctx := c.ctx
  status := c.status
  size := c.size
  returns := c.returns
  output := c.output

/-- Finishing a command on a state that differs from `s` only in the handle's own slot, its being known, the operand record and
the job numbers leaves `s` after the commit's effect. -/
theorem State.after_finish {s t : State} {h : Handle} {v : View} {c : Commit} (hc : c.plain)
    (hret : ∀ k, c.returns = some k → k = h)
    (hview : v = s.args.outView ∨ c.output = [])
    (others : ∀ k, k ≠ h → t.lookup k = s.lookup k) (reports : t.reports = s.reports)
    (issued : t.issued = s.issued + 1) (mem : t.mem = s.mem) (config : t.config = s.config) (jobs : t.jobs = s.jobs)
    (events : t.events = s.events) (free : t.freeUsed = s.freeUsed) (args : t.args = {})
    (known : ∀ k ∈ s.known, k ∈ t.known) (learned : ∀ k ∈ t.known, k ∈ s.known ∨ k = h) :
    After s (c.effect h) (t.finish s.issued h v c) where
  slot := by simp [Commit.effect]
  others := fun k hk => by rw [State.lookup_finish_ne (show k ≠ h from hk), others k hk]
  report := by simp [Commit.effect, reports]
  issued := by simp [issued]
  mem := by
    rw [State.finish_mem, State.applyRegion_of_plain hc]
    rcases hview with rfl | ho
    · simp [Commit.effect, mem]
    · simp [Commit.effect, ho, mem]
  config := by simp [config]
  jobs := by simp [jobs]
  events := by simp [events]
  free := by
    rw [State.finish_freeUsed, State.applyRegion_of_plain hc]
    simp [free]
  args := by simp [args]
  known := fun k hk => by
    rw [State.finish_known]
    cases c.returns with
    | none => exact known k hk
    | some r => exact State.mem_know.mpr (.inr (known k hk))
  returned := fun k hk => by
    rw [State.finish_known]
    have : c.returns = some k := hk
    rw [this]
    exact State.mem_know.mpr (.inl rfl)
  learned := fun k hk => by
    rw [State.finish_known] at hk
    cases hr : c.returns with
    | none =>
      rw [hr] at hk
      exact learned k hk
    | some r =>
      rw [hr] at hk
      rcases State.mem_know.mp hk with rfl | hk
      · exact .inr (hret k hr)
      · exact learned k hk

/-- THE LAW OF A LAUNCH: a command that passed its checks answers a next state and has its commit's effect and no other, at once
or when its jobs have completed. -/
theorem State.launch_completes (s : State) (i : Instr) (h : Handle) (snapshot : Option Context) (inV outV : View)
    (jobs : List Nat) {c : Commit} (hc : c.plain) (hret : ∀ k, c.returns = some k → k = h)
    (hview : outV = s.args.outView ∨ c.output = []) :
    Completes s (.next (s.launch i h snapshot inV outV jobs c)) snapshot (c.effect h) := by
  refine ⟨_, rfl, ?_⟩
  unfold State.launch
  split
  · have ha : After s (c.effect h) (s.accept.finish s.issued h outV c) :=
      State.after_finish hc hret hview (fun _ _ => rfl) rfl rfl rfl rfl rfl rfl rfl rfl (fun _ hk => hk)
        (fun _ hk => .inl hk)
    refine ⟨.inl ha, ?_⟩
    have hs : (s.accept.finish s.issued h outV c).lookup h = c.ctx.map .active := State.lookup_finish_same ..
    have : (s.accept.finish s.issued h outV c).settle h = s.accept.finish s.issued h outV c := by
      unfold State.settle
      rw [hs]
      cases c.ctx <;> rfl
    show After s (c.effect h) (State.settle _ h)
    rwa [this]
  · rename_i hj
    refine ⟨.inr ?_, ?_⟩
    · exact
        { slot := ⟨_, State.lookup_put_same _ _ _, rfl, rfl, rfl, hj⟩
          others := fun k hk => State.lookup_put_ne hk _ _
          reports := rfl, issued := rfl, mem := rfl, config := rfl, jobs := rfl, events := rfl, free := rfl
          args := rfl, known := State.mem_know.mpr (.inl rfl) }
    · show After s (c.effect h) (State.settle _ h)
      unfold State.settle
      rw [show ∀ (t : State) (x : Slot), ((t.put h x).know h).lookup h = some x from
        fun t x => State.lookup_put_same t h x]
      refine State.after_finish hc hret hview (fun k hk => State.lookup_put_ne hk _ _) rfl rfl rfl rfl rfl rfl rfl rfl
        (fun k hk => State.mem_know.mpr (.inr hk)) fun k hk => ?_
      rcases State.mem_know.mp hk with rfl | hk
      · exact .inr rfl
      · exact .inl hk

/-! ### Views -/

theorem ByteRange.overlaps_comm (r q : ByteRange) : r.overlaps q = q.overlaps r := by
  rw [Bool.eq_iff_iff]
  simp only [ByteRange.overlaps, Bool.and_eq_true, decide_eq_true_eq]
  omega

theorem View.overlaps_iff (v w : View) : View.overlaps v w = true ↔ ∃ r ∈ v, ∃ q ∈ w, r.overlaps q = true := by
  simp [View.overlaps]

theorem View.overlaps_comm (v w : View) : View.overlaps v w = View.overlaps w v := by
  rw [Bool.eq_iff_iff, View.overlaps_iff, View.overlaps_iff]
  constructor <;> rintro ⟨r, hr, q, hq, h⟩ <;> exact ⟨q, hq, r, hr, by rwa [ByteRange.overlaps_comm]⟩

/-- Two views that name a common address share a byte. -/
theorem View.overlaps_of_mem {v w : View} {x : Nat} (hv : x ∈ View.addrs v) (hw : x ∈ View.addrs w) :
    View.overlaps v w = true := by
  obtain ⟨r, hr, h1⟩ := List.mem_flatMap.mp hv
  obtain ⟨q, hq, h2⟩ := List.mem_flatMap.mp hw
  rw [List.mem_range'_1] at h1 h2
  refine (View.overlaps_iff v w).mpr ⟨r, hr, q, hq, ?_⟩
  simp only [ByteRange.overlaps, Bool.and_eq_true, decide_eq_true_eq]
  omega

/-- No view of a command in flight clashes with two views that clash with none. -/
theorem State.apart_of_viewsClash {s : State} {inV outV : View} (hv : s.viewsClash inV outV = false) {h : Handle}
    {f : InFlight} (hf : s.lookup h = some (.busy f)) :
    View.overlaps outV f.outView = false ∧ View.overlaps outV f.inView = false ∧
      View.overlaps f.outView inV = false := by
  have := List.any_eq_false.mp hv _ (Assoc.mem_of_get hf)
  simp only [Bool.or_eq_true, not_or, Bool.not_eq_true] at this
  exact ⟨this.1.2, this.1.1, by rw [View.overlaps_comm]; exact this.2⟩

/-- Views that are not refused clash with none. -/
theorem State.viewsClash_of_viewRefusal {s : State} {inV outV : View} (hv : s.viewRefusal inV outV = none) :
    s.viewsClash inV outV = false := by
  unfold State.viewRefusal at hv
  split at hv
  · cases hv
  · split at hv
    · cases hv
    · exact Bool.eq_false_iff.mpr ‹_›

theorem State.viewsClash_nil (s : State) : s.viewsClash [] [] = false := by
  refine List.any_eq_false.mpr fun e _ => ?_
  cases e.2 <;> simp [View.overlaps]

/-! ### The operand checks -/

/-- On a context that is ready, UPDATE and FINAL go on with it. -/
theorem onContext_of_ready {s : State} {inV : View} {c : Context} {m : Mode} {d : Dir} {a : Alg}
    (r : Ready s inV c m d a) (k : Context → Result) : onContext s inV m d a k = k c := by
  simp [onContext, r.active, r.views, r.mode, r.dir, r.alg]

/-- When INIT's checks pass, the drawn handle is allocated. -/
theorem initChecks_of_ready {s : State} {m : Mode} {a : Alg} {h : Handle} (r : InitReady s m a h) :
    s.initChecks m a = .ok h := by
  have hd : s.freshHandle s.args.draws.handle = h := by
    rw [r.drawn]
    simp [State.freshHandle, r.absent]
  simp [State.initChecks, r.supported, r.keyType, r.keyLen, r.params, r.room, hd]

/-- When its views are not refused and INIT's checks pass, ATOMIC goes on with the handle drawn. -/
theorem onAtomic_of_ready {s : State} {m : Mode} {a : Alg} {h : Handle} (r : InitReady s m a h)
    (hv : s.viewRefusal s.args.inView s.args.outView = none) (k : Handle → Result) : onAtomic s m a k = k h := by
  simp [onAtomic, hv, initChecks_of_ready r]

/-- INIT when its checks pass. -/
theorem initCommand_completes (P : Prim) (i : Instr) {s : State} {m : Mode} {a : Alg} {h : Handle} (d : Dir)
    (r : InitReady s m a h) :
    Completes s (initCommand P i m d a s) none
      { handle := h, ctx := some (s.newContext P m d a), status := .success, size := 0, returns := some h } := by
  unfold initCommand
  rw [initChecks_of_ready r]
  exact State.launch_completes s i h none [] [] _ ⟨[], rfl, .inr rfl⟩ (fun k hk => (Option.some.inj hk).symm)
    (.inr rfl)

/-- A fresh handle is ABSENT. -/
theorem State.lookup_freshHandle (s : State) (draw : Handle) : s.lookup (s.freshHandle draw) = none := by
  unfold State.freshHandle
  split
  · rename_i h
    simpa using h
  · have key : ∀ (l : List (Handle × Slot)) (n : Nat),
        n ≤ l.foldl (fun m e => max m (e.1 + 1)) n ∧ ∀ e ∈ l, e.1 < l.foldl (fun m e => max m (e.1 + 1)) n := by
      intro l
      induction l with
      | nil => simp
      | cons d t ih =>
        intro n
        obtain ⟨h1, h2⟩ := ih (max n (d.1 + 1))
        simp only [List.foldl_cons, List.mem_cons, forall_eq_or_imp]
        exact ⟨le_trans (le_max_left ..) h1, lt_of_lt_of_le (Nat.lt_succ_self _) (le_trans (le_max_right ..) h1), h2⟩
    cases hg : s.lookup (s.table.foldl (fun m e => max m (e.1 + 1)) 0) with
    | none => rfl
    | some x => exact absurd ((key s.table 0).2 _ (Assoc.mem_of_get hg)) (lt_irrefl _)

end Sys2Proof.Machine
end

