-- ==== Sys2Proof/Laws/Bytes.lean ====
section
/-! SUPPORT. Lengths and blocks of byte strings, the Block Primitive's functions, and the lengths of what the engines make. -/

namespace Sys2Proof.Machine

@[simp] theorem zeros_length (n : Nat) : (zeros n).length = n := List.length_replicate

@[simp] theorem pad0_length (s : Bytes) (n : Nat) : (pad0 s n).length = max s.length n := by
  simp [pad0]
  omega

@[simp] theorem xorBytes_length (a b : Bytes) : (xorBytes a b).length = min a.length b.length := List.length_zipWith

@[simp] theorem beBytes_length (n v : Nat) : (beBytes n v).length = n := by
  induction n with
  | zero => rfl
  | succ n ih => simp [beBytes, ih]

@[simp] theorem inc_length (ctr : Bytes) (cb : Nat) : (inc ctr cb).length = ctr.length := beBytes_length _ _

theorem blockSize_pos (a : Alg) : 0 < blockSize a := by cases a <;> decide

theorem Context.B_pos (c : Context) : 0 < c.B := blockSize_pos _

/-! ### Blocks -/

theorem ceilDiv_zero {B : Nat} (hB : 0 < B) : ceilDiv 0 B = 0 := by
  unfold ceilDiv
  exact Nat.div_eq_of_lt (by omega)

theorem ceilDiv_step {B n : Nat} (hB : 0 < B) (hn : 0 < n) : ceilDiv n B = ceilDiv (n - B) B + 1 := by
  unfold ceilDiv
  by_cases h : B ≤ n
  · rw [show n + B - 1 = (n - B + B - 1) + B by omega, Nat.add_div_right _ hB]
  · have h1 : n - B = 0 := by omega
    rw [h1, Nat.div_eq_of_lt (show 0 + B - 1 < B by omega)]
    exact Nat.div_eq_of_lt_le (by omega) (by omega)

@[simp] theorem chunks_length (B : Nat) (s : Bytes) : (chunks B s).length = ceilDiv s.length B := by
  simp [chunks]

theorem chunks_nil {B : Nat} (hB : 0 < B) : chunks B [] = [] := by
  simp [chunks, ceilDiv_zero hB]

/-- The blocks of a non-empty string: its first, then those of the rest. -/
theorem chunks_step {B : Nat} (hB : 0 < B) {s : Bytes} (hs : s ≠ []) :
    chunks B s = s.take B :: chunks B (s.drop B) := by
  have hn : 0 < s.length := List.length_pos_iff.mpr hs
  unfold chunks
  rw [ceilDiv_step hB hn, List.range_succ_eq_map]
  simp only [List.map_cons, List.map_map, Nat.zero_mul, List.drop_zero, List.length_drop, List.cons.injEq, true_and]
  refine List.map_congr_left fun k _ => ?_
  simp only [Function.comp, List.drop_drop]
  rw [show Nat.succ k * B = B + k * B by rw [Nat.succ_mul]; omega]

/-- Strong induction over the blocks of a string. -/
theorem chunks_induction {B : Nat} (hB : 0 < B) {motive : Bytes → Prop} (nil : motive [])
    (step : ∀ s, s ≠ [] → motive (s.drop B) → motive s) (s : Bytes) : motive s := by
  generalize hn : s.length = n
  induction n using Nat.strong_induction_on generalizing s with
  | _ n ih =>
    by_cases hs : s = []
    · exact hs ▸ nil
    · refine step s hs (ih (s.drop B).length ?_ _ rfl)
      have := List.length_pos_iff.mpr hs
      simp
      omega

/-- The blocks joined give the string back. -/
theorem chunks_flatten {B : Nat} (hB : 0 < B) (s : Bytes) : (chunks B s).flatten = s := by
  induction s using chunks_induction hB with
  | nil => simp [chunks_nil hB]
  | step s hs ih => rw [chunks_step hB hs, List.flatten_cons, ih, List.take_append_drop]

/-- A whole number of blocks first: the blocks of the two parts. -/
theorem chunks_append {B : Nat} (hB : 0 < B) (s t : Bytes) (h : s.length % B = 0) :
    chunks B (s ++ t) = chunks B s ++ chunks B t := by
  induction s using chunks_induction hB with
  | nil => simp [chunks_nil hB]
  | step s hs ih =>
    have hn : 0 < s.length := List.length_pos_iff.mpr hs
    have hle : B ≤ s.length := by
      by_contra hlt
      rw [Nat.mod_eq_of_lt (by omega)] at h
      omega
    rw [chunks_step hB (by simp [hs]), chunks_step hB hs, List.cons_append, List.take_append_of_le_length hle,
      List.drop_append_of_le_length hle, ih (by rw [List.length_drop, ← Nat.mod_eq_sub_mod hle, h])]

/-- In a string of whole blocks every block has B bytes. -/
theorem length_of_mem_chunks {B : Nat} (hB : 0 < B) {s X : Bytes} (h : s.length % B = 0) (hX : X ∈ chunks B s) :
    X.length = B := by
  induction s using chunks_induction hB with
  | nil => simp [chunks_nil hB] at hX
  | step s hs ih =>
    have hn : 0 < s.length := List.length_pos_iff.mpr hs
    have hle : B ≤ s.length := by
      by_contra hlt
      rw [Nat.mod_eq_of_lt (by omega)] at h
      omega
    rw [chunks_step hB hs] at hX
    rcases List.mem_cons.mp hX with rfl | hX
    · simp [hle]
    · exact ih (by rw [List.length_drop, ← Nat.mod_eq_sub_mod hle, h]) hX

/-- Every block has at most B bytes and at least one. -/
theorem length_mem_chunks_le {B : Nat} (hB : 0 < B) {s X : Bytes} (hX : X ∈ chunks B s) :
    1 ≤ X.length ∧ X.length ≤ B := by
  induction s using chunks_induction hB with
  | nil => simp [chunks_nil hB] at hX
  | step s hs ih =>
    rw [chunks_step hB hs] at hX
    rcases List.mem_cons.mp hX with rfl | hX
    · have : 0 < s.length := List.length_pos_iff.mpr hs
      simp
      omega
    · exact ih hX

theorem ceilDiv_of_mod {B n : Nat} (hB : 0 < B) (h : n % B = 0) : ceilDiv n B = n / B := by
  obtain ⟨k, rfl⟩ := Nat.dvd_of_mod_eq_zero h
  unfold ceilDiv
  rw [Nat.mul_div_cancel_left _ hB]
  refine Nat.div_eq_of_lt_le ?_ ?_
  · rw [Nat.mul_comm]; omega
  · rw [Nat.succ_mul, Nat.mul_comm]; omega

/-- The whole blocks at the front of a string have a length that is a multiple of B. -/
theorem length_take_whole (B : Nat) (s : Bytes) : (s.take (s.length / B * B)).length = s.length / B * B := by
  simp [Nat.div_mul_le_self]

/-! ### The Block Primitive -/

@[simp] theorem encryptBlock_length (ks : KeySchedule) (X : Bytes) : (encryptBlock ks X).length = blockSize ks.alg := by
  simp [encryptBlock]

@[simp] theorem decryptBlock_length (ks : KeySchedule) (X : Bytes) : (decryptBlock ks X).length = blockSize ks.alg := by
  simp [decryptBlock]

theorem fitBlock_of_length {B : Nat} {X : Bytes} (h : X.length = B) : fitBlock B X = ⟨X, h⟩ := by
  apply Subtype.ext
  subst h
  simp [fitBlock, pad0, zeros]

/-- `D(ks, E(ks, X)) = X` on blocks (00 R16). -/
theorem decryptBlock_encryptBlock (ks : KeySchedule) {X : Bytes} (h : X.length = blockSize ks.alg) :
    decryptBlock ks (encryptBlock ks X) = X := by
  have h2 : (⟨encryptBlock ks X, encryptBlock_length ks X⟩ : List.Vector Byte (blockSize ks.alg)) =
      Config.cipher (blockSize ks.alg) ks ⟨X, h⟩ := by
    apply Subtype.ext
    show (Config.cipher (blockSize ks.alg) ks (fitBlock (blockSize ks.alg) X)).toList = _
    rw [fitBlock_of_length h]
    rfl
  unfold decryptBlock
  rw [fitBlock_of_length (encryptBlock_length ks X)]
  exact congrArg List.Vector.toList ((congrArg _ h2).trans (Equiv.symm_apply_apply _ _))

/-! ### What the engines make -/

/-- Each block function emits as many bytes as it takes when E or D gives B bytes. -/
theorem ecbBlocks_length {f : Bytes → Bytes} {B : Nat} (hf : ∀ X, (f X).length = B) (Xs : List Bytes) :
    (ecbBlocks f Xs).length = Xs.length * B := by
  induction Xs with
  | nil => simp [ecbBlocks]
  | cons X Xs ih =>
    have : ecbBlocks f (X :: Xs) = f X ++ ecbBlocks f Xs := by simp [ecbBlocks]
    rw [this, List.length_append, ih, hf, List.length_cons, Nat.succ_mul]
    omega

theorem cbcEncBlocks_length {E : Bytes → Bytes} {B : Nat} (hE : ∀ X, (E X).length = B) (v : Bytes) (Xs : List Bytes) :
    (cbcEncBlocks E v Xs).1.length = Xs.length * B := by
  induction Xs generalizing v with
  | nil => simp [cbcEncBlocks]
  | cons X Xs ih =>
    simp [cbcEncBlocks, hE, ih, Nat.succ_mul]
    omega

/-- The chaining value stays a block. -/
theorem cbcEncBlocks_iv_length {E : Bytes → Bytes} {B : Nat} (hE : ∀ X, (E X).length = B) {v : Bytes}
    (hv : v.length = B) (Xs : List Bytes) : (cbcEncBlocks E v Xs).2.length = B := by
  induction Xs generalizing v with
  | nil => simpa [cbcEncBlocks] using hv
  | cons X Xs ih => exact ih (hE _)

theorem cbcDecBlocks_length {D : Bytes → Bytes} {B : Nat} (hD : ∀ X, (D X).length = B) {v : Bytes} (hv : v.length = B)
    {Xs : List Bytes} (hX : ∀ X ∈ Xs, X.length = B) : (cbcDecBlocks D v Xs).1.length = Xs.length * B := by
  induction Xs generalizing v with
  | nil => simp [cbcDecBlocks]
  | cons X Xs ih =>
    have h1 := hX X (by simp)
    have h2 := ih h1 fun Y hY => hX Y (by simp [hY])
    simp [cbcDecBlocks, hD, hv, h2, Nat.succ_mul]
    omega

theorem cbcDecBlocks_iv_length {D : Bytes → Bytes} {B : Nat} {v : Bytes} (hv : v.length = B)
    {Xs : List Bytes} (hX : ∀ X ∈ Xs, X.length = B) : (cbcDecBlocks D v Xs).2.length = B := by
  induction Xs generalizing v with
  | nil => simpa [cbcDecBlocks] using hv
  | cons X Xs ih => exact ih (hX X (by simp)) fun Y hY => hX Y (by simp [hY])

@[simp] theorem ghashStep_length (H acc X : Bytes) : (ghashStep H acc X).length = 16 := beBytes_length _ _

/-- GHASH keeps the accumulator a block. -/
theorem ghash_length {H acc : Bytes} (h : acc.length = 16) (s : Bytes) : (ghash H acc s).length = 16 := by
  unfold ghash
  induction chunks 16 s generalizing acc with
  | nil => simpa using h
  | cons X Xs ih => exact ih (ghashStep_length _ _ _)

/-- The drain hands on what it does not consume, and emits one byte for each it does. -/
theorem drain_length (p : StreamParams) (k : Keystream) (xs : Bytes) :
    (drain p k xs).1.length + (drain p k xs).2.2.length = xs.length := by
  induction xs generalizing k with
  | nil => simp [drain]
  | cons x xs ih =>
    unfold drain
    split
    · simp
    · simp only [List.length_cons]
      have := ih (drainByte p k x).2
      omega

theorem streamBlocks_length {E : Bytes → Bytes} {p : StreamParams} (hE : ∀ X, (E X).length = p.B) (k : Keystream)
    {Xs : List Bytes} (hX : ∀ X ∈ Xs, X.length ≤ p.B) :
    (streamBlocks E p k Xs).1.length = Xs.flatten.length := by
  induction Xs generalizing k with
  | nil => simp [streamBlocks]
  | cons X Xs ih =>
    have h1 := hX X (by simp)
    have h2 := ih (streamBlock E p k X).2 fun Y hY => hX Y (by simp [hY])
    simp only [streamBlocks, List.length_append, h2, List.flatten_cons]
    simp [streamBlock, hE]
    omega

/-- A stream-mode command emits exactly as many bytes as it takes (40 R166). -/
theorem stream_length {E : Bytes → Bytes} {p : StreamParams} (hB : 0 < p.B) (hE : ∀ X, (E X).length = p.B)
    (k : Keystream) (xs : Bytes) : (stream E p k xs).1.length = xs.length := by
  simp only [stream, List.length_append]
  rw [streamBlocks_length hE _ fun X hX => (length_mem_chunks_le hB hX).2, chunks_flatten hB]
  exact drain_length p k xs

theorem ccmEncBlocks_length {E : Bytes → Bytes} (hE : ∀ X, (E X).length = 16) (cb : Nat) (k : MacCtr) {Xs : List Bytes}
    (hX : ∀ X ∈ Xs, X.length = 16) : (ccmEncBlocks E cb k Xs).1.length = Xs.length * 16 := by
  induction Xs generalizing k with
  | nil => simp [ccmEncBlocks]
  | cons X Xs ih =>
    have h1 := hX X (by simp)
    have h2 := ih { acc := E (xorBytes k.acc X), ctr := inc k.ctr cb } fun Y hY => hX Y (by simp [hY])
    simp [ccmEncBlocks, hE, h1, h2, Nat.succ_mul]
    omega

theorem gcmEncBlocks_length {E : Bytes → Bytes} (hE : ∀ X, (E X).length = 16) (H : Bytes) (k : HashCtr)
    {Xs : List Bytes} (hX : ∀ X ∈ Xs, X.length = 16) : (gcmEncBlocks E H k Xs).1.length = Xs.length * 16 := by
  induction Xs generalizing k with
  | nil => simp [gcmEncBlocks]
  | cons X Xs ih =>
    have h1 := hX X (by simp)
    have h2 := ih { acc := ghash H k.acc (xorBytes X (E k.ctr)), ctr := inc k.ctr 32 } fun Y hY => hX Y (by simp [hY])
    simp [gcmEncBlocks, hE, h1, h2, Nat.succ_mul]
    omega

end Sys2Proof.Machine
end

