-- ==== Sys2Proof/Laws/Contexts.lean ====
section
/-! SUPPORT. The context invariants of 10 R51 and R56 through every operation on a context, and its read-only fields. -/

namespace Sys2Proof.Machine

theorem Context.SameFixed.rfl' (c : Context) : c.SameFixed c := ⟨rfl, rfl, rfl, rfl, rfl, rfl, rfl, rfl, rfl, rfl, rfl⟩

/-! ### The read-only fields -/

theorem sameFixed_ecbUpdate (P : Prim) (c : Context) (x : Bytes) : c.SameFixed (ecbUpdate P c x).2 :=
  ⟨rfl, rfl, rfl, rfl, rfl, rfl, rfl, rfl, rfl, rfl, rfl⟩

theorem sameFixed_cbcUpdate (P : Prim) (c : Context) (x : Bytes) : c.SameFixed (cbcUpdate P c x).2 :=
  ⟨rfl, rfl, rfl, rfl, rfl, rfl, rfl, rfl, rfl, rfl, rfl⟩

theorem sameFixed_cbcPadDecUpdate (P : Prim) (c : Context) (x : Bytes) : c.SameFixed (cbcPadDecUpdate P c x).2 := by
  unfold cbcPadDecUpdate
  dsimp only
  split <;> exact ⟨rfl, rfl, rfl, rfl, rfl, rfl, rfl, rfl, rfl, rfl, rfl⟩

theorem sameFixed_streamUpdate (P : Prim) (c : Context) (x : Bytes) : c.SameFixed (streamUpdate P c x).2 :=
  ⟨rfl, rfl, rfl, rfl, rfl, rfl, rfl, rfl, rfl, rfl, rfl⟩

theorem sameFixed_ccmEncUpdate (P : Prim) (c : Context) (x : Bytes) : c.SameFixed (ccmEncUpdate P c x).2 :=
  ⟨rfl, rfl, rfl, rfl, rfl, rfl, rfl, rfl, rfl, rfl, rfl⟩

theorem sameFixed_gcmEncUpdate (P : Prim) (c : Context) (x : Bytes) : c.SameFixed (gcmEncUpdate P c x).2 :=
  ⟨rfl, rfl, rfl, rfl, rfl, rfl, rfl, rfl, rfl, rfl, rfl⟩

theorem sameFixed_grow (c : Context) (x : Bytes) : c.SameFixed (c.grow x) :=
  ⟨rfl, rfl, rfl, rfl, rfl, rfl, rfl, rfl, rfl, rfl, rfl⟩

/-! ### The partition -/

/-- The whole blocks of the data are the blocks the partition hands on. -/
theorem partition_fst (c : Context) (x : Bytes) :
    (c.partition x).1 = chunks c.B ((c.residue ++ x).take ((c.residue ++ x).length / c.B * c.B)) := rfl

theorem length_of_mem_partition {c : Context} {x X : Bytes} (hX : X ∈ (c.partition x).1) : X.length = c.B :=
  length_of_mem_chunks c.B_pos (by rw [length_take_whole, Nat.mul_mod_left]) hX

theorem partition_fst_length (c : Context) (x : Bytes) :
    (c.partition x).1.length = (c.residue.length + x.length) / c.B := by
  rw [partition_fst, chunks_length, length_take_whole, ceilDiv_of_mod c.B_pos (Nat.mul_mod_left _ _),
    Nat.mul_div_cancel _ c.B_pos, List.length_append]

/-- The new residue is what the blocks leave (40 R152). -/
theorem partition_residue_length (c : Context) (x : Bytes) :
    (c.partition x).2.residue.length = (c.residue.length + x.length) % c.B := by
  show ((c.residue ++ x).drop ((c.residue ++ x).length / c.B * c.B)).length = _
  rw [List.length_drop, List.length_append]
  have := Nat.div_add_mod (c.residue.length + x.length) c.B
  rw [Nat.mul_comm] at this
  omega

theorem partition_residue_lt (c : Context) (x : Bytes) : (c.partition x).2.residue.length < c.B := by
  rw [partition_residue_length]
  exact Nat.mod_lt _ c.B_pos

/-! ### The invariants through each operation -/

/-- The partition keeps the invariants in the modes that have a residue. -/
theorem Context.Ok.partition {c : Context} (h : c.Ok) (x : Bytes) (hs : c.mode ≠ .cfb ∧ c.mode ≠ .ctr)
    (ha : aeadMode c.mode = false) : (c.partition x).2.Ok :=
  { schedule := h.schedule
    residue_lt := partition_residue_lt c x
    stream_residue := fun hm => by
      rcases hm with hm | hm
      · exact absurd hm hs.1
      · exact absurd hm hs.2
    pad_stream := h.pad_stream
    pad_lt := h.pad_lt
    pad_block := h.pad_block
    held_mode := h.held_mode
    held_block := h.held_block
    scratch_mode := h.scratch_mode
    ccm_enc := h.ccm_enc
    ccm_dec := h.ccm_dec
    gmac_dec := h.gmac_dec
    enc_whole := fun hm _ => by
      rcases hm with hm | hm <;> exact absurd ha (by rw [show c.mode = _ from hm]; decide)
    iv_block := h.iv_block
    aead_residue := fun hm => absurd ha (by rw [show aeadMode c.mode = true from hm]; decide)
    aead_blocks := h.aead_blocks
    hash_block := h.hash_block
    tag_range := h.tag_range
    counter_range := h.counter_range
    dec_processed := h.dec_processed }

theorem ecbUpdate_ok (P : Prim) {c : Context} (h : c.Ok) (hm : c.mode = .ecb) (x : Bytes) : (ecbUpdate P c x).2.Ok :=
  h.partition x (by rw [hm]; decide) (by rw [hm]; decide)

/-- The iv may be any block in CBC and CBC_PAD. -/
theorem Context.Ok.withIv {c : Context} (h : c.Ok) {v : Bytes} (hv : v.length = c.B) : ({ c with iv := v } : Context).Ok :=
  { schedule := h.schedule, residue_lt := h.residue_lt, stream_residue := h.stream_residue, pad_stream := h.pad_stream
    pad_lt := h.pad_lt, pad_block := h.pad_block, held_mode := h.held_mode, held_block := h.held_block
    scratch_mode := h.scratch_mode, ccm_enc := h.ccm_enc, ccm_dec := h.ccm_dec, gmac_dec := h.gmac_dec
    enc_whole := h.enc_whole, iv_block := fun _ => hv, aead_residue := h.aead_residue, aead_blocks := h.aead_blocks
    hash_block := h.hash_block, tag_range := h.tag_range, counter_range := h.counter_range
    dec_processed := h.dec_processed }

theorem Context.Ok.E_length {c : Context} (h : c.Ok) (X : Bytes) : (encryptBlock c.ks X).length = c.B := by
  rw [encryptBlock_length, h.schedule]
  rfl

theorem Context.Ok.D_length {c : Context} (h : c.Ok) (X : Bytes) : (decryptBlock c.ks X).length = c.B := by
  rw [decryptBlock_length, h.schedule]
  rfl

/-- The chaining value after a CBC UPDATE is a block. -/
theorem cbcUpdate_iv_length {c : Context} (h : c.Ok) (hm : c.mode ≠ .ecb) (x : Bytes) :
    (cbcUpdate Prim.external c x).2.iv.length = c.B := by
  have hv := h.iv_block hm
  unfold cbcUpdate
  dsimp only
  cases c.dir
  · exact cbcEncBlocks_iv_length h.E_length hv _
  · exact cbcDecBlocks_iv_length hv fun X hX => length_of_mem_partition hX

theorem cbcUpdate_ok {c : Context} (h : c.Ok) (hm : c.mode = .cbc ∨ c.mode = .cbcPad) (x : Bytes) :
    (cbcUpdate Prim.external c x).2.Ok := by
  have hne : c.mode ≠ .ecb := by rcases hm with hm | hm <;> simp [hm]
  have hp := h.partition x (by rcases hm with hm | hm <;> simp [hm])
    (by rcases hm with hm | hm <;> (rw [hm]; decide))
  exact hp.withIv (cbcUpdate_iv_length h hne x)

/-- A CBC UPDATE emits as many bytes as its blocks have. -/
theorem cbcUpdate_length {c : Context} (h : c.Ok) (hm : c.mode ≠ .ecb) (x : Bytes) :
    (cbcUpdate Prim.external c x).1.length = (c.residue.length + x.length) / c.B * c.B := by
  rw [← partition_fst_length]
  unfold cbcUpdate
  dsimp only
  cases c.dir
  · exact cbcEncBlocks_length h.E_length _ _
  · exact cbcDecBlocks_length h.D_length (h.iv_block hm) fun X hX => length_of_mem_partition hX

theorem cbcPadDecUpdate_ok {c : Context} (h : c.Ok) (hm : c.mode = .cbcPad) (hd : c.dir = .dec) (x : Bytes) :
    (cbcPadDecUpdate Prim.external c x).2.Ok := by
  have hu := cbcUpdate_ok h (.inr hm) x
  have hl := cbcUpdate_length h (by simp [hm]) x
  unfold cbcPadDecUpdate
  dsimp only
  split
  · exact hu
  · rename_i hy
    have hle : c.B ≤ (cbcUpdate Prim.external c x).1.length := by
      rw [hl] at hy ⊢
      exact Nat.le_mul_of_pos_left _ (Nat.pos_of_ne_zero fun h0 => hy (by rw [h0, Nat.zero_mul]))
    have hlast : ((cbcUpdate Prim.external c x).1.drop ((cbcUpdate Prim.external c x).1.length - c.B)).length = c.B := by
      rw [List.length_drop]
      omega
    exact
      { schedule := hu.schedule, residue_lt := hu.residue_lt, stream_residue := hu.stream_residue
        pad_stream := hu.pad_stream, pad_lt := hu.pad_lt, pad_block := fun _ => hlast
        held_mode := fun _ => ⟨hm, hd⟩, held_block := fun _ => hlast, scratch_mode := hu.scratch_mode
        ccm_enc := hu.ccm_enc, ccm_dec := hu.ccm_dec, gmac_dec := hu.gmac_dec, enc_whole := hu.enc_whole
        iv_block := hu.iv_block, aead_residue := hu.aead_residue, aead_blocks := hu.aead_blocks
        hash_block := hu.hash_block, tag_range := hu.tag_range, counter_range := hu.counter_range
        dec_processed := hu.dec_processed }

/-! ### The stream modes -/

/-- What the stream function keeps: the iv is a block, the cache is short, and it is whole while it holds bytes. -/
structure Keystream.Ok (B : Nat) (k : Keystream) : Prop where
  iv : k.iv.length = B
  pad : k.pad < B
  last : 0 < k.pad → k.last.length = B

theorem drainByte_ok {p : StreamParams} {k : Keystream} (h : k.Ok p.B) (hk : k.pad ≠ 0) (x : Byte) :
    (drainByte p k x).2.Ok p.B := by
  have hl := h.last (Nat.pos_of_ne_zero hk)
  have hlen : ∀ b : Byte, (if p.cfb then k.last.set (p.B - k.pad) b else k.last).length = p.B := fun b => by
    split <;> simp [hl]
  unfold drainByte
  refine ⟨?_, ?_, fun _ => hlen _⟩
  · dsimp only
    split
    · exact hlen _
    · exact h.iv
  · have := h.pad
    dsimp only
    omega

theorem drain_ok {p : StreamParams} {k : Keystream} (h : k.Ok p.B) (xs : Bytes) : (drain p k xs).2.1.Ok p.B := by
  induction xs generalizing k with
  | nil => exact h
  | cons x xs ih =>
    unfold drain
    split
    · exact h
    · exact ih (drainByte_ok h ‹_› x)

theorem streamBlock_ok {E : Bytes → Bytes} {p : StreamParams} (hE : ∀ X, (E X).length = p.B) {k : Keystream}
    (h : k.Ok p.B) {X : Bytes} (h1 : 1 ≤ X.length) (h2 : X.length ≤ p.B) : (streamBlock E p k X).2.Ok p.B := by
  unfold streamBlock
  dsimp only
  split
  · rename_i hr
    refine ⟨?_, h.pad, h.last⟩
    dsimp only
    split
    · split <;> simp [hE, hr]
    · simp [h.iv]
  · refine ⟨?_, ?_, fun _ => ?_⟩
    · dsimp only
      split <;> simp [h.iv]
    · dsimp only
      omega
    · dsimp only
      split <;> simp [hE] <;> omega

theorem streamBlocks_ok {E : Bytes → Bytes} {p : StreamParams} (hE : ∀ X, (E X).length = p.B)
    {k : Keystream} (h : k.Ok p.B) {Xs : List Bytes} (hX : ∀ X ∈ Xs, 1 ≤ X.length ∧ X.length ≤ p.B) :
    (streamBlocks E p k Xs).2.Ok p.B := by
  induction Xs generalizing k with
  | nil => exact h
  | cons X Xs ih =>
    have h1 := hX X (by simp)
    exact ih (streamBlock_ok hE h h1.1 h1.2) fun Y hY => hX Y (by simp [hY])

theorem stream_ok {E : Bytes → Bytes} {p : StreamParams} (hB : 0 < p.B) (hE : ∀ X, (E X).length = p.B) {k : Keystream}
    (h : k.Ok p.B) (xs : Bytes) : (stream E p k xs).2.Ok p.B :=
  streamBlocks_ok hE (drain_ok h xs) fun _ hX => length_mem_chunks_le hB hX

theorem Context.Ok.keystream {c : Context} (h : c.Ok) (hm : c.mode ≠ .ecb) : c.keystream.Ok c.streamParams.B :=
  ⟨h.iv_block hm, h.pad_lt, h.pad_block⟩

theorem streamUpdate_ok {c : Context} (h : c.Ok) (hm : c.mode = .cfb ∨ c.mode = .ctr) (x : Bytes) :
    (streamUpdate Prim.external c x).2.Ok := by
  have hne : c.mode ≠ .ecb := by rcases hm with hm | hm <;> simp [hm]
  have hk := stream_ok (p := c.streamParams) c.B_pos h.E_length (h.keystream hne) x
  exact
    { schedule := h.schedule, residue_lt := h.residue_lt, stream_residue := h.stream_residue
      pad_stream := fun _ => hm, pad_lt := hk.pad, pad_block := hk.last
      held_mode := h.held_mode
      held_block := fun hv => by
        have := (h.held_mode hv).1
        rcases hm with hm | hm <;> simp [hm] at this
      scratch_mode := h.scratch_mode
      ccm_enc := h.ccm_enc, ccm_dec := h.ccm_dec, gmac_dec := h.gmac_dec, enc_whole := h.enc_whole
      iv_block := fun _ => hk.iv, aead_residue := h.aead_residue, aead_blocks := h.aead_blocks
      hash_block := h.hash_block, tag_range := h.tag_range, counter_range := h.counter_range
      dec_processed := h.dec_processed }

/-! ### The AEAD modes -/

theorem ccmEncBlocks_state_length {E : Bytes → Bytes} (hE : ∀ X, (E X).length = 16) (cb : Nat) {k : MacCtr}
    (ha : k.acc.length = 16) (hc : k.ctr.length = 16) (Xs : List Bytes) :
    (ccmEncBlocks E cb k Xs).2.acc.length = 16 ∧ (ccmEncBlocks E cb k Xs).2.ctr.length = 16 := by
  induction Xs generalizing k with
  | nil => exact ⟨ha, hc⟩
  | cons X Xs ih => exact ih (hE _) (by simpa using hc)

theorem gcmEncBlocks_state_length {E : Bytes → Bytes} (H : Bytes) {k : HashCtr}
    (ha : k.acc.length = 16) (hc : k.ctr.length = 16) (Xs : List Bytes) :
    (gcmEncBlocks E H k Xs).2.acc.length = 16 ∧ (gcmEncBlocks E H k Xs).2.ctr.length = 16 := by
  induction Xs generalizing k with
  | nil => exact ⟨ha, hc⟩
  | cons X Xs ih => exact ih (ghash_length ha _) (by simpa using hc)

/-- What an AEAD encrypt UPDATE changes keeps the invariants: the accumulator and the counter are blocks, and the count of data
bytes agrees with the residue. -/
theorem Context.Ok.aeadEnc {c : Context} (h : c.Ok) (hm : c.mode = .ccm ∨ c.mode = .gcm) (hd : c.dir = .enc) (x : Bytes)
    {acc ctr : Bytes} (ha : acc.length = 16) (hc : ctr.length = 16)
    (hp : c.mode = .ccm → c.processedDataLen + x.length ≤ c.dataLen) :
    ({ (c.partition x).2 with acc := acc, iv := ctr, processedDataLen := c.processedDataLen + x.length } : Context).Ok := by
  have haead : aeadMode c.mode = true := by rcases hm with hm | hm <;> (rw [hm]; rfl)
  have hB : c.B = 16 := (h.aead_blocks haead).1
  have hns : ¬(c.mode = .cfb ∨ c.mode = .ctr) := by rcases hm with hm | hm <;> simp [hm]
  obtain ⟨w1, w2⟩ := h.enc_whole hm hd
  have hr := partition_residue_length c x
  rw [hB] at hr
  exact
    { schedule := h.schedule, residue_lt := partition_residue_lt c x, stream_residue := fun h' => absurd h' hns
      pad_stream := h.pad_stream, pad_lt := h.pad_lt, pad_block := h.pad_block, held_mode := h.held_mode
      held_block := h.held_block, scratch_mode := h.scratch_mode
      ccm_enc := fun hm' _ => hp hm'
      ccm_dec := h.ccm_dec, gmac_dec := h.gmac_dec
      enc_whole := fun _ _ => by
        show (c.partition x).2.residue.length ≤ c.processedDataLen + x.length ∧
          (c.processedDataLen + x.length - (c.partition x).2.residue.length) % 16 = 0
        rw [hr]
        omega
      iv_block := fun _ => hc.trans hB.symm
      aead_residue := fun _ h' => by
        rcases h' with h' | h'
        · exact absurd (hd.symm.trans h') (by decide)
        · rcases hm with hm | hm <;> exact absurd (hm.symm.trans h') (by decide)
      aead_blocks := fun h' => ⟨hB, ha, (h.aead_blocks h').2.2⟩
      hash_block := h.hash_block, tag_range := h.tag_range, counter_range := h.counter_range
      dec_processed := fun _ h' => absurd (hd.symm.trans h') (by decide) }

theorem ccmEncUpdate_ok {c : Context} (h : c.Ok) (hm : c.mode = .ccm) (hd : c.dir = .enc) (x : Bytes)
    (hp : c.processedDataLen + x.length ≤ c.dataLen) : (ccmEncUpdate Prim.external c x).2.Ok := by
  obtain ⟨hB, ha, -⟩ := h.aead_blocks (by rw [hm]; rfl)
  obtain ⟨h1, h2⟩ := ccmEncBlocks_state_length (E := encryptBlock c.ks) (fun X => (h.E_length X).trans hB) c.counterBits
    (k := { acc := c.acc, ctr := c.iv }) ha ((h.iv_block (by simp [hm])).trans hB) (c.partition x).1
  exact h.aeadEnc (.inl hm) hd x h1 h2 fun _ => hp

theorem gcmEncUpdate_ok {c : Context} (h : c.Ok) (hm : c.mode = .gcm) (hd : c.dir = .enc) (x : Bytes) :
    (gcmEncUpdate Prim.external c x).2.Ok := by
  obtain ⟨hB, ha, -⟩ := h.aead_blocks (by rw [hm]; rfl)
  obtain ⟨h1, h2⟩ := gcmEncBlocks_state_length (E := encryptBlock c.ks) c.hashKey
    (k := { acc := c.acc, ctr := c.iv }) ha ((h.iv_block (by simp [hm])).trans hB) (c.partition x).1
  exact h.aeadEnc (.inr hm) hd x h1 h2 fun h' => absurd (hm.symm.trans h') (by decide)

theorem grow_ok {c : Context} (h : c.Ok) (ha : aeadMode c.mode = true) (hd : c.dir = .dec) (x : Bytes)
    (hccm : c.mode = .ccm → c.scratch.length + x.length ≤ c.dataLen + c.tagLen)
    (hgmac : c.mode = .gmac → c.scratch.length + x.length ≤ c.tagLen) : (c.grow x).Ok :=
  { schedule := h.schedule, residue_lt := h.residue_lt, stream_residue := h.stream_residue
    pad_stream := h.pad_stream, pad_lt := h.pad_lt, pad_block := h.pad_block, held_mode := h.held_mode
    held_block := h.held_block, scratch_mode := fun _ => ⟨hd, ha⟩
    ccm_enc := fun _ h' => absurd (hd.symm.trans h') (by decide)
    ccm_dec := fun hm _ => by
      show (c.scratch ++ x).length ≤ _
      rw [List.length_append]
      exact hccm hm
    gmac_dec := fun hm _ => by
      show (c.scratch ++ x).length ≤ _
      rw [List.length_append]
      exact hgmac hm
    enc_whole := fun _ h' => absurd (hd.symm.trans h') (by decide)
    iv_block := h.iv_block, aead_residue := h.aead_residue, aead_blocks := h.aead_blocks, hash_block := h.hash_block
    tag_range := h.tag_range, counter_range := h.counter_range, dec_processed := fun _ _ => rfl }

/-! ### INIT -/

/-- The context an INIT makes meets the invariants when its checks pass. -/
theorem initContext_ok {cfg : HostConfig} {m : Mode} {a : Alg} {o : Operands} (d : Dir)
    (hs : algModeSupported cfg a m = true) (hp : paramsOk m a o = true) : (initContext Prim.external m d a o).Ok := by
  have hB : aeadMode m = true → blockSize a = 16 := by
    intro ha
    simp [algModeSupported, ha] at hs
    exact hs.1
  cases m
  case ecb =>
    constructor <;> simp [initContext, baseContext, keySchedule, Context.B, blockSize_pos, aeadMode]
  case cbc =>
    have hiv : o.iv.length = blockSize a := by simpa [paramsOk] using hp
    constructor <;> simp [initContext, baseContext, keySchedule, Context.B, blockSize_pos, aeadMode, hiv]
  case cbcPad =>
    have hiv : o.iv.length = blockSize a := by simpa [paramsOk] using hp
    constructor <;> simp [initContext, baseContext, keySchedule, Context.B, blockSize_pos, aeadMode, hiv]
  case cfb =>
    have hiv : o.iv.length = blockSize a := by simpa [paramsOk] using hp
    constructor <;> simp [initContext, baseContext, keySchedule, Context.B, blockSize_pos, aeadMode, hiv]
  case ctr =>
    have hiv : (o.iv.length = blockSize a ∧ 1 ≤ o.counterBits.toNat) ∧ o.counterBits.toNat ≤ 8 * blockSize a := by
      simpa [paramsOk] using hp
    constructor <;> simp [initContext, baseContext, keySchedule, Context.B, blockSize_pos, aeadMode, hiv]
  case ccm =>
    have hB := hB rfl
    have hq := hp
    simp only [paramsOk, Bool.and_eq_true, decide_eq_true_eq] at hq
    obtain ⟨⟨⟨⟨h7, h13⟩, ht⟩, -⟩, -⟩ := hq
    have ht' : 4 ≤ o.tagLen.toNat ∧ o.tagLen.toNat ≤ 16 := by
      simp only [List.mem_cons, List.not_mem_nil, or_false] at ht
      omega
    have hctr : (ccmCtr0 o.iv).length = 16 := by
      simp [ccmCtr0]
      omega
    have hacc : ∀ ks : KeySchedule, ks.alg = a → ∀ t p,
        (ccmInitMac (encryptBlock ks) o.iv o.aad t p).length = 16 := by
      intro ks hks t p
      have hE : ∀ X, (encryptBlock ks X).length = 16 := fun X => by rw [encryptBlock_length, hks, hB]
      unfold ccmInitMac cbcMac
      generalize ccmAadBlocks o.aad = Xs
      induction Xs using List.reverseRecOn with
      | nil => exact hE _
      | append_singleton Xs X _ => rw [List.foldl_append]; exact hE _
    constructor <;>
      simp [initContext, ccmContext, baseContext, keySchedule, Context.B, hB, hctr, ht', hacc, Prim.external, aeadMode]
    omega
  case gcm | gmac =>
    have hB := hB rfl
    have hq : 1 ≤ o.iv.length ∧ o.tagLen.toNat ∈ [4, 8, 12, 13, 14, 15, 16] := by
      simpa only [paramsOk, Bool.and_eq_true, decide_eq_true_eq] using hp
    obtain ⟨-, ht⟩ := hq
    have ht' : 4 ≤ o.tagLen.toNat ∧ o.tagLen.toNat ≤ 16 := by
      simp only [List.mem_cons, List.not_mem_nil, or_false] at ht
      omega
    have hz : (zeros 16).length = 16 := zeros_length 16
    have hj : ∀ H, (gcmJ0 H o.iv).length = 16 := fun H => by
      unfold gcmJ0
      split
      · simp [*]
      · exact ghash_length hz _
    constructor <;>
      simp [initContext, gcmContext, baseContext, keySchedule, Context.B, hB, hj, ht', Prim.external, aeadMode,
        ghash_length hz]

/-- The serial number bears on no invariant of a context. -/
theorem Context.Ok.withSerial {c : Context} (h : c.Ok) (n : Nat) : { c with serial := n }.Ok := { h with }

/-- The context an INIT makes, its serial number included, meets the context invariants. -/
theorem State.newContext_ok {s : State} {m : Mode} {a : Alg} (d : Dir) (hs : algModeSupported s.config a m = true)
    (hp : paramsOk m a s.args = true) : (s.newContext Prim.external m d a).Ok :=
  (initContext_ok d hs hp).withSerial s.issued

end Sys2Proof.Machine
end

