-- ==== Sys2Proof/Laws/Meanings.lean ====
section
/-! SUPPORT. Which shared operation each command's meaning is, by operation and mode. -/

namespace Sys2Proof.Machine

theorem parts_instrOf (op : Op) (m : Mode) (d : Dir) (a : Alg) : (instrOf op m d a).parts = some (op, m, d, a) := by
  cases op <;> cases m <;> cases d <;> rfl

theorem instrOf_of_parts {i : Instr} {op : Op} {m : Mode} {d : Dir} {a : Alg} (h : i.parts = some (op, m, d, a)) :
    i = instrOf op m d a := by
  cases i <;> simp only [Instr.parts, Option.some.injEq, Prod.mk.injEq, reduceCtorEq] at h <;>
    obtain ⟨rfl, rfl, rfl, rfl⟩ := h <;> rfl

/-- Every command but ABORT is that of its parts. -/
theorem eq_abort_or_instrOf (i : Instr) : i = .abort ∨ ∃ op m d a, i = instrOf op m d a := by
  cases hp : i.parts with
  | none =>
    left
    cases i <;> first | rfl | cases hp
  | some p =>
    obtain ⟨op, m, d, a⟩ := p
    exact .inr ⟨op, m, d, a, instrOf_of_parts hp⟩

/-! ### INIT -/

theorem exec_init (m : Mode) (d : Dir) (a : Alg) (s : State) :
    exec (instrOf .init m d a) s = initCommand Prim.external (instrOf .init m d a) m d a s := by
  cases m <;> cases d <;> rfl

/-! ### UPDATE -/

theorem exec_update_ecb (d : Dir) (a : Alg) (s : State) : exec (instrOf .update .ecb d a) s =
    updateBlocks (ecbUpdate Prim.external) (instrOf .update .ecb d a) .ecb d a s := by
  cases d <;> rfl

theorem exec_update_cbc (d : Dir) (a : Alg) (s : State) : exec (instrOf .update .cbc d a) s =
    updateBlocks (cbcUpdate Prim.external) (instrOf .update .cbc d a) .cbc d a s := by
  cases d <;> rfl

theorem exec_update_cbcPad_enc (a : Alg) (s : State) : exec (instrOf .update .cbcPad .enc a) s =
    updateBlocks (cbcUpdate Prim.external) (instrOf .update .cbcPad .enc a) .cbcPad .enc a s := rfl

theorem exec_update_cbcPad_dec (a : Alg) (s : State) : exec (instrOf .update .cbcPad .dec a) s =
    updatePadDec Prim.external (instrOf .update .cbcPad .dec a) a s := rfl

theorem exec_update_cfb (d : Dir) (a : Alg) (s : State) : exec (instrOf .update .cfb d a) s =
    updateStream Prim.external (instrOf .update .cfb d a) .cfb d a s := by
  cases d <;> rfl

theorem exec_update_ctr (d : Dir) (a : Alg) (s : State) : exec (instrOf .update .ctr d a) s =
    updateStream Prim.external (instrOf .update .ctr d a) .ctr d a s := by
  cases d <;> rfl

theorem exec_update_ccm_enc (a : Alg) (s : State) : exec (instrOf .update .ccm .enc a) s =
    updateCcmEnc Prim.external (instrOf .update .ccm .enc a) a s := rfl

theorem exec_update_ccm_dec (a : Alg) (s : State) : exec (instrOf .update .ccm .dec a) s =
    updateCcmDec (instrOf .update .ccm .dec a) a s := rfl

theorem exec_update_gcm_enc (a : Alg) (s : State) : exec (instrOf .update .gcm .enc a) s =
    updateGcmEnc Prim.external (instrOf .update .gcm .enc a) a s := rfl

theorem exec_update_gcm_dec (a : Alg) (s : State) : exec (instrOf .update .gcm .dec a) s =
    updateGcmDec (instrOf .update .gcm .dec a) a s := rfl

theorem exec_update_gmac_enc (a : Alg) (s : State) : exec (instrOf .update .gmac .enc a) s =
    updateGmacEnc (instrOf .update .gmac .enc a) a s := rfl

theorem exec_update_gmac_dec (a : Alg) (s : State) : exec (instrOf .update .gmac .dec a) s =
    updateGmacDec (instrOf .update .gmac .dec a) a s := rfl

/-! ### FINAL -/

theorem exec_final_ecb (d : Dir) (a : Alg) (s : State) : exec (instrOf .final .ecb d a) s =
    finalBlocks (instrOf .final .ecb d a) .ecb d a s := by
  cases d <;> rfl

theorem exec_final_cbc (d : Dir) (a : Alg) (s : State) : exec (instrOf .final .cbc d a) s =
    finalBlocks (instrOf .final .cbc d a) .cbc d a s := by
  cases d <;> rfl

theorem exec_final_cbcPad_enc (a : Alg) (s : State) : exec (instrOf .final .cbcPad .enc a) s =
    finalPadEnc Prim.external (instrOf .final .cbcPad .enc a) a s := rfl

theorem exec_final_cbcPad_dec (a : Alg) (s : State) : exec (instrOf .final .cbcPad .dec a) s =
    finalPadDec (instrOf .final .cbcPad .dec a) a s := rfl

theorem exec_final_cfb (d : Dir) (a : Alg) (s : State) : exec (instrOf .final .cfb d a) s =
    finalStream (instrOf .final .cfb d a) .cfb d a s := by
  cases d <;> rfl

theorem exec_final_ctr (d : Dir) (a : Alg) (s : State) : exec (instrOf .final .ctr d a) s =
    finalStream (instrOf .final .ctr d a) .ctr d a s := by
  cases d <;> rfl

theorem exec_final_ccm_enc (a : Alg) (s : State) : exec (instrOf .final .ccm .enc a) s =
    finalCcmEnc Prim.external (instrOf .final .ccm .enc a) a s := rfl

theorem exec_final_ccm_dec (a : Alg) (s : State) : exec (instrOf .final .ccm .dec a) s =
    finalCcmDec Prim.external (instrOf .final .ccm .dec a) a s := rfl

theorem exec_final_gcm_enc (a : Alg) (s : State) : exec (instrOf .final .gcm .enc a) s =
    finalGcmEnc Prim.external (instrOf .final .gcm .enc a) a s := rfl

theorem exec_final_gcm_dec (a : Alg) (s : State) : exec (instrOf .final .gcm .dec a) s =
    finalGcmDec Prim.external (instrOf .final .gcm .dec a) a s := rfl

theorem exec_final_gmac_enc (a : Alg) (s : State) : exec (instrOf .final .gmac .enc a) s =
    finalGmacEnc Prim.external (instrOf .final .gmac .enc a) a s := rfl

theorem exec_final_gmac_dec (a : Alg) (s : State) : exec (instrOf .final .gmac .dec a) s =
    finalGmacDec Prim.external (instrOf .final .gmac .dec a) a s := rfl

/-! ### ATOMIC -/

theorem exec_atomic_ecb (d : Dir) (a : Alg) (s : State) : exec (instrOf .atomic .ecb d a) s =
    atomicBlocks Prim.external (ecbUpdate Prim.external) (instrOf .atomic .ecb d a) .ecb d a s := by
  cases d <;> rfl

theorem exec_atomic_cbc (d : Dir) (a : Alg) (s : State) : exec (instrOf .atomic .cbc d a) s =
    atomicBlocks Prim.external (cbcUpdate Prim.external) (instrOf .atomic .cbc d a) .cbc d a s := by
  cases d <;> rfl

theorem exec_atomic_cbcPad_enc (a : Alg) (s : State) : exec (instrOf .atomic .cbcPad .enc a) s =
    atomicPadEnc Prim.external (instrOf .atomic .cbcPad .enc a) a s := rfl

theorem exec_atomic_cbcPad_dec (a : Alg) (s : State) : exec (instrOf .atomic .cbcPad .dec a) s =
    atomicPadDec Prim.external (instrOf .atomic .cbcPad .dec a) a s := rfl

theorem exec_atomic_cfb (d : Dir) (a : Alg) (s : State) : exec (instrOf .atomic .cfb d a) s =
    atomicStream Prim.external (instrOf .atomic .cfb d a) .cfb d a s := by
  cases d <;> rfl

theorem exec_atomic_ctr (d : Dir) (a : Alg) (s : State) : exec (instrOf .atomic .ctr d a) s =
    atomicStream Prim.external (instrOf .atomic .ctr d a) .ctr d a s := by
  cases d <;> rfl

theorem exec_atomic_ccm_enc (a : Alg) (s : State) : exec (instrOf .atomic .ccm .enc a) s =
    atomicCcmEnc Prim.external (instrOf .atomic .ccm .enc a) a s := rfl

theorem exec_atomic_ccm_dec (a : Alg) (s : State) : exec (instrOf .atomic .ccm .dec a) s =
    atomicCcmDec Prim.external (instrOf .atomic .ccm .dec a) a s := rfl

theorem exec_atomic_gcm_enc (a : Alg) (s : State) : exec (instrOf .atomic .gcm .enc a) s =
    atomicGcmEnc Prim.external (instrOf .atomic .gcm .enc a) a s := rfl

theorem exec_atomic_gcm_dec (a : Alg) (s : State) : exec (instrOf .atomic .gcm .dec a) s =
    atomicGcmDec Prim.external (instrOf .atomic .gcm .dec a) a s := rfl

theorem exec_atomic_gmac_enc (a : Alg) (s : State) : exec (instrOf .atomic .gmac .enc a) s =
    atomicGmacEnc Prim.external (instrOf .atomic .gmac .enc a) a s := rfl

theorem exec_atomic_gmac_dec (a : Alg) (s : State) : exec (instrOf .atomic .gmac .dec a) s =
    atomicGmacDec Prim.external (instrOf .atomic .gmac .dec a) a s := rfl

end Sys2Proof.Machine
end

