-- ==== Sys2Proof/Laws/Shape.lean ====
section
/-! SUPPORT. Everything a command can do, said once: `exec_shape`. -/

namespace Sys2Proof.Machine

/-- Every job covers at least one block and at most what one job may (40 R172). -/
def JobsOk (s : State) (a : Alg) (jobs : List Nat) : Prop := ∀ n ∈ jobs, 1 ≤ n ∧ n ≤ s.jobBlocks (blockSize a)

/-- What FINAL and ATOMIC commit: the context ends; a size beside SUCCESS is that of BUFFER_TOO_SMALL; and beside SUCCESS no byte
is written, but for the unpad failure of ATOMIC.CBC_PAD.DEC. -/
structure Commit.Ends (m : Mode) (r : Commit) : Prop where
  ctx : r.ctx = none
  returns : r.returns = none
  size : r.status ≠ .success → r.status ≠ .bufferTooSmall → r.size = 0
  region : r.status = .success ∨ r.region = .bytes [] ∨ m = .cbcPad

/-- The results a command of an operation, a mode, a direction and an algorithm can have. -/
inductive Shape (s : State) (i : Instr) (op : Op) (m : Mode) (d : Dir) (a : Alg) : Result → Prop
  /-- The run is refused (44 R461). -/
  | refused (r : Refusal) : op ≠ .init → Shape s i op m d a (.refused r)
  /-- The command completes at its issue with a status and does nothing else. -/
  | answered (st : Status) (n : Nat) : st ≠ .success → (st ≠ .bufferTooSmall → n = 0) →
      (op = .update ∨ op = .final → ∃ c, s.lookup s.args.handle = some (.active c)) →
      Shape s i op m d a (.next (s.answer st n))
  /-- A terminal status ends the context. -/
  | terminal (c : Context) (st : Status) : op = .update ∨ op = .final →
      s.lookup s.args.handle = some (.active c) → st ≠ .success → Shape s i op m d a (.next (s.raiseTerminal st))
  /-- INIT goes on. -/
  | init : op = .init → ∀ h jobs, s.initChecks m a = .ok h → JobsOk s a jobs →
      Shape s i op m d a (.next (s.launch i h none [] [] jobs
        { status := .success, size := 0, ctx := some (s.newContext Prim.external m d a), region := .bytes []
          returns := some h }))
  /-- UPDATE goes on with the context. -/
  | update (c c' : Context) (out : Bytes) (jobs : List Nat) : op = .update → Ready s s.args.inView c m d a →
      (c.Ok → c'.Ok) → c.SameFixed c' → (aeadMode m = true → d = .dec → out = [] ∧ jobs = []) → JobsOk s a jobs →
      Shape s i op m d a (s.runUpdate i c jobs (.keep c' out))
  /-- FINAL goes on with the context. -/
  | final (c : Context) (r : Commit) (jobs : List Nat) : op = .final → Ready s [] c m d a → r.Ends m → JobsOk s a jobs →
      Shape s i op m d a (s.runFinal i c jobs r)
  /-- ATOMIC goes on with its temporary context. -/
  | atomic (h : Handle) (r : Commit) (jobs : List Nat) : op = .atomic →
      s.viewRefusal s.args.inView s.args.outView = none → s.initChecks m a = .ok h → r.Ends m → JobsOk s a jobs →
      Shape s i op m d a (s.runAtomic i h jobs r)

/-! ### Jobs -/

theorem jobBlocks_pos (s : State) (B : Nat) : 1 ≤ s.jobBlocks B := Nat.le_max_left _ _

/-- The parts of a split are at least 1 and at most the cap. -/
theorem mem_splitJobs {cap n j : Nat} (hc : 1 ≤ cap) (hj : j ∈ splitJobs cap n) : 1 ≤ j ∧ j ≤ cap := by
  unfold splitJobs at hj
  rcases List.mem_append.mp hj with hj | hj
  · rw [List.eq_of_mem_replicate hj]
    exact ⟨hc, le_refl _⟩
  · split at hj
    · cases hj
    · rename_i h0
      rw [List.mem_singleton.mp hj]
      have := Nat.mod_lt n hc
      omega

/-- The parts of a split add up. -/
theorem splitJobs_sum (cap n : Nat) : (splitJobs cap n).sum = n := by
  have := Nat.div_add_mod n cap
  rw [Nat.mul_comm] at this
  unfold splitJobs
  split <;> simp <;> omega

theorem splitJobs_zero (cap : Nat) : splitJobs cap 0 = [] := by simp [splitJobs]

theorem jobsOk_nil (s : State) (a : Alg) : JobsOk s a [] := fun _ h => by cases h

theorem jobsOk_jobsOf (s : State) (a : Alg) (n : Nat) : JobsOk s a (s.jobsOf a n) := fun _ hj =>
  mem_splitJobs (jobBlocks_pos _ _) hj

theorem JobsOk.append {s : State} {a : Alg} {xs ys : List Nat} (hx : JobsOk s a xs) (hy : JobsOk s a ys) :
    JobsOk s a (xs ++ ys) := fun _ h => (List.mem_append.mp h).elim (hx _) (hy _)

theorem mem_splitCtrJobs {cap cb n j : Nat} {ctr : Bytes} (hc : 1 ≤ cap) (hj : j ∈ splitCtrJobs cap cb ctr n) :
    1 ≤ j ∧ j ≤ cap := by
  unfold splitCtrJobs at hj
  dsimp only at hj
  split at hj
  · exact mem_splitJobs hc hj
  · rcases List.mem_append.mp hj with hj | hj
    · exact mem_splitJobs hc hj
    · obtain ⟨_, _, hj⟩ := List.mem_flatMap.mp hj
      exact mem_splitJobs hc hj

theorem jobsOk_streamJobs {s : State} {c : Context} {a : Alg} (ha : c.alg = a) (n : Nat) :
    JobsOk s a (streamJobs s c n) := by
  subst ha
  unfold streamJobs
  dsimp only
  split
  · exact jobsOk_jobsOf _ _ _
  · exact fun _ hj => mem_splitCtrJobs (jobBlocks_pos _ _) hj

theorem jobsOk_gcmDecJobs (s : State) (a : Alg) (f c : Nat) (p : Option Bytes) : JobsOk s a (gcmDecJobs s a f c p) := by
  unfold gcmDecJobs
  refine (jobsOk_jobsOf _ _ _).append ?_
  split
  · exact jobsOk_jobsOf _ _ _
  · exact jobsOk_nil _ _

/-! ### Commits -/

theorem ends_consume (m : Mode) (out : Bytes) : (Commit.consume out).Ends m := ⟨rfl, rfl, fun h => absurd rfl h, .inl rfl⟩

theorem ends_verified (m : Mode) (p : Option Bytes) : (Commit.verified p).Ends m := by
  cases p
  · exact ⟨rfl, rfl, fun _ _ => rfl, .inr (.inl rfl)⟩
  · exact ends_consume m _

theorem ends_padDec (B cap : Nat) (x : Bytes) : (atomicPadDecCommit B cap x).Ends .cbcPad := by
  unfold atomicPadDecCommit
  dsimp only
  split
  · exact ⟨rfl, rfl, fun _ _ => rfl, .inr (.inr rfl)⟩
  · split
    · exact ⟨rfl, rfl, fun _ h => absurd rfl h, .inr (.inl rfl)⟩
    · exact ends_consume _ _

/-! ### The operand checks -/

section

variable {s : State} {i : Instr} {op : Op} {m : Mode} {d : Dir} {a : Alg}

/-- UPDATE's and FINAL's operand checks: refused, a mismatch, or the context. -/
theorem shape_onContext {inV : View} {k : Context → Result} (hop : op = .update ∨ op = .final)
    (hk : ∀ c, Ready s inV c m d a → Shape s i op m d a (k c)) : Shape s i op m d a (onContext s inV m d a k) := by
  have hne : op ≠ .init := by rcases hop with rfl | rfl <;> decide
  unfold onContext
  split
  · exact .refused _ hne
  · exact .refused _ hne
  · rename_i c hl
    split
    · exact .refused _ hne
    · rename_i hv
      split
      · rename_i hm
        exact hk c ⟨hl, hm.1, hm.2.1, hm.2.2, hv⟩
      · exact .terminal c _ hop hl (by decide)

/-- The status of a failing INIT check. -/
theorem initChecks_error {st : Status} (h : s.initChecks m a = .error st) : st ≠ .success := by
  unfold State.initChecks at h
  split at h
  · cases h; decide
  · split at h
    · cases h; decide
    · split at h
      · cases h; decide
      · split at h
        · cases h; decide
        · split at h
          · cases h; decide
          · cases h

/-- ATOMIC's operand checks: refused, a failing check, or the temporary handle. -/
theorem shape_onAtomic {k : Handle → Result} (hop : op = .atomic)
    (hk : ∀ h, s.viewRefusal s.args.inView s.args.outView = none → s.initChecks m a = .ok h →
      Shape s i op m d a (k h)) : Shape s i op m d a (onAtomic s m a k) := by
  unfold onAtomic
  split
  · exact .refused _ (by rw [hop]; decide)
  · rename_i hv
    split
    · rename_i st hst
      exact .answered st 0 (initChecks_error hst) (fun _ => rfl) (by simp [*])
    · rename_i h hh
      exact hk h hv hh

theorem shape_tooSmall (n : Nat) (hl : op = .update ∨ op = .final → ∃ c, s.lookup s.args.handle = some (.active c)) :
    Shape s i op m d a (.next (s.tooSmall n)) :=
  .answered _ n (by decide) (fun h => absurd rfl h) hl

theorem shape_initCommand : Shape s i .init m d a (initCommand Prim.external i m d a s) := by
  unfold initCommand
  split
  · rename_i st hst
    exact .answered st 0 (initChecks_error hst) (fun _ => rfl) (by simp [*])
  · rename_i h hh
    exact .init rfl h _ hh (fun _ hj => mem_splitJobs (jobBlocks_pos _ _) hj)

/-! ### UPDATE -/

theorem shape_updateBlocks {upd : Context → Bytes → Bytes × Context} (hmode : aeadMode m = false)
    (hok : ∀ c x, c.mode = m → c.Ok → (upd c x).2.Ok) (hfix : ∀ (c : Context) x, c.SameFixed (upd c x).2) :
    Shape s i .update m d a (updateBlocks upd i m d a s) := by
  refine shape_onContext (.inl rfl) fun c hr => ?_
  dsimp only
  split
  · exact shape_tooSmall _ fun _ => ⟨c, hr.active⟩
  · exact .update c _ _ _ rfl hr (hok c _ hr.mode) (hfix c _) (by simp [hmode]) (jobsOk_jobsOf _ _ _)

theorem shape_updatePadDec : Shape s i .update .cbcPad .dec a (updatePadDec Prim.external i a s) := by
  refine shape_onContext (.inl rfl) fun c hr => ?_
  dsimp only
  split
  · exact shape_tooSmall _ fun _ => ⟨c, hr.active⟩
  · exact .update c _ _ _ rfl hr (fun h => cbcPadDecUpdate_ok h hr.mode hr.dir _) (sameFixed_cbcPadDecUpdate _ c _)
      (by simp [aeadMode]) (jobsOk_jobsOf _ _ _)

theorem shape_updateStream (hm : m = .cfb ∨ m = .ctr) :
    Shape s i .update m d a (updateStream Prim.external i m d a s) := by
  refine shape_onContext (.inl rfl) fun c hr => ?_
  dsimp only
  split
  · exact shape_tooSmall _ fun _ => ⟨c, hr.active⟩
  · exact .update c _ _ _ rfl hr (fun h => streamUpdate_ok h (by rwa [hr.mode]) _) (sameFixed_streamUpdate _ c _)
      (by rcases hm with rfl | rfl <;> simp [aeadMode]) (jobsOk_streamJobs hr.alg _)

theorem shape_updateCcmEnc : Shape s i .update .ccm .enc a (updateCcmEnc Prim.external i a s) := by
  refine shape_onContext (.inl rfl) fun c hr => ?_
  dsimp only
  split
  · exact .terminal c _ (.inl rfl) hr.active (by decide)
  · rename_i hle
    split
    · exact shape_tooSmall _ fun _ => ⟨c, hr.active⟩
    · exact .update c _ _ _ rfl hr (fun h => ccmEncUpdate_ok h hr.mode hr.dir _ (by omega)) (sameFixed_ccmEncUpdate _ c _)
        (by simp) (jobsOk_jobsOf _ _ _)

theorem shape_updateGcmEnc : Shape s i .update .gcm .enc a (updateGcmEnc Prim.external i a s) := by
  refine shape_onContext (.inl rfl) fun c hr => ?_
  dsimp only
  split
  · exact shape_tooSmall _ fun _ => ⟨c, hr.active⟩
  · exact .update c _ _ _ rfl hr (fun h => gcmEncUpdate_ok h hr.mode hr.dir _) (sameFixed_gcmEncUpdate _ c _)
      (by simp) (jobsOk_jobsOf _ _ _)

theorem shape_growScratch {c : Context} (hr : Ready s s.args.inView c m .dec a) (ha : aeadMode m = true)
    (hccm : m = .ccm → c.scratch.length + s.input.length ≤ c.dataLen + c.tagLen)
    (hgmac : m = .gmac → c.scratch.length + s.input.length ≤ c.tagLen) :
    Shape s i .update m .dec a (growScratch s i c) := by
  unfold growScratch
  split
  · exact .terminal c _ (.inl rfl) hr.active (by decide)
  · exact .update c _ _ _ rfl hr
      (fun h => grow_ok h (by rwa [hr.mode]) hr.dir _ (fun h' => hccm (hr.mode.symm.trans h'))
        fun h' => hgmac (hr.mode.symm.trans h'))
      (sameFixed_grow c _) (fun _ _ => ⟨rfl, rfl⟩) (jobsOk_nil _ _)

theorem shape_updateCcmDec : Shape s i .update .ccm .dec a (updateCcmDec i a s) := by
  refine shape_onContext (.inl rfl) fun c hr => ?_
  split
  · exact .terminal c _ (.inl rfl) hr.active (by decide)
  · exact shape_growScratch hr rfl (fun _ => by omega) (by simp)

theorem shape_updateGcmDec : Shape s i .update .gcm .dec a (updateGcmDec i a s) :=
  shape_onContext (.inl rfl) fun _ hr => shape_growScratch hr rfl (by simp) (by simp)

theorem shape_updateGmacDec : Shape s i .update .gmac .dec a (updateGmacDec i a s) := by
  refine shape_onContext (.inl rfl) fun c hr => ?_
  split
  · exact .terminal c _ (.inl rfl) hr.active (by decide)
  · exact shape_growScratch hr rfl (by simp) (fun _ => by omega)

theorem shape_updateGmacEnc : Shape s i .update .gmac .enc a (updateGmacEnc i a s) := by
  refine shape_onContext (.inl rfl) fun c hr => ?_
  split
  · exact .terminal c _ (.inl rfl) hr.active (by decide)
  · exact .update c _ _ _ rfl hr id (Context.SameFixed.rfl' c) (by simp) (jobsOk_nil _ _)

/-! ### FINAL -/

theorem shape_finalBlocks : Shape s i .final m d a (finalBlocks i m d a s) := by
  refine shape_onContext (.inr rfl) fun c hr => ?_
  split
  · exact .terminal c _ (.inr rfl) hr.active (by cases d <;> decide)
  · exact .final c _ _ rfl hr (ends_consume _ _) (jobsOk_nil _ _)

theorem shape_finalStream : Shape s i .final m d a (finalStream i m d a s) :=
  shape_onContext (.inr rfl) fun c hr => .final c _ _ rfl hr (ends_consume _ _) (jobsOk_nil _ _)

theorem shape_finalPadEnc : Shape s i .final .cbcPad .enc a (finalPadEnc Prim.external i a s) := by
  refine shape_onContext (.inr rfl) fun c hr => ?_
  dsimp only
  split
  · exact shape_tooSmall _ fun _ => ⟨c, hr.active⟩
  · exact .final c _ _ rfl hr (ends_consume _ _) (jobsOk_jobsOf _ _ _)

theorem shape_finalPadDec : Shape s i .final .cbcPad .dec a (finalPadDec i a s) := by
  refine shape_onContext (.inr rfl) fun c hr => ?_
  dsimp only
  split
  · exact .terminal c _ (.inr rfl) hr.active (by decide)
  · split
    · exact .terminal c _ (.inr rfl) hr.active (by decide)
    · split
      · exact shape_tooSmall _ fun _ => ⟨c, hr.active⟩
      · exact .final c _ _ rfl hr (ends_consume _ _) (jobsOk_nil _ _)

theorem shape_finalCcmEnc : Shape s i .final .ccm .enc a (finalCcmEnc Prim.external i a s) := by
  refine shape_onContext (.inr rfl) fun c hr => ?_
  split
  · exact .terminal c _ (.inr rfl) hr.active (by decide)
  · split
    · exact shape_tooSmall _ fun _ => ⟨c, hr.active⟩
    · exact .final c _ _ rfl hr (ends_consume _ _) (jobsOk_jobsOf _ _ _)

theorem shape_finalCcmDec : Shape s i .final .ccm .dec a (finalCcmDec Prim.external i a s) := by
  refine shape_onContext (.inr rfl) fun c hr => ?_
  split
  · exact .terminal c _ (.inr rfl) hr.active (by decide)
  · split
    · exact shape_tooSmall _ fun _ => ⟨c, hr.active⟩
    · exact .final c _ _ rfl hr (ends_verified _ _) (jobsOk_jobsOf _ _ _)

theorem shape_finalGcmEnc : Shape s i .final .gcm .enc a (finalGcmEnc Prim.external i a s) := by
  refine shape_onContext (.inr rfl) fun c hr => ?_
  split
  · exact shape_tooSmall _ fun _ => ⟨c, hr.active⟩
  · exact .final c _ _ rfl hr (ends_consume _ _) (jobsOk_jobsOf _ _ _)

theorem shape_finalGcmDec : Shape s i .final .gcm .dec a (finalGcmDec Prim.external i a s) := by
  refine shape_onContext (.inr rfl) fun c hr => ?_
  dsimp only
  split
  · exact .terminal c _ (.inr rfl) hr.active (by decide)
  · split
    · exact shape_tooSmall _ fun _ => ⟨c, hr.active⟩
    · exact .final c _ _ rfl hr (ends_verified _ _) (jobsOk_gcmDecJobs _ _ _ _ _)

theorem shape_finalGmacEnc : Shape s i .final .gmac .enc a (finalGmacEnc Prim.external i a s) := by
  refine shape_onContext (.inr rfl) fun c hr => ?_
  split
  · exact shape_tooSmall _ fun _ => ⟨c, hr.active⟩
  · exact .final c _ _ rfl hr (ends_consume _ _) (jobsOk_jobsOf _ _ _)

theorem shape_finalGmacDec : Shape s i .final .gmac .dec a (finalGmacDec Prim.external i a s) := by
  refine shape_onContext (.inr rfl) fun c hr => ?_
  split
  · exact .terminal c _ (.inr rfl) hr.active (by decide)
  · exact .final c _ _ rfl hr (ends_verified _ _) (jobsOk_jobsOf _ _ _)

/-! ### ATOMIC -/

theorem shape_atomicBlocks {upd : Context → Bytes → Bytes × Context} :
    Shape s i .atomic m d a (atomicBlocks Prim.external upd i m d a s) := by
  refine shape_onAtomic rfl fun h hv hh => ?_
  dsimp only
  split
  · exact .answered _ 0 (by cases d <;> decide) (fun _ => rfl) (by simp)
  · split
    · exact shape_tooSmall _ (by simp)
    · exact .atomic h _ _ rfl hv hh (ends_consume _ _) (jobsOk_jobsOf _ _ _)

theorem shape_atomicPadEnc : Shape s i .atomic .cbcPad .enc a (atomicPadEnc Prim.external i a s) := by
  refine shape_onAtomic rfl fun h hv hh => ?_
  dsimp only
  split
  · exact shape_tooSmall _ (by simp)
  · exact .atomic h _ _ rfl hv hh (ends_consume _ _) (jobsOk_jobsOf _ _ _)

theorem shape_atomicPadDec : Shape s i .atomic .cbcPad .dec a (atomicPadDec Prim.external i a s) := by
  refine shape_onAtomic rfl fun h hv hh => ?_
  dsimp only
  split
  · exact .answered _ 0 (by decide) (fun _ => rfl) (by simp)
  · exact .atomic h _ _ rfl hv hh (ends_padDec _ _ _) (jobsOk_jobsOf _ _ _)

theorem initContext_alg (P : Prim) (m : Mode) (d : Dir) (a : Alg) (o : Operands) :
    (initContext P m d a o).alg = a := by
  cases m <;> rfl

theorem shape_atomicStream : Shape s i .atomic m d a (atomicStream Prim.external i m d a s) := by
  refine shape_onAtomic rfl fun h hv hh => ?_
  dsimp only
  split
  · exact shape_tooSmall _ (by simp)
  · exact .atomic h _ _ rfl hv hh (ends_consume _ _) (jobsOk_streamJobs (initContext_alg _ _ _ _ _) _)

theorem shape_atomicCcmEnc : Shape s i .atomic .ccm .enc a (atomicCcmEnc Prim.external i a s) := by
  refine shape_onAtomic rfl fun h hv hh => ?_
  dsimp only
  split
  · exact .answered _ 0 (by decide) (fun _ => rfl) (by simp)
  · split
    · exact shape_tooSmall _ (by simp)
    · exact .atomic h _ _ rfl hv hh (ends_consume _ _) (jobsOk_jobsOf _ _ _)

theorem shape_atomicCcmDec : Shape s i .atomic .ccm .dec a (atomicCcmDec Prim.external i a s) := by
  refine shape_onAtomic rfl fun h hv hh => ?_
  dsimp only
  split
  · exact .answered _ 0 (by decide) (fun _ => rfl) (by simp)
  · split
    · exact .answered _ 0 (by decide) (fun _ => rfl) (by simp)
    · split
      · exact shape_tooSmall _ (by simp)
      · split
        · exact .answered _ 0 (by decide) (fun _ => rfl) (by simp)
        · exact .atomic h _ _ rfl hv hh (ends_verified _ _) (jobsOk_jobsOf _ _ _)

theorem shape_atomicGcmEnc : Shape s i .atomic .gcm .enc a (atomicGcmEnc Prim.external i a s) := by
  refine shape_onAtomic rfl fun h hv hh => ?_
  dsimp only
  split
  · exact shape_tooSmall _ (by simp)
  · exact .atomic h _ _ rfl hv hh (ends_consume _ _) (jobsOk_jobsOf _ _ _)

theorem shape_atomicGcmDec : Shape s i .atomic .gcm .dec a (atomicGcmDec Prim.external i a s) := by
  refine shape_onAtomic rfl fun h hv hh => ?_
  dsimp only
  split
  · exact .answered _ 0 (by decide) (fun _ => rfl) (by simp)
  · split
    · exact shape_tooSmall _ (by simp)
    · split
      · exact .answered _ 0 (by decide) (fun _ => rfl) (by simp)
      · exact .atomic h _ _ rfl hv hh (ends_verified _ _) (jobsOk_gcmDecJobs _ _ _ _ _)

theorem shape_atomicGmacEnc : Shape s i .atomic .gmac .enc a (atomicGmacEnc Prim.external i a s) := by
  refine shape_onAtomic rfl fun h hv hh => ?_
  dsimp only
  split
  · exact .answered _ 0 (by decide) (fun _ => rfl) (by simp)
  · split
    · exact shape_tooSmall _ (by simp)
    · exact .atomic h _ _ rfl hv hh (ends_consume _ _) (jobsOk_jobsOf _ _ _)

theorem shape_atomicGmacDec : Shape s i .atomic .gmac .dec a (atomicGmacDec Prim.external i a s) := by
  refine shape_onAtomic rfl fun h hv hh => ?_
  dsimp only
  split
  · exact .answered _ 0 (by decide) (fun _ => rfl) (by simp)
  · split
    · exact .answered _ 0 (by decide) (fun _ => rfl) (by simp)
    · split
      · exact .answered _ 0 (by decide) (fun _ => rfl) (by simp)
      · exact .atomic h _ _ rfl hv hh (ends_verified _ _) (jobsOk_jobsOf _ _ _)

end

/-! ### All commands -/

/-- EVERYTHING A COMMAND OTHER THAN ABORT CAN DO. -/
theorem exec_shape (op : Op) (m : Mode) (d : Dir) (a : Alg) (s : State) :
    Shape s (instrOf op m d a) op m d a (exec (instrOf op m d a) s) := by
  cases op with
  | init =>
    rw [exec_init]
    exact shape_initCommand
  | update =>
    cases m with
    | ecb =>
      rw [exec_update_ecb]
      exact shape_updateBlocks rfl (fun c x hm h => ecbUpdate_ok _ h hm x) fun c x => sameFixed_ecbUpdate _ c x
    | cbc =>
      rw [exec_update_cbc]
      exact shape_updateBlocks rfl (fun c x hm h => cbcUpdate_ok h (.inl hm) x) fun c x => sameFixed_cbcUpdate _ c x
    | cbcPad =>
      cases d with
      | enc =>
        rw [exec_update_cbcPad_enc]
        exact shape_updateBlocks rfl (fun c x hm h => cbcUpdate_ok h (.inr hm) x) fun c x => sameFixed_cbcUpdate _ c x
      | dec => exact shape_updatePadDec
    | cfb =>
      rw [exec_update_cfb]
      exact shape_updateStream (.inl rfl)
    | ctr =>
      rw [exec_update_ctr]
      exact shape_updateStream (.inr rfl)
    | ccm => cases d with
      | enc => exact shape_updateCcmEnc
      | dec => exact shape_updateCcmDec
    | gcm => cases d with
      | enc => exact shape_updateGcmEnc
      | dec => exact shape_updateGcmDec
    | gmac => cases d with
      | enc => exact shape_updateGmacEnc
      | dec => exact shape_updateGmacDec
  | final =>
    cases m with
    | ecb =>
      rw [exec_final_ecb]
      exact shape_finalBlocks
    | cbc =>
      rw [exec_final_cbc]
      exact shape_finalBlocks
    | cbcPad => cases d with
      | enc => exact shape_finalPadEnc
      | dec => exact shape_finalPadDec
    | cfb =>
      rw [exec_final_cfb]
      exact shape_finalStream
    | ctr =>
      rw [exec_final_ctr]
      exact shape_finalStream
    | ccm => cases d with
      | enc => exact shape_finalCcmEnc
      | dec => exact shape_finalCcmDec
    | gcm => cases d with
      | enc => exact shape_finalGcmEnc
      | dec => exact shape_finalGcmDec
    | gmac => cases d with
      | enc => exact shape_finalGmacEnc
      | dec => exact shape_finalGmacDec
  | atomic =>
    cases m with
    | ecb =>
      rw [exec_atomic_ecb]
      exact shape_atomicBlocks
    | cbc =>
      rw [exec_atomic_cbc]
      exact shape_atomicBlocks
    | cbcPad => cases d with
      | enc => exact shape_atomicPadEnc
      | dec => exact shape_atomicPadDec
    | cfb =>
      rw [exec_atomic_cfb]
      exact shape_atomicStream
    | ctr =>
      rw [exec_atomic_ctr]
      exact shape_atomicStream
    | ccm => cases d with
      | enc => exact shape_atomicCcmEnc
      | dec => exact shape_atomicCcmDec
    | gcm => cases d with
      | enc => exact shape_atomicGcmEnc
      | dec => exact shape_atomicGcmDec
    | gmac => cases d with
      | enc => exact shape_atomicGmacEnc
      | dec => exact shape_atomicGmacDec

end Sys2Proof.Machine
end

