-- ==== Sys2Proof/Laws/Invariant.lean ====
section
/-! SUPPORT. The invariant of the whole state through the shared operations. -/

namespace Sys2Proof.Machine

theorem InFlight.Ok.mono {n m : Nat} {f : InFlight} (h : f.Ok n) (hnm : n ≤ m) : f.Ok m :=
  ⟨h.snapshot_ok, h.commit_ok, h.fixed, lt_of_lt_of_le h.id_lt hnm, h.running⟩

theorem Slot.Ok.mono {n m : Nat} {x : Slot} (h : x.Ok n) (hnm : n ≤ m) : x.Ok m := by
  cases x with
  | active c => exact h
  | busy f => exact InFlight.Ok.mono h hnm

/-- A slot that is looked up is consistent. -/
theorem State.Inv.slot_ok {s : State} (hs : s.Inv) {h : Handle} {x : Slot} (hl : s.lookup h = some x) : x.Ok s.issued :=
  hs.slots_ok _ (Assoc.mem_of_get hl)

/-- Two jobs with one number are the same job. -/
theorem State.Inv.job_unique {s : State} (hs : s.Inv) {j k : PrimJob} (hj : j ∈ s.jobs) (hk : k ∈ s.jobs)
    (h : j.id = k.id) : j = k := by
  by_contra hne
  have := hs.job_ids
  rcases List.pairwise_iff_getElem.mp this with hp
  obtain ⟨x, hx, rfl⟩ := List.getElem_of_mem hj
  obtain ⟨y, hy, rfl⟩ := List.getElem_of_mem hk
  rcases lt_trichotomy x y with hxy | rfl | hxy
  · exact absurd h (Nat.ne_of_lt (hp x y hx hy hxy))
  · exact hne rfl
  · exact absurd h.symm (Nat.ne_of_lt (hp y x hy hx hxy))

/-- The table with one slot set or erased. -/
def setSlot (h : Handle) : Option Slot → List (Handle × Slot) → List (Handle × Slot)
  | some x, l => Assoc.set h x l
  | none, l => Assoc.erase h l

theorem setSlot_same (h : Handle) (x : Option Slot) (l : List (Handle × Slot)) : Assoc.get h (setSlot h x l) = x := by
  cases x
  · exact Assoc.get_erase_same h l
  · exact Assoc.get_set_same h _ l

theorem setSlot_ne {h k : Handle} (hk : k ≠ h) (x : Option Slot) (l : List (Handle × Slot)) :
    Assoc.get k (setSlot h x l) = Assoc.get k l := by
  cases x
  · exact Assoc.get_erase_ne hk l
  · exact Assoc.get_set_ne hk _ l

theorem State.setContext_table (s : State) (h : Handle) (c : Option Context) :
    (s.setContext h c).table = setSlot h (c.map .active) s.table := by
  cases c <;> rfl

/-- THE INVARIANT THROUGH THE CHANGE OF ONE SLOT. `t` differs from `s` in the slot of `h`, which becomes `x`, in the jobs of `h`,
and in fields that no other slot depends on. -/
theorem State.Inv.replace {s t : State} (hs : s.Inv) (h : Handle) (x : Option Slot)
    (table : t.table = setSlot h x s.table) (mem : Memory.wf t.mem) (known_nodup : t.known.Nodup)
    (known : ∀ k ∈ s.known, k ∈ t.known) (known_h : x ≠ none → h ∈ t.known) (issued : s.issued ≤ t.issued)
    (issued_pos : x ≠ none → 0 < t.issued) (slot : ∀ y, x = some y → y.Ok t.issued ∧ y.reportOk)
    (job_ids : t.jobs.Pairwise fun j k => j.id < k.id) (jobs_before : ∀ j ∈ t.jobs, j.id < t.nextJob)
    (current : ∀ f j, x = some (.busy f) → f.current = some j →
      ∃ job ∈ t.jobs, job.id = j ∧ job.handle = h ∧ job.cancelled = false)
    (kept : ∀ job ∈ s.jobs, job.handle ≠ h → job.cancelled = false → job ∈ t.jobs)
    (live : ∀ job ∈ t.jobs, job.cancelled = false →
      (job ∈ s.jobs ∧ job.handle ≠ h) ∨
        (job.handle = h ∧ ∃ f, x = some (.busy f) ∧ f.current = some job.id ∧ job.context = f.context))
    (apart : ∀ f, x = some (.busy f) → ∀ k g, k ≠ h → s.lookup k = some (.busy g) →
      View.overlaps f.outView g.outView = false ∧ View.overlaps f.outView g.inView = false ∧
        View.overlaps g.outView f.inView = false)
    (room : s.lookup h = none → x ≠ none → ∀ n, s.config.maxContexts = some n → s.table.length < n)
    (config : t.config = s.config) (reports : ∀ r ∈ t.reports, r ∈ s.reports ∨ r.Ok) : t.Inv where
  table_sorted := by
    rw [table]
    cases x
    · exact Assoc.sorted_erase hs.table_sorted h
    · exact Assoc.sorted_set hs.table_sorted h _
  mem_wf := mem
  known_nodup := known_nodup
  table_known := fun e he => by
    rw [table] at he
    cases x with
    | none => exact known _ (hs.table_known e (Assoc.mem_of_mem_erase he).1)
    | some x =>
      rcases Assoc.mem_of_mem_set he with rfl | he
      · exact known_h (by simp)
      · exact known _ (hs.table_known e he)
  slots_ok := fun e he => by
    rw [table] at he
    cases x with
    | none => exact (hs.slots_ok e (Assoc.mem_of_mem_erase he).1).mono issued
    | some x =>
      rcases Assoc.mem_of_mem_set he with rfl | he
      · exact (slot _ rfl).1
      · exact (hs.slots_ok e he).mono issued
  job_ids := job_ids
  jobs_before := jobs_before
  current_job := fun k f j hl hj => by
    unfold State.lookup at hl
    rw [table] at hl
    by_cases hk : k = h
    · subst hk
      rw [setSlot_same] at hl
      exact current f j hl hj
    · rw [setSlot_ne hk] at hl
      obtain ⟨job, hm, h1, h2, h3⟩ := hs.current_job k f j hl hj
      exact ⟨job, kept job hm (by rw [h2]; exact hk) h3, h1, h2, h3⟩
  live_job := fun job hm hc => by
    unfold State.lookup
    rw [table]
    rcases live job hm hc with ⟨hm', hne⟩ | ⟨he, f, hx, hf⟩
    · rw [setSlot_ne hne]
      exact hs.live_job job hm' hc
    · rw [he, setSlot_same]
      exact ⟨f, hx, hf⟩
  views_apart := fun k k' f g hne hk hk' => by
    unfold State.lookup at hk hk'
    rw [table] at hk hk'
    by_cases h1 : k = h
    · subst h1
      rw [setSlot_same] at hk
      rw [setSlot_ne hne.symm] at hk'
      obtain ⟨ha, hb, -⟩ := apart f hk k' g hne.symm hk'
      exact ⟨ha, hb⟩
    · rw [setSlot_ne h1] at hk
      by_cases h2 : k' = h
      · subst h2
        rw [setSlot_same] at hk'
        obtain ⟨ha, -, hb⟩ := apart g hk' k f hne hk
        exact ⟨by rw [View.overlaps_comm]; exact ha, hb⟩
      · rw [setSlot_ne h2] at hk'
        exact hs.views_apart k k' f g hne hk hk'
  room := fun n hn => by
    rw [config] at hn
    rw [table]
    cases x with
    | none => exact le_trans (Assoc.length_erase_le h _) (hs.room n hn)
    | some x =>
      cases hl : s.lookup h with
      | none => exact le_trans (Assoc.length_set_le h x _) (room hl (by simp) n hn)
      | some y =>
        show (Assoc.set h x s.table).length ≤ n
        rw [Assoc.length_set_of_get hs.table_sorted hl]
        exact hs.room n hn
  config_ok := by rw [config]; exact hs.config_ok
  fresh := fun h0 => by
    have := hs.fresh (by omega)
    rw [table, this]
    cases x with
    | none => rfl
    | some x => exact absurd h0 (Nat.ne_of_gt (issued_pos (by simp)))
  reports_ok := fun r hr => (reports r hr).elim (hs.reports_ok r) id
  commits_ok := fun e he => by
    rw [table] at he
    cases x with
    | none => exact hs.commits_ok e (Assoc.mem_of_mem_erase he).1
    | some x =>
      rcases Assoc.mem_of_mem_set he with rfl | he
      · exact (slot _ rfl).2
      · exact hs.commits_ok e he

/-- No job of a handle that is not BUSY waits for its command. -/
theorem State.Inv.no_live {s : State} (hs : s.Inv) {h : Handle} (hb : ∀ f, s.lookup h ≠ some (.busy f))
    {job : PrimJob} (hj : job ∈ s.jobs) (hc : job.cancelled = false) : job.handle ≠ h := by
  rintro rfl
  obtain ⟨f, hf, -, -⟩ := hs.live_job job hj hc
  exact hb f hf

theorem nodup_know {s : State} (hn : s.known.Nodup) (h : Handle) : (s.know h).known.Nodup := by
  unfold State.know
  dsimp only
  split
  · exact hn
  · exact List.nodup_cons.mpr ⟨‹_›, hn⟩

theorem nodup_knowReturned {s : State} (hn : s.known.Nodup) (r : Option Handle) : (s.knowReturned r).known.Nodup := by
  cases r
  · exact hn
  · exact nodup_know hn _

theorem known_knowReturned {s : State} {k : Handle} (hk : k ∈ s.known) (r : Option Handle) :
    k ∈ (s.knowReturned r).known := by
  cases r
  · exact hk
  · exact State.mem_know.mpr (.inr hk)

/-- A command answered at its issue keeps the invariant. -/
theorem State.Inv.answer {s : State} (hs : s.Inv) {st : Status} {n : Nat}
    (hr : st ≠ .success → st ≠ .bufferTooSmall → n = 0) : (s.answer st n).Inv :=
  { table_sorted := hs.table_sorted, mem_wf := hs.mem_wf, known_nodup := hs.known_nodup
    table_known := hs.table_known
    slots_ok := fun e he => (hs.slots_ok e he).mono (Nat.le_succ _)
    job_ids := hs.job_ids, jobs_before := hs.jobs_before, current_job := hs.current_job, live_job := hs.live_job
    views_apart := hs.views_apart
    room := hs.room, config_ok := hs.config_ok
    fresh := fun h => absurd h (Nat.succ_ne_zero _)
    reports_ok := fun r h => by
      rcases List.mem_append.mp h with h | h
      · exact hs.reports_ok r h
      · rw [List.mem_singleton.mp h]
        exact hr
    commits_ok := hs.commits_ok }

/-- A handle that is not BUSY made ABSENT keeps the invariant. -/
theorem State.Inv.drop {s : State} (hs : s.Inv) {h : Handle} (hb : ∀ f, s.lookup h ≠ some (.busy f)) :
    (s.drop h).Inv :=
  hs.replace h none rfl hs.mem_wf hs.known_nodup (fun _ hk => hk) (fun hx => absurd rfl hx) (le_refl _)
    (fun hx => absurd rfl hx) (fun _ hx => by cases hx) hs.job_ids hs.jobs_before (fun _ _ hx => by cases hx)
    (fun _ hj _ _ => hj) (fun _ hj hc => .inl ⟨hj, hs.no_live hb hj hc⟩) (fun _ hx => by cases hx)
    (fun _ hx => absurd rfl hx) rfl fun _ hr => .inl hr

/-- The completion of a command keeps the invariant: `s` is the state it commits on, in which no job waits for `h`. -/
theorem State.Inv.finish {s t : State} (hs : s.Inv) {id : Nat} {h : Handle} {v : View} {r : Commit}
    (table : t.table = s.table) (mem : t.mem = s.mem) (known : t.known = s.known) (config : t.config = s.config)
    (reports : t.reports = s.reports) (issued : s.issued ≤ t.issued) (pos : 0 < t.issued)
    (job_ids : t.jobs.Pairwise fun j k => j.id < k.id) (jobs_before : ∀ j ∈ t.jobs, j.id < t.nextJob)
    (kept : ∀ job ∈ s.jobs, job.handle ≠ h → job.cancelled = false → job ∈ t.jobs)
    (live : ∀ job ∈ t.jobs, job.cancelled = false → job ∈ s.jobs ∧ job.handle ≠ h)
    (ctx_ok : ∀ c, r.ctx = some c → c.Ok) (ctx_known : r.ctx ≠ none → h ∈ s.known ∨ r.returns = some h)
    (room : s.lookup h = none → r.ctx ≠ none → ∀ n, s.config.maxContexts = some n → s.table.length < n)
    (size : r.status ≠ .success → r.status ≠ .bufferTooSmall → r.size = 0) : (t.finish id h v r).Inv := by
  refine hs.replace h (r.ctx.map .active) ?_ ?_ ?_ ?_ ?_ ?_ ?_ ?_ ?_ ?_ ?_ ?_ ?_ ?_ ?_ ?_ ?_
  · rw [State.finish_table, State.setContext_table, table]
  · rw [State.finish_mem]
    refine State.applyRegion_wf ?_ _ _
    rw [mem]
    exact hs.mem_wf
  · rw [State.finish_known]
    exact nodup_knowReturned (by rw [known]; exact hs.known_nodup) _
  · intro k hk
    rw [State.finish_known]
    exact known_knowReturned (by rw [known]; exact hk) _
  · intro hx
    rw [State.finish_known]
    rcases ctx_known (by rintro h0; simp [h0] at hx) with hk | hk
    · exact known_knowReturned (by rw [known]; exact hk) _
    · rw [hk]
      exact State.mem_know.mpr (.inl rfl)
  · simpa using issued
  · intro _
    simpa using pos
  · intro y hy
    cases hc : r.ctx with
    | none => simp [hc] at hy
    | some c =>
      simp [hc] at hy
      subst hy
      exact ⟨ctx_ok c hc, trivial⟩
  · simpa using job_ids
  · simpa using jobs_before
  · intro f j hx
    cases hc : r.ctx <;> simp [hc] at hx
  · simpa using kept
  · intro job hj hc
    exact .inl (live job (by simpa using hj) hc)
  · intro f hx
    cases hc : r.ctx <;> simp [hc] at hx
  · intro hl hx
    exact room hl (by rintro h0; simp [h0] at hx)
  · simpa using config
  · intro q hq
    rw [State.finish_reports, reports] at hq
    rcases List.mem_append.mp hq with hq | hq
    · exact .inl hq
    · rw [List.mem_singleton.mp hq]
      exact .inr size

/-- THE INVARIANT THROUGH A LAUNCH on a handle that is not BUSY, with views that clash with none in flight. -/
theorem State.Inv.launch {s : State} (hs : s.Inv) (i : Instr) {h : Handle} {snap : Option Context} (inV outV : View)
    (jobs : List Nat) {r : Commit} (hb : ∀ f, s.lookup h ≠ some (.busy f)) (clash : s.viewsClash inV outV = false)
    (snap_ok : ∀ c, snap = some c → c.Ok)
    (ctx_ok : ∀ c, r.ctx = some c → c.Ok) (fixed : ∀ c c', snap = some c → r.ctx = some c' → c.SameFixed c')
    (ctx_known : r.ctx ≠ none → h ∈ s.known ∨ r.returns = some h)
    (room : s.lookup h = none → ∀ n, s.config.maxContexts = some n → s.table.length < n)
    (size : r.status ≠ .success → r.status ≠ .bufferTooSmall → r.size = 0) :
    (s.launch i h snap inV outV jobs r).Inv := by
  unfold State.launch
  split
  · exact hs.finish rfl rfl rfl rfl rfl (Nat.le_succ _) (Nat.succ_pos _) hs.job_ids hs.jobs_before
      (fun _ hj _ _ => hj) (fun _ hj hc => ⟨hj, hs.no_live hb hj hc⟩) ctx_ok ctx_known (fun hl _ => room hl) size
  · rename_i hj
    refine hs.replace h (some (.busy _)) rfl hs.mem_wf (nodup_know hs.known_nodup h)
      (fun _ hk => State.mem_know.mpr (.inr hk)) (fun _ => State.mem_know.mpr (.inl rfl)) (Nat.le_succ _)
      (fun _ => Nat.succ_pos _) ?_ hs.job_ids hs.jobs_before ?_ (fun _ hj _ _ => hj)
      (fun _ hj hc => .inl ⟨hj, hs.no_live hb hj hc⟩) ?_ (fun hl _ => room hl) rfl fun _ hr => .inl hr
    · rintro y hy
      cases hy
      exact ⟨⟨snap_ok, ctx_ok, fixed, Nat.lt_succ_self _, fun _ => hj⟩, size⟩
    · rintro f j hx hc
      cases hx
      cases hc
    · rintro f hx k g - hk
      cases hx
      exact State.apart_of_viewsClash clash hk

/-- The room an INIT check grants (00 R18). -/
theorem room_of_initChecks {s : State} {m : Mode} {a : Alg} {h : Handle} (hh : s.initChecks m a = .ok h) :
    algModeSupported s.config a m = true ∧ paramsOk m a s.args = true ∧ s.lookup h = none ∧
      ∀ n, s.config.maxContexts = some n → s.table.length < n := by
  unfold State.initChecks at hh
  split at hh
  · cases hh
  · split at hh
    · cases hh
    · split at hh
      · cases hh
      · split at hh
        · cases hh
        · split at hh
          · cases hh
          · rename_i h1 _ _ h4 h5
            cases hh
            refine ⟨by simpa using h1, by simpa using h4, State.lookup_freshHandle _ _, fun n hn => ?_⟩
            have h5' : s.canAllocate = true := by simpa using h5
            simp only [State.canAllocate, hn, Bool.and_eq_true, decide_eq_true_eq] at h5'
            exact h5'.2

/-- Every command but ABORT keeps the invariant. -/
theorem State.Inv.exec_instrOf {s t : State} (hs : s.Inv) {op : Op} {m : Mode} {d : Dir} {a : Alg}
    (ht : exec (instrOf op m d a) s = .next t) : t.Inv := by
  have hsh := exec_shape op m d a s
  generalize instrOf op m d a = i at ht hsh
  rw [ht] at hsh
  generalize hR : (Host.Outcome.next t : Result) = R at hsh
  cases hsh with
  | refused r _ => cases hR
  | answered st n _ h2 _ =>
    cases hR
    exact hs.answer fun _ h => h2 h
  | terminal c st _ hl _ =>
    cases hR
    exact (hs.drop (h := s.args.handle) (fun f hf => by rw [hl] at hf; cases hf)).answer fun _ _ => rfl
  | init _ h jobs hh _ =>
    cases hR
    obtain ⟨h1, h2, h3, h4⟩ := room_of_initChecks hh
    refine hs.launch i [] [] jobs (fun f hf => by rw [h3] at hf; cases hf) s.viewsClash_nil (fun _ hc => by cases hc) ?_
      (fun _ _ hc => by cases hc) (fun _ => .inr rfl) (fun _ => h4) fun h0 => absurd rfl h0
    rintro c hc
    cases hc
    exact State.newContext_ok d h1 h2
  | update c c' out jobs _ hr hok hfix _ _ =>
    cases hR
    have hc : c.Ok := hs.slot_ok hr.active
    refine hs.launch i _ _ jobs (fun f hf => by rw [hr.active] at hf; cases hf)
      (State.viewsClash_of_viewRefusal hr.views) (fun _ h => by cases h; exact hc) ?_ ?_ (fun _ => .inl (hs.table_known _ (Assoc.mem_of_get hr.active))) (fun hl => by rw [hr.active] at hl; cases hl)
      fun h0 => absurd rfl h0
    · rintro x hx
      cases hx
      exact hok hc
    · rintro x y hx hy
      cases hx
      cases hy
      exact hfix
  | final c r jobs _ hr he _ =>
    cases hR
    have hc : c.Ok := hs.slot_ok hr.active
    exact hs.launch i _ _ jobs (fun f hf => by rw [hr.active] at hf; cases hf)
      (State.viewsClash_of_viewRefusal hr.views) (fun _ h => by cases h; exact hc)
      (fun x hx => by rw [he.ctx] at hx; cases hx) (fun _ _ _ hy => by rw [he.ctx] at hy; cases hy)
      (fun h => absurd he.ctx h) (fun hl => by rw [hr.active] at hl; cases hl) he.size
  | atomic h r jobs _ hv hh he _ =>
    cases hR
    obtain ⟨-, -, h3, h4⟩ := room_of_initChecks hh
    exact hs.launch i _ _ jobs (fun f hf => by rw [h3] at hf; cases hf) (State.viewsClash_of_viewRefusal hv)
      (fun _ hc => by cases hc)
      (fun x hx => by rw [he.ctx] at hx; cases hx) (fun _ _ _ hy => by rw [he.ctx] at hy; cases hy)
      (fun h => absurd he.ctx h) (fun _ => h4) he.size

end Sys2Proof.Machine
end

