-- ==== Sys2Proof/Laws/Agents.lean ====
section
/-! SUPPORT. What the steps of the agents other than a command's issue can do, said once: if one answers a next state, then that
state, and when one does; and what is in flight after a step. -/

namespace Sys2Proof.Machine

/-- A step is the first event of the schedule; with none left the state stays. -/
theorem step_next {s t : State} (ht : step s = .next t) :
    (∃ e rest, s.events = e :: rest ∧ runEvent e { s with events := rest } = .next t) ∨
      (s.events = [] ∧ s.anyBusy = false ∧ t = s) := by
  unfold step at ht
  split at ht
  · rename_i e rest he
    exact .inl ⟨e, rest, he, ht⟩
  · rename_i he
    unfold runOut at ht
    split at ht
    · cases ht
    · cases ht
      exact .inr ⟨he, Bool.eq_false_iff.mpr ‹_›, rfl⟩

/-- A submission takes the first job left of a command that waits for none. -/
theorem submitJob_next {h : Handle} {s t : State} (ht : submitJob h s = .next t) :
    ∃ f n rest, s.lookup h = some (.busy f) ∧ f.current = none ∧ f.jobsLeft = n :: rest ∧
      t = { s.put h (.busy { f with current := some s.nextJob, jobsLeft := rest }) with
        jobs := s.jobs ++ [{ id := s.nextJob, handle := h, context := f.context, blocks := n, cancelled := false }]
        nextJob := s.nextJob + 1 } := by
  unfold submitJob at ht
  split at ht
  · rename_i f hl
    split at ht
    · rename_i n rest hc hj
      cases ht
      exact ⟨f, n, rest, hl, hc, hj, rfl⟩
    · cases ht
  · cases ht

/-- A job comes too early exactly when a command waits for a job of its context with a lower number. -/
theorem State.earlierJob_iff {s : State} {j : PrimJob} :
    s.earlierJob j = true ↔
      ∃ k ∈ s.jobs, k.handle = j.handle ∧ k.context = j.context ∧ k.id < j.id ∧ k.cancelled = false := by
  simp [State.earlierJob, PrimJob.sameContext, and_assoc]

/-- A job stays when another one completes unless it is of the same context and no later. -/
theorem State.mem_jobsAfter {s : State} {j k : PrimJob} :
    k ∈ s.jobsAfter j ↔ k ∈ s.jobs ∧ ¬(k.handle = j.handle ∧ k.context = j.context ∧ k.id ≤ j.id) := by
  unfold State.jobsAfter PrimJob.sameContext
  rw [List.mem_filter, ← Bool.decide_and, Bool.not_eq_true', decide_eq_false_iff_not, and_assoc]

/-- A completion is that of a job in the Block Primitive which comes in its context's order. That of a cancelled one only shortens
the list of jobs; else it goes on with the command in flight. -/
theorem completeJob_next {n : Nat} {r : JobResult} {s t : State} (ht : completeJob n r s = .next t) :
    ∃ j, s.jobs.find? (fun k => k.id = n) = some j ∧ j ∈ s.jobs ∧ j.id = n ∧ s.earlierJob j = false ∧
      s.possibleResult r = none ∧
      ((j.cancelled = true ∧ t = { s with jobs := s.jobsAfter j }) ∨
        (j.cancelled = false ∧ ∃ f, s.lookup j.handle = some (.busy f) ∧
          t = { s with jobs := s.jobsAfter j }.jobEnded j.handle f r)) := by
  unfold completeJob at ht
  split at ht
  · cases ht
  · rename_i j hj
    refine ⟨j, hj, List.mem_of_find?_eq_some hj, by simpa using List.find?_some hj, ?_⟩
    split at ht
    · cases ht
    · rename_i he
      split at ht
      · cases ht
      · rename_i hr
        refine ⟨Bool.eq_false_iff.mpr he, hr, ?_⟩
        dsimp only at ht
        split at ht
        · cases ht
          exact .inl ⟨‹_›, rfl⟩
        · rename_i hc
          split at ht
          · rename_i f hl
            cases ht
            exact .inr ⟨Bool.eq_false_iff.mpr hc, f, hl, rfl⟩
          · cases ht

/-- The end of a job that is not cancelled completes the command, with its commit on the last success and PRIM(e) on an error,
or goes on to its next job. -/
theorem State.jobEnded_cases (s : State) (h : Handle) (f : InFlight) (r : JobResult) :
    (∃ c, s.jobEnded h f r = s.finish f.id h f.outView c ∧
      ((r = .ok ∧ f.jobsLeft = [] ∧ c = f.commit) ∨ ∃ e, r = .error e ∧ c = .failAny (.prim e))) ∨
    (r = .ok ∧ f.jobsLeft ≠ [] ∧
      s.jobEnded h f r = s.put h (.busy { f with current := none, jobsDone := f.jobsDone + 1 })) := by
  cases r with
  | error e => exact .inl ⟨_, rfl, .inr ⟨e, rfl, rfl⟩⟩
  | ok =>
    by_cases hj : f.jobsLeft = []
    · exact .inl ⟨f.commit, by simp [State.jobEnded, State.jobSucceeded, hj], .inl ⟨rfl, hj, rfl⟩⟩
    · exact .inr ⟨rfl, hj, by simp [State.jobEnded, State.jobSucceeded, hj]⟩

/-- The end of a job leaves every other slot. -/
theorem State.lookup_jobEnded_ne {h k : Handle} (hk : k ≠ h) (s : State) (f : InFlight) (r : JobResult) :
    (s.jobEnded h f r).lookup k = s.lookup k := by
  rcases s.jobEnded_cases h f r with ⟨c, e, -⟩ | ⟨-, -, e⟩
  · rw [e, State.lookup_finish_ne hk]
  · rw [e, State.lookup_put_ne hk]

/-- The end of a job changes no byte outside the command's output view. -/
theorem State.read_jobEnded {a : Nat} {f : InFlight} (ha : a ∉ View.addrs f.outView) (s : State) (h : Handle)
    (r : JobResult) : Memory.read (s.jobEnded h f r).mem a = Memory.read s.mem a := by
  rcases s.jobEnded_cases h f r with ⟨c, e, -⟩ | ⟨-, -, e⟩
  · rw [e, State.read_finish ha]
  · rw [e]
    rfl

/-- A job is found by its number. -/
theorem State.Inv.find_job {s : State} (hs : s.Inv) {j : PrimJob} (hj : j ∈ s.jobs) :
    s.jobs.find? (fun k => k.id = j.id) = some j := by
  cases hx : s.jobs.find? (fun k => k.id = j.id) with
  | none => simpa using List.find?_eq_none.mp hx j hj
  | some k => rw [hs.job_unique (List.mem_of_find?_eq_some hx) hj (by simpa using List.find?_some hx)]

/-- A job completes while a command waits for an earlier one of its context: refused. -/
theorem completeJob_early {s : State} (hs : s.Inv) {j : PrimJob} (hj : j ∈ s.jobs) (he : s.earlierJob j = true)
    (r : JobResult) : completeJob j.id r s = .refused (.outOfOrder j.id) := by
  simp [completeJob, hs.find_job hj, he]

/-- A cancelled job completes in its turn. -/
theorem completeJob_cancelled {s : State} (hs : s.Inv) {j : PrimJob} (hj : j ∈ s.jobs) (he : s.earlierJob j = false)
    (hc : j.cancelled = true) {r : JobResult} (hr : s.possibleResult r = none) :
    completeJob j.id r s = .next { s with jobs := s.jobsAfter j } := by
  simp [completeJob, hs.find_job hj, he, hc, hr]

/-- The job of a command in flight completes in its turn. -/
theorem completeJob_live {s : State} (hs : s.Inv) {j : PrimJob} (hj : j ∈ s.jobs) (he : s.earlierJob j = false)
    (hc : j.cancelled = false) {r : JobResult} (hr : s.possibleResult r = none) {f : InFlight}
    (hf : s.lookup j.handle = some (.busy f)) :
    completeJob j.id r s = .next ({ s with jobs := s.jobsAfter j }.jobEnded j.handle f r) := by
  simp [completeJob, hs.find_job hj, he, hc, hr, hf]

/-- No job completes after a later one of its context. -/
theorem completeJob_overtaken {s t : State} (hs : s.Inv) {j k : PrimJob} (hk : k ∈ s.jobs) (hh : k.handle = j.handle)
    (hc : k.context = j.context) (hid : k.id ≤ j.id) (ht : t.jobs = s.jobsAfter j) (r : JobResult) :
    completeJob k.id r t = .refused (.noSuchJob k.id) := by
  have hf : t.jobs.find? (fun i => i.id = k.id) = none := by
    refine List.find?_eq_none.mpr fun i hi he => ?_
    rw [ht, State.mem_jobsAfter] at hi
    rw [hs.job_unique hi.1 hk (by simpa using he)] at hi
    exact hi.2 ⟨hh, hc, hid⟩
  simp [completeJob, hf]

/-- ABORT cancels a command in flight, and else changes nothing. -/
theorem abortCommand_next {s t : State} (ht : abortCommand s = .next t) :
    (∃ f, s.lookup s.args.handle = some (.busy f) ∧ t = (s.cancel s.args.handle f).answer .success 0) ∨
      ((∀ f, s.lookup s.args.handle ≠ some (.busy f)) ∧ t = s.answer .success 0) := by
  unfold abortCommand at ht
  split at ht
  · rename_i f hl
    cases ht
    exact .inl ⟨f, hl, rfl⟩
  · rename_i c hl
    cases ht
    exact .inr ⟨fun f hf => (by rw [hl] at hf; cases hf), rfl⟩
  · rename_i hl
    split at ht
    · cases ht
      exact .inr ⟨fun f hf => (by rw [hl] at hf; cases hf), rfl⟩
    · cases ht

/-- A store lands outside every view in flight. -/
theorem hostWrite_next {a : Nat} {b : Bytes} {s t : State} (ht : hostWrite a b s = .next t) :
    s.viewsClash [{ base := a, len := b.length }] [{ base := a, len := b.length }] = false ∧
      t = { s with mem := Memory.writeAll s.mem (View.addrs [{ base := a, len := b.length }]) b } := by
  unfold hostWrite at ht
  dsimp only at ht
  split at ht
  · cases ht
  · cases ht
    exact ⟨Bool.eq_false_iff.mpr ‹_›, rfl⟩

/-! ### Commands in flight -/

/-- `f` on `h` is a command that was in flight on `h` in the state `s` or one issued in it. -/
def State.OldOrNew (s : State) (h : Handle) (f : InFlight) : Prop :=
  f.id = s.issued ∨ ∃ g, s.lookup h = some (.busy g) ∧ g.SameCommand f

theorem State.OldOrNew.of_lookup {s t : State} {h : Handle} {f : InFlight} (hl : t.lookup h = some (.busy f))
    (he : t.lookup h = s.lookup h) : s.OldOrNew h f :=
  .inr ⟨f, he ▸ hl, rfl, rfl, rfl, rfl, rfl, rfl⟩

/-- A command's completion leaves its handle not BUSY. -/
theorem State.not_busy_finish {s : State} {id : Nat} {h : Handle} {v : View} {c : Commit} (f : InFlight) :
    (s.finish id h v c).lookup h ≠ some (.busy f) := by
  rw [State.lookup_finish_same]
  cases c.ctx <;> simp

theorem State.oldOrNew_finish {s t : State} {id : Nat} {h k : Handle} {v : View} {c : Commit} {f : InFlight}
    (hl : (t.finish id k v c).lookup h = some (.busy f)) (ht : t.lookup h = s.lookup h) : s.OldOrNew h f := by
  by_cases hk : h = k
  · subst hk
    exact absurd hl (State.not_busy_finish f)
  · exact .of_lookup hl ((State.lookup_finish_ne hk _ _ _ _).trans ht)

/-- What is in flight after a launch was so before, or is the command launched. -/
theorem State.oldOrNew_launch {s : State} {i : Instr} {k h : Handle} {snapshot : Option Context} {inV outV : View}
    {jobs : List Nat} {r : Commit} {f : InFlight}
    (hl : (s.launch i k snapshot inV outV jobs r).lookup h = some (.busy f)) : s.OldOrNew h f := by
  by_cases hk : h = k
  · subst hk
    unfold State.launch at hl
    split at hl
    · exact absurd hl (State.not_busy_finish f)
    · cases (State.lookup_put_same _ _ _).symm.trans hl
      exact .inl rfl
  · exact .of_lookup hl (State.lookup_launch_ne hk _ _ _ _ _ _ _)

/-- What is in flight after a command was so before, or is that command. -/
theorem exec_busy {s t : State} {i : Instr} {h : Handle} {f : InFlight} (ht : exec i s = .next t)
    (hl : t.lookup h = some (.busy f)) : s.OldOrNew h f := by
  rcases eq_abort_or_instrOf i with rfl | ⟨op, m, d, a, rfl⟩
  · rcases abortCommand_next (show abortCommand s = _ from ht) with ⟨g, -, rfl⟩ | ⟨-, rfl⟩
    · exact State.oldOrNew_finish (t := s.cancelJob g.current) (id := g.id) hl rfl
    · exact .of_lookup hl rfl
  · have hsh := exec_shape op m d a s
    generalize instrOf op m d a = i at ht hsh
    rw [ht] at hsh
    generalize hR : (Host.Outcome.next t : Result) = R at hsh
    cases hsh <;> cases hR
    case answered.refl => exact .of_lookup hl rfl
    case terminal.refl =>
      by_cases hk : h = s.args.handle
      · subst hk
        rw [show (s.raiseTerminal _).lookup s.args.handle = none from State.lookup_drop_same s _] at hl
        cases hl
      · exact .of_lookup hl (State.lookup_drop_ne hk s)
    all_goals exact State.oldOrNew_launch hl

/-- A COMMAND STAYS WHAT IT IS: what is in flight after a step was so before it, with its snapshot, its views and what it will
commit, or was issued by it. -/
theorem step_busy {s t : State} {h : Handle} {f : InFlight} (ht : step s = .next t) (hl : t.lookup h = some (.busy f)) :
    s.OldOrNew h f := by
  rcases step_next ht with ⟨e, rest, -, hr⟩ | ⟨-, -, rfl⟩
  · cases e with
    | configure cfg =>
      simp only [runEvent, configure] at hr
      split at hr <;> cases hr
      exact .of_lookup hl rfl
    | hostWrite a b =>
      obtain ⟨-, rfl⟩ := hostWrite_next hr
      exact .of_lookup hl rfl
    | submit k =>
      obtain ⟨g, n, js, hg, -, -, rfl⟩ := submitJob_next hr
      by_cases hk : h = k
      · subst hk
        cases (State.lookup_put_same { s with events := rest } h _).symm.trans hl
        exact .inr ⟨g, hg, rfl, rfl, rfl, rfl, rfl, rfl⟩
      · exact .of_lookup hl (State.lookup_put_ne hk _ _)
    | complete n r =>
      obtain ⟨j, -, -, -, -, -, ⟨-, rfl⟩ | ⟨-, g, hg, rfl⟩⟩ := completeJob_next hr
      · exact .of_lookup hl rfl
      · generalize hq : ({ s with events := rest, jobs := ({ s with events := rest } : State).jobsAfter j } : State) = q at hl
        have hs : ∀ k, q.lookup k = s.lookup k := fun k => by rw [← hq]; rfl
        rcases q.jobEnded_cases j.handle g r with ⟨c, e, -⟩ | ⟨-, -, e⟩
        · exact State.oldOrNew_finish (e ▸ hl) (hs h)
        · by_cases hk : h = j.handle
          · subst hk
            rw [e, State.lookup_put_same] at hl
            cases hl
            exact .inr ⟨g, hg, rfl, rfl, rfl, rfl, rfl, rfl⟩
          · exact .of_lookup hl ((State.lookup_jobEnded_ne hk _ _ _).trans (hs h))
    | issue w args =>
      unfold runEvent issueCommand at hr
      dsimp only at hr
      split at hr
      · exact exec_busy (s := { s with events := rest, args := args }) hr hl
      · cases hr
        exact .of_lookup hl rfl
  · exact .of_lookup hl rfl

end Sys2Proof.Machine
end

