-- ==== Sys2Proof/Laws/Numbers.lean ====
section
/-! SUPPORT. The big-endian numbers of 00_scope.md rule R21: `beInt` and `beBytes` are inverse to each other, and both split
where the bytes do. -/

namespace Sys2Proof.Machine

theorem beInt_foldl (s : Bytes) (v : Nat) : s.foldl (fun v b => v * 256 + b.toNat) v = v * 256 ^ s.length + beInt s := by
  induction s generalizing v with
  | nil => simp [beInt]
  | cons b s ih =>
    rw [List.foldl_cons, ih, beInt, beInt, List.foldl_cons, ih (0 * 256 + b.toNat), beInt, List.length_cons, Nat.pow_succ]
    ring

theorem beInt_cons (b : Byte) (s : Bytes) : beInt (b :: s) = b.toNat * 256 ^ s.length + beInt s := by
  rw [beInt, List.foldl_cons, beInt_foldl]
  simp

theorem beInt_append (s t : Bytes) : beInt (s ++ t) = beInt s * 256 ^ t.length + beInt t := by
  rw [beInt, List.foldl_append, beInt_foldl]
  rfl

theorem beInt_lt (s : Bytes) : beInt s < 256 ^ s.length := by
  induction s with
  | nil => decide
  | cons b s ih =>
    rw [beInt_cons, List.length_cons, Nat.pow_succ]
    have := b.isLt
    nlinarith [Nat.mul_le_mul_right (256 ^ s.length) (Nat.le_of_lt_succ (show b.toNat < 255 + 1 by omega))]

@[simp] theorem beInt_zeros (n : Nat) : beInt (zeros n) = 0 := by
  induction n with
  | zero => rfl
  | succ n ih =>
    rw [zeros, List.replicate_succ, beInt_cons]
    change 0 * _ + beInt (zeros n) = 0
    rw [ih, Nat.zero_mul]

theorem beBytes_zero (n : Nat) : beBytes n 0 = zeros n := by
  induction n with
  | zero => rfl
  | succ n ih =>
    rw [beBytes, ih, zeros, zeros, List.replicate_succ]
    simp

/-- The bytes of a number read back as it, modulo what `n` bytes hold. -/
theorem beInt_beBytes (n v : Nat) : beInt (beBytes n v) = v % 256 ^ n := by
  induction n with
  | zero => simp [beBytes, beInt, Nat.mod_one]
  | succ n ih =>
    rw [beBytes, beInt_cons, ih, beBytes_length, BitVec.toNat_ofNat, Nat.shiftRight_eq_div_pow, Nat.pow_mul,
      show 2 ^ 8 = 256 from rfl, Nat.pow_succ 256 n, Nat.mod_mul, Nat.mul_comm, Nat.add_comm]

/-- A byte string is the bytes of the number it reads as. -/
theorem beBytes_of_beInt (s : Bytes) (v : Nat) (h : v % 256 ^ s.length = beInt s) : beBytes s.length v = s := by
  induction s with
  | nil => rfl
  | cons b s ih =>
    rw [List.length_cons, beBytes]
    rw [beInt_cons, List.length_cons, Nat.pow_succ, Nat.mod_mul] at h
    have hs := beInt_lt s
    have hv := Nat.mod_lt v (show 0 < 256 ^ s.length by positivity)
    have h1 : v % 256 ^ s.length = beInt s := by
      have := congrArg (· % 256 ^ s.length) h
      simpa [Nat.add_mod, Nat.mod_eq_of_lt hs] using this
    have h2 : v / 256 ^ s.length % 256 = b.toNat := by
      rw [h1] at h
      have h' : 256 ^ s.length * (v / 256 ^ s.length % 256) = 256 ^ s.length * b.toNat := by
        rw [Nat.mul_comm _ b.toNat]
        omega
      exact Nat.eq_of_mul_eq_mul_left (by positivity) h'
    rw [ih h1, Nat.shiftRight_eq_div_pow, Nat.pow_mul]
    congr 1
    apply BitVec.eq_of_toNat_eq
    rw [BitVec.toNat_ofNat]
    exact h2

theorem beBytes_beInt (s : Bytes) : beBytes s.length (beInt s) = s :=
  beBytes_of_beInt s _ (Nat.mod_eq_of_lt (beInt_lt s))

/-- Only the low bytes of a number count. -/
theorem beBytes_mod (n v : Nat) : beBytes n (v % 256 ^ n) = beBytes n v := by
  have h := beBytes_of_beInt (beBytes n v) (v % 256 ^ n) (by rw [beBytes_length, Nat.mod_mod, beInt_beBytes])
  rwa [beBytes_length] at h

/-- Two byte strings of one length that read as one number are equal. -/
theorem beInt_inj {s t : Bytes} (hl : s.length = t.length) (h : beInt s = beInt t) : s = t := by
  rw [← beBytes_beInt s, h, hl, beBytes_beInt]

/-- The number of an increment (40 R158). -/
theorem beInt_inc (ctr : Bytes) {cb : Nat} (hcb : cb ≤ 8 * ctr.length) :
    beInt (inc ctr cb) = beInt ctr / 2 ^ cb * 2 ^ cb + (beInt ctr + 1) % 2 ^ cb := by
  have hlt : (beInt ctr + 1) % 2 ^ cb < 2 ^ cb := Nat.mod_lt _ (by positivity)
  have hv : (beInt ctr >>> cb) <<< cb ||| (beInt ctr + 1) % 2 ^ cb =
      beInt ctr / 2 ^ cb * 2 ^ cb + (beInt ctr + 1) % 2 ^ cb := by
    rw [Nat.shiftRight_eq_div_pow, Nat.shiftLeft_eq, Nat.mul_comm, Nat.two_pow_add_eq_or_of_lt hlt]
  unfold inc
  dsimp only
  rw [hv, beInt_beBytes]
  apply Nat.mod_eq_of_lt
  have h1 := beInt_lt ctr
  have h2 : 256 ^ ctr.length = 2 ^ (8 * ctr.length - cb) * 2 ^ cb := by
    rw [← Nat.pow_add, Nat.sub_add_cancel hcb, Nat.pow_mul]
  rw [h2] at h1 ⊢
  have h3 : beInt ctr / 2 ^ cb < 2 ^ (8 * ctr.length - cb) := by
    rw [Nat.div_lt_iff_lt_mul (by positivity)]
    exact h1
  calc _ < beInt ctr / 2 ^ cb * 2 ^ cb + 1 * 2 ^ cb := by omega
    _ = (beInt ctr / 2 ^ cb + 1) * 2 ^ cb := by ring
    _ ≤ _ := Nat.mul_le_mul_right _ h3

end Sys2Proof.Machine
end

