-- ==== Sys2Proof/Laws/Engines.lean ====
section
/-! SUPPORT. The engines' loops in closed form: CBC's chaining values, the stream cache, counter mode, the CBC-MAC and
GHASH. -/

namespace Sys2Proof.Machine

/-- The increment of a counter block whose low field is zero (40 R158). -/
theorem inc_zero_tail (p : Bytes) (q : Nat) : inc (p ++ zeros q) (8 * q) = p ++ beBytes q 1 := by
  apply beInt_inj
  · simp
  rw [beInt_inc _ (by simp), beInt_append, beInt_append, beInt_beBytes]
  simp only [beInt_zeros, zeros_length, beBytes_length, Nat.add_zero]
  rw [Nat.pow_mul, show 2^8 = 256 from rfl, Nat.mul_div_cancel _ (by positivity), Nat.add_mod, Nat.mul_mod_left, Nat.zero_add, Nat.mod_mod]

/-- Zero-padding each block is zero-padding the string to whole blocks. -/
theorem chunks_map_pad0 {B : Nat} (hB : 0 < B) (s : Bytes) : (chunks B s).map (pad0 · B) = chunks B
    (pad0 s (B * ceilDiv s.length B)) := by
  induction s using chunks_induction hB with
  | nil => simp [chunks_nil hB, pad0, ceilDiv_zero hB, zeros]
  | step s hs ih =>
    have hpos : 0 < s.length := List.length_pos_iff.mpr hs
    rw [chunks_step hB hs, List.map_cons, ih]
    have hc := ceilDiv_step hB hpos
    have hne : pad0 s (B * ceilDiv s.length B) ≠ [] := by
      intro h; have := congrArg List.length h; simp at this; omega
    rw [chunks_step hB hne]
    have hlen : (s.drop B).length = s.length - B := by simp
    congr 1
    · unfold pad0
      rw [hc, Nat.mul_add, Nat.mul_one]
      by_cases h : B ≤ s.length
      · rw [List.take_append_of_le_length (by omega)]; simp [zeros, h]
      · rw [List.take_of_length_le (by omega : s.length ≤ B), List.take_append, List.take_of_length_le (by omega : s.length ≤ B)]
        have : s.length - B = 0 := by omega
        rw [this, ceilDiv_zero hB]; simp [zeros]
    · congr 1
      unfold pad0
      rw [hlen, hc]
      by_cases h : B ≤ s.length
      · rw [List.drop_append_of_le_length h]
        congr 2
        rw [Nat.mul_add]; omega
      · have : s.length - B = 0 := by omega
        rw [this, ceilDiv_zero hB, List.drop_eq_nil_of_le (show s.length ≤ B by omega)]
        rw [List.drop_eq_nil_of_le (by simp [zeros]; omega)]
        simp [zeros]

/-- The next chaining value of CBC encryption is the last ciphertext block, or the old one when there is none (40
R161). -/
theorem cbcEncBlocks_snd {E : Bytes → Bytes} {B : Nat} (hE : ∀ X, (E X).length = B) (v : Bytes) (Xs : List Bytes) :
    (cbcEncBlocks E v Xs).2 = if Xs = [] then v else (cbcEncBlocks E v Xs).1.drop (Xs.length * B - B) := by
  induction Xs generalizing v with
  | nil => rfl
  | cons X Xs ih =>
    rw [cbcEncBlocks]; dsimp only
    rw [ih]
    cases Xs with
    | nil => simp [cbcEncBlocks]
    | cons Y Ys =>
      rw [if_neg (by simp), if_neg (by simp)]
      rw [List.drop_append, hE, List.drop_eq_nil_of_le (as := E _) (by rw [hE]; simp only [List.length_cons, Nat.add_mul]; omega), List.nil_append]
      congr 1
      simp only [List.length_cons, Nat.add_mul]; omega

/-- The next chaining value of CBC decryption is the last input block, or the old one when there is none (40 R162). -/
theorem cbcDecBlocks_snd {D : Bytes → Bytes} {B : Nat} (v : Bytes) (Xs : List Bytes) (hX : ∀ X ∈ Xs, X.length = B) :
    (cbcDecBlocks D v Xs).2 = if Xs = [] then v else Xs.flatten.drop (Xs.length * B - B) := by
  induction Xs generalizing v with
  | nil => rfl
  | cons X Xs ih =>
    rw [cbcDecBlocks]; dsimp only
    rw [ih _ (fun Y hY => hX Y (by simp [hY]))]
    have hl := hX X (by simp)
    cases Xs with
    | nil => simp
    | cons Y Ys =>
      rw [if_neg (by simp), if_neg (by simp)]
      rw [List.flatten_cons (l := X), List.drop_append, hl, List.drop_eq_nil_of_le (as := X) (by rw [hl]; simp only [List.length_cons, Nat.add_mul]; omega), List.nil_append]
      congr 1
      simp only [List.length_cons, Nat.add_mul]; omega

/-- The whole blocks of a string cover its usable length (40 R151). -/
theorem wholeBlocks_length (c : Context) (data : Bytes) : (chunks c.B (data.take (data.length / c.B * c.B))).length *
    c.B = data.length / c.B * c.B := by
    rw [chunks_length, length_take_whole, ceilDiv_of_mod c.B_pos (Nat.mul_mod_left _ _)]
    exact Nat.div_mul_cancel ⟨_, Nat.mul_comm _ _⟩

/-- There is no whole block exactly when the usable length is 0. -/
theorem wholeBlocks_eq_nil (c : Context) (data : Bytes) : chunks c.B (data.take (data.length / c.B * c.B)) = [] ↔
    data.length / c.B * c.B = 0 := by
  have h := wholeBlocks_length c data
  have := c.B_pos
  rw [← List.length_eq_zero_iff]
  constructor
  · intro h0; rw [h0, Nat.zero_mul] at h; exact h.symm
  · intro h0; rw [h0] at h; rcases Nat.mul_eq_zero.mp h with h | h
    · rw [h0]; exact h
    · omega

/-- What a CBC UPDATE makes of its input (40 R192, R193). -/
theorem cbcUpdate_eq {c : Context} (hok : c.Ok) (x : Bytes) (d : Dir) : 
  let data := c.residue ++ x
  let n := data.length / c.B * c.B
  let Xs := chunks c.B (data.take n)
  let out := match d with
      | .enc => (cbcEncBlocks (encryptBlock c.ks) c.iv Xs).1
      | .dec => (cbcDecBlocks (decryptBlock c.ks) c.iv Xs).1
  let ciphertext := match d with
      | .enc => out
      | .dec => data.take n
  c.dir = d → cbcUpdate Prim.external c x =
    (out, { c with residue := data.drop n, iv := if n = 0 then c.iv else ciphertext.drop (n - c.B) }) := by
  intro data n Xs out ct hd
  have hl : Xs.length * c.B = n := wholeBlocks_length c data
  have hnil : Xs = [] ↔ n = 0 := wholeBlocks_eq_nil c data
  unfold cbcUpdate Context.partition
  dsimp only
  rw [hd]
  cases d with
  | enc =>
    have := cbcEncBlocks_snd hok.E_length c.iv Xs
    rw [hl] at this
    simp only [hnil] at this
    simp only [out, ct]
    rw [← this]; rfl
  | dec =>
    have := cbcDecBlocks_snd (D := decryptBlock c.ks) (B := c.B) c.iv Xs (fun X hX => length_of_mem_chunks c.B_pos (by rw [length_take_whole]; exact Nat.mul_mod_left _ _) hX)
    rw [hl] at this
    simp only [hnil] at this
    rw [show Xs.flatten = data.take n from chunks_flatten c.B_pos _] at this
    simp only [out, ct]
    rw [← this]; rfl

/-- Draining no more than the cache holds XORs with the cached bytes (40 R167). -/
theorem drain_cached (p : StreamParams) (k : Keystream) (xs : Bytes) (h : xs.length ≤ k.pad) (hp : k.pad ≤ p.B)
    (hl : k.pad ≠ 0 → k.last.length = p.B) :
    (drain p k xs).1 = xorBytes xs (k.last.drop (p.B - k.pad)) ∧ (drain p k xs).2.1.pad = k.pad - xs.length ∧
      (drain p k xs).2.2 = [] := by
  induction xs generalizing k with
  | nil => exact ⟨rfl, rfl, rfl⟩
  | cons x xs ih =>
    simp at h
    have hk : k.pad ≠ 0 := by omega
    have hll := hl hk
    unfold drain
    rw [if_neg hk]
    dsimp only
    obtain ⟨h1, h2, h3⟩ := ih (drainByte p k x).2 (by simp [drainByte]; omega) (by simp [drainByte]; omega) (by intro _; simp [drainByte]; split <;> simp [hll])
    refine ⟨?_, ?_, h3⟩
    · rw [h1]
      have hj : p.B - k.pad < k.last.length := by omega
      rw [List.drop_eq_getElem_cons hj]
      unfold xorBytes
      rw [List.zipWith_cons_cons]
      congr 1
      · simp [drainByte, hj]
      · congr 1
        have : p.B - (drainByte p k x).2.pad = p.B - k.pad + 1 := by simp [drainByte]; omega
        rw [this]
        simp only [drainByte]
        split
        · rw [List.drop_set]; simp
        · rfl
    · rw [h2]; simp [drainByte]; omega

/-- What draining leaves of the cache and of the input (40 R167). -/
theorem drain_pad (p : StreamParams) (k : Keystream) (xs : Bytes) : (drain p k xs).2.1.pad = k.pad - xs.length ∧
    (drain p k xs).2.2 = xs.drop k.pad := by
  induction xs generalizing k with
  | nil => exact ⟨rfl, by simp [drain]⟩
  | cons x xs ih =>
    unfold drain
    by_cases hk : k.pad = 0
    · rw [if_pos hk]; simp [hk]
    · rw [if_neg hk]; dsimp only
      obtain ⟨h1, h2⟩ := ih (drainByte p k x).2
      rw [h1, h2]
      obtain ⟨j, hj⟩ := Nat.exists_eq_succ_of_ne_zero hk
      simp [drainByte, hj]

/-- The cache after the block loop (40 R165). -/
theorem streamBlocks_pad (E : Bytes → Bytes) (p : StreamParams) (hB : 0 < p.B) (k : Keystream) (hk : k.pad = 0)
    (xs : Bytes) :
    (streamBlocks E p k (chunks p.B xs)).2.pad = (p.B - xs.length % p.B) % p.B := by
  induction xs using chunks_induction hB generalizing k with
  | nil => simp [chunks_nil hB, streamBlocks, hk]
  | step s hs ih =>
    rw [chunks_step hB hs, streamBlocks]; dsimp only
    by_cases h : p.B ≤ s.length
    · rw [ih]
      · rw [List.length_drop, ← Nat.mod_eq_sub_mod h]
      · unfold streamBlock; dsimp only; rw [if_pos (by simp [h])]; exact hk
    · have : s.drop p.B = [] := List.drop_eq_nil_of_le (by omega)
      have h0 : 0 < s.length := List.length_pos_iff.mpr hs
      rw [this, chunks_nil hB, streamBlocks]
      unfold streamBlock; dsimp only
      rw [if_neg (by simp; omega)]
      simp
      rw [Nat.min_eq_right (by omega), Nat.mod_eq_of_lt (show s.length < p.B by omega), Nat.mod_eq_of_lt (by omega)]

/-- CCM encryption of whole blocks: block k is XORed with E of the counter incremented k times, and the MAC is the
CBC-MAC of the blocks (42 R305). -/
theorem ccmEncBlocks_eq (E : Bytes → Bytes) (cb : Nat) (k : MacCtr) (Xs : List Bytes) :
    ccmEncBlocks E cb k Xs =
      ((Xs.zipIdx.map fun e => xorBytes e.1 (E ((inc · cb)^[e.2] k.ctr))).flatten,
        { acc := cbcMac E k.acc Xs, ctr := (inc · cb)^[Xs.length] k.ctr }) := by
  induction Xs generalizing k with
  | nil => rfl
  | cons X Xs ih =>
    rw [ccmEncBlocks]
    rw [ih]
    have hx : ∀ a b : Bytes, xorBytes a b = xorBytes b a := by
      intro a b; unfold xorBytes; rw [List.zipWith_comm]; congr 1; funext x y; exact BitVec.xor_comm _ _
    simp only [List.zipIdx_cons, List.map_cons, List.flatten_cons, Nat.zero_add, Function.iterate_zero, id]
    congr 1
    · congr 1
      rw [List.zipIdx_succ]
      simp only [List.map_map]; rfl
    · simp [cbcMac, hx]

/-- GCM encryption of whole blocks: block k is XORed with E of the counter incremented k times (43 R391). -/
theorem gcmEncBlocks_eq (E : Bytes → Bytes) (H : Bytes) (k : HashCtr) (Xs : List Bytes) :
    (gcmEncBlocks E H k Xs).1 = (Xs.zipIdx.map fun e => xorBytes e.1 (E ((inc · 32)^[e.2] k.ctr))).flatten ∧
      (gcmEncBlocks E H k Xs).2.ctr = (inc · 32)^[Xs.length] k.ctr := by
  induction Xs generalizing k with
  | nil => exact ⟨rfl, rfl⟩
  | cons X Xs ih =>
    rw [gcmEncBlocks]; dsimp only
    obtain ⟨h1, h2⟩ := ih { acc := ghash H k.acc (xorBytes X (E k.ctr)), ctr := inc k.ctr 32 }
    rw [h1, h2]
    simp only [List.zipIdx_cons, List.map_cons, List.flatten_cons, Nat.zero_add, Function.iterate_zero, id]
    refine ⟨?_, rfl⟩
    congr 1
    rw [List.zipIdx_succ]
    simp only [List.map_map]; rfl

/-- GHASH goes on from whole blocks (43 R382). -/
theorem ghash_append {H acc s : Bytes} (t : Bytes) (hs : s.length % 16 = 0) : ghash H acc (s ++ t) = ghash H
    (ghash H acc s) t := by
  unfold ghash
  rw [chunks_append (by norm_num) _ _ hs, List.foldl_append]

/-- The GHASH block after GCM encryption of whole blocks is GHASH of the ciphertext (43 R391). -/
theorem gcmEncBlocks_acc {E : Bytes → Bytes} (hE : ∀ X, (E X).length = 16) (H : Bytes) (k : HashCtr) (Xs : List Bytes)
    (hX : ∀ X ∈ Xs, X.length = 16) :
    (gcmEncBlocks E H k Xs).2.acc = ghash H k.acc (gcmEncBlocks E H k Xs).1 := by
  induction Xs generalizing k with
  | nil => simp [gcmEncBlocks, ghash, chunks_nil]
  | cons X Xs ih =>
    rw [gcmEncBlocks]; dsimp only
    rw [ih _ (fun Y hY => hX Y (by simp [hY])), ghash_append]
    rw [xorBytes_length, hE, hX X (by simp)]; norm_num

/-- The loop of CCM decryption, block by block (42 R310). -/
theorem ccmDecBlocks_eq (E : Bytes → Bytes) (cb : Nat) (k : MacCtr) (Cs : List Bytes) :
    let Ps := Cs.zipIdx.map fun e => xorBytes e.1 (E ((inc · cb)^[e.2] k.ctr))
    ccmDecBlocks E cb k Cs =
      (Ps.flatten,
        { acc := Ps.foldl (fun v P => E (xorBytes v (pad0 P 16))) k.acc, ctr := (inc · cb)^[Cs.length] k.ctr }) := by
  induction Cs generalizing k with
  | nil => rfl
  | cons X Xs ih =>
    intro Ps
    rw [ccmDecBlocks]
    rw [ih]
    have hPs : Ps = xorBytes X (E k.ctr) :: Xs.zipIdx.map fun e => xorBytes e.1 (E ((inc · cb)^[e.2] (inc k.ctr cb))) := by
      simp only [Ps, List.zipIdx_cons, List.map_cons, Nat.zero_add, Function.iterate_zero, id]
      congr 1
      rw [List.zipIdx_succ]
      simp only [List.map_map]; rfl
    rw [hPs]
    rfl

/-- The counter-mode loop of GCM decryption, block by block (43 R394). -/
theorem gcmCtrBlocks_eq (E : Bytes → Bytes) (ctr : Bytes) (Cs : List Bytes) :
    gcmCtrBlocks E ctr Cs = (Cs.zipIdx.map fun e => xorBytes e.1 (E ((inc · 32)^[e.2] ctr))).flatten := by
  induction Cs generalizing ctr with
  | nil => rfl
  | cons X Xs ih =>
    rw [gcmCtrBlocks, ih]
    simp only [List.zipIdx_cons, List.map_cons, Nat.zero_add, Function.iterate_zero, id, List.flatten_cons]
    congr 2
    rw [List.zipIdx_succ]
    simp only [List.map_map]; rfl

/-- Counter mode keeps the length. -/
theorem ctrBlocks_flatten_length {E : Bytes → Bytes} (hE : ∀ X, (E X).length = 16) (s : Bytes) (f : Nat → Bytes) :
    ((chunks 16 s).zipIdx.map fun e => xorBytes e.1 (E (f e.2))).flatten.length = s.length := by
  have gen : ∀ (Xs : List Bytes) (k : Nat), (∀ X ∈ Xs, X.length ≤ 16) → ((Xs.zipIdx k).map fun e => xorBytes e.1 (E (f e.2))).flatten.length = Xs.flatten.length := by
    intro Xs
    induction Xs with
    | nil => intros; rfl
    | cons X Xs ih =>
      intro k h
      simp only [List.zipIdx_cons, List.map_cons, List.flatten_cons, List.length_append, xorBytes_length, hE]
      rw [ih _ (fun Y hY => h Y (by simp [hY])), Nat.min_eq_left (h X (by simp))]
  rw [gen _ 0 (fun X hX => (length_mem_chunks_le (by norm_num) hX).2), chunks_flatten (by norm_num)]

/-- The zero block times any block is zero (43 R381). -/
theorem gfLoop_zero (n z v : Nat) : gfLoop 0 n z v = z := by
  induction n generalizing z v with
  | zero => rfl
  | succ n ih => rw [gfLoop, ih]; simp

end Sys2Proof.Machine
end

