-- ==== Sys2Proof/Laws/Completion.lean ====
section
/-! SUPPORT. UPDATE, FINAL and ATOMIC, each said once for every mode: the length check, the capacity, the allocation, then what
the command commits. -/

namespace Sys2Proof.Machine

theorem Ready.block_size {s inV c m d a} (r : Ready s inV c m d a) : c.B = blockSize a := by rw [Context.B, r.alg]

/-- An UPDATE past its checks completes with its output. -/
theorem runUpdate_completes {s : State} {i c jobs c' out n} (h : out.length = n) :
    Completes s (s.runUpdate i c jobs (.keep c' out)) (some c)
      { handle := s.args.handle, status := .success, size := n, ctx := some c', output := out } := by
  subst h
  exact s.launch_completes i s.args.handle (some c) _ _ jobs (Commit.plain_keep c' out) (by intro k hk; cases hk)
      (.inl rfl)

/-- A FINAL past its checks completes with its output and consumes the context. -/
theorem runFinal_completes {s : State} {i c jobs out n} (h : out.length = n) :
    Completes s (s.runFinal i c jobs (.consume out)) (some c)
      { handle := s.args.handle, status := .success, size := n, ctx := none, output := out } := by
  subst h
  exact s.launch_completes i s.args.handle (some c) _ _ jobs (Commit.plain_consume out) (by intro k hk; cases hk)
      (.inl rfl)

/-- A decrypt FINAL past its checks releases the plaintext or reports INVALID_MAC. -/
theorem runFinal_verified_completes {s : State} {i c jobs} {p : Option Bytes} :
    Completes s (s.runFinal i c jobs (.verified p)) (some c)
      (match p with
      | some out => { handle := s.args.handle, status := .success, size := out.length, ctx := none, output := out }
      | none => { handle := s.args.handle, status := .invalidMac, size := 0, ctx := none }) := by
  have := s.launch_completes i s.args.handle (some c) [] s.args.outView jobs (Commit.plain_verified p)
      (by intro k hk; cases p <;> cases hk) (.inl rfl)
  cases p <;> exact this

/-- A decrypt FINAL that compares a tag. -/
theorem runFinal_tagCheck_completes {s : State} {i c jobs} {p : Prop} [Decidable p] {P : Bytes} {n : Nat}
    (hl : P.length = n) :
    Completes s (s.runFinal i c jobs (.verified (if p then some P else none))) (some c)
      (if p then { handle := s.args.handle, status := .success, size := n, ctx := none, output := P }
      else { handle := s.args.handle, status := .invalidMac, size := 0, ctx := none }) := by
  subst hl
  by_cases h : p
  · rw [if_pos h, if_pos h]; exact runFinal_verified_completes
  · rw [if_neg h, if_neg h]; exact runFinal_verified_completes

/-- An ATOMIC past its checks completes with its output and leaves its handle ABSENT. -/
theorem runAtomic_completes {s : State} {i h jobs out n} (hn : out.length = n) :
    Completes s (s.runAtomic i h jobs (.consume out)) none
      { handle := h, status := .success, size := n, ctx := none, output := out } := by
  subst hn
  exact s.launch_completes i h none _ _ jobs (Commit.plain_consume out) (by intro k hk; cases hk) (.inl rfl)

/-- An ATOMIC past its checks completes with what it commits. -/
theorem runAtomic_plain_completes {s : State} {i h jobs} {c : Commit} (hp : c.plain) (hr : c.returns = none) :
    Completes s (s.runAtomic i h jobs c) none (c.effect h) :=
  s.launch_completes i h none _ _ jobs hp (by intro k hk; rw [hr] at hk; cases hk) (.inl rfl)

/-- An UPDATE with no job completes at its issue. -/
theorem runUpdate_after {s : State} {i c c' out} :
    ∃ t, s.runUpdate i c [] (.keep c' out) = .next t ∧
      After s { handle := s.args.handle, status := .success, size := out.length, ctx := some c', output := out } t := by
  refine ⟨_, rfl, ?_⟩
  simp only [State.launch, if_true]
  exact State.after_finish (s := s) (t := s.accept) (h := s.args.handle) (v := s.args.outView)
      (Commit.plain_keep c' out) (by intro k hk; cases hk) (.inl rfl) (fun _ _ => rfl)
      rfl rfl rfl rfl rfl rfl rfl rfl (fun _ h => h) (fun _ h => .inl h)

/-- A FINAL with no job completes at its issue. -/
theorem runFinal_after {s : State} {i c out} :
    ∃ t, s.runFinal i c [] (.consume out) = .next t ∧
      After s { handle := s.args.handle, status := .success, size := out.length, ctx := none, output := out } t := by
  refine ⟨_, rfl, ?_⟩
  simp only [State.launch, if_true]
  exact State.after_finish (s := s) (t := s.accept) (h := s.args.handle) (v := s.args.outView)
      (Commit.plain_consume out) (by intro k hk; cases hk) (.inl rfl) (fun _ _ => rfl)
      rfl rfl rfl rfl rfl rfl rfl rfl (fun _ h => h) (fun _ h => .inl h)

/-- A terminal status ends the context and does nothing else (44 R477). -/
theorem raiseTerminal_after {s : State} {st} : After s
    { handle := s.args.handle, ctx := none, status := st, size := 0 } (s.raiseTerminal st) where
  slot := State.lookup_drop_same s _
  others := fun h hh => State.lookup_drop_ne hh s
  report := rfl
  issued := rfl
  mem := by cases h : View.addrs s.args.outView <;> simp [Memory.writeAll, State.raiseTerminal] 
  config := rfl
  jobs := rfl
  events := rfl
  free := rfl
  args := rfl
  known := fun _ h => h
  returned := fun _ h => by cases h
  learned := fun _ h => .inl h

/-- An answer is an answer. -/
theorem answer_answered {s : State} {st n} : Answered s st n (s.answer st n) where
  table := rfl
  known := rfl
  mem := rfl
  report := rfl
  issued := rfl
  config := rfl
  jobs := rfl
  nextJob := rfl
  events := rfl
  free := rfl
  args := rfl

/-- An ATOMIC that answers a status has no other effect. -/
theorem answer_completes {s : State} {m : Mode} {a : Alg} {h : Handle} (r : InitReady s m a h) {st : Status} : Completes s
    (.next (s.answer st 0)) none { handle := h, status := st, size := 0, ctx := none } := by
  have ha : After s { handle := h, status := st, size := 0, ctx := none } (s.answer st 0) :=
   { slot := r.absent, others := fun _ _ => rfl, report := rfl, issued := rfl,
       mem := by cases View.addrs s.args.outView <;> simp [Memory.writeAll], config := rfl, jobs := rfl, events := rfl,
       free := rfl, args := rfl, known := fun _ h => h, returned := (fun _ h => by cases h),
       learned := fun _ h => .inl h }
  refine ⟨_, rfl, .inl ha, ?_⟩
  have : (s.answer st 0).settle h = s.answer st 0 := by
    unfold State.settle
    rw [show (s.answer st 0).lookup h = none from r.absent]
  show After s _ ((s.answer st 0).settle h)
  rw [this]; exact ha

/-- A word that differs from the context ends it with MECHANISM_INVALID (44 R465). -/
theorem exec_of_mismatch {s : State} {op : Op} {m : Mode} {d : Dir} {a : Alg} {c : Context}
    (hop : op = .update ∨ op = .final) (hl : s.lookup s.args.handle = some (.active c))
   (hv : s.viewRefusal (if op = .update then s.args.inView else []) s.args.outView = none)
       (hne : ¬(c.mode = m ∧ c.dir = d ∧ c.alg = a)) :
   exec (instrOf op m d a) s = .next (s.raiseTerminal .mechanismInvalid) := by
  have K : ∀ (k : Context → Result), onContext s (if op = .update then s.args.inView else [])
      m d a k = .next (s.raiseTerminal .mechanismInvalid) := by
    intro k; unfold onContext; rw [hl]; dsimp only; rw [hv]; dsimp only; rw [if_neg hne]
  rcases hop with rfl | rfl <;> cases m <;> cases d <;> exact K _

/-- An AEAD decrypt UPDATE: its length check, then scratch grows (42 R309, 43 R393). -/
theorem exec_update_aeadDec_eq {s : State} {c : Context} {m a} (hm : aeadMode m = true)
    (r : Ready s s.args.inView c m .dec a) :
    exec (instrOf .update m .dec a) s =
      (match c.updateError s.input.length with
      | some st => .next (s.raiseTerminal st)
      | none => growScratch s (instrOf .update m .dec a) c) := by
  cases m <;> first | (cases hm; done) | skip
  · rw [exec_update_ccm_dec]; unfold updateCcmDec; rw [onContext_of_ready r]
    unfold Context.updateError; rw [r.mode, r.dir]; dsimp only; split <;> simp_all
  · rw [exec_update_gcm_dec]; unfold updateGcmDec; rw [onContext_of_ready r]
    unfold Context.updateError; rw [r.mode, r.dir]
  · rw [exec_update_gmac_dec]; unfold updateGmacDec; rw [onContext_of_ready r]
    unfold Context.updateError; rw [r.mode, r.dir]; dsimp only; split <;> simp_all

/-- What an UPDATE does, in every mode (44 R469, R473): the length check, the capacity, the allocation, then the work.
-/
theorem exec_update_eq {s : State} {c : Context} {m d a} (r : Ready s s.args.inView c m d a) (hok : c.Ok) :
    ∃ jobs y c', exec (instrOf .update m d a) s =
      (match c.updateError s.input.length with
      | some st => .next (s.raiseTerminal st)
      | none =>
        if s.cap < c.updateNeed s.input.length then .next (s.tooSmall (c.updateNeed s.input.length))
        else if aeadMode m = true ∧ d = .dec ∧ s.scratchDenied = true then .next (s.raiseTerminal .hostMemory)
        else s.runUpdate (instrOf .update m d a) c jobs (.keep c' y)) ∧
     (c.updateError s.input.length = none → c.update s.input = .ok (y, c')) ∧ (s.input = [] → jobs = []) := by
  have hB16 : aeadMode m = true → c.B = 16 := fun h => (hok.aead_blocks (by rw [r.mode]; exact h)).1
  have hj0 : ∀ a, s.jobsOf a 0 = [] := fun a => splitJobs_zero _
  have hresB : c.residue.length / c.B = 0 := Nat.div_eq_of_lt hok.residue_lt
  have hn : ∀ n, c.usableLen n = (c.residue.length + n) / c.B * c.B := fun _ => rfl
  have hudiv : s.input = [] → c.usableLen s.input.length / c.B = 0 := by
    intro h; simp [h, hn, hresB]
  cases m with
  | ecb => 
    rw [exec_update_ecb]; unfold updateBlocks; rw [onContext_of_ready r]
    refine ⟨s.jobsOf a (c.usableLen s.input.length / c.B), (ecbUpdate Prim.external c s.input).1,
        (ecbUpdate Prim.external c s.input).2, ?_, ?_, fun h => by rw [hudiv h, hj0]⟩
    · unfold Context.updateError Context.updateNeed; rw [r.mode]; simp [hn, aeadMode]
    · unfold Context.update; intro h; rw [h, r.mode]
  | cbc => 
    rw [exec_update_cbc]; unfold updateBlocks; rw [onContext_of_ready r]
    refine ⟨s.jobsOf a (c.usableLen s.input.length / c.B), (cbcUpdate Prim.external c s.input).1,
        (cbcUpdate Prim.external c s.input).2, ?_, ?_, fun h => by rw [hudiv h, hj0]⟩
    · unfold Context.updateError Context.updateNeed; rw [r.mode]; simp [hn, aeadMode]
    · unfold Context.update; intro h; rw [h, r.mode]
  | cbcPad =>
    cases d with
    | enc =>
      rw [exec_update_cbcPad_enc]; unfold updateBlocks; rw [onContext_of_ready r]
      refine ⟨s.jobsOf a (c.usableLen s.input.length / c.B), (cbcUpdate Prim.external c s.input).1,
          (cbcUpdate Prim.external c s.input).2, ?_, ?_, fun h => by rw [hudiv h, hj0]⟩
      · unfold Context.updateError Context.updateNeed; rw [r.mode, r.dir]; simp [hn, aeadMode]
      · unfold Context.update; intro h; rw [h, r.mode, r.dir]
    | dec =>
      rw [exec_update_cbcPad_dec]; unfold updatePadDec; rw [onContext_of_ready r]
      refine ⟨s.jobsOf a (c.usableLen s.input.length / c.B), (cbcPadDecUpdate Prim.external c s.input).1,
          (cbcPadDecUpdate Prim.external c s.input).2, ?_, ?_, fun h => by rw [hudiv h, hj0]⟩
      · unfold Context.updateError Context.updateNeed; rw [r.mode, r.dir]; simp [aeadMode, Context.padDecNeed]
      · unfold Context.update; intro h; rw [h, r.mode, r.dir]
  | cfb =>
    rw [exec_update_cfb]; unfold updateStream; rw [onContext_of_ready r]
    refine ⟨streamJobs s c s.input.length, (streamUpdate Prim.external c s.input).1,
        (streamUpdate Prim.external c s.input).2, ?_, ?_, fun h => ?_⟩
    · unfold Context.updateError Context.updateNeed; rw [r.mode]; simp [aeadMode]
    · unfold Context.update; intro h; rw [h, r.mode]
    · simp [streamJobs, r.mode, streamUses, h, ceilDiv_zero c.B_pos, hj0]
  | ctr =>
    rw [exec_update_ctr]; unfold updateStream; rw [onContext_of_ready r]
    refine ⟨streamJobs s c s.input.length, (streamUpdate Prim.external c s.input).1,
        (streamUpdate Prim.external c s.input).2, ?_, ?_, fun h => ?_⟩
    · unfold Context.updateError Context.updateNeed; rw [r.mode]; simp [aeadMode]
    · unfold Context.update; intro h; rw [h, r.mode]
    · simp [streamJobs, r.mode, streamUses, h, ceilDiv_zero c.B_pos, splitCtrJobs, splitJobs_zero]
  | ccm =>
    cases d with
    | enc =>
      rw [exec_update_ccm_enc]; unfold updateCcmEnc; rw [onContext_of_ready r]
      refine ⟨s.jobsOf a (2 * (c.usableLen s.input.length / c.B)), (ccmEncUpdate Prim.external c s.input).1,
          (ccmEncUpdate Prim.external c s.input).2, ?_, ?_, fun h => by rw [hudiv h, hj0]⟩
      · have := hB16 rfl
        unfold Context.updateError Context.updateNeed; rw [r.mode, r.dir]; dsimp only; split <;> simp_all
      · unfold Context.update; intro h; rw [h, r.mode, r.dir]
    | dec =>
      rw [exec_update_aeadDec_eq rfl r]
      refine ⟨[], [], c.grow s.input, ?_, ?_, fun _ => rfl⟩
      · unfold Context.updateNeed growScratch; rw [r.mode, r.dir]; simp [aeadMode]
      · unfold Context.update; intro h; rw [h, r.mode, r.dir]
  | gcm =>
    cases d with
    | enc =>
      rw [exec_update_gcm_enc]; unfold updateGcmEnc; rw [onContext_of_ready r]
      refine ⟨s.jobsOf a (c.usableLen s.input.length / c.B), (gcmEncUpdate Prim.external c s.input).1,
          (gcmEncUpdate Prim.external c s.input).2, ?_, ?_, fun h => by rw [hudiv h, hj0]⟩
      · have := hB16 rfl
        unfold Context.updateError Context.updateNeed; rw [r.mode, r.dir]; dsimp only; simp_all
      · unfold Context.update; intro h; rw [h, r.mode, r.dir]
    | dec =>
      rw [exec_update_aeadDec_eq rfl r]
      refine ⟨[], [], c.grow s.input, ?_, ?_, fun _ => rfl⟩
      · unfold Context.updateNeed growScratch; rw [r.mode, r.dir]; simp [aeadMode]
      · unfold Context.update; intro h; rw [h, r.mode, r.dir]
  | gmac =>
    cases d with
    | enc =>
      rw [exec_update_gmac_enc]; unfold updateGmacEnc; rw [onContext_of_ready r]
      refine ⟨[], [], c, ?_, ?_, fun _ => rfl⟩
      · unfold Context.updateError Context.updateNeed; rw [r.mode, r.dir]; dsimp only; split <;> simp_all
      · unfold Context.update; intro h; rw [h, r.mode, r.dir]
    | dec =>
      rw [exec_update_aeadDec_eq rfl r]
      refine ⟨[], [], c.grow s.input, ?_, ?_, fun _ => rfl⟩
      · unfold Context.updateNeed growScratch; rw [r.mode, r.dir]; simp [aeadMode]
      · unfold Context.update; intro h; rw [h, r.mode, r.dir]

/-- What a FINAL past its checks commits. -/
def Context.finalCommit (c : Context) : Commit :=
  match c.mode, c.dir with
    | .cbcPad, .enc => .consume (cbcEncBlocks (encryptBlock c.ks) c.iv (chunks c.B (pad c.residue c.B))).1
    | .cbcPad, .dec => .consume (c.lastBlock.take (c.B - padByte c.lastBlock))
    | .ccm, .enc => .consume (ccmFinalOutput Prim.external c)
    | .ccm, .dec => .verified (ccmFinalPlain Prim.external c)
    | .gcm, .enc => .consume (gcmFinalOutput Prim.external c)
    | .gcm, .dec => .verified (gcmFinalPlain Prim.external c)
    | .gmac, .enc => .consume (gmacTag Prim.external c)
    | .gmac, .dec => .verified (gcmFinalPlain Prim.external c)
    | _, _ => .consume []

/-- What a FINAL does, in every mode (44 R469, R473). -/
theorem exec_final_eq {s : State} {c : Context} {m d a} (r : Ready s [] c m d a) :
    ∃ jobs, exec (instrOf .final m d a) s =
      (match c.finalError with
      | some st => .next (s.raiseTerminal st)
      | none =>
        if s.cap < c.finalNeed then .next (s.tooSmall c.finalNeed)
        else s.runFinal (instrOf .final m d a) c jobs (Context.finalCommit c)) ∧
     (m = .ecb ∨ m = .cbc ∨ m = .cfb ∨ m = .ctr ∨ (m = .cbcPad ∧ d = .dec) → jobs = []) := by
  cases m with
  | ecb => 
    rw [exec_final_ecb]; unfold finalBlocks; rw [onContext_of_ready r]
    refine ⟨[], ?_, fun _ => rfl⟩
    unfold Context.finalError Context.finalNeed Context.finalCommit; rw [r.mode]; dsimp only
    split <;> simp [r.dir]
  | cbc => 
    rw [exec_final_cbc]; unfold finalBlocks; rw [onContext_of_ready r]
    refine ⟨[], ?_, fun _ => rfl⟩
    unfold Context.finalError Context.finalNeed Context.finalCommit; rw [r.mode]; dsimp only
    split <;> simp [r.dir]
  | cbcPad =>
    cases d with
    | enc =>
      rw [exec_final_cbcPad_enc]; unfold finalPadEnc; rw [onContext_of_ready r]
      refine ⟨s.jobsOf a 1, ?_, by simp⟩
      unfold Context.finalError Context.finalNeed Context.finalCommit; rw [r.mode, r.dir]; rfl
    | dec =>
      rw [exec_final_cbcPad_dec]; unfold finalPadDec; rw [onContext_of_ready r]
      refine ⟨[], ?_, fun _ => rfl⟩
      unfold Context.finalError Context.finalNeed Context.finalCommit; rw [r.mode, r.dir]; dsimp only
      by_cases h1 : c.residue ≠ [] ∨ c.heldValid = false
      · rw [if_pos h1, if_pos (by tauto)]
      · rw [if_neg h1]
        by_cases h2 : padByteOk (padByte c.lastBlock) c.B = false
        · rw [if_pos h2]
          simp [padByteOk] at h2
          rw [if_pos (by right; right; omega)]
        · rw [if_neg h2]
          simp [padByteOk] at h2
          rw [if_neg (show ¬(c.residue ≠ [] ∨ c.heldValid = false ∨ padByte c.lastBlock < 1 ∨ c.B < padByte
              c.lastBlock) by rw [not_or] at h1; simp at h1; simp [h1.1, h1.2]; omega)]
  | cfb =>
    rw [exec_final_cfb]; unfold finalStream; rw [onContext_of_ready r]
    refine ⟨[], ?_, fun _ => rfl⟩
    unfold Context.finalError Context.finalNeed Context.finalCommit; rw [r.mode]; simp
  | ctr =>
    rw [exec_final_ctr]; unfold finalStream; rw [onContext_of_ready r]
    refine ⟨[], ?_, fun _ => rfl⟩
    unfold Context.finalError Context.finalNeed Context.finalCommit; rw [r.mode]; simp
  | ccm =>
    cases d with
    | enc =>
      rw [exec_final_ccm_enc]; unfold finalCcmEnc; rw [onContext_of_ready r]
      refine ⟨s.jobsOf a (ccmEncFinalUses c.residue.length), ?_, by simp⟩
      unfold Context.finalError Context.finalNeed Context.finalCommit Context.finalEncNeed
      rw [r.mode, r.dir]
      dsimp only
      split <;> rfl
    | dec =>
      rw [exec_final_ccm_dec]; unfold finalCcmDec; rw [onContext_of_ready r]
      refine ⟨s.jobsOf a (ccmDecFinalUses c.dataLen), ?_, by simp⟩
      unfold Context.finalError Context.finalNeed Context.finalCommit; rw [r.mode, r.dir]; dsimp only
      split <;> rfl
  | gcm =>
    cases d with
    | enc =>
      rw [exec_final_gcm_enc]; unfold finalGcmEnc; rw [onContext_of_ready r]
      refine ⟨s.jobsOf a (gcmEncFinalUses c.residue.length), ?_, by simp⟩
      unfold Context.finalError Context.finalNeed Context.finalCommit Context.finalEncNeed; rw [r.mode, r.dir]
    | dec =>
      rw [exec_final_gcm_dec]; unfold finalGcmDec; rw [onContext_of_ready r]
      refine ⟨gcmDecJobs s a 1 (c.scratch.length - c.tagLen) (gcmFinalPlain Prim.external c), ?_, by simp⟩
      unfold Context.finalError Context.finalNeed Context.finalCommit; rw [r.mode, r.dir]; dsimp only
      split <;> rfl
  | gmac =>
    cases d with
    | enc =>
      rw [exec_final_gmac_enc]; unfold finalGmacEnc; rw [onContext_of_ready r]
      refine ⟨s.jobsOf a 1, ?_, by simp⟩
      unfold Context.finalError Context.finalNeed Context.finalCommit; rw [r.mode, r.dir]
    | dec =>
      rw [exec_final_gmac_dec]; unfold finalGmacDec; rw [onContext_of_ready r]
      refine ⟨s.jobsOf a 1, ?_, by simp⟩
      unfold Context.finalError Context.finalNeed Context.finalCommit; rw [r.mode, r.dir]; dsimp only
      split <;> simp

/-- What an ATOMIC past its checks commits. -/
def atomicCommit (m : Mode) (d : Dir) (a : Alg) (s : State) : Commit :=
  let c := initContext Prim.external m d a s.args
  match m, d with
  | .ecb, _ => .consume (ecbUpdate Prim.external c s.input).1
  | .cbc, _ => .consume (cbcUpdate Prim.external c s.input).1
  | .cbcPad, .enc =>
    .consume (cbcEncBlocks (Prim.external.E c.ks) c.iv (chunks (blockSize a) (pad s.input (blockSize a)))).1
  | .cbcPad, .dec =>
    atomicPadDecCommit (blockSize a) s.cap
      (cbcDecBlocks (Prim.external.D c.ks) c.iv (chunks (blockSize a) s.input)).1
  | .cfb, _ => .consume (streamUpdate Prim.external c s.input).1
  | .ctr, _ => .consume (streamUpdate Prim.external c s.input).1
  | .ccm, .enc =>
    let r := ccmEncUpdate Prim.external c s.input
    .consume (r.1 ++ ccmFinalOutput Prim.external r.2)
  | .ccm, .dec =>
    .verified (ccmFinalPlain Prim.external { c with scratch := s.input, processedDataLen := s.input.length })
  | .gcm, .enc =>
    let r := gcmEncUpdate Prim.external c s.input
    .consume (r.1 ++ gcmFinalOutput Prim.external r.2)
  | .gcm, .dec =>
    .verified (gcmFinalPlain Prim.external { c with scratch := s.input, processedDataLen := s.input.length })
  | .gmac, .enc => .consume (gmacTag Prim.external c)
  | .gmac, .dec =>
    .verified (gcmFinalPlain Prim.external { c with scratch := s.input, processedDataLen := s.input.length })

/-- What an ATOMIC does on operands that pass INIT's checks, in every mode (44 R469, R471, R473). -/
theorem exec_atomic_eq {s : State} {m d a h} (r : InitReady s m a h)
    (hv : s.viewRefusal s.args.inView s.args.outView = none) :
    ∃ jobs, exec (instrOf .atomic m d a) s =
      (match atomicError m d a s.args s.input.length with
      | some st => .next (s.answer st 0)
      | none =>
        if s.cap < atomicNeed m d a s.args s.input.length then .next (s.tooSmall (atomicNeed m d a s.args s.input.length))
        else if aeadMode m = true ∧ d = .dec ∧ s.args.draws.scratchOk = false then .next (s.answer .hostMemory 0)
        else s.runAtomic (instrOf .atomic m d a) h jobs (atomicCommit m d a s)) := by
  cases m with
  | ecb =>
    rw [exec_atomic_ecb]
    unfold atomicBlocks
    rw [onAtomic_of_ready r hv]
    refine ⟨s.jobsOf a (s.input.length / blockSize a), ?_⟩
    unfold atomicError atomicNeed; dsimp only; split <;> simp_all [aeadMode, atomicCommit]
  | cbc =>
    rw [exec_atomic_cbc]
    unfold atomicBlocks
    rw [onAtomic_of_ready r hv]
    refine ⟨s.jobsOf a (s.input.length / blockSize a), ?_⟩
    unfold atomicError atomicNeed; dsimp only; split <;> simp_all [aeadMode, atomicCommit]
  | cbcPad =>
    cases d with
    | enc =>
      rw [exec_atomic_cbcPad_enc]
      unfold atomicPadEnc
      rw [onAtomic_of_ready r hv]
      refine ⟨s.jobsOf a (padEncNeed (blockSize a) s.input.length / blockSize a), ?_⟩
      unfold atomicError atomicNeed; simp [aeadMode, atomicCommit, padEncNeed]; rfl
    | dec =>
      rw [exec_atomic_cbcPad_dec]
      unfold atomicPadDec
      rw [onAtomic_of_ready r hv]
      refine ⟨s.jobsOf a (s.input.length / blockSize a), ?_⟩
      unfold atomicError atomicNeed; dsimp only; split <;> simp_all [aeadMode, atomicCommit]
  | cfb =>
    rw [exec_atomic_cfb]
    unfold atomicStream
    rw [onAtomic_of_ready r hv]
    exact ⟨_, by unfold atomicError atomicNeed; simp [aeadMode, atomicCommit]; rfl⟩
  | ctr =>
    rw [exec_atomic_ctr]
    unfold atomicStream
    rw [onAtomic_of_ready r hv]
    exact ⟨_, by unfold atomicError atomicNeed; simp [aeadMode, atomicCommit]; rfl⟩
  | ccm =>
    cases d with
    | enc =>
      rw [exec_atomic_ccm_enc]; unfold atomicCcmEnc; rw [onAtomic_of_ready r hv]
      refine ⟨s.jobsOf a (ccmInitUses s.args.aad + 2 * (s.input.length / 16) + ccmEncFinalUses (s.input.length % 16)), ?_⟩
      · unfold atomicError atomicNeed; dsimp only
        rw [show (initContext Prim.external .ccm .enc a s.args).dataLen = s.args.dataLen.toNat from rfl,
            show (initContext Prim.external .ccm .enc a s.args).tagLen = s.args.tagLen.toNat from rfl]
        by_cases h1 : s.input.length ≠ s.args.dataLen.toNat
        · rw [if_pos h1, if_pos h1]
        · rw [if_neg h1, if_neg h1]; dsimp only
          by_cases h2 : s.cap < s.args.dataLen.toNat + s.args.tagLen.toNat
          · rw [if_pos h2, if_pos h2]
          · rw [if_neg h2, if_neg h2, if_neg (by simp)]; rfl
    | dec =>
      rw [exec_atomic_ccm_dec]; unfold atomicCcmDec; rw [onAtomic_of_ready r hv]
      refine ⟨s.jobsOf a (ccmInitUses s.args.aad + ccmDecFinalUses s.args.dataLen.toNat), ?_⟩
      · unfold atomicError atomicNeed; dsimp only
        rw [show (initContext Prim.external .ccm .dec a s.args).dataLen = s.args.dataLen.toNat from rfl,
            show (initContext Prim.external .ccm .dec a s.args).tagLen = s.args.tagLen.toNat from rfl]
        by_cases h1 : s.input.length > s.args.dataLen.toNat + s.args.tagLen.toNat
        · rw [if_pos h1, if_pos h1]
        · rw [if_neg h1, if_neg h1]
          by_cases h2 : s.input.length < s.args.dataLen.toNat + s.args.tagLen.toNat
          · rw [if_pos h2, if_pos h2]
          · rw [if_neg h2, if_neg h2]; dsimp only
            by_cases h3 : s.cap < s.args.dataLen.toNat
            · rw [if_pos h3, if_pos h3]
            · rw [if_neg h3, if_neg h3]
              by_cases h4 : s.args.draws.scratchOk = false
              · rw [if_pos h4, if_pos ⟨rfl, rfl, h4⟩]
              · rw [if_neg h4, if_neg (fun h => h4 h.2.2)]; rfl
  | gcm =>
    cases d with
    | enc =>
      rw [exec_atomic_gcm_enc]; unfold atomicGcmEnc; rw [onAtomic_of_ready r hv]
      refine ⟨s.jobsOf a (1 + s.input.length / 16 + gcmEncFinalUses (s.input.length % 16)), ?_⟩
      · unfold atomicError atomicNeed; dsimp only
        rw [show (initContext Prim.external .gcm .enc a s.args).tagLen = s.args.tagLen.toNat from rfl]
        by_cases h2 : s.cap < s.input.length + s.args.tagLen.toNat
        · rw [if_pos h2, if_pos h2]
        · rw [if_neg h2, if_neg h2, if_neg (by simp)]; rfl
    | dec =>
      rw [exec_atomic_gcm_dec]; unfold atomicGcmDec; rw [onAtomic_of_ready r hv]
      refine ⟨gcmDecJobs s a 2 (s.input.length - s.args.tagLen.toNat)
          (gcmFinalPlain Prim.external
            { initContext Prim.external .gcm .dec a s.args with
              scratch := s.input, processedDataLen := s.input.length }), ?_⟩
      · unfold atomicError atomicNeed; dsimp only
        rw [show (initContext Prim.external .gcm .dec a s.args).tagLen = s.args.tagLen.toNat from rfl]
        by_cases h2 : s.input.length < s.args.tagLen.toNat
        · rw [if_pos h2, if_pos h2]
        · rw [if_neg h2, if_neg h2]; dsimp only
          by_cases h3 : s.cap < s.input.length - s.args.tagLen.toNat
          · rw [if_pos h3, if_pos h3]
          · rw [if_neg h3, if_neg h3]
            by_cases h4 : s.args.draws.scratchOk = false
            · rw [if_pos h4, if_pos ⟨rfl, rfl, h4⟩]
            · rw [if_neg h4, if_neg (fun h => h4 h.2.2)]; rfl
  | gmac =>
    cases d with
    | enc =>
      rw [exec_atomic_gmac_enc]; unfold atomicGmacEnc; rw [onAtomic_of_ready r hv]
      refine ⟨s.jobsOf a 2, ?_⟩
      · unfold atomicError atomicNeed; dsimp only
        rw [show (initContext Prim.external .gmac .enc a s.args).tagLen = s.args.tagLen.toNat from rfl]
        by_cases h1 : s.input.length > 0
        · rw [if_pos h1, if_pos h1]
        · rw [if_neg h1, if_neg h1]; dsimp only
          by_cases h2 : s.cap < s.args.tagLen.toNat
          · rw [if_pos h2, if_pos h2]
          · rw [if_neg h2, if_neg h2, if_neg (by simp)]; rfl
    | dec =>
      rw [exec_atomic_gmac_dec]; unfold atomicGmacDec; rw [onAtomic_of_ready r hv]
      refine ⟨s.jobsOf a 2, ?_⟩
      · unfold atomicError atomicNeed; dsimp only
        rw [show (initContext Prim.external .gmac .dec a s.args).tagLen = s.args.tagLen.toNat from rfl]
        by_cases h1 : s.input.length > s.args.tagLen.toNat
        · rw [if_pos h1, if_pos h1]
        · rw [if_neg h1, if_neg h1]
          by_cases h2 : s.input.length < s.args.tagLen.toNat
          · rw [if_pos h2, if_pos h2]
          · rw [if_neg h2, if_neg h2]; dsimp only
            rw [if_neg (Nat.not_lt_zero _)]
            by_cases h4 : s.args.draws.scratchOk = false
            · rw [if_pos h4, if_pos ⟨rfl, rfl, h4⟩]
            · rw [if_neg h4, if_neg (fun h => h4 h.2.2)]; rfl

/-- The output of an UPDATE has its required size, and the context it leaves is consistent. -/
theorem Context.update_spec {c : Context} {x y : Bytes} {c' : Context} (hok : c.Ok) (h : c.update x = .ok (y, c')) :
    y.length = c.updateNeed x.length ∧ c'.Ok ∧ c.SameFixed c' := by
  unfold Context.update at h
  cases he : c.updateError x.length with
  | some st => rw [he] at h; cases h
  | none =>
  rw [he] at h
  have hB16 : aeadMode c.mode = true → c.B = 16 := fun h => (hok.aead_blocks h).1
  have hres := hok.residue_lt
  unfold Context.updateError at he
  unfold Context.updateNeed
  cases hm : c.mode <;> rw [hm] at h he hB16 <;> dsimp only at h he ⊢
  · cases h
    refine ⟨?_, ecbUpdate_ok Prim.external hok hm _, sameFixed_ecbUpdate Prim.external _ _⟩
    cases hd : c.dir <;> dsimp only
    · exact (ecbBlocks_length (B := c.B) hok.E_length _).trans (by rw [partition_fst_length])
    · exact (ecbBlocks_length (B := c.B) hok.D_length _).trans (by rw [partition_fst_length])
  · cases h
    exact ⟨cbcUpdate_length hok (by simp [hm]) _, cbcUpdate_ok hok (.inl hm) _, sameFixed_cbcUpdate _ _ _⟩
  · cases hd : c.dir <;> simp only [hd] at h he ⊢
    · cases h
      exact ⟨cbcUpdate_length hok (by simp [hm]) _, cbcUpdate_ok hok (.inr hm) _, sameFixed_cbcUpdate _ _ _⟩
    · have hl := cbcUpdate_length hok (by simp [hm]) x
      have h1 := cbcPadDecUpdate_ok hok hm hd x
      have h2 := sameFixed_cbcPadDecUpdate Prim.external c x
      generalize hg : cbcPadDecUpdate Prim.external c x = g at h h1 h2
      cases h
      refine ⟨?_, h1, h2⟩
      have := congrArg (fun r => r.1.length) hg
      dsimp only at this
      rw [← this]
      unfold cbcPadDecUpdate
      dsimp only
      rw [hl]
      have hB := c.B_pos
      by_cases h0 : (c.residue.length + x.length) / c.B = 0
      · rw [h0]; simp
      · rw [if_neg (by rw [Nat.mul_eq_zero]; omega), if_neg h0]
        simp only [List.length_append, List.length_take, hl, Nat.sub_mul, Nat.one_mul]
        have : (if c.heldValid = true then c.lastBlock else []).length = if c.heldValid = true then c.B else 0 := by
          split
          · rename_i h; exact hok.held_block h
          · rfl
        rw [this]; omega
  · cases h
    exact ⟨stream_length (E := encryptBlock c.ks) (p := c.streamParams) c.B_pos hok.E_length _ _,
        streamUpdate_ok hok (.inl hm) _, sameFixed_streamUpdate _ _ _⟩
  · cases h
    exact ⟨stream_length (E := encryptBlock c.ks) (p := c.streamParams) c.B_pos hok.E_length _ _,
        streamUpdate_ok hok (.inr hm) _, sameFixed_streamUpdate _ _ _⟩
  · have hE : ∀ X, (Prim.external.E c.ks X).length = 16 := by
      intro X
      have := hok.E_length X
      rw [hB16 rfl] at this
      exact this
    cases hd : c.dir <;> simp only [hd] at h he ⊢
    · cases h
      have : c.processedDataLen + x.length ≤ c.dataLen := by split at he <;> simp_all
      refine ⟨?_, ccmEncUpdate_ok hok hm hd _ this, sameFixed_ccmEncUpdate _ _ _⟩
      rw [ccmEncBlocks_length hE _ _ (fun X hX => by rw [← hB16 rfl]; exact length_of_mem_partition hX),
          partition_fst_length, hB16 rfl]
    · cases h
      refine ⟨rfl, grow_ok hok (by rw [hm]; rfl) hd _ (fun _ => by split at he <;> simp_all) (by simp [hm]),
          sameFixed_grow _ _⟩
  · have hE : ∀ X, (Prim.external.E c.ks X).length = 16 := by
      intro X
      have := hok.E_length X
      rw [hB16 rfl] at this
      exact this
    cases hd : c.dir <;> simp only [hd] at h he ⊢
    · cases h
      refine ⟨?_, gcmEncUpdate_ok hok hm hd _, sameFixed_gcmEncUpdate _ _ _⟩
      rw [gcmEncBlocks_length hE _ _ (fun X hX => by rw [← hB16 rfl]; exact length_of_mem_partition hX),
          partition_fst_length, hB16 rfl]
    · cases h
      refine ⟨rfl, grow_ok hok (by rw [hm]; rfl) hd _ (by simp [hm]) (by simp [hm]), sameFixed_grow _ _⟩
  · cases hd : c.dir <;> simp only [hd] at h he ⊢
    · cases h
      exact ⟨rfl, hok, Context.SameFixed.rfl' c⟩
    · cases h
      refine ⟨rfl, grow_ok hok (by rw [hm]; rfl) hd _ (by simp [hm]) (fun _ => by split at he <;> simp_all),
          sameFixed_grow _ _⟩

/-- An empty UPDATE changes nothing (44 R476). -/
theorem Context.update_nil {c : Context} (hok : c.Ok) : c.update [] = .ok ([], c) := by
  have hresB : c.residue.length / c.B = 0 := Nat.div_eq_of_lt hok.residue_lt
  have hp : c.partition [] = ([], c) := by
    unfold Context.partition
    simp only [List.append_nil, hresB, Nat.zero_mul, List.take_zero, List.drop_zero, chunks_nil c.B_pos]
  unfold Context.update
  have he : c.updateError ([] : Bytes).length = none := by
    unfold Context.updateError
    cases hm : c.mode <;> cases hd : c.dir <;> simp
    · exact hok.ccm_enc hm hd
    · exact hok.ccm_dec hm hd
    · exact hok.gmac_dec hm hd
  rw [he]
  have hg : aeadMode c.mode = true → c.dir = .dec → c.grow [] = c := fun h1 h2 => by
    have := hok.dec_processed h1 h2
    simp [Context.grow, ← this]
  cases hm : c.mode <;> cases hd : c.dir <;> dsimp only <;> congr 1
  · simp [ecbUpdate, hp, ecbBlocks]
  · simp [ecbUpdate, hp, ecbBlocks]
  · simp [cbcUpdate, hp, hd, cbcEncBlocks]; rw [← hd]
  · simp [cbcUpdate, hp, hd, cbcDecBlocks]; rw [← hd]
  · simp [cbcUpdate, hp, hd, cbcEncBlocks]; rw [← hd]
  · simp [cbcPadDecUpdate, cbcUpdate, hp, hd, cbcDecBlocks]; rw [← hd]
  · simp [streamUpdate, stream, drain, chunks_nil c.B_pos, Context.streamParams, streamBlocks, Context.keystream]
  · simp [streamUpdate, stream, drain, chunks_nil c.B_pos, Context.streamParams, streamBlocks, Context.keystream]
  · simp [streamUpdate, stream, drain, chunks_nil c.B_pos, Context.streamParams, streamBlocks, Context.keystream]
  · simp [streamUpdate, stream, drain, chunks_nil c.B_pos, Context.streamParams, streamBlocks, Context.keystream]
  · simp [ccmEncUpdate, hp, ccmEncBlocks]
  · rw [hg (by rw [hm]; rfl) hd]
  · simp [gcmEncUpdate, hp, gcmEncBlocks]
  · rw [hg (by rw [hm]; rfl) hd]
  · rw [hg (by rw [hm]; rfl) hd]

theorem gcmFinalPlain_length {c : Context} {p : Bytes} (hok : c.Ok) (ha : c.mode = .gcm ∨ c.mode = .gmac)
    (h : gcmFinalPlain Prim.external c = some p) : p.length = c.scratch.length - c.tagLen := by
  have ha' : aeadMode c.mode = true := by rcases ha with h | h <;> rw [h] <;> rfl
  have hB : c.B = 16 := (hok.aead_blocks ha').1
  have hE : ∀ X, (encryptBlock c.ks X).length = 16 := by intro X; have := hok.E_length X; rw [hB] at this; exact this
  unfold gcmFinalPlain gcmDecFinal at h
  dsimp only at h
  split at h
  · cases h
    rw [gcmCtrBlocks_eq]
    exact (ctrBlocks_flatten_length (E := encryptBlock c.ks) hE (c.scratch.take (c.scratch.length - c.tagLen))
        (fun k => (inc · 32)^[k] c.iv)).trans (by simp)
  · cases h

theorem ccmFinalPlain_length {c : Context} {p : Bytes} (hok : c.Ok) (ha : c.mode = .ccm)
    (hs : c.scratch.length = c.dataLen + c.tagLen) (h : ccmFinalPlain Prim.external c = some p) : p.length = c.dataLen
    := by
  have ha' : aeadMode c.mode = true := by rw [ha]; rfl
  have hB : c.B = 16 := (hok.aead_blocks ha').1
  have hE : ∀ X, (encryptBlock c.ks X).length = 16 := by intro X; have := hok.E_length X; rw [hB] at this; exact this
  unfold ccmFinalPlain ccmDecFinal at h
  dsimp only at h
  split at h
  · cases h
    rw [ccmDecBlocks_eq]
    exact (ctrBlocks_flatten_length (E := encryptBlock c.ks) hE (c.scratch.take c.dataLen)
        (fun k => (inc · c.counterBits)^[k] c.iv)).trans (by simp; omega)
  · cases h

theorem ccmFinalOutput_length {c : Context} (hok : c.Ok) (ha : c.mode = .ccm) :
    (ccmFinalOutput Prim.external c).length = c.residue.length + c.tagLen := by
  have ha' : aeadMode c.mode = true := by rw [ha]; rfl
  obtain ⟨hB, hacc, -⟩ := hok.aead_blocks ha'
  have hE : ∀ X, (Prim.external.E c.ks X).length = 16 := by
    intro X
    have := hok.E_length X
    rw [hB] at this
    exact this
  have hre := hok.residue_lt
  have ht := hok.tag_range ha'
  unfold ccmFinalOutput ccmEncFinal ccmTag
  split
  · simp [hE]; omega
  · simp [hE, hacc]; omega

theorem gcmFinalOutput_length {c : Context} (hok : c.Ok) (ha : c.mode = .gcm) :
    (gcmFinalOutput Prim.external c).length = c.residue.length + c.tagLen := by
  have ha' : aeadMode c.mode = true := by rw [ha]; rfl
  obtain ⟨hB, hacc, -⟩ := hok.aead_blocks ha'
  have hE : ∀ X, (Prim.external.E c.ks X).length = 16 := by
    intro X
    have := hok.E_length X
    rw [hB] at this
    exact this
  have hre := hok.residue_lt
  have ht := hok.tag_range ha'
  unfold gcmFinalOutput gcmEncFinal gcmTag
  simp [hE, ghash_length (ghash_length hacc _)]
  split
  · simp [hE]; omega
  · simp; omega

theorem gmacTag_length {c : Context} (hok : c.Ok) (ha : c.mode = .gmac) : (gmacTag Prim.external c).length = c.tagLen
    := by
  have ha' : aeadMode c.mode = true := by rw [ha]; rfl
  obtain ⟨hB, hacc, -⟩ := hok.aead_blocks ha'
  have hE : ∀ X, (Prim.external.E c.ks X).length = 16 := by
    intro X
    have := hok.E_length X
    rw [hB] at this
    exact this
  have ht := hok.tag_range ha'
  unfold gmacTag gcmTag
  simp [hE, ghash_length hacc]; omega

/-- A FINAL that succeeds has passed its length check, commits its output, and the output has its required size. -/
theorem Context.final_spec {c : Context} {y : Bytes} (hok : c.Ok) (h : c.final = .ok y) : c.finalError = none ∧
    Context.finalCommit c = .consume y ∧ y.length = c.finalNeed := by
  unfold Context.final at h
  cases he : c.finalError with
  | some st => rw [he] at h; cases h
  | none =>
  rw [he] at h; dsimp only at h
  refine ⟨rfl, ?_⟩
  unfold Context.finalCommit Context.finalNeed
  unfold Context.finalError at he
  cases hm : c.mode <;> cases hd : c.dir <;> simp only [hm, hd] at h he ⊢
  case cbcPad.enc => 
    cases h
    refine ⟨rfl, ?_⟩
    rw [cbcEncBlocks_length (E := encryptBlock c.ks) hok.E_length]
    have hl := hok.residue_lt
    have hpad : (pad c.residue c.B).length = c.B := by
      unfold pad; dsimp only; rw [Nat.mod_eq_of_lt hl]; simp; omega
    rw [chunks_length, hpad, ceilDiv_step c.B_pos c.B_pos]; simp [ceilDiv_zero c.B_pos]
  case cbcPad.dec =>
    cases h
    refine ⟨rfl, ?_⟩
    split at he
    · cases he
    · rename_i hx; simp only [not_or] at hx
      have := hok.held_block (by simpa using hx.2.1)
      simp; omega
  case ccm.enc => cases h; exact ⟨rfl, ccmFinalOutput_length hok hm⟩
  case gcm.enc => cases h; exact ⟨rfl, gcmFinalOutput_length hok hm⟩
  case gmac.enc => cases h; exact ⟨rfl, gmacTag_length hok hm⟩
  case ccm.dec =>
    cases hp : ccmFinalPlain Prim.external c with
    | none => rw [hp] at h; cases h
    | some p => 
      rw [hp] at h; cases h
      refine ⟨rfl, ccmFinalPlain_length hok hm (by split at he; cases he; simp_all) hp⟩
  case gcm.dec =>
    cases hp : gcmFinalPlain Prim.external c with
    | none => rw [hp] at h; cases h
    | some p => 
      rw [hp] at h; cases h
      exact ⟨rfl, gcmFinalPlain_length hok (.inl hm) hp⟩
  case gmac.dec =>
    cases hp : gcmFinalPlain Prim.external c with
    | none => rw [hp] at h; cases h
    | some p => 
      rw [hp] at h; cases h
      refine ⟨rfl, (gcmFinalPlain_length hok (.inr hm) hp).trans ?_⟩
      split at he; cases he; simp_all
  all_goals (cases h; exact ⟨rfl, rfl⟩)

/-- A run of one UPDATE and FINAL. -/
theorem Context.run_single (c : Context) (x : Bytes) : c.run [x] = match c.update x with
  | .error st => ([], st)
  | .ok r => match r.2.final with
    | .error st => (r.1, st)
    | .ok z => (r.1 ++ z, .success) := by
  unfold Context.run
  cases c.update x with
  | error st => rfl
  | ok r =>
    show (r.1 ++ (r.2.run []).1, (r.2.run []).2) = _
    rw [Context.run]
    rcases hf : r.2.final with st | z <;> simp [hf]

/-- When INIT's checks pass, a run is that of the context INIT makes. -/
theorem InitReady.run {s m a h} (r : InitReady s m a h) (d : Dir) (xs : List Bytes) :
    s.run m d a xs = (initContext Prim.external m d a s.args).run xs := by
  unfold State.run
  rw [initChecks_of_ready r]

theorem initContext_B (m d a) (o : Operands) : (initContext Prim.external m d a o).B = blockSize a := by cases m <;>
    rfl

theorem initContext_mode (m d a) (o : Operands) : (initContext Prim.external m d a o).mode = m := by cases m <;> rfl

theorem initContext_dir (m d a) (o : Operands) : (initContext Prim.external m d a o).dir = d := by cases m <;> rfl

theorem initContext_residue (m d a) (o : Operands) : (initContext Prim.external m d a o).residue = [] := by cases m
    <;> rfl

theorem initContext_scratch (m d a) (o : Operands) : (initContext Prim.external m d a o).scratch = [] := by cases m
    <;> rfl

theorem initContext_processedDataLen (m d a) (o : Operands) : (initContext Prim.external m d a o).processedDataLen = 0
    := by cases m <;> rfl

theorem initContext_heldValid (m d a) (o : Operands) : (initContext Prim.external m d a o).heldValid = false := by
    cases m <;> rfl

theorem initContext_tagLen (m d a) (o : Operands) (h : aeadMode m = true) : (initContext Prim.external m d a o).tagLen
    = o.tagLen.toNat := by cases m <;> first | rfl | cases h

theorem initContext_ks (m d a) (o : Operands) : (initContext Prim.external m d a o).ks = ⟨a, o.key⟩ := by cases m <;>
    rfl

theorem InitReady.context_ok {s m a h} (d : Dir) (r : InitReady s m a h) : (initContext Prim.external m d a s.args).Ok
    := initContext_ok d r.supported r.params

end Sys2Proof.Machine
end

