-- ==== Sys2Proof/Laws/PerInstr.lean ====
section
/-! SUPPORT. The encoder against the list of reserved encodings, command by command: the word of every command, under every
algorithm, has legal fields (30_encoding.md rules R116, R126). -/

namespace Sys2Proof.Laws.Encoding

/-- The word the encoder gives a command is none of the reserved encodings (30 R126). -/
def Statement (i : Instr) : Prop := (wordFields (encode i)).wellFormed = true

theorem initEcbEnc (a : Alg) : Statement (.initEcbEnc a) := by cases a <;> exact rfl
theorem initEcbDec (a : Alg) : Statement (.initEcbDec a) := by cases a <;> exact rfl
theorem updateEcbEnc (a : Alg) : Statement (.updateEcbEnc a) := by cases a <;> exact rfl
theorem updateEcbDec (a : Alg) : Statement (.updateEcbDec a) := by cases a <;> exact rfl
theorem finalEcbEnc (a : Alg) : Statement (.finalEcbEnc a) := by cases a <;> exact rfl
theorem finalEcbDec (a : Alg) : Statement (.finalEcbDec a) := by cases a <;> exact rfl
theorem atomicEcbEnc (a : Alg) : Statement (.atomicEcbEnc a) := by cases a <;> exact rfl
theorem atomicEcbDec (a : Alg) : Statement (.atomicEcbDec a) := by cases a <;> exact rfl
theorem initCbcEnc (a : Alg) : Statement (.initCbcEnc a) := by cases a <;> exact rfl
theorem initCbcDec (a : Alg) : Statement (.initCbcDec a) := by cases a <;> exact rfl
theorem updateCbcEnc (a : Alg) : Statement (.updateCbcEnc a) := by cases a <;> exact rfl
theorem updateCbcDec (a : Alg) : Statement (.updateCbcDec a) := by cases a <;> exact rfl
theorem finalCbcEnc (a : Alg) : Statement (.finalCbcEnc a) := by cases a <;> exact rfl
theorem finalCbcDec (a : Alg) : Statement (.finalCbcDec a) := by cases a <;> exact rfl
theorem atomicCbcEnc (a : Alg) : Statement (.atomicCbcEnc a) := by cases a <;> exact rfl
theorem atomicCbcDec (a : Alg) : Statement (.atomicCbcDec a) := by cases a <;> exact rfl
theorem initCbcPadEnc (a : Alg) : Statement (.initCbcPadEnc a) := by cases a <;> exact rfl
theorem initCbcPadDec (a : Alg) : Statement (.initCbcPadDec a) := by cases a <;> exact rfl
theorem updateCbcPadEnc (a : Alg) : Statement (.updateCbcPadEnc a) := by cases a <;> exact rfl
theorem updateCbcPadDec (a : Alg) : Statement (.updateCbcPadDec a) := by cases a <;> exact rfl
theorem finalCbcPadEnc (a : Alg) : Statement (.finalCbcPadEnc a) := by cases a <;> exact rfl
theorem finalCbcPadDec (a : Alg) : Statement (.finalCbcPadDec a) := by cases a <;> exact rfl
theorem atomicCbcPadEnc (a : Alg) : Statement (.atomicCbcPadEnc a) := by cases a <;> exact rfl
theorem atomicCbcPadDec (a : Alg) : Statement (.atomicCbcPadDec a) := by cases a <;> exact rfl
theorem initCfbEnc (a : Alg) : Statement (.initCfbEnc a) := by cases a <;> exact rfl
theorem initCfbDec (a : Alg) : Statement (.initCfbDec a) := by cases a <;> exact rfl
theorem updateCfbEnc (a : Alg) : Statement (.updateCfbEnc a) := by cases a <;> exact rfl
theorem updateCfbDec (a : Alg) : Statement (.updateCfbDec a) := by cases a <;> exact rfl
theorem finalCfbEnc (a : Alg) : Statement (.finalCfbEnc a) := by cases a <;> exact rfl
theorem finalCfbDec (a : Alg) : Statement (.finalCfbDec a) := by cases a <;> exact rfl
theorem atomicCfbEnc (a : Alg) : Statement (.atomicCfbEnc a) := by cases a <;> exact rfl
theorem atomicCfbDec (a : Alg) : Statement (.atomicCfbDec a) := by cases a <;> exact rfl
theorem initCtrEnc (a : Alg) : Statement (.initCtrEnc a) := by cases a <;> exact rfl
theorem initCtrDec (a : Alg) : Statement (.initCtrDec a) := by cases a <;> exact rfl
theorem updateCtrEnc (a : Alg) : Statement (.updateCtrEnc a) := by cases a <;> exact rfl
theorem updateCtrDec (a : Alg) : Statement (.updateCtrDec a) := by cases a <;> exact rfl
theorem finalCtrEnc (a : Alg) : Statement (.finalCtrEnc a) := by cases a <;> exact rfl
theorem finalCtrDec (a : Alg) : Statement (.finalCtrDec a) := by cases a <;> exact rfl
theorem atomicCtrEnc (a : Alg) : Statement (.atomicCtrEnc a) := by cases a <;> exact rfl
theorem atomicCtrDec (a : Alg) : Statement (.atomicCtrDec a) := by cases a <;> exact rfl
theorem initCcmEnc (a : Alg) : Statement (.initCcmEnc a) := by cases a <;> exact rfl
theorem initCcmDec (a : Alg) : Statement (.initCcmDec a) := by cases a <;> exact rfl
theorem updateCcmEnc (a : Alg) : Statement (.updateCcmEnc a) := by cases a <;> exact rfl
theorem updateCcmDec (a : Alg) : Statement (.updateCcmDec a) := by cases a <;> exact rfl
theorem finalCcmEnc (a : Alg) : Statement (.finalCcmEnc a) := by cases a <;> exact rfl
theorem finalCcmDec (a : Alg) : Statement (.finalCcmDec a) := by cases a <;> exact rfl
theorem atomicCcmEnc (a : Alg) : Statement (.atomicCcmEnc a) := by cases a <;> exact rfl
theorem atomicCcmDec (a : Alg) : Statement (.atomicCcmDec a) := by cases a <;> exact rfl
theorem initGcmEnc (a : Alg) : Statement (.initGcmEnc a) := by cases a <;> exact rfl
theorem initGcmDec (a : Alg) : Statement (.initGcmDec a) := by cases a <;> exact rfl
theorem updateGcmEnc (a : Alg) : Statement (.updateGcmEnc a) := by cases a <;> exact rfl
theorem updateGcmDec (a : Alg) : Statement (.updateGcmDec a) := by cases a <;> exact rfl
theorem finalGcmEnc (a : Alg) : Statement (.finalGcmEnc a) := by cases a <;> exact rfl
theorem finalGcmDec (a : Alg) : Statement (.finalGcmDec a) := by cases a <;> exact rfl
theorem atomicGcmEnc (a : Alg) : Statement (.atomicGcmEnc a) := by cases a <;> exact rfl
theorem atomicGcmDec (a : Alg) : Statement (.atomicGcmDec a) := by cases a <;> exact rfl
theorem initGmacEnc (a : Alg) : Statement (.initGmacEnc a) := by cases a <;> exact rfl
theorem initGmacDec (a : Alg) : Statement (.initGmacDec a) := by cases a <;> exact rfl
theorem updateGmacEnc (a : Alg) : Statement (.updateGmacEnc a) := by cases a <;> exact rfl
theorem updateGmacDec (a : Alg) : Statement (.updateGmacDec a) := by cases a <;> exact rfl
theorem finalGmacEnc (a : Alg) : Statement (.finalGmacEnc a) := by cases a <;> exact rfl
theorem finalGmacDec (a : Alg) : Statement (.finalGmacDec a) := by cases a <;> exact rfl
theorem atomicGmacEnc (a : Alg) : Statement (.atomicGmacEnc a) := by cases a <;> exact rfl
theorem atomicGmacDec (a : Alg) : Statement (.atomicGmacDec a) := by cases a <;> exact rfl
theorem abort : Statement .abort := rfl

end Sys2Proof.Laws.Encoding
end

