-- ==== Sys2Proof/Tests/Aes.lean ====
section
/-! SUPPORT. AES (FIPS-197) as a Block Primitive, for the byte vectors of 95_test_vectors.md only (00_scope.md rule R16): no
definition of the model uses it. -/

namespace Sys2Proof.Tests

open Sys2Proof.Machine

/-- The S-box, entry 0 in the most significant byte. -/
def sboxTable : Nat := 0x637c777bf26b6fc53001672bfed7ab76ca82c97dfa5947f0add4a2af9ca472c0b7fd9326363ff7cc34a5e5f171d8311504c723c31896059a071280e2eb27b27509832c1a1b6e5aa0523bd6b329e32f8453d100ed20fcb15b6acbbe394a4c58cfd0efaafb434d338545f9027f503c9fa851a3408f929d38f5bcb6da2110fff3d2cd0c13ec5f974417c4a77e3d645d197360814fdc222a908846eeb814de5e0bdbe0323a0a4906245cc2d3ac629195e479e7c8376d8dd54ea96c56f4ea657aae08ba78252e1ca6b4c6e8dd741f4bbd8b8a703eb5664803f60e613557b986c11d9ee1f8981169d98e949b1e87e9ce5528df8ca1890dbfe6426841992d0fb054bb16

/-- The inverse S-box, likewise. -/
def invSboxTable : Nat := 0x52096ad53036a538bf40a39e81f3d7fb7ce339829b2fff87348e4344c4dee9cb547b9432a6c2233dee4c950b42fac34e082ea16628d924b2765ba2496d8bd12572f8f66486689816d4a45ccc5d65b6926c704850fdedb9da5e154657a78d9d8490d8ab008cbcd30af7e45805b8b34506d02c1e8fca3f0f02c1afbd0301138a6b3a9111414f67dcea97f2cfcef0b4e67396ac7422e7ad3585e2f937e81c75df6e47f11a711d29c5896fb7620eaa18be1bfc563e4bc6d279209adbc0fe78cd5af41fdda8338807c731b11210592780ec5f60517fa919b54a0d2de57a9f93c99cefa0e03b4dae2af5b0c8ebbb3c83539961172b047eba77d626e169146355210c7d

def lookupByte (t x : Nat) : Nat := (t >>> (8 * (255 - x))) % 256

def xtime (x : Nat) : Nat := if x < 128 then 2 * x else (2 * x) % 256 ^^^ 0x1b

def gmul (c x : Nat) : Nat :=
  (if c.testBit 0 then x else 0) ^^^ (if c.testBit 1 then xtime x else 0) ^^^
    (if c.testBit 2 then xtime (xtime x) else 0) ^^^ (if c.testBit 3 then xtime (xtime (xtime x)) else 0)

def xorNats (a b : List Nat) : List Nat := List.zipWith (fun x y => x ^^^ y) a b

/-- The next word of the key schedule; `ws` holds the words so far, the newest first, `i` their number. -/
def nextWord (nk i : Nat) (rcon : Nat) (ws : List (List Nat)) : List Nat :=
  let t := ws.headD []
  let t' :=
    if i % nk = 0 then xorNats ((t.rotateLeft 1).map (lookupByte sboxTable)) [rcon, 0, 0, 0]
    else if nk > 6 ∧ i % nk = 4 then t.map (lookupByte sboxTable)
    else t
  xorNats (ws.getD (nk - 1) []) t'

def expandWords (nk : Nat) : Nat → Nat → Nat → List (List Nat) → List (List Nat)
  | 0, _, _, ws => ws
  | n + 1, i, rcon, ws =>
    expandWords nk n (i + 1) (if i % nk = 0 then xtime rcon else rcon) (nextWord nk i rcon ws :: ws)

/-- The round keys, first round first. -/
def roundKeys (key : List Nat) : List (List Nat) :=
  let nk := key.length / 4
  let ws0 := ((List.range nk).map fun k => (key.drop (4 * k)).take 4).reverse
  let ws := (expandWords nk (4 * (nk + 7) - nk) nk 1 ws0).reverse
  (List.range (nk + 7)).map fun r => ((ws.drop (4 * r)).take 4).flatten

def shiftRows (s : List Nat) (d : Nat) : List Nat :=
  (List.range 16).map fun k => s.getD ((k + d * 4 * (k % 4)) % 16) 0

def mixColumns (m : List Nat) (s : List Nat) : List Nat :=
  (List.range 16).map fun k =>
    let c := (s.drop (4 * (k / 4))).take 4
    (List.range 4).foldl (fun v j => v ^^^ gmul (m.getD ((j + 4 - k % 4) % 4) 0) (c.getD j 0)) 0

def encRounds : List (List Nat) → List Nat → List Nat
  | [], s => s
  | [k], s => xorNats (shiftRows (s.map (lookupByte sboxTable)) 1) k
  | k :: ks, s => encRounds ks (xorNats (mixColumns [2, 3, 1, 1] (shiftRows (s.map (lookupByte sboxTable)) 1)) k)

def decRounds : List (List Nat) → List Nat → List Nat
  | [], s => s
  | [k], s => xorNats ((shiftRows s 3).map (lookupByte invSboxTable)) k
  | k :: ks, s => decRounds ks (mixColumns [14, 11, 13, 9] (xorNats ((shiftRows s 3).map (lookupByte invSboxTable)) k))

def natsOf (b : Bytes) : List Nat := b.map BitVec.toNat

def bytesOf (b : List Nat) : Bytes := b.map (BitVec.ofNat 8)

def aesEnc (key X : Bytes) : Bytes :=
  match roundKeys (natsOf key) with
  | [] => X
  | k :: ks => bytesOf (encRounds ks (xorNats (natsOf X) k))

def aesDec (key X : Bytes) : Bytes :=
  match (roundKeys (natsOf key)).reverse with
  | [] => X
  | k :: ks => bytesOf (decRounds ks (xorNats (natsOf X) k))

/-- AES as the primitive of a test. -/
def aes : Prim where
  E := fun ks => aesEnc ks.key
  D := fun ks => aesDec ks.key

/-- The `n` bytes of a hexadecimal literal, the most significant first. -/
def hex (n v : Nat) : Bytes := beBytes n v

end Sys2Proof.Tests
end

