-- ==== Sys2Proof/Tests/Slice0.lean ====
section
/-! SUPPORT. The model's own tests: ill-formed words, the words of 30_encoding.md rule R128, the examples of
95_test_vectors.md, and for every statement with hypotheses a state and operands that meet them. -/

namespace Sys2Proof.Tests

open Sys2Proof.Machine

/-! ### Ill-formed words (30 R126), one for each check -/

theorem test_op5_illFormed : (wordFields 0x005#32).wellFormed = false ∧ decode 0x005#32 = none := by decide
theorem test_op15_illFormed : (wordFields 0x00F#32).wellFormed = false ∧ decode 0x00F#32 = none := by decide
theorem test_mode8_illFormed : (wordFields 0x080#32).wellFormed = false ∧ decode 0x080#32 = none := by decide
theorem test_alg5_illFormed : (wordFields 0xA00#32).wellFormed = false ∧ decode 0xA00#32 = none := by decide
theorem test_alg7_illFormed : (wordFields 0xE13#32).wellFormed = false ∧ decode 0xE13#32 = none := by decide
theorem test_bit12_illFormed : (wordFields 0x1000#32).wellFormed = false ∧ decode 0x1000#32 = none := by decide
theorem test_bit31_illFormed : (wordFields 0x80000013#32).wellFormed = false ∧ decode 0x80000013#32 = none := by decide
theorem test_abortMode_illFormed : (wordFields 0x014#32).wellFormed = false ∧ decode 0x014#32 = none := by decide
theorem test_abortDir_illFormed : (wordFields 0x104#32).wellFormed = false ∧ decode 0x104#32 = none := by decide
theorem test_abortAlg_illFormed : (wordFields 0x204#32).wellFormed = false ∧ decode 0x204#32 = none := by decide
theorem test_dir_illFormed : ({ op := 0, mode := 0, dir := 2, alg := 0, rsv := 0 } : WordFields).wellFormed = false := by
  decide

/-! ### The words of 30 R128, bit by bit: RSV, ALG, DIR, MODE, OP -/

theorem test_decode_ecb :
    decode 0b000_0_0000_0000#32 = some (.initEcbEnc .aes128) ∧
    decode 0b001_1_0000_0000#32 = some (.initEcbDec .aes192) ∧
    decode 0b010_0_0000_0001#32 = some (.updateEcbEnc .aes256) ∧
    decode 0b011_1_0000_0001#32 = some (.updateEcbDec .des) ∧
    decode 0b100_0_0000_0010#32 = some (.finalEcbEnc .tdes) ∧
    decode 0b000_1_0000_0010#32 = some (.finalEcbDec .aes128) ∧
    decode 0b001_0_0000_0011#32 = some (.atomicEcbEnc .aes192) ∧
    decode 0b010_1_0000_0011#32 = some (.atomicEcbDec .aes256) := by
  decide

theorem test_decode_cbc :
    decode 0b011_0_0001_0000#32 = some (.initCbcEnc .des) ∧
    decode 0b100_1_0001_0000#32 = some (.initCbcDec .tdes) ∧
    decode 0b000_0_0001_0001#32 = some (.updateCbcEnc .aes128) ∧
    decode 0b001_1_0001_0001#32 = some (.updateCbcDec .aes192) ∧
    decode 0b010_0_0001_0010#32 = some (.finalCbcEnc .aes256) ∧
    decode 0b011_1_0001_0010#32 = some (.finalCbcDec .des) ∧
    decode 0b100_0_0001_0011#32 = some (.atomicCbcEnc .tdes) ∧
    decode 0b000_1_0001_0011#32 = some (.atomicCbcDec .aes128) := by
  decide

theorem test_decode_cbcPad :
    decode 0b001_0_0010_0000#32 = some (.initCbcPadEnc .aes192) ∧
    decode 0b010_1_0010_0000#32 = some (.initCbcPadDec .aes256) ∧
    decode 0b011_0_0010_0001#32 = some (.updateCbcPadEnc .des) ∧
    decode 0b100_1_0010_0001#32 = some (.updateCbcPadDec .tdes) ∧
    decode 0b000_0_0010_0010#32 = some (.finalCbcPadEnc .aes128) ∧
    decode 0b001_1_0010_0010#32 = some (.finalCbcPadDec .aes192) ∧
    decode 0b010_0_0010_0011#32 = some (.atomicCbcPadEnc .aes256) ∧
    decode 0b011_1_0010_0011#32 = some (.atomicCbcPadDec .des) := by
  decide

theorem test_decode_cfb :
    decode 0b100_0_0011_0000#32 = some (.initCfbEnc .tdes) ∧
    decode 0b000_1_0011_0000#32 = some (.initCfbDec .aes128) ∧
    decode 0b001_0_0011_0001#32 = some (.updateCfbEnc .aes192) ∧
    decode 0b010_1_0011_0001#32 = some (.updateCfbDec .aes256) ∧
    decode 0b011_0_0011_0010#32 = some (.finalCfbEnc .des) ∧
    decode 0b100_1_0011_0010#32 = some (.finalCfbDec .tdes) ∧
    decode 0b000_0_0011_0011#32 = some (.atomicCfbEnc .aes128) ∧
    decode 0b001_1_0011_0011#32 = some (.atomicCfbDec .aes192) := by
  decide

theorem test_decode_ctr :
    decode 0b010_0_0100_0000#32 = some (.initCtrEnc .aes256) ∧
    decode 0b011_1_0100_0000#32 = some (.initCtrDec .des) ∧
    decode 0b100_0_0100_0001#32 = some (.updateCtrEnc .tdes) ∧
    decode 0b000_1_0100_0001#32 = some (.updateCtrDec .aes128) ∧
    decode 0b001_0_0100_0010#32 = some (.finalCtrEnc .aes192) ∧
    decode 0b010_1_0100_0010#32 = some (.finalCtrDec .aes256) ∧
    decode 0b011_0_0100_0011#32 = some (.atomicCtrEnc .des) ∧
    decode 0b100_1_0100_0011#32 = some (.atomicCtrDec .tdes) := by
  decide

theorem test_decode_ccm :
    decode 0b000_0_0101_0000#32 = some (.initCcmEnc .aes128) ∧
    decode 0b001_1_0101_0000#32 = some (.initCcmDec .aes192) ∧
    decode 0b010_0_0101_0001#32 = some (.updateCcmEnc .aes256) ∧
    decode 0b011_1_0101_0001#32 = some (.updateCcmDec .des) ∧
    decode 0b100_0_0101_0010#32 = some (.finalCcmEnc .tdes) ∧
    decode 0b000_1_0101_0010#32 = some (.finalCcmDec .aes128) ∧
    decode 0b001_0_0101_0011#32 = some (.atomicCcmEnc .aes192) ∧
    decode 0b010_1_0101_0011#32 = some (.atomicCcmDec .aes256) := by
  decide

theorem test_decode_gcm :
    decode 0b011_0_0110_0000#32 = some (.initGcmEnc .des) ∧
    decode 0b100_1_0110_0000#32 = some (.initGcmDec .tdes) ∧
    decode 0b000_0_0110_0001#32 = some (.updateGcmEnc .aes128) ∧
    decode 0b001_1_0110_0001#32 = some (.updateGcmDec .aes192) ∧
    decode 0b010_0_0110_0010#32 = some (.finalGcmEnc .aes256) ∧
    decode 0b011_1_0110_0010#32 = some (.finalGcmDec .des) ∧
    decode 0b100_0_0110_0011#32 = some (.atomicGcmEnc .tdes) ∧
    decode 0b000_1_0110_0011#32 = some (.atomicGcmDec .aes128) := by
  decide

theorem test_decode_gmac :
    decode 0b001_0_0111_0000#32 = some (.initGmacEnc .aes192) ∧
    decode 0b010_1_0111_0000#32 = some (.initGmacDec .aes256) ∧
    decode 0b011_0_0111_0001#32 = some (.updateGmacEnc .des) ∧
    decode 0b100_1_0111_0001#32 = some (.updateGmacDec .tdes) ∧
    decode 0b000_0_0111_0010#32 = some (.finalGmacEnc .aes128) ∧
    decode 0b001_1_0111_0010#32 = some (.finalGmacDec .aes192) ∧
    decode 0b010_0_0111_0011#32 = some (.atomicGmacEnc .aes256) ∧
    decode 0b011_1_0111_0011#32 = some (.atomicGmacDec .des) := by
  decide

theorem test_decode_abort : decode 0b000_0_0000_0100#32 = some .abort := by decide

/-- The example of 30 R116. -/
theorem test_decode_r116 : decode 0x511#32 = some (.updateCbcDec .aes256) ∧ encode (.updateCbcDec .aes256)
    = 0x511#32 := by
  decide

/-- The host's numbering: the word's own bits. -/
theorem test_decodeTableWord : decodeTableWord 32 0x163 = some (.atomicGcmDec .aes128)
    ∧ decodeTableWord 32 0x80 = none := by
  decide

/-! ### Byte vectors of 95_test_vectors.md, through the engines with AES -/

def keyK : Bytes := hex 16 0x2b7e151628aed2a6abf7158809cf4f3c
def ivK : Bytes := hex 16 0x000102030405060708090a0b0c0d0e0f
def blockP1 : Bytes := hex 16 0x6bc1bee22e409f96e93d7e117393172a

/-- 2.1: ATOMIC.ECB.ENC and DEC of one block. -/
theorem test_ecb_vector :
    (ecbUpdate aes (initContext aes .ecb .enc .aes128 { key := keyK }) blockP1).1 =
      hex 16 0x3ad77bb40d7a3660a89ecaf32466ef97 ∧
    (ecbUpdate aes (initContext aes .ecb .dec .aes128 { key := keyK }) (hex 16 0x3ad77bb40d7a3660a89ecaf32466ef97)).1 =
      blockP1 := by decide +kernel

/-- 2.2: after UPDATE.CBC.ENC of 20 bytes the chaining value is the ciphertext block and four bytes remain. -/
theorem test_cbc_vector :
    let r := cbcUpdate aes (initContext aes .cbc .enc .aes128 { key := keyK, iv := ivK }) (blockP1 ++ hex 4 0xae2d8a57)
    r.1 = hex 16 0x7649abac8119b246cee98e9b12e9197d ∧ r.2.iv = r.1 ∧ r.2.residue = hex 4 0xae2d8a57 := by
  decide +kernel

/-- 1.7, scenario 1: the padding of 6 bytes is ten bytes 0x0A, and their encryption. -/
theorem test_cbcPad_enc_vector :
    pad (blockP1.take 6) 16 = hex 16 0x6bc1bee22e400a0a0a0a0a0a0a0a0a0a ∧
    (cbcEncBlocks (aes.E ⟨.aes128, keyK⟩) ivK (chunks 16 (pad (blockP1.take 6) 16))).1 =
      hex 16 0x09507965904c737e5fa28d52eb2c05f1 := by decide +kernel

/-- Program 3: the second UPDATE of CBC_PAD decryption emits the first block and holds the second. -/
theorem test_cbcPad_dec_vector :
    let X := hex 32 0x7649abac8119b246cee98e9b12e9197d34d2d260173113008c28112c77668c86
    let c := (cbcPadDecUpdate aes (initContext aes .cbcPad .dec .aes128 { key := keyK, iv := ivK }) (X.take 10)).2
    let r := cbcPadDecUpdate aes c (X.drop 10)
    c.residue.length = 10 ∧ c.padDecNeed 22 = 16 ∧ r.1 = blockP1 ∧
      r.2.lastBlock = hex 16 0xae0f0f0f0f0f0f0f0f0f0f0f0f0f0f0f ∧
      r.2.iv = hex 16 0x34d2d260173113008c28112c77668c86 := by decide +kernel

/-- Program 1: CFB served from the keystream cache, in 7, 3 and 6 bytes. -/
theorem test_cfb_program :
    let c := initContext aes .cfb .enc .aes128 { key := keyK, iv := ivK }
    let r := streamUpdate aes c (blockP1.take 7)
    let q := streamUpdate aes r.2 ((blockP1.drop 7).take 3)
    let t := streamUpdate aes q.2 (blockP1.drop 10)
    r.1 ++ q.1 ++ t.1 = hex 16 0x3b3fd92eb72dad20333449f8e83cfb4a ∧ r.2.iv = ivK ∧ r.2.lbPad = 9 ∧
      r.2.lastBlock = hex 16 0x3b3fd92eb72dadb6da0937e99bafec60 ∧ streamUses 16 r.2.lbPad 3 = 0 ∧
      t.2.iv = hex 16 0x3b3fd92eb72dad20333449f8e83cfb4a ∧ t.2.lbPad = 0 := by decide +kernel

/-- 2.4: a CTR counter of 8 bits rolls over below bits that stay. -/
theorem test_ctr_vector :
    let c := initContext aes .ctr .enc .aes128
      { key := keyK, iv := hex 16 0xf0f1f2f3f4f5f6f7f8f9fafbfcfdfeff, counterBits := 8 }
    let r := streamUpdate aes c (blockP1 ++ hex 16 0xae2d8a571e03ac9c9eb76fac45af8e51)
    r.1 = hex 32 0x874d6191b620e3261bef6864990db6cee3256531c56fd498e4670c36587faba6 ∧
      r.2.iv = hex 16 0xf0f1f2f3f4f5f6f7f8f9fafbfcfdfe01 := by decide +kernel

/-- 2.7: the counter increment. -/
theorem test_inc_vector :
    inc (hex 16 0x000102030405060708090a0bffffffff) 32 = hex 16 0x000102030405060708090a0b00000000 ∧
    inc (hex 16 0xf0f1f2f3f4f5f6f7f8f9fafbfcfdfeff) 128 = hex 16 0xf0f1f2f3f4f5f6f7f8f9fafbfcfdff00 ∧
    inc (hex 16 0xffffffffffffffffffffffffffffffff) 128 = zeros 16 := by decide +kernel

def operandsS1 : Operands where
  key := hex 16 0x404142434445464748494a4b4c4d4e4f
  iv := hex 7 0x10111213141516
  aad := hex 8 0x0001020304050607
  tagLen := 4
  dataLen := 4

/-- 2.6, the first line: CCM encryption of 4 bytes. -/
theorem test_ccm_enc_vector :
    let r := ccmEncUpdate aes (initContext aes .ccm .enc .aes128 operandsS1) (hex 4 0x20212223)
    r.1 ++ ccmFinalOutput aes r.2 = hex 8 0x7162015b4dac255d := by decide +kernel

/-- 2.6: its decryption, and with a tag bit flipped. -/
theorem test_ccm_dec_vector :
    ccmFinalPlain aes ((initContext aes .ccm .dec .aes128 operandsS1).grow (hex 8 0x7162015b4dac255d)) =
      some (hex 4 0x20212223) ∧
    ccmFinalPlain aes ((initContext aes .ccm .dec .aes128 operandsS1).grow (hex 8 0x7162015b4dac255c)) = none := by
  decide +kernel

/-- 2.8, tc2: GCM encryption of one zero block. -/
theorem test_gcm_enc_vector :
    let o : Operands := { key := zeros 16, iv := zeros 12, tagLen := 16 }
    let r := gcmEncUpdate aes (initContext aes .gcm .enc .aes128 o) (zeros 16)
    r.1 ++ gcmFinalOutput aes r.2 = hex 32 0x0388dace60b6a392f328c2b971b2fe78ab6e47d42cec13bdf53a67b21257bddf := by
  decide +kernel

/-- 2.8: its decryption, and with a ciphertext bit flipped. -/
theorem test_gcm_dec_vector :
    let c := initContext aes .gcm .dec .aes128 { key := zeros 16, iv := zeros 12, tagLen := 16 }
    gcmFinalPlain aes (c.grow (hex 32 0x0388dace60b6a392f328c2b971b2fe78ab6e47d42cec13bdf53a67b21257bddf))
        = some (zeros 16) ∧
    gcmFinalPlain aes (c.grow (hex 32 0x8388dace60b6a392f328c2b971b2fe78ab6e47d42cec13bdf53a67b21257bddf)) = none := by
  decide +kernel

/-- 2.8: the fields INIT.GCM.ENC sets; J0 of an 8-byte IV is a GHASH (tc5). -/
theorem test_gcm_init_vector :
    let o : Operands :=
      { key := hex 16 0xfeffe9928665731c6d6a8f9467308308, iv := hex 12 0xcafebabefacedbaddecaf888, tagLen := 16
        aad := hex 20 0xfeedfacedeadbeeffeedfacedeadbeefabaddad2 }
    let c := initContext aes .gcm .enc .aes128 o
    c.ctr0 = hex 16 0xcafebabefacedbaddecaf88800000001 ∧ c.hashKey = hex 16 0xb83b533708bf535d0aa6e52980d53b78 ∧
      c.acc = hex 16 0xcd47221ccef0554ee4bb044c88150352 ∧ c.iv = hex 16 0xcafebabefacedbaddecaf88800000002 ∧
      gcmJ0 c.hashKey (hex 8 0xcafebabefacedbad) = hex 16 0xc43a83c4c4badec4354ca984db252f7d := by decide +kernel

/-- 1.5: GMAC with no data is E(J0). -/
theorem test_gmac_vector :
    gmacTag aes (initContext aes .gmac .enc .aes128 { key := zeros 16, iv := zeros 12, tagLen := 16 }) =
      hex 16 0x58e2fccefa7e3061367f1d57a4e7455a := by decide +kernel

/-- 2.5: unpadding looks at the last byte alone. -/
theorem test_unpad_vector :
    unpad (hex 16 0x6bc1bee22e409f96e93d7e1103030402) 16 = some (hex 14 0x6bc1bee22e409f96e93d7e110303) ∧
    unpad (hex 16 0x6bc1bee22e409f96e93d7e1173931700) 16 = none ∧
    unpad (hex 16 0x6bc1bee22e409f96e93d7e1173931711) 16 = none ∧
    unpad [] 16 = none := by decide +kernel

/-! ### Small states -/

/-- The operands of the issue tests: handle 7, `n` input bytes at address 0, `cap` output bytes at address 100. -/
def useArgs (n cap : Nat) : Operands where
  handle := 7
  inView := [{ base := 0, len := n }]
  outView := [{ base := 100, len := cap }]

/-- A state in which handle 7 is ACTIVE with `c` and a command is being issued on it. -/
def liveState (c : Context) (n cap : Nat) : State :=
  { State.reset with table := [(7, .active c)], known := [7], args := useArgs n cap, issued := 1 }

/-- An AES128 context of a mode and a direction, as right after an INIT. -/
def someContext (m : Mode) (d : Dir) : Context where
  alg := .aes128
  mode := m
  dir := d
  ks := { alg := .aes128, key := zeros 16 }
  iv := if m = .ecb then [] else zeros 16
  counterBits := 32
  tagLen := 4
  acc := zeros 16
  hashKey := zeros 16
  ctr0 := zeros 16

/-- The operands of an INIT or ATOMIC of a mode under AES128 that passes every check. -/
def initArgs (m : Mode) (n cap : Nat) : Operands where
  key := zeros 16
  iv :=
    match m with
    | .ccm => zeros 7
    | .gcm => zeros 12
    | .gmac => zeros 12
    | _ => zeros 16
  counterBits := 32
  tagLen := 4
  inView := [{ base := 0, len := n }]
  outView := [{ base := 100, len := cap }]
  draws := { handle := 3 }

/-- The state after reset with an INIT or ATOMIC being issued. -/
def initState (o : Operands) : State := { State.reset with args := o }

/-- The statuses and sizes reported. -/
def reported : Result → List (Status × Nat)
  | .next t => t.reports.map fun r => (r.status, r.size)
  | _ => []

/-- Whether an outcome is a next state with a property. -/
def holds (r : Result) (p : State → Bool) : Bool :=
  match r with
  | .next t => p t
  | _ => false

/-- The refusal of an outcome. -/
def refusal : Result → Option Refusal
  | .refused r => some r
  | _ => none

/-- Whether a handle is ABSENT afterwards. -/
def absentAfter (h : Handle) : Result → Bool
  | .next t => (t.lookup h).isNone
  | _ => false

/-! ### Statuses, from the corner cases of 95_test_vectors.md -/

/-- 2.1. -/
theorem test_atomicEcb_corners :
    reported (exec (.atomicEcbEnc .aes128) (initState (initArgs .ecb 15 64))) = [(.dataLenRange, 0)] ∧
    reported (exec (.atomicEcbDec .aes128) (initState (initArgs .ecb 17 64))) = [(.encryptedDataLenRange, 0)] ∧
    reported (exec (.atomicEcbEnc .aes128) (initState (initArgs .ecb 32 31))) = [(.bufferTooSmall, 32)] ∧
    reported (exec (.atomicEcbEnc .aes128) (initState (initArgs .ecb 0 0))) = [(.success, 0)] := by decide +kernel

/-- 2.2 and 2.4: the parameter checks of CBC and CTR. -/
theorem test_init_params :
    reported (exec (.initCbcEnc .aes128) (initState { initArgs .cbc 0 0 with iv := zeros 15 })) =
      [(.mechanismParamInvalid, 0)] ∧
    reported (exec (.initCtrEnc .aes128) (initState { initArgs .ctr 0 0 with counterBits := 0 })) =
      [(.mechanismParamInvalid, 0)] ∧
    reported (exec (.initCtrEnc .aes128) (initState { initArgs .ctr 0 0 with counterBits := 129 })) =
      [(.mechanismParamInvalid, 0)] ∧
    reported (exec (.initCtrEnc .aes128) (initState { initArgs .ctr 0 0 with counterBits := 128 })) = [(.success, 0)] ∧
    reported (exec (.initCtrEnc .des)
      (initState { initArgs .ctr 0 0 with key := zeros 8, keyType := 1, iv := zeros 8, counterBits := 64 })) =
        [(.success, 0)] := by decide +kernel

/-- 2.6 and 2.8: the parameter checks of CCM and GCM. -/
theorem test_init_aeadParams :
    reported (exec (.initCcmEnc .aes128) (initState { initArgs .ccm 0 0 with tagLen := 5 })) =
      [(.mechanismParamInvalid, 0)] ∧
    reported (exec (.initCcmEnc .aes128) (initState { initArgs .ccm 0 0 with iv := zeros 6 })) =
      [(.mechanismParamInvalid, 0)] ∧
    reported (exec (.initCcmEnc .aes128) (initState { initArgs .ccm 0 0 with iv := zeros 13, dataLen := 65536 })) =
      [(.mechanismParamInvalid, 0)] ∧
    paramsOk .ccm .aes128 { initArgs .ccm 0 0 with iv := zeros 13, dataLen := 65535 } = true ∧
    reported (exec (.initGcmEnc .aes128) (initState { initArgs .gcm 0 0 with tagLen := 11 })) =
      [(.mechanismParamInvalid, 0)] ∧
    reported (exec (.initGcmEnc .aes128) (initState { initArgs .gcm 0 0 with iv := [] })) =
      [(.mechanismParamInvalid, 0)] ∧
    reported (exec (.initGcmEnc .tdes) (initState (initArgs .gcm 0 0))) = [(.mechanismInvalid, 0)] := by decide +kernel

/-- 2.10: the order of INIT's checks. -/
theorem test_init_order :
    reported (exec (.initEcbEnc .aes128) (initState { initArgs .ecb 0 0 with keyType := 1 })) =
      [(.keyTypeInconsistent, 0)] ∧
    reported (exec (.initEcbEnc .aes256) (initState (initArgs .ecb 0 0))) = [(.keySizeRange, 0)] ∧
    reported (exec (.initEcbEnc .aes128) (initState { initArgs .ecb 0 0 with keyType := 1, key := zeros 15 })) =
      [(.keyTypeInconsistent, 0)] ∧
    reported (exec (.initCcmEnc .des) (initState { initArgs .ccm 0 0 with key := zeros 5 })) = [(.mechanismInvalid, 0)] ∧
    reported (exec (.initCbcEnc .aes128) (initState { initArgs .cbc 0 0 with key := zeros 15, iv := zeros 3 })) =
      [(.keySizeRange, 0)] ∧
    reported (exec (.initEcbEnc .aes128) (initState { initArgs .ecb 0 0 with iv := zeros 3, tagLen := 5 })) =
      [(.success, 0)] := by decide +kernel

/-- 2.10 and 60 R556: INIT returns the handle drawn, and it is ACTIVE. -/
theorem test_init_handle :
    holds (exec (.initCbcDec .aes128) (initState (initArgs .cbc 0 0))) (fun t =>
      decide (t.reports.map Report.handle = [some 3] ∧ (t.lookup 3).isSome = true ∧ t.known = [3])) = true := by
  decide +kernel

/-- 2.1 and 2.2: FINAL with a residue. -/
theorem test_finalBlocks_residue :
    reported (exec (.finalEcbEnc .aes128) (liveState { someContext .ecb .enc with residue := zeros 4 } 0 64)) =
      [(.dataLenRange, 0)] ∧
    reported (exec (.finalCbcDec .aes128) (liveState { someContext .cbc .dec with residue := zeros 4 } 0 64)) =
      [(.encryptedDataLenRange, 0)] ∧
    absentAfter 7 (exec (.finalCbcDec .aes128) (liveState { someContext .cbc .dec with residue := zeros 4 } 0 64))
        = true := by
  decide +kernel

/-- Program 3: FINAL.CBC_PAD.DEC of a held block with pad byte 15. -/
theorem test_finalCbcPadDec_program :
    let c : Context := { someContext .cbcPad .dec with heldValid := true, lastBlock := 0xae :: List.replicate 15 15 }
    reported (exec (.finalCbcPadDec .aes128) (liveState c 0 0)) = [(.bufferTooSmall, 1)] ∧
    absentAfter 7 (exec (.finalCbcPadDec .aes128) (liveState c 0 0)) = false ∧
    holds (exec (.finalCbcPadDec .aes128) (liveState c 0 1)) (fun t =>
      decide (t.reports.map Report.output = [[0xae]] ∧ Memory.read t.mem 100 = 0xae ∧ t.lookup 7 = none)) = true := by
  decide +kernel

/-- 2.5: FINAL.CBC_PAD with no block held, and with too little capacity. -/
theorem test_finalCbcPad_corners :
    reported (exec (.finalCbcPadDec .aes128) (liveState (someContext .cbcPad .dec) 0 64)) =
      [(.encryptedDataLenRange, 0)] ∧
    reported (exec (.finalCbcPadEnc .aes128) (liveState (someContext .cbcPad .enc) 0 15)) = [(.bufferTooSmall, 16)] := by
  decide +kernel

/-- 2.3: UPDATE.CFB with too little capacity changes nothing, and FINAL.CFB discards the cache. -/
theorem test_cfb_corners :
    reported (exec (.updateCfbEnc .aes128) (liveState (someContext .cfb .enc) 7 6)) = [(.bufferTooSmall, 7)] ∧
    reported (exec (.finalCfbEnc .aes128)
      (liveState { someContext .cfb .enc with lbPad := 3, lastBlock := zeros 16 } 0 0)) = [(.success, 0)] := by
  decide +kernel

/-- 2.6: the length limits of CCM. -/
theorem test_ccm_lengths :
    reported (exec (.atomicCcmEnc .aes128) (initState { initArgs .ccm 33 64 with dataLen := 32 })) = [(.dataLenRange,
        0)] ∧
    reported (exec (.atomicCcmEnc .aes128) (initState { initArgs .ccm 20 64 with dataLen := 32 })) = [(.dataLenRange,
        0)] ∧
    reported (exec (.atomicCcmDec .aes128) (initState { initArgs .ccm 37 64 with dataLen := 32 })) = [(.dataLenRange,
        0)] ∧
    reported (exec (.atomicCcmDec .aes128) (initState { initArgs .ccm 35 64 with dataLen := 32 })) =
      [(.encryptedDataLenRange, 0)] ∧
    reported (exec (.finalCcmEnc .aes128)
      (liveState { someContext .ccm .enc with dataLen := 32, processedDataLen := 20, residue := zeros 4 } 0 64)) =
        [(.dataLenRange, 0)] ∧
    reported (exec (.updateCcmDec .aes128) (liveState { someContext .ccm .dec with dataLen := 32 } 37 0)) =
      [(.dataLenRange, 0)] ∧
    reported (exec (.updateCcmDec .aes128) (liveState { someContext .ccm .dec with dataLen := 32 } 36 0)) =
      [(.success, 0)] := by decide +kernel

/-- 2.8: the length limits of GCM decryption and its capacity. -/
theorem test_gcm_lengths :
    reported (exec (.atomicGcmDec .aes128) (initState (initArgs .gcm 3 64))) = [(.encryptedDataLenRange, 0)] ∧
    reported (exec (.atomicGcmDec .aes128) (initState (initArgs .gcm 64 59))) = [(.bufferTooSmall, 60)] ∧
    reported (exec (.atomicGcmEnc .aes128) (initState (initArgs .gcm 60 63))) = [(.bufferTooSmall,
        64)] := by decide +kernel

/-- 2.9: the data limits of GMAC. -/
theorem test_gmac_lengths :
    reported (exec (.atomicGmacEnc .aes128) (initState (initArgs .gmac 1 64))) = [(.unsupported, 0)] ∧
    reported (exec (.atomicGmacDec .aes128) (initState (initArgs .gmac 5 0))) = [(.unsupported, 0)] ∧
    reported (exec (.atomicGmacDec .aes128) (initState (initArgs .gmac 3 0))) = [(.encryptedDataLenRange, 0)] ∧
    reported (exec (.updateGmacEnc .aes128) (liveState (someContext .gmac .enc) 0 0)) = [(.success, 0)] ∧
    reported (exec (.updateGmacEnc .aes128) (liveState (someContext .gmac .enc) 1 0)) = [(.unsupported, 0)] := by
  decide +kernel

/-- 2.10: reserved words, and a word that differs from the context. -/
theorem test_dispatch :
    reported (issueCommand 0x80000013#32 {} State.reset) = [(.mechanismInvalid, 0)] ∧
    reported (exec (.updateCbcDec .aes128) (liveState (someContext .cbc .enc) 16 16)) = [(.mechanismInvalid, 0)] ∧
    absentAfter 7 (exec (.updateCbcDec .aes128) (liveState (someContext .cbc .enc) 16 16)) = true := by decide +kernel

/-- 2.10 and program 4: ABORT of an ACTIVE handle has no effect; ABORT of an UPDATE in flight gives CANCELED and rolls back. -/
theorem test_abort :
    reported (exec .abort (liveState (someContext .ctr .enc) 32 32)) = [(.success, 0)] ∧
    holds (exec (.updateCtrEnc .aes128) (liveState (someContext .ctr .enc) 32 32)) (fun t =>
      holds (exec .abort { t with args := { handle := 7 } }) fun u =>
        decide (u.reports.map Report.status = [.canceled, .success] ∧
          u.lookup 7 = some (.active (someContext .ctr .enc)))) = true := by decide +kernel

/-- 40 R172: a command of three blocks under a MAX_XFER of 32 bytes takes two jobs. -/
theorem test_jobs : splitJobs 2 3 = [2, 1] ∧ splitCtrJobs 8 8 (zeros 15 ++ [0xfe]) 4 = [2, 2] := by decide +kernel

/-- 60 R555: once a job of a context has completed an earlier one does not; one of another context still does. -/
theorem test_completion_order :
    let s : State :=
      { State.reset with
        jobs := [{ id := 0, handle := 7, context := 0, blocks := 1, cancelled := true },
          { id := 1, handle := 8, context := 1, blocks := 1, cancelled := true },
          { id := 2, handle := 7, context := 0, blocks := 1, cancelled := true }] }
    holds (completeJob 2 .ok s) (fun t =>
      decide (refusal (completeJob 0 .ok t) = some (.noSuchJob 0)) && holds (completeJob 1 .ok t) fun u =>
        decide (u.jobs = [])) = true ∧
    holds (completeJob 0 .ok s) (fun t => holds (completeJob 2 .ok t) fun _ => true) = true := by decide +kernel

/-- 30 R130, 95_test_vectors.md section 2.6: RUN.CCM.ENC of 20 of 32 declared bytes emits 16 bytes, and its FINAL gives
DATA_LEN_RANGE; of a failing INIT it emits nothing. -/
theorem test_run_emits_before_error :
    let c : Context := { someContext .ccm .enc with dataLen := 32 }
    (c.run [zeros 20]).1.length = 16 ∧ (c.run [zeros 20]).2 = .dataLenRange ∧
    State.reset.run .ccm .enc .aes128 [zeros 20] = ([], .keySizeRange) := by
  intro c
  have hc : c.Ok := by constructor <;> decide
  have hu : c.update (zeros 20) = .ok (ccmEncUpdate Prim.external c (zeros 20)) := rfl
  have hr : c.run [zeros 20] = ((ccmEncUpdate Prim.external c (zeros 20)).1, .dataLenRange) := by
    rw [Context.run_single]
    rfl
  rw [hr]
  exact ⟨(Context.update_spec hc hu).1.trans (by decide), rfl, rfl⟩

/-- The host's word as the first instruction after reset: INIT runs, UPDATE is refused (70 R583). -/
theorem test_withFetchWord :
    reported (step (State.reset.withFetchWord 32 0x000)) = [(.keySizeRange, 0)] ∧
    refusal (step (State.reset.withFetchWord 32 0x001)) = some (.unknownHandle 0) := by decide +kernel


/-! ### Witnesses: states and operands that meet the hypotheses of each statement -/

theorem live_views (c : Context) (n cap : Nat) (hn : n ≤ 100) (v : View) (hv : v = [] ∨ v = [{ base := 0, len := n }]) :
    (liveState c n cap).viewRefusal v (useArgs n cap).outView = none := by
  have h : View.overlaps v (useArgs n cap).outView = false := by
    rcases hv with rfl | rfl
    · rfl
    · simp only [View.overlaps, useArgs, List.any_cons, List.any_nil, Bool.or_false, ByteRange.overlaps,
        Bool.and_eq_false_iff, decide_eq_false_iff_not]
      exact .inr (by omega)
  simp [State.viewRefusal, View.inPlaceOk, h, State.viewsClash, liveState]

/-- UPDATE may run on a live state. -/
theorem live_ready (c : Context) (n cap : Nat) (hn : n ≤ 100) :
    Ready (liveState c n cap) (liveState c n cap).args.inView c c.mode c.dir c.alg :=
  ⟨rfl, rfl, rfl, rfl, live_views c n cap hn _ (.inr rfl)⟩

/-- FINAL may run on a live state. -/
theorem live_readyFinal (c : Context) (n cap : Nat) (hn : n ≤ 100) :
    Ready (liveState c n cap) [] c c.mode c.dir c.alg :=
  ⟨rfl, rfl, rfl, rfl, live_views c n cap hn _ (.inl rfl)⟩

theorem some_ok (m : Mode) (d : Dir) : (someContext m d).Ok := by
  constructor <;> (cases m <;> cases d <;> decide)

/-- INIT's checks pass for every mode under AES128. -/
theorem init_ready (m : Mode) (n cap : Nat) : InitReady (initState (initArgs m n cap)) m .aes128 3 := by
  constructor <;> (cases m <;> rfl)

theorem init_views (m : Mode) (n cap : Nat) (hn : n ≤ 100) :
    (initState (initArgs m n cap)).viewRefusal (initArgs m n cap).inView (initArgs m n cap).outView = none := by
  have h : View.overlaps (initArgs m n cap).inView (initArgs m n cap).outView = false := by
    simp only [View.overlaps, initArgs, List.any_cons, List.any_nil, Bool.or_false, ByteRange.overlaps,
      Bool.and_eq_false_iff, decide_eq_false_iff_not]
    exact .inr (by omega)
  simp [State.viewRefusal, View.inPlaceOk, h, State.viewsClash, initState, State.reset]

theorem live_input (c : Context) (n cap : Nat) : (liveState c n cap).input.length = n := by
  simp [State.input, State.readView, View.addrs, liveState, useArgs]

theorem init_input (m : Mode) (n cap : Nat) : (initState (initArgs m n cap)).input.length = n := by
  simp [State.input, State.readView, View.addrs, initState, initArgs]

theorem live_cap (c : Context) (n cap : Nat) : (liveState c n cap).cap = cap := by
  simp [State.cap, View.size, liveState, useArgs]

theorem init_cap (m : Mode) (n cap : Nat) : (initState (initArgs m n cap)).cap = cap := by
  simp [State.cap, View.size, initState, initArgs]

/-- The invariant holds of a live state whose context is consistent. -/
theorem live_inv (c : Context) (n cap : Nat) (hc : c.Ok) : (liveState c n cap).Inv := by
  constructor
  case slots_ok => intro e he; simp [liveState] at he; subst he; exact hc
  case current_job =>
    intro h f j hl
    by_cases e : 7 = h <;> simp [State.lookup, liveState, Assoc.get, e] at hl
  case views_apart =>
    intro h k f g _ hf
    by_cases e : 7 = h <;> simp [State.lookup, liveState, Assoc.get, e] at hf
  case config_ok => show configValid resetConfig = true; decide
  case mem_wf => exact ⟨List.Pairwise.nil, by simp [liveState, State.reset]⟩
  case table_known => simp [liveState]
  all_goals first | decide | simp [liveState, State.reset, resetConfig, Slot.reportOk]

/-- A state in which UPDATE.ECB.ENC.AES128 is in flight on handle 7: its one job not yet submitted (`current` none), or
submitted as job 0. -/
def busyState (current : Option Nat) (cancelled : Bool) (events : List Event) : State :=
  { State.reset with
    config := { resetConfig with primErrors := [12] }
    table :=
      if cancelled then []
      else
        [(7, .busy
          { id := 0, command := .updateEcbEnc .aes128, snapshot := some (someContext .ecb .enc)
            inView := [{ base := 0, len := 16 }], outView := [{ base := 100, len := 16 }]
            jobsLeft := if current = none then [1] else [], current := current, jobsDone := 0
            commit := .keep (someContext .ecb .enc) (zeros 16) })]
    known := [7]
    jobs := if current = none then [] else [{ id := 0, handle := 7, context := 0, blocks := 1, cancelled := cancelled }]
    nextJob := if current = none then 0 else 1
    args := { handle := 7 }
    events := events
    issued := 1 }

theorem busy_inv (current : Option Nat) (hcur : current = none ∨ current = some 0) (cancelled : Bool)
    (events : List Event) : (busyState current cancelled events).Inv := by
  constructor
  case slots_ok =>
    intro e he
    cases cancelled <;> simp [busyState] at he
    subst he
    refine ⟨?_, ?_, ?_, Nat.one_pos, ?_⟩
    · rintro c ⟨⟩; exact some_ok _ _
    · rintro c ⟨⟩; exact some_ok _ _
    · rintro c c' ⟨⟩ ⟨⟩; constructor <;> rfl
    · rintro ⟨⟩; decide
  case current_job =>
    intro h f j hl hj
    cases cancelled
    · by_cases e : 7 = h
      · simp [State.lookup, busyState, Assoc.get, e] at hl
        subst hl
        rcases hcur with rfl | rfl <;> simp at hj
        subst hj
        exact ⟨_, List.mem_singleton.2 rfl, rfl, e, rfl⟩
      · simp [State.lookup, busyState, Assoc.get, e] at hl
    · simp [State.lookup, busyState, Assoc.get] at hl
  case live_job =>
    intro job hj hc
    rcases hcur with rfl | rfl <;> simp [busyState] at hj
    subst hj
    cases cancelled <;> simp at hc
    exact ⟨_, rfl, rfl, rfl⟩
  case views_apart =>
    intro h k f g hne hf hg
    cases cancelled
    · by_cases e : 7 = h
      · simp [State.lookup, busyState, Assoc.get, show 7 ≠ k from fun e' => hne (e.symm.trans e')] at hg
      · simp [State.lookup, busyState, Assoc.get, e] at hf
    · simp [State.lookup, busyState, Assoc.get] at hf
  case config_ok => show configValid { resetConfig with primErrors := [12] } = true; decide
  case mem_wf => exact ⟨List.Pairwise.nil, by simp [busyState, State.reset]⟩
  case room => intro n hn; cases hn
  case reports_ok => intro r hr; cases hr
  case commits_ok =>
    intro e he
    cases cancelled <;> simp [busyState] at he
    subst he
    intro h; exact absurd rfl h
  all_goals cases cancelled <;> rcases hcur with rfl | rfl <;> simp [busyState]

/-- The same with its job not yet submitted, and `n` jobs of cancelled commands on the same context still in the Block
Primitive. -/
def staleState (n : Nat) (events : List Event) : State :=
  { busyState none false events with
    jobs := (List.range n).map fun k => { id := k, handle := 7, context := 0, blocks := 1, cancelled := true }
    nextJob := n }

theorem stale_inv (n : Nat) (events : List Event) : (staleState n events).Inv := by
  have hi := busy_inv none (.inl rfl) false events
  refine
    { table_sorted := hi.table_sorted, mem_wf := hi.mem_wf, known_nodup := hi.known_nodup, table_known := hi.table_known
      slots_ok := hi.slots_ok, job_ids := ?_, jobs_before := ?_, current_job := ?_, live_job := ?_
      views_apart := hi.views_apart, room := hi.room, config_ok := hi.config_ok, fresh := hi.fresh
      reports_ok := hi.reports_ok, commits_ok := hi.commits_ok }
  · exact List.pairwise_map.mpr List.pairwise_lt_range
  · intro j hj
    obtain ⟨k, hk, rfl⟩ := List.mem_map.mp hj
    exact List.mem_range.mp hk
  · intro h f j hf hc
    obtain ⟨job, hj, -⟩ := hi.current_job h f j hf hc
    simp [busyState] at hj
  · intro job hj hc
    obtain ⟨k, -, rfl⟩ := List.mem_map.mp hj
    cases hc

/-- A state no run reaches: a command waits for job 0 while a cancelled job 1 of its context is in the Block Primitive. -/
def waitState : State :=
  { busyState (some 0) false [] with
    jobs := [{ id := 0, handle := 7, context := 0, blocks := 1, cancelled := false },
      { id := 1, handle := 7, context := 0, blocks := 1, cancelled := true }]
    nextJob := 2 }

theorem wait_inv : waitState.Inv := by
  have hi := busy_inv (some 0) (.inr rfl) false []
  refine
    { table_sorted := hi.table_sorted, mem_wf := hi.mem_wf, known_nodup := hi.known_nodup, table_known := hi.table_known
      slots_ok := hi.slots_ok, job_ids := by simp [waitState], jobs_before := by simp [waitState], current_job := ?_
      live_job := ?_, views_apart := hi.views_apart, room := hi.room, config_ok := hi.config_ok, fresh := hi.fresh
      reports_ok := hi.reports_ok, commits_ok := hi.commits_ok }
  · intro h f j hf hc
    obtain ⟨job, hj, h1⟩ := hi.current_job h f j hf hc
    exact ⟨job, List.mem_cons.mpr (.inl (List.mem_singleton.mp hj)), h1⟩
  · intro job hj hc
    rcases List.mem_cons.mp hj with rfl | hj
    · exact ⟨_, rfl, rfl, rfl⟩
    · rw [List.mem_singleton.mp hj] at hc
      cases hc

theorem witness_WordCheckedAgainstContext :
    (∃ w : CommandWord, decode w = none) ∧
    (∃ (s : State) (op : Op), (op = .update ∨ op = .final) ∧ ∀ c, s.lookup s.args.handle ≠ some (.active c)) ∧
    (∀ op : Op, op = .update ∨ op = .final → ∃ (s : State) (c : Context), s.lookup s.args.handle = some (.active c) ∧
      s.viewRefusal (if op = .update then s.args.inView else []) s.args.outView = none ∧
      ¬(c.mode = .ecb ∧ c.dir = .dec ∧ c.alg = .aes128)) := by
  refine ⟨⟨0x005, by decide⟩, ⟨State.reset, .update, .inl rfl, by simp [State.lookup, State.reset, Assoc.get]⟩, ?_⟩
  rintro op (rfl | rfl)
  · exact ⟨_, _, rfl, (live_ready (someContext .ecb .enc) 16 16 (by decide)).views, by decide⟩
  · exact ⟨_, _, rfl, (live_readyFinal (someContext .ecb .enc) 16 16 (by decide)).views, by decide⟩

theorem witness_StepRunsDecodedCommand :
    (∃ (s : State) (w : CommandWord) (args : Operands) (rest : List Event) (i : Instr),
      s.events = .issue w args :: rest ∧ decode w = some i) ∧
    (∃ (nbits w : Nat) (i : Instr), decodeTableWord nbits w = some i) ∧
    (∃ s : State, s.events = [] ∧ s.anyBusy = false) ∧ (∃ s : State, s.events = [] ∧ s.anyBusy = true) :=
  ⟨⟨{ State.reset with events := [.issue 0x004 {}] }, _, _, _, .abort, rfl, by decide⟩, ⟨32, 0x004, .abort, by decide⟩,
    ⟨State.reset, rfl, rfl⟩, ⟨busyState none false [], rfl, rfl⟩⟩

theorem witness_ResetAndFirstCommand : ∃ o : Operands, View.inPlaceOk o.inView o.outView = true :=
  ⟨initArgs .ecb 16 16, by decide⟩

theorem witness_StepKeepsInvariant :
    (∃ s t : State, s.Inv ∧ step s = .next t) ∧
    (∃ s t : State, s.Inv ∧ step s = .next t ∧ s.anyBusy = true ∧ t.anyBusy = false) :=
  ⟨⟨_, _, live_inv _ 16 16 (some_ok .ctr .enc), rfl⟩,
    ⟨_, _, busy_inv (some 0) (.inr rfl) false [.complete 0 .ok], rfl, rfl, rfl⟩⟩

theorem witness_ConfigurationFixedByFirstCommand :
    (∃ (s : State) (cfg : HostConfig) (rest : List Event), s.events = .configure cfg :: rest ∧ s.issued = 0 ∧
      configValid cfg = true ∧ cfg.maxXfer = 16) ∧
    (∃ s t : State, step s = .next t ∧ 0 < s.issued) ∧ (∃ s t : State, step s = .next t ∧ s.issued < t.issued) :=
  ⟨⟨{ State.reset with events := [.configure { resetConfig with maxXfer := 16, primErrors := [12] }] }, _, _, rfl, rfl, by decide, rfl⟩,
    ⟨busyState none false [.submit 7], _, rfl, by decide⟩,
    ⟨busyState none false [.issue 0x004 { handle := 7 }], _, rfl, by decide⟩⟩

theorem witness_ReadOnlyFieldsKept :
    (∃ (s t : State) (h : Handle) (c c' : Context), s.Inv ∧ step s = .next t ∧ t.lookup h = some (.active c') ∧
      s.lookup h = some (.active c)) ∧
    (∃ (s t : State) (h : Handle) (f : InFlight) (c c' : Context), s.Inv ∧ step s = .next t ∧
      t.lookup h = some (.active c') ∧ s.lookup h = some (.busy f) ∧ f.snapshot = some c) :=
  ⟨⟨_, _, 7, _, _, live_inv _ 16 16 (some_ok .ctr .enc), rfl, rfl, rfl⟩,
    ⟨_, _, 7, _, _, _, busy_inv (some 0) (.inr rfl) false [.complete 0 .ok], rfl, rfl, rfl, rfl⟩⟩

theorem witness_OtherContextsUnchanged :
    ∃ (s t : State) (e : Event) (rest : List Event) (h : Handle) (x : Slot), s.events = e :: rest ∧ step s = .next t ∧
      s.addressed e ≠ some h ∧ s.lookup h = some x :=
  ⟨busyState none false [.issue 0x005 {}], _, _, _, 7, _, rfl, rfl, by decide, rfl⟩

theorem witness_OutcomeDependsOnlyOnOwnContext : ∀ op : Op, op = .update ∨ op = .final →
    ∃ (s₁ s₂ t₁ : State) (c : Context), s₁.table ≠ s₂.table ∧
      s₁.args = s₂.args ∧ s₁.config = s₂.config ∧ s₁.issued = s₂.issued ∧ s₁.input = s₂.input ∧
      s₁.lookup s₁.args.handle = some (.active c) ∧ s₂.lookup s₂.args.handle = some (.active c) ∧
      s₁.viewRefusal (if op = .update then s₁.args.inView else []) s₁.args.outView = none ∧
      s₂.viewRefusal (if op = .update then s₂.args.inView else []) s₂.args.outView = none ∧
      exec (instrOf op .cfb .enc .aes128) s₁ = .next t₁ := by
  let c := someContext .cfb .enc
  let s₁ := liveState c 16 16
  let s₂ := { s₁ with table := [(7, .active c), (9, .active c)] }
  have h : s₁.table ≠ s₂.table := fun e => absurd (congrArg List.length e) (by decide)
  rintro op (rfl | rfl)
  · exact ⟨s₁, s₂, _, c, h, rfl, rfl, rfl, rfl, rfl, rfl, rfl, rfl, rfl⟩
  · exact ⟨s₁, s₂, _, c, h, rfl, rfl, rfl, rfl, rfl, rfl, rfl, rfl, rfl⟩

theorem witness_MemoryFrame :
    (∃ (s t : State) (i : Instr) (addr : Nat), exec i s = .next t ∧ i ≠ .abort ∧ addr ∉ View.addrs s.args.outView ∧
      t.mem ≠ s.mem) ∧
    (∃ (s t : State) (addr : Nat), exec .abort s = .next t ∧
      ∀ f, s.lookup s.args.handle = some (.busy f) → addr ∉ View.addrs f.outView) ∧
    (∃ (s t : State) (m : Mode) (d : Dir) (a : Alg), exec (instrOf .init m d a) s = .next t) ∧
    (∃ (s t : State) (h : Handle), submitJob h s = .next t) ∧
    (∃ (s t : State) (n : Nat) (r : JobResult) (addr : Nat), completeJob n r s = .next t ∧
      ∀ job f, job ∈ s.jobs → job.id = n → s.lookup job.handle = some (.busy f) → addr ∉ View.addrs f.outView) := by
  refine ⟨⟨liveState { someContext .cfb .enc with lbPad := 1, lastBlock := zeros 15 ++ [1] } 1 1, _,
      .updateCfbEnc .aes128,
      99, rfl, by simp, by decide, by decide⟩, ⟨busyState none false [], _, 116, rfl, ?_⟩,
    ⟨initState (initArgs .cbc 0 0), _, .cbc, .enc, .aes128, rfl⟩, ⟨busyState none false [], _, 7, rfl⟩,
    ⟨busyState (some 0) false [], _, 0, .ok, 116, rfl, ?_⟩⟩
  · rintro f ⟨⟩; decide
  · intro job f hj _ hl
    obtain rfl := List.mem_singleton.1 hj
    obtain rfl : _ = f := by simpa [State.lookup, busyState, Assoc.get] using hl
    decide

/-- A command of one output byte into a view of one byte, and one that fills the view. -/
theorem witness_OutputReadsBack :
    ∃ (s u : State) (e : Effect), After s e u ∧ (View.addrs s.args.outView).Nodup ∧ e.output.length = s.cap ∧
      e.output ≠ [] := by
  let s := initState (initArgs .ecb 1 2)
  let e : Effect := { handle := 7, ctx := none, status := .success, size := 2, output := [1, 2] }
  refine ⟨s,
    { s with
      mem := Memory.writeAll s.mem (View.addrs s.args.outView) [1, 2], args := {}, issued := 1
      reports := [{ id := 0, status := .success, size := 2, handle := none, output := [1, 2] }] }, e, ?_, by decide,
    by decide, by decide⟩
  constructor <;> first | rfl | exact fun _ _ => rfl | simp [s, e, initState, State.reset]

theorem witness_InitChecksInOrder :
    let ok (s : State) (op : Op) : Prop := op = .init ∨ (op = .atomic ∧ s.viewRefusal s.args.inView s.args.outView = none)
    let supported (s : State) (m : Mode) (a : Alg) : Prop :=
      (aeadMode m = true → blockSize a = 16) ∧ (a, m) ∉ s.config.unsupported
    let room (s : State) : Prop :=
      s.args.draws.contextOk = true ∧ ∀ n, s.config.maxContexts = some n → s.table.length < n
    ∀ op : Op, op = .init ∨ op = .atomic →
      (∃ s, ok s op ∧ ¬supported s .gcm .tdes) ∧
      (∃ s, ok s op ∧ ¬supported s .ecb .aes128) ∧
      (∃ s, ok s op ∧ supported s .ecb .aes128 ∧ s.args.keyType ≠ keyTypeOf .aes128) ∧
      (∃ s, ok s op ∧ supported s .ecb .aes128 ∧ s.args.keyType = keyTypeOf .aes128 ∧ s.args.key.length = 15 ∧
        s.args.key.length ≠ keyLen .aes128) ∧
      (∃ s, ok s op ∧ supported s .cbc .aes128 ∧ s.args.keyType = keyTypeOf .aes128 ∧
        s.args.key.length = keyLen .aes128 ∧ paramsOk .cbc .aes128 s.args = false) ∧
      (∃ s, ok s op ∧ supported s .cbc .aes128 ∧ s.args.keyType = keyTypeOf .aes128 ∧
        s.args.key.length = keyLen .aes128 ∧ paramsOk .cbc .aes128 s.args = true ∧ s.args.draws.contextOk = false ∧
        ¬room s) ∧
      (∃ s, ok s op ∧ supported s .cbc .aes128 ∧ s.args.keyType = keyTypeOf .aes128 ∧
        s.args.key.length = keyLen .aes128 ∧ paramsOk .cbc .aes128 s.args = true ∧ s.config.maxContexts = some 0 ∧
        ¬room s) := by
  intro ok supported room op hop
  have hok : ∀ (s : State), s.viewRefusal s.args.inView s.args.outView = none → ok s op := fun s h =>
    hop.imp id fun e => ⟨e, h⟩
  have sup : ∀ (s : State) (m : Mode) (a : Alg), (aeadMode m = true → blockSize a = 16) → s.config.unsupported = [] →
      supported s m a := fun s m a h hu => ⟨h, by simp [hu]⟩
  refine ⟨⟨initState (initArgs .gcm 0 0), hok _ rfl, fun h => absurd (h.1 rfl) (by decide)⟩,
    ⟨{ initState (initArgs .ecb 0 0) with config := { resetConfig with unsupported := [(.aes128, .ecb)] } }, hok _ rfl,
      fun h => h.2 (by simp)⟩,
    ⟨initState { initArgs .ecb 0 0 with keyType := 1 }, hok _ rfl, sup _ _ _ (fun _ => rfl) rfl, by decide⟩,
    ⟨initState { initArgs .ecb 0 0 with key := zeros 15 }, hok _ rfl, sup _ _ _ (fun _ => rfl) rfl, rfl, rfl, by decide⟩,
    ⟨initState { initArgs .cbc 0 0 with iv := zeros 15 }, hok _ rfl, sup _ _ _ (fun _ => rfl) rfl, rfl, rfl, rfl⟩,
    ⟨initState { initArgs .cbc 0 0 with draws := { contextOk := false } }, hok _ rfl, sup _ _ _ (fun _ => rfl) rfl, rfl,
      rfl, rfl, rfl, fun h => absurd h.1 (by decide)⟩,
    ⟨{ initState (initArgs .cbc 0 0) with config := { resetConfig with maxContexts := some 0 } }, hok _ rfl,
      sup _ _ _ (fun _ => rfl) rfl, rfl, rfl, rfl, rfl, fun h => absurd (h.2 0 rfl) (by decide)⟩⟩

theorem witness_InitWithoutJobs : ∀ m : Mode, aeadMode m = false → ∃ (s : State) (a : Alg) (h : Handle),
    InitReady s m a h :=
  fun m _ => ⟨_, _, _, init_ready m 0 0⟩

theorem witness_InitCcm :
    (∃ (s : State) (a : Alg) (h : Handle), InitReady s .ccm a h ∧ s.args.aad = []) ∧
    (∃ (s : State) (a : Alg) (h : Handle), InitReady s .ccm a h ∧ s.args.aad ≠ []) :=
  ⟨⟨_, _, _, init_ready .ccm 0 0, rfl⟩,
    ⟨initState { initArgs .ccm 0 0 with aad := [1] }, .aes128, 3, ⟨rfl, rfl, rfl, rfl, rfl, rfl, rfl⟩, by decide⟩⟩

theorem witness_InitGcmGmac : ∀ m : Mode, m = .gcm ∨ m = .gmac →
    (∃ (s : State) (a : Alg) (h : Handle), InitReady s m a h ∧ s.args.iv.length = 12) ∧
    (∃ (s : State) (a : Alg) (h : Handle), InitReady s m a h ∧ s.args.iv.length = 1) := by
  rintro m (rfl | rfl)
  · exact ⟨⟨_, _, _, init_ready .gcm 0 0, rfl⟩,
      ⟨initState { initArgs .gcm 0 0 with iv := [1] }, .aes128, 3, ⟨rfl, rfl, rfl, rfl, rfl, rfl, rfl⟩, rfl⟩⟩
  · exact ⟨⟨_, _, _, init_ready .gmac 0 0, rfl⟩,
      ⟨initState { initArgs .gmac 0 0 with iv := [1] }, .aes128, 3, ⟨rfl, rfl, rfl, rfl, rfl, rfl, rfl⟩, rfl⟩⟩

theorem witness_UpdateEcb : ∀ d : Dir,
    (∃ (s : State) (c : Context), Ready s s.args.inView c .ecb d .aes128 ∧ c.Ok ∧
      (c.residue ++ s.input).length / c.B * c.B = 16 ∧ s.cap = 16) ∧
    (∃ (s : State) (c : Context), Ready s s.args.inView c .ecb d .aes128 ∧ c.Ok ∧
      (c.residue ++ s.input).length / c.B * c.B = 0 ∧ s.cap = 0 ∧ s.input ≠ []) := by
  intro d
  exact ⟨⟨_, _, live_ready (someContext .ecb d) 31 16 (by decide), some_ok _ _, by cases d <;> decide, rfl⟩,
    ⟨_, _, live_ready (someContext .ecb d) 15 0 (by decide), some_ok _ _, by cases d <;> decide, rfl, nofun⟩⟩

theorem witness_UpdateCbc : ∀ (m : Mode) (d : Dir), m = .cbc ∨ (m = .cbcPad ∧ d = .enc) →
    (∃ (s : State) (c : Context), Ready s s.args.inView c m d .aes128 ∧ c.Ok ∧
      (c.residue ++ s.input).length / c.B * c.B = 16 ∧ s.cap = 16) ∧
    (∃ (s : State) (c : Context), Ready s s.args.inView c m d .aes128 ∧ c.Ok ∧
      (c.residue ++ s.input).length / c.B * c.B = 0 ∧ s.cap = 0) := by
  rintro m d h
  exact ⟨⟨_, _, live_ready (someContext m d) 16 16 (by decide), some_ok _ _, by cases m <;> cases d <;> decide, rfl⟩,
    ⟨_, _, live_ready (someContext m d) 15 0 (by decide), some_ok _ _, by cases m <;> cases d <;> decide, rfl⟩⟩

theorem witness_UpdateCbcPadDec :
    (∃ (s : State) (c : Context), Ready s s.args.inView c .cbcPad .dec .aes128 ∧ c.Ok ∧
      (c.residue ++ s.input).length = 15 ∧ (c.residue ++ s.input).length / c.B = 0) ∧
    (∃ (s : State) (c : Context), Ready s s.args.inView c .cbcPad .dec .aes128 ∧ c.Ok ∧
      (c.residue ++ s.input).length = 16 ∧ 0 < (c.residue ++ s.input).length / c.B ∧ c.heldValid = false ∧
      (if c.heldValid then c.lastBlock else []).length + ((c.residue ++ s.input).length / c.B - 1) * c.B = s.cap) ∧
    (∃ (s : State) (c : Context), Ready s s.args.inView c .cbcPad .dec .aes128 ∧ c.Ok ∧ c.heldValid = true ∧
      0 < (c.residue ++ s.input).length / c.B ∧
      (if c.heldValid then c.lastBlock else []).length + ((c.residue ++ s.input).length / c.B - 1) * c.B = s.cap) :=
  ⟨⟨_, _, live_ready (someContext .cbcPad .dec) 15 0 (by decide), some_ok _ _, by decide, by decide⟩,
    ⟨_, _, live_ready (someContext .cbcPad .dec) 16 0 (by decide), some_ok _ _, by decide, by decide, rfl, by decide⟩,
    ⟨_, _, live_ready { someContext .cbcPad .dec with heldValid := true, lastBlock := zeros 16 } 16 16 (by decide),
      by constructor <;> decide, rfl, by decide, by decide⟩⟩

/-- With no cache, and with a cache shorter than the input. -/
theorem witness_UpdateStream : ∀ (m : Mode) (d : Dir), m = .cfb ∨ m = .ctr →
    (∃ (s : State) (c : Context), Ready s s.args.inView c m d .aes128 ∧ c.Ok ∧ s.input.length = 17 ∧
      s.input.length ≤ s.cap ∧ c.lbPad = 0) ∧
    (∃ (s : State) (c : Context), Ready s s.args.inView c m d .aes128 ∧ c.Ok ∧ s.input.length = 17 ∧
      s.input.length ≤ s.cap ∧ c.lbPad = 15) := by
  rintro m d (rfl | rfl)
  · exact ⟨⟨_, _, live_ready (someContext .cfb d) 17 17 (by decide), some_ok _ _, by cases d <;> decide,
        by cases d <;> decide, rfl⟩,
      ⟨_, _, live_ready { someContext .cfb d with lbPad := 15, lastBlock := zeros 16 } 17 17 (by decide),
        by constructor <;> (cases d <;> decide), by cases d <;> decide, by cases d <;> decide, rfl⟩⟩
  · exact ⟨⟨_, _, live_ready (someContext .ctr d) 17 17 (by decide), some_ok _ _, by cases d <;> decide,
        by cases d <;> decide, rfl⟩,
      ⟨_, _, live_ready { someContext .ctr d with lbPad := 15, lastBlock := zeros 16 } 17 17 (by decide),
        by constructor <;> (cases d <;> decide), by cases d <;> decide, by cases d <;> decide, rfl⟩⟩

theorem witness_CachedKeystreamNeedsNoJob : ∀ (m : Mode) (d : Dir), m = .cfb ∨ m = .ctr →
    ∃ (s : State) (c : Context), Ready s s.args.inView c m d .aes128 ∧ c.Ok ∧ s.input.length = 15 ∧
      s.input.length ≤ s.cap ∧ s.input.length = c.lbPad := by
  rintro m d (rfl | rfl)
  · exact ⟨_, _, live_ready { someContext .cfb d with lbPad := 15, lastBlock := zeros 16 } 15 15 (by decide),
      by constructor <;> (cases d <;> decide), by cases d <;> decide, by cases d <;> decide, by cases d <;> decide⟩
  · exact ⟨_, _, live_ready { someContext .ctr d with lbPad := 15, lastBlock := zeros 16 } 15 15 (by decide),
      by constructor <;> (cases d <;> decide), by cases d <;> decide, by cases d <;> decide, by cases d <;> decide⟩

theorem witness_KeystreamCacheLength :
    (∃ (c : Context) (total : Nat), c.Ok ∧ (c.mode = .cfb ∨ c.mode = .ctr) ∧ c.lbPad = (c.B - total % c.B) % c.B ∧
      total = 0) ∧
    (∃ (c : Context) (total : Nat), c.Ok ∧ (c.mode = .cfb ∨ c.mode = .ctr) ∧ c.lbPad = (c.B - total % c.B) % c.B ∧
      total = 17) :=
  ⟨⟨someContext .cfb .enc, 0, some_ok _ _, .inl rfl, rfl, rfl⟩,
    ⟨{ someContext .ctr .dec with lbPad := 15, lastBlock := zeros 16 }, 17, by constructor <;> decide, .inr rfl, rfl,
      rfl⟩⟩

/-- Up to the declared length. -/
theorem witness_UpdateCcmEnc :
    ∃ (s : State) (c : Context), Ready s s.args.inView c .ccm .enc .aes128 ∧ c.Ok ∧
      c.processedDataLen + s.input.length = c.dataLen ∧ (c.residue ++ s.input).length / 16 * 16 = s.cap ∧ s.cap = 16 :=
  ⟨_, _, live_ready { someContext .ccm .enc with dataLen := 17 } 17 16 (by decide), by constructor <;> decide, by decide,
    by decide, rfl⟩

theorem witness_UpdateGcmEnc :
    ∃ (s : State) (c : Context), Ready s s.args.inView c .gcm .enc .aes128 ∧ c.Ok ∧
      (c.residue ++ s.input).length / 16 * 16 = s.cap ∧ s.cap = 16 :=
  ⟨_, _, live_ready (someContext .gcm .enc) 31 16 (by decide), some_ok _ _, by decide, rfl⟩

/-- Up to each mode's limit, with no capacity; and an empty input without a granted allocation. -/
theorem witness_UpdateAeadDec : ∀ m : Mode, aeadMode m = true →
    (∃ (s : State) (c : Context), Ready s s.args.inView c m .dec .aes128 ∧
      (m = .ccm → c.scratch.length + s.input.length = c.dataLen + c.tagLen) ∧
      (m = .gmac → c.scratch.length + s.input.length = c.tagLen) ∧ s.input ≠ [] ∧ s.args.draws.scratchOk = true) ∧
    (∃ (s : State) (c : Context), Ready s s.args.inView c m .dec .aes128 ∧
      (m = .ccm → c.scratch.length + s.input.length ≤ c.dataLen + c.tagLen) ∧
      (m = .gmac → c.scratch.length + s.input.length ≤ c.tagLen) ∧ s.input = [] ∧ s.args.draws.scratchOk = false) := by
  rintro m -
  refine ⟨⟨_, _, live_ready (someContext m .dec) 4 0 (by decide), fun _ => rfl, fun _ => rfl, nofun, rfl⟩,
    ⟨{ liveState (someContext m .dec) 0 0 with args := { useArgs 0 0 with draws := { scratchOk := false } } },
      someContext m .dec, ⟨rfl, rfl, rfl, rfl, rfl⟩, fun _ => Nat.zero_le _, fun _ => Nat.zero_le _, rfl, rfl⟩⟩

theorem witness_UpdateGmacEnc :
    (∃ (s : State) (c : Context), Ready s s.args.inView c .gmac .enc .aes128 ∧ s.input = []) ∧
    (∃ (s : State) (c : Context), Ready s s.args.inView c .gmac .enc .aes128 ∧ s.input ≠ []) :=
  ⟨⟨_, _, live_ready (someContext .gmac .enc) 0 0 (by decide), rfl⟩,
    ⟨_, _, live_ready (someContext .gmac .enc) 1 0 (by decide), by decide⟩⟩

/-- One byte past each limit, and one byte of capacity too little. -/
theorem witness_UpdatePreChecks :
    (∃ (s : State) (c : Context), Ready s s.args.inView c .ccm .enc .aes128 ∧ c.Ok ∧
      c.updateError s.input.length = some .dataLenRange ∧ s.input.length = c.dataLen + 1) ∧
    (∃ (s : State) (c : Context), Ready s s.args.inView c .ccm .dec .aes128 ∧ c.Ok ∧
      c.updateError s.input.length = some .dataLenRange ∧ s.input.length = c.dataLen + c.tagLen + 1) ∧
    (∃ (s : State) (c : Context), Ready s s.args.inView c .gmac .dec .aes128 ∧ c.Ok ∧
      c.updateError s.input.length = some .unsupported ∧ s.input.length = c.tagLen + 1) ∧
    (∃ (s : State) (c : Context), Ready s s.args.inView c .cbc .enc .aes128 ∧ c.Ok ∧
      c.updateError s.input.length = none ∧ c.updateNeed s.input.length = 16 ∧ s.cap = 15 ∧
      s.cap < c.updateNeed s.input.length) :=
  ⟨⟨_, _, live_ready (someContext .ccm .enc) 1 64 (by decide), some_ok _ _, by decide, by decide⟩,
    ⟨_, _, live_ready (someContext .ccm .dec) 5 64 (by decide), some_ok _ _, by decide, by decide⟩,
    ⟨_, _, live_ready (someContext .gmac .dec) 5 64 (by decide), some_ok _ _, by decide, by decide⟩,
    ⟨_, _, live_ready (someContext .cbc .enc) 16 15 (by decide), some_ok _ _, by decide, by decide, rfl, by decide⟩⟩

theorem witness_EmptyUpdateChangesNothing : ∀ (m : Mode) (d : Dir),
    (∃ (s : State) (c : Context), s.input = [] ∧ c.Ok ∧ s.lookup s.args.handle = some (.active c) ∧
      s.viewRefusal s.args.inView s.args.outView = none ∧ (c.mode = m ∧ c.dir = d ∧ c.alg = .aes128)) ∧
    (∃ (s : State) (c : Context), s.input = [] ∧ c.Ok ∧ s.lookup s.args.handle = some (.active c) ∧
      s.viewRefusal s.args.inView s.args.outView = none ∧ ¬(c.mode = m ∧ c.dir = d ∧ c.alg = .aes256)) := by
  intro m d
  have hr := live_ready (someContext m d) 0 0 (by decide)
  exact ⟨⟨_, _, rfl, some_ok m d, hr.active, hr.views, rfl, rfl, rfl⟩,
    ⟨_, _, rfl, some_ok m d, hr.active, hr.views, fun h => absurd h.2.2 (by show ¬Alg.aes128 = .aes256; decide)⟩⟩

theorem witness_ScratchAllocationFailure : ∀ m : Mode, aeadMode m = true →
    (∃ (s : State) (c : Context), Ready s s.args.inView c m .dec .aes128 ∧ c.updateError s.input.length = none ∧
      s.input ≠ [] ∧ s.args.draws.scratchOk = false) ∧
    (∃ (s : State) (h : Handle), InitReady s m .aes128 h ∧ s.viewRefusal s.args.inView s.args.outView = none ∧
      atomicError m .dec .aes128 s.args s.input.length = none ∧
      atomicNeed m .dec .aes128 s.args s.input.length = s.cap ∧ s.args.draws.scratchOk = false) := by
  rintro m hm
  refine ⟨⟨{ liveState (someContext m .dec) 4 0 with args := { useArgs 4 0 with draws := { scratchOk := false } } },
      someContext m .dec, ⟨rfl, rfl, rfl, rfl, rfl⟩, by cases m <;> decide, nofun, rfl⟩,
    ⟨initState { initArgs m 4 0 with draws := { handle := 3, scratchOk := false } }, 3, ?_, rfl,
      ?_, ?_, rfl⟩⟩
  · constructor <;> (cases m <;> rfl)
  all_goals cases m <;> first | exact absurd hm (by decide) | decide

theorem witness_FinalWithoutPadding : ∀ (m : Mode) (d : Dir),
    (∃ (s : State) (c : Context), Ready s [] c m d .aes128 ∧ c.residue = []) ∧
    (∃ (s : State) (c : Context), Ready s [] c m d .aes128 ∧ c.residue ≠ [] ∧ c.residue.length = 1) := by
  intro m d
  exact ⟨⟨_, _, live_readyFinal (someContext m d) 0 0 (by decide), rfl⟩,
    ⟨_, _, live_readyFinal { someContext m d with residue := [0] } 0 0 (by decide), nofun, rfl⟩⟩

/-- A residue of 0 and of 15 bytes. -/
theorem witness_FinalCbcPadEnc :
    (∃ (s : State) (c : Context), Ready s [] c .cbcPad .enc .aes128 ∧ c.Ok ∧ c.B = s.cap ∧ c.residue = []) ∧
    (∃ (s : State) (c : Context), Ready s [] c .cbcPad .enc .aes128 ∧ c.Ok ∧ c.B = s.cap ∧ c.residue.length = 15) :=
  ⟨⟨_, _, live_readyFinal (someContext .cbcPad .enc) 0 16 (by decide), some_ok _ _, rfl, rfl⟩,
    ⟨_, _, live_readyFinal { someContext .cbcPad .enc with residue := zeros 15 } 0 16 (by decide),
      by constructor <;> decide, rfl, rfl⟩⟩

/-- A context of CBC_PAD decryption that holds a block with pad byte `p`. -/
def heldContext (p : Byte) : Context :=
  { someContext .cbcPad .dec with heldValid := true, lastBlock := zeros 15 ++ [p] }

theorem witness_FinalCbcPadDec :
    (∃ (s : State) (c : Context), Ready s [] c .cbcPad .dec .aes128 ∧ ¬(c.residue = [] ∧ c.heldValid = true)) ∧
    (∀ p : Nat, p = 0 ∨ p = 17 → ∃ (s : State) (c : Context), Ready s [] c .cbcPad .dec .aes128 ∧
      (c.residue = [] ∧ c.heldValid = true) ∧ (c.lastBlock.getLastD 0).toNat = p ∧ (p < 1 ∨ c.B < p)) ∧
    (∀ p : Nat, p = 1 ∨ p = 15 → ∃ (s : State) (c : Context), Ready s [] c .cbcPad .dec .aes128 ∧
      (c.residue = [] ∧ c.heldValid = true) ∧ (c.lastBlock.getLastD 0).toNat = p ∧ 1 ≤ p ∧ p ≤ c.B ∧
      s.cap < c.B - p ∧ s.cap + 1 = c.B - p) ∧
    (∀ p : Nat, p = 1 ∨ p = 16 → ∃ (s : State) (c : Context), Ready s [] c .cbcPad .dec .aes128 ∧
      (c.residue = [] ∧ c.heldValid = true) ∧ (c.lastBlock.getLastD 0).toNat = p ∧ 1 ≤ p ∧ p ≤ c.B ∧
      c.B - p = s.cap ∧ c.lastBlock.length = c.B) := by
  refine ⟨⟨_, _, live_readyFinal (someContext .cbcPad .dec) 0 0 (by decide), by decide⟩, ?_, ?_, ?_⟩
  · rintro p (rfl | rfl)
    · exact ⟨_, _, live_readyFinal (heldContext 0) 0 16 (by decide), ⟨rfl, rfl⟩, rfl, by decide⟩
    · exact ⟨_, _, live_readyFinal (heldContext 17) 0 16 (by decide), ⟨rfl, rfl⟩, rfl, by decide⟩
  · rintro p (rfl | rfl)
    · exact ⟨_, _, live_readyFinal (heldContext 1) 0 14 (by decide), ⟨rfl, rfl⟩, rfl, by decide, by decide, by decide,
          rfl⟩
    · exact ⟨_, _, live_readyFinal (heldContext 15) 0 0 (by decide), ⟨rfl, rfl⟩, rfl, by decide, by decide, by decide,
          rfl⟩
  · rintro p (rfl | rfl)
    · exact ⟨_, _, live_readyFinal (heldContext 1) 0 15 (by decide), ⟨rfl, rfl⟩, rfl, by decide, by decide, rfl, rfl⟩
    · exact ⟨_, _, live_readyFinal (heldContext 16) 0 0 (by decide), ⟨rfl, rfl⟩, rfl, by decide, by decide, rfl, rfl⟩

/-- With and without a residue, the capacity exact. -/
theorem witness_FinalCcmEnc :
    (∃ (s : State) (c : Context), Ready s [] c .ccm .enc .aes128 ∧ c.Ok ∧ c.processedDataLen = c.dataLen ∧
      c.residue.length + c.tagLen = s.cap ∧ c.residue = []) ∧
    (∃ (s : State) (c : Context), Ready s [] c .ccm .enc .aes128 ∧ c.Ok ∧ c.processedDataLen = c.dataLen ∧
      c.residue.length + c.tagLen = s.cap ∧ c.residue.length = 15) :=
  ⟨⟨_, _, live_readyFinal (someContext .ccm .enc) 0 4 (by decide), some_ok _ _, rfl, rfl, rfl⟩,
    ⟨_, _, live_readyFinal { someContext .ccm .enc with residue := zeros 15, dataLen := 15, processedDataLen := 15 } 0 19
      (by decide), by constructor <;> decide, rfl, rfl, rfl⟩⟩

/-- Two different byte strings of four bytes are not both a given one. -/
theorem differs (x : Bytes) : ∃ y : Bytes, y.length = 4 ∧ x ≠ y := by
  by_cases h : x = zeros 4
  · exact ⟨[1, 0, 0, 0], rfl, by subst h; decide⟩
  · exact ⟨zeros 4, rfl, h⟩

/-- A context of AEAD decryption whose scratch is a tag alone. -/
def scratchContext (m : Mode) (tag : Bytes) : Context :=
  { someContext m .dec with scratch := tag, processedDataLen := tag.length }

theorem scratch_ok (m : Mode) (hm : aeadMode m = true) (tag : Bytes) (ht : tag.length = 4)
    : (scratchContext m tag).Ok := by
  cases m <;> first | exact absurd hm (by decide) | skip
  all_goals constructor <;> simp [scratchContext, someContext, Context.B, blockSize, aeadMode, zeros, ht]

/-- Both branches of the tag check, on no data. -/
theorem witness_FinalCcmDec :
    let tag (c : Context) : Bytes :=
      let E := encryptBlock c.ks
      let Cs := chunks 16 (c.scratch.take c.dataLen)
      let Ps := Cs.zipIdx.map fun e => xorBytes e.1 (E ((inc · c.counterBits)^[e.2] c.iv))
      (xorBytes (E c.ctr0) (Ps.foldl (fun v P => E (xorBytes v (pad0 P 16))) c.acc)).take c.tagLen
    (∃ (s : State) (c : Context), Ready s [] c .ccm .dec .aes128 ∧ c.Ok ∧
      c.scratch.length = c.dataLen + c.tagLen ∧ c.dataLen ≤ s.cap ∧ tag c = c.scratch.drop c.dataLen) ∧
    (∃ (s : State) (c : Context), Ready s [] c .ccm .dec .aes128 ∧ c.Ok ∧
      c.scratch.length = c.dataLen + c.tagLen ∧ c.dataLen ≤ s.cap ∧ tag c ≠ c.scratch.drop c.dataLen) := by
  intro tag
  let x := tag (scratchContext .ccm [])
  have hx : x.length = 4 := by
    show ((xorBytes (encryptBlock { alg := .aes128, key := zeros 16 } (zeros 16)) (zeros 16)).take 4).length = 4
    simp [blockSize, zeros]
  obtain ⟨y, hy, hxy⟩ := differs x
  exact ⟨⟨_, _, live_readyFinal (scratchContext .ccm x) 0 0 (by decide), scratch_ok _ rfl _ hx, hx, Nat.le_refl _, rfl⟩,
    ⟨_, _, live_readyFinal (scratchContext .ccm y) 0 0 (by decide), scratch_ok _ rfl _ hy, hy, Nat.le_refl _, hxy⟩⟩

theorem witness_FinalGcmEnc :
    (∃ (s : State) (c : Context), Ready s [] c .gcm .enc .aes128 ∧ c.Ok ∧ c.residue.length + c.tagLen = s.cap ∧
      c.residue = []) ∧
    (∃ (s : State) (c : Context), Ready s [] c .gcm .enc .aes128 ∧ c.Ok ∧ c.residue.length + c.tagLen = s.cap ∧
      c.residue.length = 15) :=
  ⟨⟨_, _, live_readyFinal (someContext .gcm .enc) 0 4 (by decide), some_ok _ _, rfl, rfl⟩,
    ⟨_, _, live_readyFinal { someContext .gcm .enc with residue := zeros 15, processedDataLen := 15 } 0 19 (by decide),
      by constructor <;> decide, rfl, rfl⟩⟩

theorem witness_FinalGcmDec :
    let tag (c : Context) (n : Nat) : Bytes :=
      let S := ghash c.hashKey (ghash c.hashKey c.acc (c.scratch.take n)) (beBytes 8 (8 * c.aadLen) ++ beBytes 8 (8 * n))
      (xorBytes (encryptBlock c.ks c.ctr0) S).take c.tagLen
    (∃ (s : State) (c : Context), Ready s [] c .gcm .dec .aes128 ∧ c.Ok ∧ c.tagLen ≤ c.scratch.length ∧
      c.scratch.length - c.tagLen = s.cap ∧ tag c (c.scratch.length - c.tagLen)
          = c.scratch.drop (c.scratch.length - c.tagLen)) ∧
    (∃ (s : State) (c : Context), Ready s [] c .gcm .dec .aes128 ∧ c.Ok ∧ c.tagLen ≤ c.scratch.length ∧
      c.scratch.length - c.tagLen = s.cap ∧ tag c (c.scratch.length - c.tagLen)
          ≠ c.scratch.drop (c.scratch.length - c.tagLen)) := by
  intro tag
  let x := tag (scratchContext .gcm []) 0
  have hx : x.length = 4 := by
    simp only [x, tag, List.length_take, xorBytes_length, encryptBlock_length]
    rw [ghash_length (ghash_length rfl _)]; rfl
  have key : ∀ z : Bytes, z.length = 4 → tag (scratchContext .gcm z) (z.length - 4) = x := fun z hz => by simp [hz,
      tag, x, scratchContext]
  obtain ⟨y, hy, hxy⟩ := differs x
  have h4 : ∀ z : Bytes, z.length = 4 → z.length - 4 = 0 := fun z hz => by omega
  refine ⟨⟨_, _, live_readyFinal (scratchContext .gcm x) 0 0 (by decide), scratch_ok _ rfl _ hx, Nat.le_of_eq hx.symm,
      h4 _ hx, ?_⟩,
    ⟨_, _, live_readyFinal (scratchContext .gcm y) 0 0 (by decide), scratch_ok _ rfl _ hy, Nat.le_of_eq hy.symm,
        h4 _ hy, ?_⟩⟩
  · show tag _ (x.length - 4) = x.drop (x.length - 4)
    rw [key x hx, h4 x hx]; rfl
  · show tag _ (y.length - 4) ≠ y.drop (y.length - 4)
    rw [key y hy, h4 y hy]; exact hxy

theorem witness_FinalGmac :
    let tag (c : Context) : Bytes :=
      (xorBytes (encryptBlock c.ks c.ctr0) (ghash c.hashKey c.acc (beBytes 8 (8 * c.aadLen) ++ zeros 8))).take c.tagLen
    (∃ (s : State) (c : Context), Ready s [] c .gmac .enc .aes128 ∧ c.Ok ∧ c.tagLen = s.cap) ∧
    (∃ (s : State) (c : Context), Ready s [] c .gmac .dec .aes128 ∧ c.Ok ∧ c.scratch.length = c.tagLen ∧ s.cap = 0 ∧
      tag c = c.scratch) ∧
    (∃ (s : State) (c : Context), Ready s [] c .gmac .dec .aes128 ∧ c.Ok ∧ c.scratch.length = c.tagLen ∧ s.cap = 0 ∧
      tag c ≠ c.scratch) := by
  intro tag
  let x := tag (scratchContext .gmac [])
  have hx : x.length = 4 := by
    simp only [x, tag, List.length_take, xorBytes_length, encryptBlock_length]
    rw [ghash_length rfl]; rfl
  obtain ⟨y, hy, hxy⟩ := differs x
  exact ⟨⟨_, _, live_readyFinal (someContext .gmac .enc) 0 4 (by decide), some_ok _ _, rfl⟩,
    ⟨_, _, live_readyFinal (scratchContext .gmac x) 0 0 (by decide), scratch_ok _ rfl _ hx, hx, rfl, rfl⟩,
    ⟨_, _, live_readyFinal (scratchContext .gmac y) 0 0 (by decide), scratch_ok _ rfl _ hy, hy, rfl, hxy⟩⟩

theorem witness_FinalPreChecks :
    (∃ (s : State) (c : Context), Ready s [] c .ccm .enc .aes128 ∧ c.finalError = some .dataLenRange) ∧
    (∃ (s : State) (c : Context), Ready s [] c .ccm .dec .aes128 ∧ c.finalError = some .encryptedDataLenRange ∧
      c.scratch.length + 1 = c.dataLen + c.tagLen) ∧
    (∃ (s : State) (c : Context), Ready s [] c .gcm .dec .aes128 ∧ c.finalError = some .encryptedDataLenRange ∧
      c.scratch.length + 1 = c.tagLen) ∧
    (∃ (s : State) (c : Context), Ready s [] c .gmac .dec .aes128 ∧ c.finalError = some .encryptedDataLenRange ∧
      c.scratch.length + 1 = c.tagLen) ∧
    (∃ (s : State) (c : Context), Ready s [] c .cbcPad .enc .aes128 ∧ c.finalError = none ∧ s.cap < c.finalNeed ∧
      s.cap + 1 = c.finalNeed) :=
  ⟨⟨_, _, live_readyFinal { someContext .ccm .enc with dataLen := 1 } 0 64 (by decide), rfl⟩,
    ⟨_, _, live_readyFinal { someContext .ccm .dec with scratch := zeros 3 } 0 64 (by decide), rfl, rfl⟩,
    ⟨_, _, live_readyFinal { someContext .gcm .dec with scratch := zeros 3 } 0 64 (by decide), rfl, rfl⟩,
    ⟨_, _, live_readyFinal { someContext .gmac .dec with scratch := zeros 3 } 0 64 (by decide), rfl, rfl⟩,
    ⟨_, _, live_readyFinal (someContext .cbcPad .enc) 0 15 (by decide), rfl, by decide, rfl⟩⟩

theorem witness_CommandsFollowRun : ∀ (m : Mode) (d : Dir),
    (∃ (s : State) (c c' : Context) (y : Bytes), Ready s s.args.inView c m d .aes128 ∧ c.Ok ∧
      s.args.draws.scratchOk = true ∧ c.update s.input = .ok (y, c') ∧ y.length ≤ s.cap) ∧
    (m ≠ .cbcPad ∨ d = .enc → aeadMode m = false →
      ∃ (s : State) (c : Context) (y : Bytes), Ready s [] c m d .aes128 ∧ c.Ok ∧ c.final = .ok y ∧ y.length ≤ s.cap) := by
  intro m d
  constructor
  · refine ⟨_, _, someContext m d, [], live_ready (someContext m d) 0 0 (by decide), some_ok m d, rfl, ?_, Nat.le_refl _⟩
    cases m <;> cases d <;> rfl
  · intro h hm
    cases m <;> first | exact absurd hm (by decide) | skip
    all_goals cases d <;> first
      | exact ⟨_, _, [], live_readyFinal (someContext _ _) 0 16 (by decide), some_ok _ _, rfl, Nat.zero_le _⟩
      | exact ⟨_, _, _, live_readyFinal (someContext _ _) 0 16 (by decide), some_ok _ _, rfl,
          (cbcEncBlocks_length (B := 16) (fun _ => encryptBlock_length _ _) _ _).le⟩
      | simp at h

/-- The hypotheses of every statement about ATOMIC: the checks pass, the views are not refused, the allocation is granted and
the capacity is enough; in every mode and direction, on 16 bytes of input. -/
theorem witness_AtomicIsRun :
    (∀ m : Mode, ∃ (s : State) (h : Handle), InitReady s m .aes128 h ∧
      s.viewRefusal s.args.inView s.args.outView = none ∧ s.args.draws.scratchOk = true ∧ s.input.length + 16 = s.cap) ∧
    (∀ n : Nat, n = 15 ∨ n = 16 → ∃ (s : State) (h : Handle), InitReady s .cbc .aes128 h ∧
      s.viewRefusal s.args.inView s.args.outView = none ∧ s.args.draws.scratchOk = true ∧ s.input.length + 16 ≤ s.cap ∧
      ((s.run .cbc .enc .aes128 [s.input]).2 = .success ↔ n = 16)) := by
  refine ⟨fun m => ⟨_, 3, init_ready m 16 32, init_views m 16 32 (by decide), rfl, rfl⟩, ?_⟩
  rintro n (rfl | rfl)
  · exact ⟨_, 3, init_ready .cbc 15 32, init_views .cbc 15 32 (by decide), rfl, by decide, by decide +kernel⟩
  · exact ⟨_, 3, init_ready .cbc 16 32, init_views .cbc 16 32 (by decide), rfl, by decide, by decide +kernel⟩

theorem witness_AtomicUnauthenticated : ∀ (m : Mode) (d : Dir), aeadMode m = false → ¬(m = .cbcPad ∧ d = .dec) →
    ∃ (s : State) (h : Handle), InitReady s m .aes128 h ∧ s.viewRefusal s.args.inView s.args.outView = none ∧
      (m = .ecb ∨ m = .cbc → s.input.length % blockSize .aes128 = 0) ∧
      (if m = .cbcPad then (s.input.length / blockSize .aes128 + 1) * blockSize .aes128 else s.input.length) ≤ s.cap ∧
      s.input.length = 16 :=
  fun m _ _ _ =>
    ⟨_, 3, init_ready m 16 32, init_views m 16 32 (by decide), fun _ => by rw [init_input]; decide,
      by cases m <;> decide, init_input _ _ _⟩

/-- The key schedule of the tests, and a state whose input is one block that decrypts, under a zero IV, to fifteen zeros and the
byte `p`. -/
def padKey : KeySchedule := { alg := .aes128, key := zeros 16 }

def padState (p : Byte) (cap : Nat) : State :=
  { initState (initArgs .cbcPad 16 cap) with
    mem := Memory.writeAll [] (List.range 16) (encryptBlock padKey (zeros 15 ++ [p])) }

theorem padState_input (p : Byte) (cap : Nat) : (padState p cap).input = encryptBlock padKey (zeros 15 ++ [p]) := by
  have h := Memory.read_writeAll_map [] (List.range 16) (encryptBlock padKey (zeros 15 ++ [p])) (by decide)
    (by rw [encryptBlock_length]; decide)
  rw [encryptBlock_length] at h
  exact h

theorem padState_plain (p : Byte) (cap : Nat) :
    (cbcDecBlocks (decryptBlock padKey) (padState p cap).args.iv (chunks 16 (padState p cap).input)).1 = zeros 15 ++
        [p] := by
  rw [padState_input]
  have hc : chunks 16 (encryptBlock padKey (zeros 15 ++ [p])) = [encryptBlock padKey (zeros 15 ++ [p])] := by
    have hl : (encryptBlock padKey (zeros 15 ++ [p])).length = 16 := encryptBlock_length _ _
    simp [chunks, hl, ceilDiv, List.range_succ]
  rw [hc]
  show xorBytes (decryptBlock padKey (encryptBlock padKey (zeros 15 ++ [p]))) (zeros 16) ++ [] = _
  rw [decryptBlock_encryptBlock _ (by simp [padKey, blockSize])]
  simp [xorBytes, zeros]

theorem witness_AtomicCbcPadDec :
    let plain (s : State) (a : Alg) : Bytes :=
      (cbcDecBlocks (decryptBlock { alg := a, key := s.args.key }) s.args.iv (chunks (blockSize a) s.input)).1
    ∀ p n : Nat, p = 0 ∨ p = 1 ∨ p = 15 ∨ p = 16 ∨ p = 17 → n < 16 → ∃ (s : State) (h : Handle),
      InitReady s .cbcPad .aes128 h ∧ s.viewRefusal s.args.inView s.args.outView = none ∧
      s.input.length % blockSize .aes128 = 0 ∧ blockSize .aes128 ≤ s.input.length ∧
      ((plain s .aes128).getLastD 0).toNat = p ∧ s.input.length - p = 16 - p ∧ s.cap = n := by
  intro plain p n hp hn
  have hl : ∀ q : Byte, (padState q n).input.length = 16 := fun q => by rw [padState_input, encryptBlock_length]; rfl
  refine ⟨padState (BitVec.ofNat 8 p) n, 3, ⟨rfl, rfl, rfl, rfl, rfl, rfl, rfl⟩, init_views .cbcPad 16 n (by decide),
      ?_, ?_, ?_, ?_, init_cap _ _ _⟩
  · rw [hl]; decide
  · rw [hl]; decide
  · show ((cbcDecBlocks (decryptBlock padKey) _ (chunks 16 _)).1.getLastD 0).toNat = p
    rw [padState_plain]
    rcases hp with rfl | rfl | rfl | rfl | rfl <;> rfl
  · rw [hl]

/-- Encryption of no data in every mode and of 17 bytes in CCM and GCM; decryption of ANY four bytes as the tag alone, so both of
the matching tag and of another. -/
theorem witness_AtomicAead :
    (∀ m : Mode, aeadMode m = true → ∃ (s : State) (h : Handle), InitReady s m .aes128 h ∧
      s.viewRefusal s.args.inView s.args.outView = none ∧ s.input.length = s.args.dataLen.toNat ∧ s.input = [] ∧
      s.input.length + s.args.tagLen.toNat = s.cap) ∧
    (∀ m : Mode, m = .ccm ∨ m = .gcm → ∃ (s : State) (h : Handle), InitReady s m .aes128 h ∧
      s.viewRefusal s.args.inView s.args.outView = none ∧ s.input.length = s.args.dataLen.toNat ∧ s.input.length = 17 ∧
      s.input.length + s.args.tagLen.toNat = s.cap) ∧
    (∀ (m : Mode) (x : Bytes), aeadMode m = true → x.length = 4 → ∃ (s : State) (h : Handle), InitReady s m .aes128 h ∧
      s.viewRefusal s.args.inView s.args.outView = none ∧ s.input = x ∧ s.args.tagLen.toNat = x.length ∧
      s.input.length - s.args.tagLen.toNat = s.args.dataLen.toNat ∧ s.args.draws.scratchOk = true ∧ s.cap = 0) := by
  refine ⟨fun m _ => ⟨_, 3, init_ready m 0 4, init_views m 0 4 (by decide), rfl, rfl, rfl⟩, ?_, ?_⟩
  · rintro m (rfl | rfl)
    · exact ⟨initState { initArgs .ccm 17 21 with dataLen := 17 }, 3, ⟨rfl, rfl, rfl, rfl, rfl, rfl, rfl⟩, rfl, by decide,
        by decide, by decide⟩
    · exact ⟨initState { initArgs .gcm 17 21 with dataLen := 17 }, 3, ⟨rfl, rfl, rfl, rfl, rfl, rfl, rfl⟩, rfl, by decide,
        by decide, by decide⟩
  · intro m x _ hx
    have hin : ((List.range 4).map (Memory.read (Memory.writeAll [] (List.range 4) x))) = x := by
      have := Memory.read_writeAll_map [] (List.range 4) x (by decide) (by simp [hx])
      rwa [hx] at this
    have r := init_ready m 4 0
    refine ⟨{ initState (initArgs m 4 0) with mem := Memory.writeAll [] (List.range 4) x }, 3,
      ⟨r.supported, r.keyType, r.keyLen, r.params, r.room, r.drawn, r.absent⟩, init_views m 4 0 (by decide), hin, hx.symm,
      ?_, rfl, rfl⟩
    show (List.map _ _).length - 4 = 0
    simp [initState, initArgs, View.addrs]

theorem witness_AtomicPreChecks :
    (∃ (s : State) (h : Handle), InitReady s .ecb .aes128 h ∧ s.viewRefusal s.args.inView s.args.outView = none ∧
      atomicError .ecb .enc .aes128 s.args s.input.length = some .dataLenRange ∧ s.input.length = 15) ∧
    (∃ (s : State) (h : Handle), InitReady s .gcm .aes128 h ∧ s.viewRefusal s.args.inView s.args.outView = none ∧
      atomicError .gcm .dec .aes128 s.args s.input.length = some .encryptedDataLenRange ∧
      s.input.length + 1 = s.args.tagLen.toNat) ∧
    (∃ (s : State) (h : Handle), InitReady s .cbcPad .aes128 h ∧ s.viewRefusal s.args.inView s.args.outView = none ∧
      atomicError .cbcPad .enc .aes128 s.args s.input.length = none ∧
      s.cap + 1 = atomicNeed .cbcPad .enc .aes128 s.args s.input.length) :=
  ⟨⟨_, 3, init_ready .ecb 15 64, init_views .ecb 15 64 (by decide), by decide, rfl⟩,
    ⟨_, 3, init_ready .gcm 3 64, init_views .gcm 3 64 (by decide), by decide, rfl⟩,
    ⟨_, 3, init_ready .cbcPad 16 31, init_views .cbcPad 16 31 (by decide), by decide, by decide⟩⟩

/-- With no job of a cancelled command on its context in the Block Primitive, and with two. -/
theorem witness_SettleIsReached : ∀ n : Nat, n = 0 ∨ n = 2 →
    ∃ (s : State) (h : Handle) (f : InFlight) (rest : List Event), s.Inv ∧ s.lookup h = some (.busy f) ∧
      f.current = none ∧ s.events = settleEvents h s.nextJob f.jobsLeft.length ++ rest ∧ f.jobsLeft ≠ [] ∧
      (s.jobs.filter fun job => job.handle = h ∧ job.context = f.context).length = n := by
  rintro n (rfl | rfl)
  · exact ⟨staleState 0 [.submit 7, .complete 0 .ok], 7, _, [], stale_inv _ _, rfl, rfl, rfl, nofun, rfl⟩
  · exact ⟨staleState 2 [.submit 7, .complete 2 .ok], 7, _, [], stale_inv _ _, rfl, rfl, rfl, nofun, rfl⟩

theorem witness_AbortCancels :
    (∃ (s : State) (f : InFlight), s.lookup s.args.handle = some (.busy f) ∧ f.current = none) ∧
    (∃ (s : State) (f : InFlight), s.lookup s.args.handle = some (.busy f) ∧ f.current = some 0) ∧
    (∃ s : State, (∀ f, s.lookup s.args.handle ≠ some (.busy f)) ∧ (s.lookup s.args.handle).isSome = true) ∧
    (∃ s : State, (∀ f, s.lookup s.args.handle ≠ some (.busy f)) ∧ s.lookup s.args.handle = none ∧
      s.args.handle ∈ s.known) :=
  ⟨⟨busyState none false [], _, rfl, rfl⟩, ⟨busyState (some 0) false [], _, rfl, rfl⟩,
    ⟨liveState (someContext .ecb .enc) 0 0, by simp [State.lookup, liveState, useArgs, Assoc.get], rfl⟩,
    ⟨{ liveState (someContext .ecb .enc) 0 0 with table := [] }, by simp [State.lookup, Assoc.get], rfl,
      by decide⟩⟩

/-- An UPDATE and an ATOMIC that went in flight; and an UPDATE of two jobs that is still in flight with no step taken, with its
first job submitted, and with that job completed. -/
theorem witness_AbortUndoesCommand :
    (∃ (s t : State) (i : Instr) (h : Handle) (f : InFlight), s.Inv ∧ exec i s = .next t ∧ t.lookup h = some (.busy f) ∧
      f.id = s.issued ∧ i = .updateCtrEnc .aes128) ∧
    (∃ (s t : State) (i : Instr) (h : Handle) (f : InFlight), s.Inv ∧ exec i s = .next t ∧ t.lookup h = some (.busy f) ∧
      f.id = s.issued ∧ i = .atomicCbcEnc .aes128) ∧
    (∀ n : Fin 3, ∃ (s t v : State) (i : Instr) (h : Handle) (f f' : InFlight), s.Inv ∧ exec i s = .next t ∧
      t.lookup h = some (.busy f) ∧ f.id = s.issued ∧ Host.Core.run Sys2Proof.core n t = .next v ∧
      v.lookup h = some (.busy f') ∧ f'.id = f.id ∧ f'.jobsDone = n / 2 ∧ v.jobs.length = n % 2) := by
  have hi := live_inv (someContext .ctr .enc) 32 32 (some_ok _ _)
  refine ⟨⟨_, _, .updateCtrEnc .aes128, 7, _, hi, rfl, rfl, rfl, rfl⟩,
    ⟨{ liveState (someContext .ctr .enc) 32 32 with args := initArgs .cbc 16 16 }, _, .atomicCbcEnc .aes128, 3, _, ?_,
        rfl,
      rfl, rfl, rfl⟩, fun n => ?_⟩
  · exact ⟨hi.1, hi.2, hi.3, hi.4, hi.5, hi.6, hi.7, hi.8, hi.9, hi.10, hi.11, hi.12, hi.13, hi.14, hi.15⟩
  · refine ⟨{ liveState (someContext .ctr .enc) 32 32 with
        config := { resetConfig with maxXfer := 16 }, events := [.submit 7, .complete 0 .ok] }, ?_⟩
    have hj : State.Inv { liveState (someContext .ctr .enc) 32 32 with
        config := { resetConfig with maxXfer := 16 }, events := [.submit 7, .complete 0 .ok] } :=
      ⟨hi.1, hi.2, hi.3, hi.4, hi.5, hi.6, hi.7, hi.8, hi.9, hi.10, fun _ h => by (cases h), by decide, hi.13, hi.14, hi.15⟩
    match n with
    | 0 => exact ⟨_, _, .updateCtrEnc .aes128, 7, _, _, hj, rfl, rfl, rfl, rfl, rfl, rfl, rfl, rfl⟩
    | 1 => exact ⟨_, _, .updateCtrEnc .aes128, 7, _, _, hj, rfl, rfl, rfl, rfl, rfl, rfl, rfl, rfl⟩
    | 2 => exact ⟨_, _, .updateCtrEnc .aes128, 7, _, _, hj, rfl, rfl, rfl, rfl, rfl, rfl, rfl, rfl⟩

theorem witness_JobFailureAndCancelledJob :
    (∃ (s : State) (job : PrimJob) (f : InFlight) (e : Nat), s.Inv ∧ job ∈ s.jobs ∧ job.cancelled = false ∧
      s.earlierJob job = false ∧ s.lookup job.handle = some (.busy f) ∧ e ∈ s.config.primErrors) ∧
    (∃ (s : State) (job : PrimJob) (r : JobResult), s.Inv ∧ job ∈ s.jobs ∧ job.cancelled = true ∧
      s.earlierJob job = false ∧ (∀ e, r = .error e → e ∈ s.config.primErrors) ∧ r = .ok) ∧
    (∃ (s : State) (job : PrimJob) (r : JobResult), s.Inv ∧ job ∈ s.jobs ∧ job.cancelled = true ∧
      s.earlierJob job = false ∧ (∀ e, r = .error e → e ∈ s.config.primErrors) ∧ r = .error 12) ∧
    (∃ (s t : State) (job early : PrimJob), s.Inv ∧ job ∈ s.jobs ∧ early ∈ s.jobs ∧ early.handle = job.handle ∧
      early.context = job.context ∧ early.id < job.id ∧ completeJob job.id .ok s = .next t) ∧
    (∃ (s : State) (job early : PrimJob), s.Inv ∧ job ∈ s.jobs ∧ early ∈ s.jobs ∧ early.handle = job.handle ∧
      early.context = job.context ∧ early.id < job.id ∧ early.cancelled = false) :=
  ⟨⟨busyState (some 0) false [], _, _, 12, busy_inv _ (.inr rfl) _ _, List.mem_singleton.2 rfl, rfl, rfl, rfl, by decide⟩,
    ⟨busyState (some 0) true [], _, .ok, busy_inv _ (.inr rfl) _ _, List.mem_singleton.2 rfl, rfl, rfl, nofun, rfl⟩,
    ⟨busyState (some 0) true [], _, .error 12, busy_inv _ (.inr rfl) _ _, List.mem_singleton.2 rfl, rfl, rfl,
      by rintro e ⟨⟩; decide, rfl⟩,
    ⟨staleState 2 [], _, { id := 1, handle := 7, context := 0, blocks := 1, cancelled := true },
      { id := 0, handle := 7, context := 0, blocks := 1, cancelled := true }, stale_inv _ _, by decide, by decide, rfl, rfl,
      Nat.zero_lt_one, rfl⟩,
    ⟨waitState, { id := 1, handle := 7, context := 0, blocks := 1, cancelled := true },
      { id := 0, handle := 7, context := 0, blocks := 1, cancelled := false }, wait_inv, by decide, by decide, rfl, rfl,
      Nat.zero_lt_one, rfl⟩⟩

/-- A CTR context whose counter is at its last value before the roll-over of its eight bits. -/
def rollContext : Context :=
  { someContext .ctr .enc with iv := List.replicate 16 0xff, counterBits := 8 }

theorem roll_ok : rollContext.Ok := by
  constructor <;> decide

/-- The CTR witnesses end a job exactly at the roll-over: the first of two blocks is the last before it. -/
theorem witness_JobsWithinLimits :
    (∃ (s t : State) (i : Instr) (h : Handle) (f : InFlight) (op : Op) (m : Mode) (d : Dir) (a : Alg), s.Inv ∧
      exec i s = .next t ∧ t.lookup h = some (.busy f) ∧ f.id = s.issued ∧ i.parts = some (op, m, d, a) ∧
      f.jobsLeft ≠ []) ∧
    (∃ (s t : State) (h : Handle) (f : InFlight) (c : Context) (before : List Nat) (job : Nat) (after : List Nat), s.Inv ∧
      exec (instrOf .update .ctr .enc .aes128) s = .next t ∧ t.lookup h = some (.busy f) ∧ f.id = s.issued ∧
      s.lookup s.args.handle = some (.active c) ∧ f.jobsLeft = before ++ job :: after ∧ before ≠ [] ∧
      (beInt c.iv + before.sum) % 2 ^ c.counterBits = 0) ∧
    (∃ (s t : State) (h : Handle) (f : InFlight) (before : List Nat) (job : Nat) (after : List Nat), s.Inv ∧
      exec (instrOf .atomic .ctr .enc .aes128) s = .next t ∧ t.lookup h = some (.busy f) ∧ f.id = s.issued ∧
      f.jobsLeft = before ++ job :: after ∧ before ≠ [] ∧
      (beInt s.args.iv + before.sum) % 2 ^ s.args.counterBits.toNat = 0) ∧
    (∃ (cap cb n : Nat) (ctr : Bytes) (before : List Nat) (job : Nat) (after : List Nat), 1 ≤ cap ∧
      splitCtrJobs cap cb ctr n = before ++ job :: after ∧ before ≠ [] ∧
      (beInt ctr + before.sum) % 2 ^ cb = 0) := by
  refine ⟨⟨_, _, .updateCtrEnc .aes128, 7, _, _, _, _, _, live_inv (someContext .ctr .enc) 32 32 (some_ok _ _), rfl, rfl,
      rfl, rfl, nofun⟩,
    ⟨_, _, 7, _, _, [1], 1, [], live_inv rollContext 32 32 roll_ok, rfl, rfl, rfl, rfl, ?_, nofun, by decide +kernel⟩,
    ⟨{ liveState (someContext .ctr .enc) 32 32 with
        args := { initArgs .ctr 32 32 with iv := List.replicate 16 0xff, counterBits := 8 } }, _, 3, _, [1], 1, [], ?_, rfl, rfl,
      rfl, ?_, nofun, by decide +kernel⟩,
    ⟨8, 8, 4, zeros 15 ++ [0xfe], [2], 2, [], by decide, by decide, nofun, by decide⟩⟩
  · decide +kernel
  · have hi := live_inv (someContext .ctr .enc) 32 32 (some_ok _ _)
    exact ⟨hi.1, hi.2, hi.3, hi.4, hi.5, hi.6, hi.7, hi.8, hi.9, hi.10, hi.11, hi.12, hi.13, hi.14, hi.15⟩
  · decide +kernel

theorem witness_CallerDutyRefusals :
    (∃ s : State, s.lookup s.args.handle = none ∧ s.args.handle ∉ s.known) ∧
    (∃ s : State, s.lookup s.args.handle = none ∧ s.args.handle ∈ s.known) ∧
    (∃ (s : State) (f : InFlight), s.lookup s.args.handle = some (.busy f)) ∧
    (∃ (s : State) (c : Context), s.lookup s.args.handle = some (.active c) ∧
      View.addrs s.args.inView ≠ View.addrs s.args.outView ∧
      ∃ addr, addr ∈ View.addrs s.args.inView ∧ addr ∈ View.addrs s.args.outView) ∧
    (∀ v : View, v = [{ base := 15, len := 1 }] ∨ v = [{ base := 115, len := 1 }] → ∃ s : State,
      View.inPlaceOk s.args.inView s.args.outView = true ∧ s.args.outView = v ∧
      ∃ k f addr, s.lookup k = some (.busy f) ∧
        ((addr ∈ View.addrs s.args.outView ∧ (addr ∈ View.addrs f.inView ∨ addr ∈ View.addrs f.outView)) ∨
          (addr ∈ View.addrs s.args.inView ∧ addr ∈ View.addrs f.outView))) ∧
    (∃ (s : State) (c : Context), s.lookup s.args.handle = some (.active c) ∧
      ∃ k f addr, s.lookup k = some (.busy f) ∧ addr ∈ View.addrs s.args.outView ∧
        (addr ∈ View.addrs f.inView ∨ addr ∈ View.addrs f.outView)) ∧
    (∃ (s : State) (base : Nat) (b : Bytes), ∃ k f addr, s.lookup k = some (.busy f) ∧ base ≤ addr ∧
      addr < base + b.length ∧ (addr ∈ View.addrs f.inView ∨ addr ∈ View.addrs f.outView)) := by
  let b := busyState none false []
  have hb : ∀ s : State, s.table = b.table → s.lookup 7 = b.lookup 7 := fun s h => by simp [State.lookup, h]
  refine ⟨⟨State.reset, rfl, nofun⟩, ⟨{ State.reset with known := [0] }, rfl, by decide⟩, ⟨b, _, rfl⟩,
    ⟨{ liveState (someContext .ecb .enc) 16 16 with
        args := { useArgs 16 16 with outView := [{ base := 15, len := 16 }] } }, _, rfl, by decide, 15, by decide,
            by decide⟩,
    ?_, ?_, ⟨b, 15, [0], 7, _, 15, rfl, by decide, by decide, .inl (by decide)⟩⟩
  · rintro v (rfl | rfl)
    · exact ⟨{ b with args := { outView := [{ base := 15, len := 1 }] } }, rfl, rfl, 7, _, 15, rfl,
        .inl ⟨by decide, .inl (by decide)⟩⟩
    · exact ⟨{ b with args := { outView := [{ base := 115, len := 1 }] } }, rfl, rfl, 7, _, 115, rfl,
        .inl ⟨by decide, .inr (by decide)⟩⟩
  · exact ⟨{ b with
        table := b.table ++ [(9, .active (someContext .ecb .enc))]
        args := { handle := 9, outView := [{ base := 100, len := 1 }] } }, _, rfl, 7, _, 100, rfl, by decide,
            .inr (by decide)⟩

theorem witness_StreamingEquivalence :
    (∃ (c : Context) (xs : List Bytes), c.Ok ∧ (c.run xs).2 = .success ∧ xs.length = 2) ∧
    (∃ (c : Context) (xs : List Bytes), c.Ok ∧ c.mode = .ccm ∧ c.dir = .dec ∧ (c.run xs).2 ≠ .success ∧ xs.length = 2) ∧
    (∃ (s : State) (h : Handle) (xs : List Bytes), InitReady s .ecb .aes128 h ∧
      s.viewRefusal s.args.inView s.args.outView = none ∧ s.args.draws.scratchOk = true ∧ s.input.length + 16 ≤ s.cap ∧
      xs.flatten = s.input ∧ (s.run .ecb .enc .aes128 xs).2 = .success ∧ xs.length = 2) ∧
    (∃ (s : State) (h : Handle) (xs : List Bytes), InitReady s .ecb .aes128 h ∧
      s.viewRefusal s.args.inView s.args.outView = none ∧ s.args.draws.scratchOk = true ∧ s.input.length + 16 ≤ s.cap ∧
      xs.flatten = s.input ∧ (s.run .ecb .enc .aes128 xs).2 ≠ .success) ∧
    (∃ (s : State) (st : Status), s.initChecks .ecb .aes128 = .error st ∧
      s.viewRefusal s.args.inView s.args.outView = none) :=
  ⟨⟨_, [zeros 7, zeros 9], some_ok .ecb .enc, rfl, rfl⟩,
    ⟨_, [[], [0]], some_ok .ccm .dec, rfl, rfl, by decide, rfl⟩,
    ⟨_, 3, [zeros 7, zeros 9], init_ready .ecb 16 32, init_views .ecb 16 32 (by decide), rfl, by decide, rfl, rfl, rfl⟩,
    ⟨_, 3, [[0]], init_ready .ecb 1 32, init_views .ecb 1 32 (by decide), rfl, by decide, rfl, by decide⟩,
    ⟨State.reset, .keySizeRange, rfl, rfl⟩⟩

theorem witness_RoundTrip : ∀ m : Mode, aeadMode m = false → ∃ (o : Operands) (P C : Bytes) (xs : List Bytes),
    paramsOk m .aes128 o = true ∧ (initContext Prim.external m .enc .aes128 o).run [P] = (C, .success) ∧ xs.flatten = C ∧
      P.length = 16 := by
  intro m hm
  refine ⟨initArgs m 0 0, zeros 16, ?_⟩
  cases m <;> first
    | exact absurd hm (by decide)
    | exact ⟨_, [_], rfl, rfl, List.append_nil _, rfl⟩

theorem witness_AeadRoundTripAndTamper : ∀ m : Mode, aeadMode m = true →
    ∃ (o : Operands) (P C : Bytes), paramsOk m .aes128 o = true ∧
      (initContext Prim.external m .enc .aes128 o).run [P] = (C, .success) ∧
      ∃ tag : Bytes, tag.length = o.tagLen.toNat ∧ tag ≠ C.drop P.length := by
  intro m hm
  have key : ∀ C : Bytes, ∃ tag : Bytes, tag.length = 4 ∧ tag ≠ C.drop 0 := fun C => by
    obtain ⟨y, hy, hxy⟩ := differs C
    exact ⟨y, hy, hxy.symm⟩
  refine ⟨initArgs m 0 0, [], ?_⟩
  cases m <;> first
    | exact absurd hm (by decide)
    | exact ⟨_, rfl, rfl, key _⟩

theorem witness_UnpadInvertsPad : (∃ B : Nat, 1 ≤ B ∧ B ≤ 255 ∧ B = 1) ∧ (∃ B : Nat, 1 ≤ B ∧ B ≤ 255 ∧ B = 255) :=
  ⟨⟨1, by decide⟩, ⟨255, by decide⟩⟩

theorem witness_CounterIncrement :
    (∃ (ctr : Bytes) (cb : Nat), 1 ≤ cb ∧ cb ≤ 8 * ctr.length ∧ cb = 1) ∧
    (∃ (ctr : Bytes) (cb : Nat), 1 ≤ cb ∧ cb ≤ 8 * ctr.length ∧ ctr.length = 16 ∧ cb = 128) :=
  ⟨⟨[0], 1, by decide⟩, ⟨zeros 16, 128, by decide⟩⟩

theorem witness_NoPlaintextBeforeVerification :
    (∃ (s t : State) (h : Handle), exec (instrOf .update .ccm .dec .aes128) s = .next t ∧ h = s.args.handle ∧
      s.input ≠ []) ∧
    (∃ (s t : State) (h : Handle), exec (instrOf .final .gcm .dec .aes128) s = .next t ∧ h = s.args.handle ∧
      ∃ f, t.lookup h = some (.busy f)) ∧
    (∃ (s t : State) (h : Handle), exec (instrOf .atomic .gmac .dec .aes128) s = .next t ∧
      h = s.freshHandle s.args.draws.handle ∧ ∃ f, t.lookup h = some (.busy f)) ∧
    (∀ e : Event, e = .submit 7 ∨ e = .hostWrite 116 [1] → ∃ (u v : State) (h : Handle) (f f' : InFlight), u.Inv ∧
      u.events = [e] ∧ step u = .next v ∧ u.lookup h = some (.busy f) ∧ v.lookup h = some (.busy f') ∧
      115 ∈ View.addrs f.outView) :=
  ⟨⟨liveState (someContext .ccm .dec) 4 0, _, _, rfl, rfl, by decide⟩,
    ⟨liveState (scratchContext .gcm (zeros 4)) 0 0, _, _, rfl, rfl, _, rfl⟩,
    ⟨initState (initArgs .gmac 4 0), _, _, rfl, rfl, _, rfl⟩,
    by
      rintro e (rfl | rfl) <;>
        exact ⟨_, _, 7, _, _, busy_inv none (.inl rfl) false _, rfl, rfl, rfl, rfl, by decide⟩⟩

theorem witness_GfMultiplication : ∃ y : Nat, y < 2 ^ 128 ∧ y + 1 = 2 ^ 128 := ⟨2 ^ 128 - 1, by decide⟩

/-- The least and the greatest tag and nonce lengths, and the values next to them. -/
theorem witness_ParameterRanges :
    paramsOk .gcm .aes128 { initArgs .gcm 0 0 with tagLen := 4, iv := [0] } = true ∧
    paramsOk .gcm .aes128 { initArgs .gcm 0 0 with tagLen := 17 } = false ∧
    paramsOk .gmac .aes128 { initArgs .gmac 0 0 with tagLen := 16 } = true ∧
    paramsOk .ccm .aes128 { initArgs .ccm 0 0 with iv := zeros 14 } = false ∧
    paramsOk .cfb .des { initArgs .cfb 0 0 with iv := zeros 8 } = true := by decide

end Sys2Proof.Tests
end

section
/-! SUPPORT. Cutting an input into UPDATEs in the modes without a tag, and the round trip of those modes (44 R470, 70
R613). -/

namespace Sys2Proof.Machine

/-! ### Whole blocks -/

/-- The first block of a string that begins with a block. -/
theorem chunks_block_append {B : Nat} (hB : 0 < B) {Y : Bytes} (hY : Y.length = B) (s : Bytes) :
    chunks B (Y ++ s) = Y :: chunks B s := by
  have hne : Y ++ s ≠ [] := List.append_ne_nil_of_left_ne_nil (List.ne_nil_of_length_pos (hY ▸ hB)) s
  rw [chunks_step hB hne, List.take_left' hY, List.drop_left' hY]

/-- A string of one block at most is its own only block. -/
theorem chunks_of_length_le {B : Nat} (hB : 0 < B) {s : Bytes} (hs : s ≠ []) (h : s.length ≤ B) :
    chunks B s = [s] := by
  rw [chunks_step hB hs, List.take_of_length_le h, List.drop_of_length_le h, chunks_nil hB]

/-- Whole blocks in front add their length to the usable length (40 R151). -/
theorem usable_append {B : Nat} (hB : 0 < B) {w : Nat} (hw : w % B = 0) (t : Nat) :
    (w + t) / B * B = w + t / B * B := by
  obtain ⟨k, rfl⟩ := Nat.dvd_of_mod_eq_zero hw
  rw [Nat.mul_add_div hB, Nat.add_mul, Nat.mul_comm B k]

/-- Partitioning an input in two parts hands on the same blocks and leaves the same residue (40 R152). -/
theorem partition_append (c : Context) (x y : Bytes) :
    c.partition (x ++ y) =
      ((c.partition x).1 ++ ((c.partition x).2.partition y).1, ((c.partition x).2.partition y).2) := by
  generalize hd : c.residue ++ x = d
  generalize hn : d.length / c.B * c.B = n
  have hW : (d.take n).length = n := by rw [← hn, length_take_whole]
  have hmod : n % c.B = 0 := by rw [← hn, Nat.mul_mod_left]
  have hpart : c.partition x = (chunks c.B (d.take n), { c with residue := d.drop n }) := by
    unfold Context.partition
    simp only [hd, hn]
  have hsplit : c.residue ++ (x ++ y) = d.take n ++ (d.drop n ++ y) := by
    rw [← List.append_assoc, ← List.append_assoc, List.take_append_drop, hd]
  have huse : (d.take n ++ (d.drop n ++ y)).length / c.B * c.B =
      (d.take n).length + (d.drop n ++ y).length / c.B * c.B := by
    rw [List.length_append, hW, usable_append c.B_pos hmod]
  rw [hpart]
  unfold Context.partition
  dsimp only
  rw [hsplit, huse, List.take_length_add_append, List.drop_length_add_append,
    chunks_append c.B_pos _ _ (by rw [hW, hmod])]
  rfl

/-! ### The block modes in two parts -/

theorem cbcEncBlocks_append (E : Bytes → Bytes) (v : Bytes) (Xs Ys : List Bytes) :
    cbcEncBlocks E v (Xs ++ Ys) =
      ((cbcEncBlocks E v Xs).1 ++ (cbcEncBlocks E (cbcEncBlocks E v Xs).2 Ys).1,
        (cbcEncBlocks E (cbcEncBlocks E v Xs).2 Ys).2) := by
  induction Xs generalizing v with
  | nil => rfl
  | cons X Xs ih => simp [cbcEncBlocks, ih]

theorem cbcDecBlocks_append (D : Bytes → Bytes) (v : Bytes) (Xs Ys : List Bytes) :
    cbcDecBlocks D v (Xs ++ Ys) =
      ((cbcDecBlocks D v Xs).1 ++ (cbcDecBlocks D (cbcDecBlocks D v Xs).2 Ys).1,
        (cbcDecBlocks D (cbcDecBlocks D v Xs).2 Ys).2) := by
  induction Xs generalizing v with
  | nil => rfl
  | cons X Xs ih => simp [cbcDecBlocks, ih]

theorem ecbUpdate_append (P : Prim) (c : Context) (x y : Bytes) :
    ecbUpdate P c (x ++ y) =
      ((ecbUpdate P c x).1 ++ (ecbUpdate P (ecbUpdate P c x).2 y).1, (ecbUpdate P (ecbUpdate P c x).2 y).2) := by
  unfold ecbUpdate ecbBlocks
  simp only [partition_append, List.flatMap_append]
  rfl

theorem cbcUpdate_append (P : Prim) (c : Context) (x y : Bytes) :
    cbcUpdate P c (x ++ y) =
      ((cbcUpdate P c x).1 ++ (cbcUpdate P (cbcUpdate P c x).2 y).1, (cbcUpdate P (cbcUpdate P c x).2 y).2) := by
  unfold cbcUpdate
  simp only [partition_append]
  cases hd : c.dir <;> simp only [Context.partition, hd]
  · rw [cbcEncBlocks_append]
    rfl
  · rw [cbcDecBlocks_append]
    rfl

/-- A CBC_PAD decrypt UPDATE that completes no block emits nothing and holds what was held (41 R255). -/
theorem cbcPadDecUpdate_of_nil {P : Prim} {c : Context} {x : Bytes} (h : (cbcUpdate P c x).1 = []) :
    cbcPadDecUpdate P c x = ([], (cbcUpdate P c x).2) := by
  unfold cbcPadDecUpdate
  dsimp only
  rw [if_pos (by rw [h]; rfl)]

/-- The context with a decrypted block held (41 R255). -/
def Context.hold (c : Context) (l : Bytes) : Context := { c with lastBlock := l, heldValid := true }

/-- The block held, or nothing. -/
def Context.held (c : Context) : Bytes := if c.heldValid then c.lastBlock else []

/-- A CBC_PAD decrypt UPDATE that completes a block emits the block held and holds its last one (41 R255). -/
theorem cbcPadDecUpdate_of_ne_nil {P : Prim} {c : Context} {x : Bytes} (h : (cbcUpdate P c x).1 ≠ []) :
    cbcPadDecUpdate P c x =
      (c.held ++ (cbcUpdate P c x).1.take ((cbcUpdate P c x).1.length - c.B),
        (cbcUpdate P c x).2.hold ((cbcUpdate P c x).1.drop ((cbcUpdate P c x).1.length - c.B))) := by
  unfold cbcPadDecUpdate
  dsimp only
  rw [if_neg (by rwa [List.length_eq_zero_iff])]
  rfl

/-- CBC chaining does not look at the held block. -/
theorem cbcUpdate_hold (P : Prim) (c : Context) (l x : Bytes) :
    cbcUpdate P (c.hold l) x = ((cbcUpdate P c x).1, (cbcUpdate P c x).2.hold l) := rfl

@[simp] theorem Context.hold_hold (c : Context) (l l' : Bytes) : (c.hold l).hold l' = c.hold l' := rfl

@[simp] theorem Context.held_hold (c : Context) (l : Bytes) : (c.hold l).held = l := rfl

@[simp] theorem Context.hold_B (c : Context) (l : Bytes) : (c.hold l).B = c.B := rfl

theorem cbcUpdate_B (P : Prim) (c : Context) (x : Bytes) : (cbcUpdate P c x).2.B = c.B := rfl

/-- A CBC UPDATE that emits anything emits a block at least. -/
theorem B_le_cbcUpdate_length {c : Context} (hok : c.Ok) (hm : c.mode ≠ .ecb) {x : Bytes}
    (h : (cbcUpdate Prim.external c x).1 ≠ []) : c.B ≤ (cbcUpdate Prim.external c x).1.length := by
  have hpos := List.length_pos_iff.mpr h
  rw [cbcUpdate_length hok hm] at hpos ⊢
  exact Nat.le_mul_of_pos_left _ (Nat.pos_of_mul_pos_right hpos)

theorem cbcPadDecUpdate_append {c : Context} (hok : c.Ok) (hm : c.mode = .cbcPad) (x y : Bytes) :
    cbcPadDecUpdate Prim.external c (x ++ y) =
      ((cbcPadDecUpdate Prim.external c x).1 ++
          (cbcPadDecUpdate Prim.external (cbcPadDecUpdate Prim.external c x).2 y).1,
        (cbcPadDecUpdate Prim.external (cbcPadDecUpdate Prim.external c x).2 y).2) := by
  have happ := cbcUpdate_append Prim.external c x y
  by_cases hx : (cbcUpdate Prim.external c x).1 = []
  · rw [cbcPadDecUpdate_of_nil hx]
    rw [hx, List.nil_append] at happ
    unfold cbcPadDecUpdate
    rw [happ]
    rfl
  · rw [cbcPadDecUpdate_of_ne_nil hx, cbcPadDecUpdate_of_ne_nil (x := x ++ y) (by simp [happ, hx]), happ]
    by_cases hy : (cbcUpdate Prim.external (cbcUpdate Prim.external c x).2 y).1 = []
    · rw [cbcPadDecUpdate_of_nil (by rw [cbcUpdate_hold]; exact hy), cbcUpdate_hold]
      simp only [hy, List.append_nil]
    · have hB : c.B ≤ (cbcUpdate Prim.external (cbcUpdate Prim.external c x).2 y).1.length :=
        B_le_cbcUpdate_length (cbcUpdate_ok hok (.inr hm) x) (show c.mode ≠ .ecb by simp [hm]) hy
      rw [cbcPadDecUpdate_of_ne_nil (by rw [cbcUpdate_hold]; exact hy), cbcUpdate_hold]
      simp only [Context.held_hold, Context.hold_hold, Context.hold_B, cbcUpdate_B, List.length_append,
        Nat.add_sub_assoc hB, List.take_length_add_append, List.drop_length_add_append]
      rw [List.append_assoc, ← List.append_assoc (List.take _ _), List.take_append_drop]

/-! ### XOR -/

/-- XOR of a string in two parts. -/
theorem xorBytes_append {a b K : Bytes} (h : a.length ≤ K.length) :
    xorBytes (a ++ b) K = xorBytes a (K.take a.length) ++ xorBytes b (K.drop a.length) := by
  conv_lhs => rw [← List.take_append_drop a.length K]
  exact List.zipWith_append (by simp [h])

/-- XOR does not look beyond the shorter string. -/
theorem xorBytes_take (a K : Bytes) : xorBytes a (K.take a.length) = xorBytes a K := by
  have h := List.take_zipWith (f := fun x y : Byte => x ^^^ y) (l := a) (l' := K) (i := a.length)
  rw [List.take_of_length_le (by simp), List.take_length] at h
  exact h.symm

theorem take_xorBytes_pad0 (X K : Bytes) (B : Nat) : (xorBytes (pad0 X B) K).take X.length = xorBytes X K := by
  unfold xorBytes pad0
  rw [List.take_zipWith, List.take_left' rfl]
  exact xorBytes_take X K

/-- XOR with the same keystream twice gives the string back. -/
theorem xorBytes_xorBytes {a K : Bytes} (h : a.length ≤ K.length) : xorBytes (xorBytes a K) K = a := by
  refine List.ext_getElem (by simp [h]) fun i _ _ => ?_
  simp [xorBytes]

/-! ### The stream function in two parts -/

/-- With no byte cached the stream function is the block loop (40 R165). -/
theorem stream_of_pad_zero (E : Bytes → Bytes) (p : StreamParams) {k : Keystream} (hk : k.pad = 0) (xs : Bytes) :
    stream E p k xs = streamBlocks E p k (chunks p.B xs) := by
  have hd : drain p k xs = ([], k, xs) := by
    cases xs with
    | nil => rfl
    | cons x xs => rw [drain, if_pos hk]
  unfold stream
  rw [hd]
  rfl

/-- With a byte cached the stream function takes its first byte from the cache (40 R167). -/
theorem stream_cons_of_pad_ne_zero (E : Bytes → Bytes) (p : StreamParams) {k : Keystream} (hk : k.pad ≠ 0) (x : Byte)
    (xs : Bytes) :
    stream E p k (x :: xs) =
      ((drainByte p k x).1 :: (stream E p (drainByte p k x).2 xs).1, (stream E p (drainByte p k x).2 xs).2) := by
  unfold stream
  rw [drain, if_neg hk]
  rfl

theorem stream_nil (E : Bytes → Bytes) (p : StreamParams) (hB : 0 < p.B) (k : Keystream) :
    stream E p k [] = ([], k) := by
  simp [stream, drain, chunks_nil hB, streamBlocks]

/-- The blocks' output depends on the keystream through its iv alone. -/
theorem streamBlocks_fst_congr (E : Bytes → Bytes) (p : StreamParams) {k k' : Keystream} (h : k.iv = k'.iv)
    (Xs : List Bytes) : (streamBlocks E p k Xs).1 = (streamBlocks E p k' Xs).1 := by
  induction Xs generalizing k k' with
  | nil => rfl
  | cons X Xs ih =>
    have hout : (streamBlock E p k X).1 = (streamBlock E p k' X).1 := by simp only [streamBlock, h]
    have hiv : (streamBlock E p k X).2.iv = (streamBlock E p k' X).2.iv := by
      simp only [streamBlock, h]
      split <;> rfl
    simp only [streamBlocks, hout, ih hiv]

/-- Input that the cache covers is drained, and the rest goes on from the drained keystream (40 R165, R167). -/
theorem stream_append_of_cached (E : Bytes → Bytes) (p : StreamParams) {k : Keystream} {y : Bytes}
    (h : y.length ≤ k.pad) (z : Bytes) :
    stream E p k (y ++ z) =
      ((drain p k y).1 ++ (stream E p (drain p k y).2.1 z).1, (stream E p (drain p k y).2.1 z).2) := by
  induction y generalizing k with
  | nil => rfl
  | cons y ys ih =>
    rw [List.length_cons] at h
    have hk : k.pad ≠ 0 := by omega
    rw [List.cons_append, stream_cons_of_pad_ne_zero E p hk, ih (by simp [drainByte]; omega), drain, if_neg hk]
    rfl

/-- A block's output is its bytes XORed with the keystream (40 R163, R168). -/
theorem streamBlock_fst (E : Bytes → Bytes) (p : StreamParams) (k : Keystream) (X : Bytes) :
    (streamBlock E p k X).1 = xorBytes X (E k.iv) := take_xorBytes_pad0 _ _ _

/-- What CFB feeds back of a block, its ciphertext. -/
def StreamParams.feedback (p : StreamParams) (X Y : Bytes) : Bytes := if p.cfb ∧ p.dir = .dec then X else Y

theorem StreamParams.feedback_append (p : StreamParams) (X X' Y Y' : Bytes) :
    p.feedback (X ++ X') (Y ++ Y') = p.feedback X Y ++ p.feedback X' Y' := by
  unfold StreamParams.feedback
  split <;> rfl

theorem StreamParams.feedback_length (p : StreamParams) {X Y : Bytes} (h : Y.length = X.length) :
    (p.feedback X Y).length = X.length := by
  unfold StreamParams.feedback
  split
  · rfl
  · exact h

/-- A partial block leaves the rest of its keystream in the cache (40 R168). -/
theorem streamBlock_snd_of_lt (E : Bytes → Bytes) (p : StreamParams) (k : Keystream) {X : Bytes} (h : X.length < p.B) :
    (streamBlock E p k X).2 =
      { iv := if p.cfb then k.iv else inc k.iv p.counterBits
        last := p.feedback X (xorBytes X (E k.iv)) ++ (E k.iv).drop X.length
        pad := p.B - X.length } := by
  unfold streamBlock StreamParams.feedback
  dsimp only
  rw [if_neg (Nat.ne_of_lt h)]
  congr 2
  split
  · exact List.take_left' rfl
  · exact take_xorBytes_pad0 _ _ _

/-- A whole block moves the iv on (40 R163, R164). -/
theorem streamBlock_snd_of_eq (E : Bytes → Bytes) (p : StreamParams) (k : Keystream) {X : Bytes} (h : X.length = p.B) :
    (streamBlock E p k X).2 =
      { k with iv := if p.cfb then p.feedback X (xorBytes X (E k.iv)) else inc k.iv p.counterBits } := by
  have hX : pad0 X p.B = X := by simp [pad0, zeros, h]
  unfold streamBlock StreamParams.feedback
  simp only [h, if_true, hX]
  cases p.cfb <;> simp

/-- A whole block first: the stream function goes on from the keystream it leaves (40 R165). -/
theorem stream_block_append (E : Bytes → Bytes) (p : StreamParams) (hB : 0 < p.B) {k : Keystream} (hk : k.pad = 0)
    {X : Bytes} (hX : X.length = p.B) (z : Bytes) :
    stream E p k (X ++ z) =
      ((streamBlock E p k X).1 ++ (stream E p (streamBlock E p k X).2 z).1,
        (stream E p (streamBlock E p k X).2 z).2) := by
  have hpad : (streamBlock E p k X).2.pad = 0 := by rw [streamBlock_snd_of_eq E p k hX, hk]
  rw [stream_of_pad_zero E p hk, chunks_block_append hB hX, stream_of_pad_zero E p hpad]
  rfl

/-- Draining the whole cache moves the iv on: to the block fed back in CFB (40 R167). -/
theorem drain_iv (p : StreamParams) {k : Keystream} {y : Bytes} (h : y.length = k.pad) (hy : y ≠ []) :
    (drain p k y).2.1.iv = if p.cfb then (drain p k y).2.1.last else k.iv := by
  induction y generalizing k with
  | nil => exact absurd rfl hy
  | cons y ys ih =>
    rw [List.length_cons] at h
    rw [drain, if_neg (by omega)]
    by_cases hys : ys = []
    · subst hys
      simp [drain, drainByte, ← h]
    · have hiv : (drainByte p k y).2.iv = k.iv := by
        have := List.length_pos_iff.mpr hys
        exact if_neg fun h0 => by omega
      exact hiv ▸ ih (by simp [drainByte, ← h]) hys

/-- Draining the whole cache in CFB fills the block fed back (40 R167). -/
theorem drain_last (p : StreamParams) {k : Keystream} {y : Bytes} (hc : p.cfb = true) (h : y.length = k.pad)
    (hp : k.pad ≤ p.B) (hl : k.last.length = p.B) :
    (drain p k y).2.1.last =
      k.last.take (p.B - k.pad) ++ p.feedback y (xorBytes y (k.last.drop (p.B - k.pad))) := by
  induction y generalizing k with
  | nil => simp [drain, ← h, ← hl, StreamParams.feedback, xorBytes]
  | cons y ys ih =>
    rw [List.length_cons] at h
    have hj : p.B - k.pad < k.last.length := by omega
    have hj' : p.B - (drainByte p k y).2.pad = p.B - k.pad + 1 := by simp [drainByte]; omega
    rw [drain, if_neg (by omega)]
    dsimp only
    rw [ih (by simp [drainByte, ← h]) (by simp [drainByte]; omega) (by simp [drainByte, hc, hl]), hj']
    have htake (b : Byte) : (k.last.set (p.B - k.pad) b).take (p.B - k.pad + 1) = k.last.take (p.B - k.pad) ++ [b] := by
      rw [List.take_succ_eq_append_getElem (by simpa using hj)]
      simp [List.take_set_of_le]
    have hdrop (b : Byte) : (k.last.set (p.B - k.pad) b).drop (p.B - k.pad + 1) = k.last.drop (p.B - k.pad + 1) :=
      List.drop_set_of_lt (by omega)
    simp only [drainByte, hc, if_true, htake, hdrop, List.drop_eq_getElem_cons hj, StreamParams.feedback, xorBytes,
      List.zipWith_cons_cons, true_and, List.getD_eq_getElem _ _ hj]
    cases p.dir <;> simp

section
variable {E : Bytes → Bytes} {p : StreamParams} (hB : 0 < p.B) (hE : ∀ X, (E X).length = p.B)
include hE

/-- A block whose second part is drained from the cache leaves the iv that the whole block leaves (40 R165). -/
theorem drain_streamBlock_iv (k : Keystream) {x y : Bytes} (hy : y ≠ []) (h : x.length + y.length = p.B) :
    (drain p (streamBlock E p k x).2 y).2.1.iv = (streamBlock E p k (x ++ y)).2.iv := by
  have hlt : x.length < p.B := by
    have := List.length_pos_iff.mpr hy
    omega
  have hpad : y.length = (streamBlock E p k x).2.pad := by
    rw [streamBlock_snd_of_lt E p k hlt]
    exact Nat.eq_sub_of_add_eq' h
  have hfb := p.feedback_length (X := x) (Y := xorBytes x (E k.iv)) (by simp [hE, hlt.le])
  rw [drain_iv p hpad hy, streamBlock_snd_of_eq E p k (X := x ++ y) (by rw [List.length_append, h])]
  cases hc : p.cfb
  · simp [streamBlock_snd_of_lt E p k hlt, hc]
  · rw [if_pos rfl, if_pos rfl, drain_last p hc hpad (by rw [← hpad]; omega), ← hpad,
      streamBlock_snd_of_lt E p k hlt, show p.B - y.length = x.length by omega, List.take_left' hfb,
      List.drop_left' hfb, xorBytes_append (by simp [hE, hlt.le]), xorBytes_take, StreamParams.feedback_append]
    rw [streamBlock_snd_of_lt E p k hlt]
    simp [hfb, hE]
    omega

include hB

/-- A partial block first: the rest of its keystream block meets the input that follows (40 R165). -/
theorem stream_append_fst_of_lt {k : Keystream} (hk : k.pad = 0) {x : Bytes} (hx : x ≠ []) (hlt : x.length < p.B)
    (y : Bytes) : (stream E p k (x ++ y)).1 = (stream E p k x).1 ++ (stream E p (stream E p k x).2 y).1 := by
  obtain ⟨n, hn⟩ : ∃ n, n = p.B - x.length := ⟨_, rfl⟩
  have hone : stream E p k x = streamBlock E p k x := by
    rw [stream_of_pad_zero E p hk, chunks_of_length_le hB hx hlt.le]
    simp [streamBlocks]
  have htwo : stream E p k (x ++ y) = streamBlocks E p k ((x ++ y.take n) :: chunks p.B (y.drop n)) := by
    rw [stream_of_pad_zero E p hk, chunks_step hB (by simp [hx]), List.take_append, List.drop_append,
      List.take_of_length_le hlt.le, List.drop_of_length_le hlt.le, ← hn, List.nil_append]
  have hsnd := streamBlock_snd_of_lt E p k hlt
  have hfb := p.feedback_length (X := x) (Y := xorBytes x (E k.iv)) (by simp [hE, hlt.le])
  have hpad : (streamBlock E p k x).2.pad = n := by rw [hsnd, hn]
  have hlen : (streamBlock E p k x).2.last.length = p.B := by
    rw [hsnd]
    simp [hfb, hE]
    omega
  have hlast : (streamBlock E p k x).2.last.drop (p.B - n) = (E k.iv).drop x.length := by
    rw [hsnd, hn, Nat.sub_sub_self hlt.le, List.drop_left' hfb]
  obtain ⟨hout, -⟩ := drain_cached p (streamBlock E p k x).2 (y.take n) (by simp [hpad]) (by omega) fun _ => hlen
  have hrest : (streamBlocks E p (streamBlock E p k (x ++ y.take n)).2 (chunks p.B (y.drop n))).1 =
      (stream E p (drain p (streamBlock E p k x).2 (y.take n)).2.1 (y.drop n)).1 := by
    by_cases hle : y.length ≤ n
    · rw [List.drop_of_length_le hle, chunks_nil hB, stream_nil E p hB]
      rfl
    · have htake : (y.take n).length = n := List.length_take_of_le (by omega)
      rw [stream_of_pad_zero E p (by rw [(drain_pad _ _ _).1, hpad, htake, Nat.sub_self])]
      exact streamBlocks_fst_congr E p
        (drain_streamBlock_iv hE k (List.ne_nil_of_length_pos (by omega)) (by omega)).symm _
  conv_rhs => rw [← List.take_append_drop n y]
  rw [hone, htwo, stream_append_of_cached E p (by simp [hpad]), hout, hpad, hlast, streamBlocks, hrest,
    streamBlock_fst, streamBlock_fst, xorBytes_append (by simp [hE, hlt.le]), xorBytes_take, List.append_assoc]

/-- The output for an input in two parts is the output for the first and then, from the keystream it leaves, for the
second (40 R165, R166). -/
theorem stream_append_fst_of_pad_zero {k : Keystream} (hk : k.pad = 0) (x y : Bytes) :
    (stream E p k (x ++ y)).1 = (stream E p k x).1 ++ (stream E p (stream E p k x).2 y).1 := by
  induction x using chunks_induction hB generalizing k with
  | nil => rw [stream_nil E p hB]; rfl
  | step x hx ih =>
    by_cases hlt : x.length < p.B
    · exact stream_append_fst_of_lt hB hE hk hx hlt y
    · have hlen : (x.take p.B).length = p.B := List.length_take_of_le (Nat.le_of_not_lt hlt)
      have hpad : (streamBlock E p k (x.take p.B)).2.pad = 0 := by rw [streamBlock_snd_of_eq E p k hlen, hk]
      have hx' := stream_block_append E p hB hk hlen (x.drop p.B)
      rw [List.take_append_drop] at hx'
      conv_lhs => rw [← List.take_append_drop p.B x, List.append_assoc, stream_block_append E p hB hk hlen, ih hpad]
      rw [hx', List.append_assoc]

/-- The same from any keystream: bytes cached are drained first. -/
theorem stream_append_fst (k : Keystream) (x y : Bytes) :
    (stream E p k (x ++ y)).1 = (stream E p k x).1 ++ (stream E p (stream E p k x).2 y).1 := by
  induction x generalizing k with
  | nil => rw [stream_nil E p hB]; rfl
  | cons b x ih =>
    by_cases hk : k.pad = 0
    · exact stream_append_fst_of_pad_zero hB hE hk (b :: x) y
    · rw [List.cons_append, stream_cons_of_pad_ne_zero E p hk, stream_cons_of_pad_ne_zero E p hk, ih]
      rfl

end

/-! ### Decryption undoes encryption, block by block -/

/-- ECB decryption undoes ECB encryption (40 R154). -/
theorem ecbBlocks_dec_enc {E D : Bytes → Bytes} {B : Nat} (hB : 0 < B) (hE : ∀ X, (E X).length = B)
    (hD : ∀ X : Bytes, X.length = B → D (E X) = X) {Xs : List Bytes} (hX : ∀ X ∈ Xs, X.length = B) :
    ecbBlocks D (chunks B (ecbBlocks E Xs)) = Xs.flatten := by
  induction Xs with
  | nil => simp [ecbBlocks, chunks_nil hB]
  | cons X Xs ih =>
    have := ih fun Y hY => hX Y (by simp [hY])
    simp only [ecbBlocks, List.flatMap_cons, List.flatten_cons] at this ⊢
    rw [chunks_block_append hB (hE X), List.flatMap_cons, hD X (hX X (by simp)), this]

/-- CBC decryption undoes CBC encryption under the same chaining value (40 R156). -/
theorem cbcDecBlocks_enc {E D : Bytes → Bytes} {B : Nat} (hB : 0 < B) (hE : ∀ X, (E X).length = B)
    (hD : ∀ X : Bytes, X.length = B → D (E X) = X) {v : Bytes} (hv : v.length = B) {Xs : List Bytes}
    (hX : ∀ X ∈ Xs, X.length = B) :
    (cbcDecBlocks D v (chunks B (cbcEncBlocks E v Xs).1)).1 = Xs.flatten := by
  induction Xs generalizing v with
  | nil => simp [cbcEncBlocks, chunks_nil hB, cbcDecBlocks]
  | cons X Xs ih =>
    have hl : X.length = B := hX X (by simp)
    simp only [cbcEncBlocks, List.flatten_cons]
    rw [chunks_block_append hB (hE _), cbcDecBlocks, ih (hE _) fun Y hY => hX Y (by simp [hY]), hD _ (by simp [hl, hv]),
      xorBytes_xorBytes (by omega)]

/-- CFB and CTR decryption undo encryption under the same iv: both directions XOR the same keystream, since CFB feeds the
ciphertext back in both (40 R163, R164). -/
theorem streamBlocks_dec_enc {E : Bytes → Bytes} {p : StreamParams} (hB : 0 < p.B) (hE : ∀ X, (E X).length = p.B)
    (hp : p.dir = .enc) {k k' : Keystream} (hk : k'.iv = k.iv) (P : Bytes) :
    (streamBlocks E { p with dir := .dec } k' (chunks p.B (streamBlocks E p k (chunks p.B P)).1)).1 = P := by
  induction P using chunks_induction hB generalizing k k' with
  | nil => simp [chunks_nil hB, streamBlocks]
  | step P hP ih =>
    have hX : xorBytes (xorBytes (P.take p.B) (E k.iv)) (E k.iv) = P.take p.B := xorBytes_xorBytes (by simp [hE])
    by_cases hle : P.length < p.B
    · have hY : (xorBytes P (E k.iv)).length = P.length := by simp [hE, hle.le]
      have hYne : xorBytes P (E k.iv) ≠ [] := List.ne_nil_of_length_pos (hY ▸ List.length_pos_iff.mpr hP)
      rw [List.take_of_length_le hle.le] at hX
      simp only [chunks_of_length_le hB hP hle.le, streamBlocks, streamBlock_fst, List.append_nil,
        chunks_of_length_le hB hYne (hY.trans_le hle.le), hk, hX]
    · have hXl : (P.take p.B).length = p.B := List.length_take_of_le (Nat.le_of_not_lt hle)
      have hYl : (xorBytes (P.take p.B) (E k.iv)).length = p.B := by simp [hE, Nat.le_of_not_lt hle]
      have hiv : (streamBlock E { p with dir := .dec } k' (xorBytes (P.take p.B) (E k.iv))).2.iv =
          (streamBlock E p k (P.take p.B)).2.iv := by
        rw [streamBlock_snd_of_eq E { p with dir := .dec } k' hYl, streamBlock_snd_of_eq E p k hXl]
        cases hc : p.cfb <;> simp [StreamParams.feedback, hp, hc, hk]
      rw [chunks_step hB hP, streamBlocks, streamBlock_fst, chunks_block_append hB hYl, streamBlocks, streamBlock_fst, hk,
        hX]
      show _ ++ (streamBlocks E _ _ _).1 = P
      rw [ih hiv, List.take_append_drop]

/-! ### UPDATE and FINAL of the modes without a tag -/

theorem Context.update_ecb {c : Context} (hm : c.mode = .ecb) (x : Bytes) :
    c.update x = .ok (ecbUpdate Prim.external c x) := by
  simp [Context.update, Context.updateError, hm]

theorem Context.update_cbc {c : Context} (hm : c.mode = .cbc) (x : Bytes) :
    c.update x = .ok (cbcUpdate Prim.external c x) := by
  simp [Context.update, Context.updateError, hm]

theorem Context.update_cbcPad_enc {c : Context} (hm : c.mode = .cbcPad) (hd : c.dir = .enc) (x : Bytes) :
    c.update x = .ok (cbcUpdate Prim.external c x) := by
  simp [Context.update, Context.updateError, hm, hd]

theorem Context.update_cbcPad_dec {c : Context} (hm : c.mode = .cbcPad) (hd : c.dir = .dec) (x : Bytes) :
    c.update x = .ok (cbcPadDecUpdate Prim.external c x) := by
  simp [Context.update, Context.updateError, hm, hd]

theorem Context.update_stream {c : Context} (hm : c.mode = .cfb ∨ c.mode = .ctr) (x : Bytes) :
    c.update x = .ok (streamUpdate Prim.external c x) := by
  rcases hm with hm | hm <;> simp [Context.update, Context.updateError, hm]

theorem Context.final_block {c : Context} (hm : c.mode = .ecb ∨ c.mode = .cbc) :
    c.final = if c.residue = [] then .ok [] else .error (lengthStatus c.dir) := by
  by_cases hr : c.residue = [] <;> rcases hm with hm | hm <;> simp [Context.final, Context.finalError, hm, hr]

theorem Context.final_stream {c : Context} (hm : c.mode = .cfb ∨ c.mode = .ctr) : c.final = .ok [] := by
  rcases hm with hm | hm <;> simp [Context.final, Context.finalError, hm]

theorem Context.final_cbcPad_enc {c : Context} (hm : c.mode = .cbcPad) (hd : c.dir = .enc) :
    c.final = .ok (cbcEncBlocks (encryptBlock c.ks) c.iv (chunks c.B (pad c.residue c.B))).1 := by
  simp [Context.final, Context.finalError, hm, hd]

theorem Context.final_cbcPad_dec {c : Context} (hm : c.mode = .cbcPad) (hd : c.dir = .dec) (hr : c.residue = [])
    (hv : c.heldValid = true) (h1 : 1 ≤ padByte c.lastBlock) (h2 : padByte c.lastBlock ≤ c.B) :
    c.final = .ok (c.lastBlock.take (c.B - padByte c.lastBlock)) := by
  have : ¬(padByte c.lastBlock = 0 ∨ c.B < padByte c.lastBlock) := by omega
  simp [Context.final, Context.finalError, hm, hd, hr, hv, this]

/-! ### A run depends on its input alone, not on how it is cut -/

theorem Context.run_cons {c c' : Context} {x y : Bytes} (h : c.update x = .ok (y, c')) (xs : List Bytes) :
    c.run (x :: xs) = (y ++ (c'.run xs).1, (c'.run xs).2) := by
  rw [Context.run, h]

theorem Context.run_nil_congr {c c' : Context} (h : c.final = c'.final) : c.run [] = c'.run [] := by
  rw [Context.run, Context.run, h]

/-- Two UPDATEs of `c` in a row succeed, emit what one UPDATE of both inputs emits, and leave the FINAL it leaves. -/
def Context.UpdatesJoin (c : Context) (x y : Bytes) : Prop :=
  ∃ u c₁ v c₂ c', c.update x = .ok (u, c₁) ∧ c₁.update y = .ok (v, c₂) ∧ c.update (x ++ y) = .ok (u ++ v, c') ∧
    c'.final = c₂.final

/-- UPDATEs join when the operation that they run joins. -/
theorem Context.updatesJoin_of {c : Context} {upd : Context → Bytes → Bytes × Context} {x y : Bytes}
    (hupd : ∀ c', c.SameFixed c' → ∀ z, c'.update z = .ok (upd c' z)) (hf : c.SameFixed (upd c x).2)
    (hout : (upd c (x ++ y)).1 = (upd c x).1 ++ (upd (upd c x).2 y).1)
    (hfin : (upd c (x ++ y)).2.final = (upd (upd c x).2 y).2.final) : c.UpdatesJoin x y := by
  refine ⟨(upd c x).1, (upd c x).2, (upd (upd c x).2 y).1, (upd (upd c x).2 y).2, (upd c (x ++ y)).2,
    hupd c (SameFixed.rfl' c) x, hupd _ hf y, ?_, hfin⟩
  rw [hupd c (SameFixed.rfl' c), ← hout]

theorem Context.updatesJoin_of_append {c : Context} {upd : Context → Bytes → Bytes × Context} {x y : Bytes}
    (hupd : ∀ c', c.SameFixed c' → ∀ z, c'.update z = .ok (upd c' z)) (hf : c.SameFixed (upd c x).2)
    (happ : upd c (x ++ y) = ((upd c x).1 ++ (upd (upd c x).2 y).1, (upd (upd c x).2 y).2)) : c.UpdatesJoin x y :=
  updatesJoin_of hupd hf (congrArg Prod.fst happ) (congrArg (fun r => r.2.final) happ)

theorem Context.updatesJoin_stream {c : Context} (hok : c.Ok) (hm : c.mode = .cfb ∨ c.mode = .ctr) (x y : Bytes) :
    c.UpdatesJoin x y := by
  have hf := sameFixed_streamUpdate Prim.external c x
  have hfin {c' : Context} (h : c'.mode = c.mode) : c'.final = .ok [] := final_stream (h.symm ▸ hm)
  refine updatesJoin_of (fun c' h => update_stream (h.mode.symm ▸ hm)) hf
    (stream_append_fst c.B_pos hok.E_length c.keystream x y) ?_
  rw [hfin (sameFixed_streamUpdate _ c (x ++ y)).mode, hfin ((sameFixed_streamUpdate _ _ y).mode.trans hf.mode)]

/-- However the input of two UPDATEs of a mode without a tag is cut, the outcome is the same (44 R470). -/
theorem Context.updatesJoin {c : Context} (hok : c.Ok) (ha : aeadMode c.mode = false) (x y : Bytes) :
    c.UpdatesJoin x y := by
  cases hm : c.mode with
  | ecb =>
    exact updatesJoin_of_append (fun c' h => update_ecb (h.mode.trans hm))
      (sameFixed_ecbUpdate _ c x) (ecbUpdate_append _ c x y)
  | cbc =>
    exact updatesJoin_of_append (fun c' h => update_cbc (h.mode.trans hm))
      (sameFixed_cbcUpdate _ c x) (cbcUpdate_append _ c x y)
  | cbcPad =>
    cases hd : c.dir with
    | enc =>
      exact updatesJoin_of_append (fun c' h => update_cbcPad_enc (h.mode.trans hm) (h.dir.trans hd))
        (sameFixed_cbcUpdate _ c x) (cbcUpdate_append _ c x y)
    | dec =>
      exact updatesJoin_of_append (fun c' h => update_cbcPad_dec (h.mode.trans hm) (h.dir.trans hd))
        (sameFixed_cbcPadDecUpdate _ c x) (cbcPadDecUpdate_append hok hm x y)
  | cfb => exact updatesJoin_stream hok (.inl hm) x y
  | ctr => exact updatesJoin_stream hok (.inr hm) x y
  | ccm | gcm | gmac => rw [hm] at ha; cases ha

/-- In a mode without a tag a run gives the same output and status however its input is cut (44 R470). -/
theorem Context.run_eq_run_flatten {c : Context} (hok : c.Ok) (ha : aeadMode c.mode = false) (xs : List Bytes) :
    c.run xs = c.run [xs.flatten] := by
  induction xs generalizing c with
  | nil => rw [List.flatten_nil, run_cons (update_nil hok)]; rfl
  | cons x xs ih =>
    obtain ⟨u, c₁, v, c₂, c', hx, hy, hxy, hfin⟩ := updatesJoin hok ha x xs.flatten
    obtain ⟨-, hok₁, hf⟩ := update_spec hok hx
    rw [run_cons hx, ih hok₁ (hf.mode ▸ ha), run_cons hy, List.flatten_cons, run_cons hxy, run_nil_congr hfin,
      List.append_assoc]

/-! ### The round trip in each mode -/

/-- The context with its direction turned to decryption. -/
def Context.decrypting (c : Context) : Context := { c with dir := .dec }

/-- The two directions' contexts differ in the direction alone (10 R55). -/
theorem initContext_dec (P : Prim) (m : Mode) (a : Alg) (o : Operands) :
    initContext P m .dec a o = (initContext P m .enc a o).decrypting := by cases m <;> rfl

theorem Context.run_single_of {c c' : Context} {x y z : Bytes} (h : c.update x = .ok (y, c')) (hf : c'.final = .ok z) :
    c.run [x] = (y ++ z, .success) := by
  rw [run_cons h, run, hf]

/-- A FINAL that fails gives the run its status. -/
theorem Context.run_single_snd {c c' : Context} {x y : Bytes} {st : Status} (h : c.update x = .ok (y, c'))
    (hf : c'.final = .error st) : (c.run [x]).2 = st := by
  rw [run_cons h, run, hf]

/-- An input of whole blocks is all handed on, and leaves no residue (40 R152). -/
theorem partition_of_whole {c : Context} (hr : c.residue = []) {x : Bytes} (hx : x.length % c.B = 0) :
    c.partition x = (chunks c.B x, c) := by
  simp only [Context.partition, hr, List.nil_append, Nat.div_mul_cancel (Nat.dvd_of_mod_eq_zero hx), List.take_length,
    List.drop_length]
  rw [← hr]

theorem lengthStatus_ne_success (d : Dir) : lengthStatus d ≠ .success := by cases d <;> decide

/-- A run of ECB or CBC succeeds on whole blocks only (44 R474). -/
theorem Context.whole_of_run_success {c : Context} (hm : c.mode = .ecb ∨ c.mode = .cbc) (hr : c.residue = [])
    {x : Bytes} (h : (c.run [x]).2 = .success) : x.length % c.B = 0 := by
  obtain ⟨y, c', hupd, hmode, hres⟩ : ∃ y c', c.update x = .ok (y, c') ∧ c'.mode = c.mode ∧
      c'.residue = (c.partition x).2.residue := by
    rcases hm with hm | hm
    · exact ⟨(ecbUpdate Prim.external c x).1, (ecbUpdate Prim.external c x).2, update_ecb hm x, rfl, rfl⟩
    · exact ⟨(cbcUpdate Prim.external c x).1, (cbcUpdate Prim.external c x).2, update_cbc hm x, rfl, rfl⟩
  have hnil : c'.residue = [] := by
    by_contra hne
    have hfin : c'.final = .error (lengthStatus c'.dir) := by rw [final_block (hmode.symm ▸ hm), if_neg hne]
    exact lengthStatus_ne_success _ ((run_single_snd hupd hfin).symm.trans h)
  have := partition_residue_length c x
  rw [← hres, hnil, hr] at this
  simpa using this.symm

/-- A run of ECB on whole blocks (40 R154). -/
theorem Context.run_ecb {c : Context} (hm : c.mode = .ecb) (hr : c.residue = []) {x : Bytes} (hx : x.length % c.B = 0) :
    c.run [x] = (ecbBlocks (match c.dir with
      | .enc => encryptBlock c.ks
      | .dec => decryptBlock c.ks) (chunks c.B x), .success) := by
  have hpart := partition_of_whole hr hx
  have hfin : (ecbUpdate Prim.external c x).2.final = .ok [] := by
    rw [final_block (c := (ecbUpdate Prim.external c x).2) (.inl hm), if_pos]
    exact (congrArg (fun q => q.2.residue) hpart).trans hr
  rw [run_single_of (update_ecb hm x) hfin, List.append_nil, hpart]
  rfl

/-- A run of CBC on whole blocks (40 R156). -/
theorem Context.run_cbc {c : Context} (hm : c.mode = .cbc) (hr : c.residue = []) {x : Bytes} (hx : x.length % c.B = 0) :
    c.run [x] = ((match c.dir with
      | .enc => cbcEncBlocks (encryptBlock c.ks) c.iv (chunks c.B x)
      | .dec => cbcDecBlocks (decryptBlock c.ks) c.iv (chunks c.B x)).1, .success) := by
  have hpart := partition_of_whole hr hx
  have hfin : (cbcUpdate Prim.external c x).2.final = .ok [] := by
    rw [final_block (c := (cbcUpdate Prim.external c x).2) (.inr hm), if_pos]
    exact (congrArg (fun q => q.2.residue) hpart).trans hr
  rw [run_single_of (update_cbc hm x) hfin, List.append_nil, hpart]
  rfl

/-- A run of CFB and CTR (40 R165). -/
theorem Context.run_stream {c : Context} (hm : c.mode = .cfb ∨ c.mode = .ctr) (x : Bytes) :
    c.run [x] = ((stream (encryptBlock c.ks) c.streamParams c.keystream x).1, .success) := by
  have hf := (sameFixed_streamUpdate Prim.external c x).mode
  rw [run_single_of (update_stream hm x) (final_stream (hf.symm ▸ hm)), List.append_nil]
  rfl

/-- CBC decryption undoes CBC encryption of whole blocks under a context's key and iv (40 R156). -/
theorem Context.Ok.cbcDecBlocks_encrypt {c : Context} (hok : c.Ok) (hm : c.mode ≠ .ecb) {x : Bytes}
    (hx : x.length % c.B = 0) :
    (cbcDecBlocks (decryptBlock c.ks) c.iv (chunks c.B (cbcEncBlocks (encryptBlock c.ks) c.iv (chunks c.B x)).1)).1 =
      x := by
  rw [cbcDecBlocks_enc c.B_pos hok.E_length, chunks_flatten c.B_pos]
  · exact fun X hX => decryptBlock_encryptBlock _ (by rw [hX, hok.schedule]; rfl)
  · exact hok.iv_block hm
  · exact fun X hX => length_of_mem_chunks c.B_pos hx hX

/-- ECB decryption undoes ECB encryption (40 R154). -/
theorem Context.run_decrypting_ecb {c : Context} (hok : c.Ok) (hm : c.mode = .ecb) (hd : c.dir = .enc)
    (hr : c.residue = []) {P C : Bytes} (h : c.run [P] = (C, .success)) : c.decrypting.run [C] = (P, .success) := by
  have hP : P.length % c.B = 0 := whole_of_run_success (.inl hm) hr (by rw [h])
  rw [run_ecb hm hr hP, hd] at h
  obtain rfl : ecbBlocks (encryptBlock c.ks) (chunks c.B P) = C := congrArg Prod.fst h
  rw [run_ecb (c := c.decrypting) hm hr]
  · show (ecbBlocks (decryptBlock c.ks) (chunks c.B _), _) = _
    rw [ecbBlocks_dec_enc c.B_pos hok.E_length, chunks_flatten c.B_pos]
    · exact fun X hX => decryptBlock_encryptBlock _ (by rw [hX, hok.schedule]; rfl)
    · exact fun X hX => length_of_mem_chunks c.B_pos hP hX
  · show _ % c.B = 0
    rw [ecbBlocks_length hok.E_length, Nat.mul_mod_left]

/-- CBC decryption undoes CBC encryption (40 R156). -/
theorem Context.run_decrypting_cbc {c : Context} (hok : c.Ok) (hm : c.mode = .cbc) (hd : c.dir = .enc)
    (hr : c.residue = []) {P C : Bytes} (h : c.run [P] = (C, .success)) : c.decrypting.run [C] = (P, .success) := by
  have hP : P.length % c.B = 0 := whole_of_run_success (.inr hm) hr (by rw [h])
  rw [run_cbc hm hr hP, hd] at h
  obtain rfl : (cbcEncBlocks (encryptBlock c.ks) c.iv (chunks c.B P)).1 = C := congrArg Prod.fst h
  rw [run_cbc (c := c.decrypting) hm hr]
  · show ((cbcDecBlocks (decryptBlock c.ks) c.iv (chunks c.B _)).1, _) = _
    rw [hok.cbcDecBlocks_encrypt (by simp [hm]) hP]
  · show _ % c.B = 0
    rw [cbcEncBlocks_length hok.E_length, Nat.mul_mod_left]

/-- CFB and CTR decryption undo encryption (40 R165). -/
theorem Context.run_decrypting_stream {c : Context} (hok : c.Ok) (hm : c.mode = .cfb ∨ c.mode = .ctr)
    (hd : c.dir = .enc) (hp : c.lbPad = 0) {P C : Bytes} (h : c.run [P] = (C, .success)) :
    c.decrypting.run [C] = (P, .success) := by
  rw [run_stream hm] at h
  obtain rfl : (stream (encryptBlock c.ks) c.streamParams c.keystream P).1 = C := congrArg Prod.fst h
  have hround := streamBlocks_dec_enc (p := c.streamParams) c.B_pos hok.E_length hd (k := c.keystream) rfl P
  rw [run_stream (c := c.decrypting) hm, stream_of_pad_zero _ c.streamParams hp,
    stream_of_pad_zero _ c.decrypting.streamParams (k := c.decrypting.keystream) hp]
  exact congrArg (·, Status.success) hround

/-! ### CBC_PAD -/

/-- Whole blocks in front bear on no pad. -/
theorem pad_append {B : Nat} {W : Bytes} (hW : W.length % B = 0) (R : Bytes) : pad (W ++ R) B = W ++ pad R B := by
  simp [pad, Nat.add_mod, hW]

theorem pad_length {B : Nat} (hB : 0 < B) (x : Bytes) : (pad x B).length = (x.length / B + 1) * B := by
  have hdiv := Nat.div_add_mod x.length B
  have hlt := Nat.mod_lt x.length hB
  rw [Nat.mul_comm] at hdiv
  simp only [pad, List.length_append, List.length_replicate, Nat.add_mul, Nat.one_mul]
  omega

/-- The pad byte is the last part's. -/
theorem padByte_append (a : Bytes) {b : Bytes} (hb : b ≠ []) : padByte (a ++ b) = padByte b := by
  simp [padByte, List.getLastD_eq_getLast?, List.getLast?_append, List.getLast?_eq_some_getLast hb]

theorem blockSize_le (a : Alg) : blockSize a ≤ 255 := by cases a <;> decide

/-- The last byte of a padded string names the pad's length (41 R251, R252). -/
theorem padByte_pad {B : Nat} (hB : 0 < B) (hB' : B ≤ 255) (x : Bytes) : padByte (pad x B) = B - x.length % B := by
  have hlt := Nat.mod_lt x.length hB
  have hne : List.replicate (B - x.length % B) (BitVec.ofNat 8 (B - x.length % B)) ≠ [] := by simp; omega
  unfold pad
  dsimp only
  rw [padByte_append x hne, padByte, List.getLastD_eq_getLast?, List.getLast?_replicate, if_neg (by omega)]
  simp
  omega

/-- Dropping as many bytes as the pad has gives the padded string back (41 R253). -/
theorem take_pad (x : Bytes) (B : Nat) : (pad x B).take ((pad x B).length - (B - x.length % B)) = x := by
  simp [pad]

/-- A run of CBC_PAD encryption is CBC encryption of the padded input (41 R254, R264). -/
theorem Context.run_cbcPad_enc {c : Context} (hm : c.mode = .cbcPad) (hd : c.dir = .enc) (hr : c.residue = [])
    (x : Bytes) :
    c.run [x] = ((cbcEncBlocks (encryptBlock c.ks) c.iv (chunks c.B (pad x c.B))).1, .success) := by
  obtain ⟨n, hn⟩ : ∃ n, n = x.length / c.B * c.B := ⟨_, rfl⟩
  have hW : (x.take n).length % c.B = 0 := by rw [hn, length_take_whole, Nat.mul_mod_left]
  have hpad : pad x c.B = x.take n ++ pad (x.drop n) c.B := by rw [← pad_append hW, List.take_append_drop]
  have hupd : cbcUpdate Prim.external c x =
      ((cbcEncBlocks (encryptBlock c.ks) c.iv (chunks c.B (x.take n))).1,
        { c with
          residue := x.drop n
          iv := (cbcEncBlocks (encryptBlock c.ks) c.iv (chunks c.B (x.take n))).2 }) := by
    simp only [cbcUpdate, Context.partition, hr, hd, List.nil_append, ← hn]
    rfl
  rw [run_single_of ((update_cbcPad_enc hm hd x).trans (congrArg _ hupd)) (final_cbcPad_enc hm hd), hpad,
    chunks_append c.B_pos _ _ hW, cbcEncBlocks_append]
  rfl

/-- A run of CBC_PAD decryption of whole blocks gives the decrypted bytes without the pad (41 R255, R258). -/
theorem Context.run_cbcPad_dec {c : Context} (hm : c.mode = .cbcPad) (hd : c.dir = .dec) (hr : c.residue = [])
    (hh : c.heldValid = false) {x X : Bytes} (hx : x.length % c.B = 0)
    (hX : (cbcDecBlocks (decryptBlock c.ks) c.iv (chunks c.B x)).1 = X) (hle : c.B ≤ X.length) (h1 : 1 ≤ padByte X)
    (h2 : padByte X ≤ c.B) : c.run [x] = (X.take (X.length - padByte X), .success) := by
  have hpart := partition_of_whole hr hx
  have hX : (cbcUpdate Prim.external c x).1 = X := by
    unfold cbcUpdate
    rw [hpart, hd]
    exact hX
  have hne : (cbcUpdate Prim.external c x).1 ≠ [] :=
    hX ▸ List.ne_nil_of_length_pos (c.B_pos.trans_le hle)
  have hlast : padByte (X.drop (X.length - c.B)) = padByte X := by
    conv_rhs => rw [← List.take_append_drop (X.length - c.B) X]
    have := c.B_pos
    exact (padByte_append _ (List.ne_nil_of_length_pos (by rw [List.length_drop]; omega))).symm
  have hupd := update_cbcPad_dec hm hd x
  rw [cbcPadDecUpdate_of_ne_nil hne, hX] at hupd
  have hfin := final_cbcPad_dec (c := (cbcUpdate Prim.external c x).2.hold (X.drop (X.length - c.B))) hm hd
    ((congrArg (fun q => q.2.residue) hpart).trans hr) rfl (h1.trans_eq hlast.symm) (hlast.trans_le h2)
  rw [run_single_of hupd hfin]
  show (c.held ++ X.take _ ++ (X.drop _).take (c.B - padByte (X.drop _)), _) = _
  rw [hlast, show c.held = [] from if_neg (by simp [hh]), List.nil_append, ← List.take_add]
  congr 2
  omega

/-- CBC_PAD decryption undoes CBC_PAD encryption (41 R253). -/
theorem Context.run_decrypting_cbcPad {c : Context} (hok : c.Ok) (hm : c.mode = .cbcPad) (hd : c.dir = .enc)
    (hr : c.residue = []) (hh : c.heldValid = false) {P C : Bytes} (h : c.run [P] = (C, .success)) :
    c.decrypting.run [C] = (P, .success) := by
  rw [run_cbcPad_enc hm hd hr] at h
  obtain rfl : (cbcEncBlocks (encryptBlock c.ks) c.iv (chunks c.B (pad P c.B))).1 = C := congrArg Prod.fst h
  have hB := c.B_pos
  have hlen := pad_length hB P
  have hlast := padByte_pad hB (blockSize_le c.alg) P
  have hmod := Nat.mod_lt P.length hB
  rw [run_cbcPad_dec (c := c.decrypting) hm rfl hr hh
    (by rw [cbcEncBlocks_length hok.E_length]; exact Nat.mul_mod_left _ _)
    (hok.cbcDecBlocks_encrypt (by simp [hm]) (by rw [hlen, Nat.mul_mod_left]))
    (by rw [hlen]; exact Nat.le_mul_of_pos_left _ (Nat.succ_pos _)) (by omega) (hlast.trans_le (Nat.sub_le _ _)), hlast,
    take_pad]

/-! ### The obligation -/

/-- In every mode without a tag, a run of decryption in one UPDATE undoes a run of encryption under the same operands (70
R613). -/
theorem run_initContext_dec_enc {m : Mode} {a : Alg} {o : Operands} {P C : Bytes} (ha : aeadMode m = false)
    (hok : (initContext Prim.external m .enc a o).Ok)
    (h : (initContext Prim.external m .enc a o).run [P] = (C, .success)) :
    (initContext Prim.external m .dec a o).run [C] = (P, .success) := by
  have hm := initContext_mode m .enc a o
  have hd := initContext_dir m .enc a o
  have hr := initContext_residue m .enc a o
  rw [initContext_dec]
  cases m with
  | ecb => exact Context.run_decrypting_ecb hok hm hd hr h
  | cbc => exact Context.run_decrypting_cbc hok hm hd hr h
  | cbcPad => exact Context.run_decrypting_cbcPad hok hm hd hr (initContext_heldValid _ _ _ _) h
  | cfb => exact Context.run_decrypting_stream hok (.inl hm) hd rfl h
  | ctr => exact Context.run_decrypting_stream hok (.inr hm) hd rfl h
  | ccm | gcm | gmac => cases ha

/-- INIT's context is consistent in a mode without a tag whatever the host's table says of the mode. -/
theorem initContext_ok_of_params {m : Mode} {a : Alg} {o : Operands} (d : Dir) (ha : aeadMode m = false)
    (hp : paramsOk m a o = true) : (initContext Prim.external m d a o).Ok :=
  initContext_ok (cfg := resetConfig) d (by simp [algModeSupported, ha, resetConfig]) hp

/-- Settles O55: a run of decryption does not depend on how its input is cut, and in one UPDATE it undoes encryption. -/
theorem roundTrip : Obligations.RoundTrip := by
  unfold Obligations.RoundTrip
  rintro m a o P C xs ha hp henc rfl
  rw [Context.run_eq_run_flatten (initContext_ok_of_params .dec ha hp) (by rw [initContext_mode, ha])]
  exact run_initContext_dec_enc ha (initContext_ok_of_params .enc ha hp) henc

end Sys2Proof.Machine
end

section
/-! SUPPORT. The invariant of the whole state through every step (O7, O8). -/

namespace Sys2Proof.Machine

/-! ### The configuration, the schedule and memory -/

/-- The invariant says nothing of the schedule or the operand record. -/
theorem State.Inv.reschedule {s : State} (hs : s.Inv) (es : List Event) (o : Operands) :
    ({ s with events := es, args := o } : State).Inv :=
  { hs with }

/-- A configuration that is accepted keeps the invariant: no context is live yet. -/
theorem State.Inv.of_configure {s t : State} (hs : s.Inv) {cfg : HostConfig}
    (ht : configure cfg s = .next t) : t.Inv := by
  unfold configure at ht
  split at ht
  · rename_i h
    cases ht
    exact { hs with
      room := fun n _ => (by rw [hs.fresh h.1]; exact Nat.zero_le n)
      config_ok := h.2 }
  · cases ht

/-- A store of a caller or the host keeps the invariant. -/
theorem State.Inv.of_hostWrite {s t : State} (hs : s.Inv) {addr : Nat} {b : Bytes}
    (ht : hostWrite addr b s = .next t) : t.Inv := by
  obtain ⟨-, rfl⟩ := hostWrite_next ht
  exact { hs with mem_wf := Memory.wf_writeAll hs.mem_wf _ _ }

/-! ### A command in flight -/

/-- What a handle in flight holds is consistent. -/
theorem State.Inv.busy_ok {s : State} (hs : s.Inv) {h : Handle} {f : InFlight} (hf : s.lookup h = some (.busy f)) :
    f.Ok s.issued :=
  hs.slot_ok hf

/-- The commit of a command in flight obeys 60 R534. -/
theorem State.Inv.busy_reportOk {s : State} (hs : s.Inv) {h : Handle} {f : InFlight}
    (hf : s.lookup h = some (.busy f)) : (Slot.busy f).reportOk :=
  hs.commits_ok _ (Assoc.mem_of_get hf)

/-- A live job of the handle of a command in flight is the one the command waits for. -/
theorem State.Inv.live_current {s : State} (hs : s.Inv) {h : Handle} {f : InFlight} (hf : s.lookup h = some (.busy f))
    {job : PrimJob} (hj : job ∈ s.jobs) (hc : job.cancelled = false) (hh : job.handle = h) :
    f.current = some job.id := by
  obtain ⟨g, hg, hcur, -⟩ := hs.live_job job hj hc
  rw [hh, hf] at hg
  cases hg
  exact hcur

/-- The invariant through the completion of the command in flight on `h`, none of whose jobs is live any more: `t` is the
state it commits on. -/
theorem State.Inv.finish_busy {s t : State} (hs : s.Inv) {h : Handle} {f : InFlight} (hf : s.lookup h = some (.busy f))
    {r : Commit} (table : t.table = s.table) (mem : t.mem = s.mem) (known : t.known = s.known)
    (config : t.config = s.config) (reports : t.reports = s.reports) (issued : t.issued = s.issued)
    (job_ids : t.jobs.Pairwise fun j k => j.id < k.id) (jobs_before : ∀ j ∈ t.jobs, j.id < t.nextJob)
    (kept : ∀ job ∈ s.jobs, job.handle ≠ h → job.cancelled = false → job ∈ t.jobs)
    (live : ∀ job ∈ t.jobs, job.cancelled = false → job ∈ s.jobs ∧ job.handle ≠ h)
    (ctx_ok : ∀ c, r.ctx = some c → c.Ok)
    (size : r.status ≠ .success → r.status ≠ .bufferTooSmall → r.size = 0) : (t.finish f.id h f.outView r).Inv :=
  hs.finish table mem known config reports issued.ge
    (issued ▸ Nat.zero_lt_of_lt (hs.busy_ok hf).id_lt) job_ids jobs_before kept live ctx_ok
    (fun _ => .inl (hs.table_known _ (Assoc.mem_of_get hf))) (fun hl => by rw [hf] at hl; cases hl) size

/-- The invariant through a change of the record in flight on `h` that keeps its snapshot, its views and its commit. -/
theorem State.Inv.replace_busy {s t : State} (hs : s.Inv) {h : Handle} {f g : InFlight}
    (hf : s.lookup h = some (.busy f)) (same : f.SameCommand g) (running : g.current = none → g.jobsLeft ≠ [])
    (table : t.table = Assoc.set h (.busy g) s.table) (mem : t.mem = s.mem) (known : t.known = s.known)
    (config : t.config = s.config) (reports : t.reports = s.reports) (issued : t.issued = s.issued)
    (job_ids : t.jobs.Pairwise fun j k => j.id < k.id) (jobs_before : ∀ j ∈ t.jobs, j.id < t.nextJob)
    (current : ∀ j, g.current = some j → ∃ job ∈ t.jobs, job.id = j ∧ job.handle = h ∧ job.cancelled = false)
    (kept : ∀ job ∈ s.jobs, job.handle ≠ h → job.cancelled = false → job ∈ t.jobs)
    (live : ∀ job ∈ t.jobs, job.cancelled = false →
      (job ∈ s.jobs ∧ job.handle ≠ h) ∨ (job.handle = h ∧ g.current = some job.id ∧ job.context = g.context)) :
    t.Inv := by
  have hok := hs.busy_ok hf
  have hknown : h ∈ s.known := hs.table_known _ (Assoc.mem_of_get hf)
  refine hs.replace h (some (.busy g)) table (mem ▸ hs.mem_wf) (known ▸ hs.known_nodup) (fun _ hk => known ▸ hk)
    (fun _ => known ▸ hknown) issued.ge (fun _ => issued ▸ Nat.zero_lt_of_lt hok.id_lt) ?_ job_ids jobs_before ?_ kept ?_ ?_
    (fun hl => by rw [hf] at hl; cases hl) config fun r hr => .inl (reports ▸ hr)
  · rintro y hy
    cases hy
    refine ⟨⟨?_, ?_, ?_, ?_, running⟩, ?_⟩
    · exact same.snapshot ▸ hok.snapshot_ok
    · exact same.commit ▸ hok.commit_ok
    · exact same.snapshot ▸ same.commit ▸ hok.fixed
    · exact same.id ▸ issued ▸ hok.id_lt
    · show g.commit.status ≠ .success → g.commit.status ≠ .bufferTooSmall → g.commit.size = 0
      rw [same.commit]
      exact hs.busy_reportOk hf
  · rintro f' j hx
    cases hx
    exact current j
  · intro job hj hc
    exact (live job hj hc).imp_right fun ⟨hh, hcur, hctx⟩ => ⟨hh, g, rfl, hcur, hctx⟩
  · rintro f' hx k q hk hq
    cases hx
    obtain ⟨h1, h2⟩ := hs.views_apart h k f q hk.symm hf hq
    obtain ⟨-, h3⟩ := hs.views_apart k h q f hk hq hf
    rw [same.outView, same.inView]
    exact ⟨h1, h2, h3⟩

/-! ### Jobs -/

/-- The submission of a job keeps the invariant. -/
theorem State.Inv.of_submitJob {s t : State} (hs : s.Inv) {h : Handle}
    (ht : submitJob h s = .next t) : t.Inv := by
  obtain ⟨f, n, rest, hf, hcur, -, rfl⟩ := submitJob_next ht
  refine hs.replace_busy hf (g := { f with current := some s.nextJob, jobsLeft := rest }) ⟨rfl, rfl, rfl, rfl, rfl, rfl⟩
    (fun h0 => by cases h0) rfl rfl rfl rfl rfl rfl ?_ ?_ ?_ (fun _ hj _ _ => List.mem_append_left _ hj) ?_
  · exact List.pairwise_append.mpr ⟨hs.job_ids, List.pairwise_singleton _ _, fun j hj k hk => by
      rw [List.mem_singleton.mp hk]; exact hs.jobs_before j hj⟩
  · intro j hj
    rcases List.mem_append.mp hj with hj | hj
    · exact Nat.lt_succ_of_lt (hs.jobs_before j hj)
    · rw [List.mem_singleton.mp hj]
      exact Nat.lt_succ_self _
  · rintro j hj
    cases hj
    exact ⟨_, List.mem_append_right _ (List.mem_singleton_self _), rfl, rfl, rfl⟩
  · intro job hj hc
    rcases List.mem_append.mp hj with hj | hj
    · refine .inl ⟨hj, fun hh => ?_⟩
      have := hs.live_current hf hj hc hh
      rw [hcur] at this
      cases this
    · rw [List.mem_singleton.mp hj]
      exact .inr ⟨rfl, rfl, rfl⟩

/-- A live job that stays when another live one completes is of another handle: a command waits for one job at a time. -/
theorem State.Inv.live_jobsAfter {s : State} (hs : s.Inv) {j : PrimJob} (hj : j ∈ s.jobs) (hc : j.cancelled = false)
    {k : PrimJob} (hk : k ∈ s.jobsAfter j) (hkc : k.cancelled = false) : k ∈ s.jobs ∧ k.handle ≠ j.handle := by
  obtain ⟨hks, hlater⟩ := State.mem_jobsAfter.mp hk
  refine ⟨hks, fun hh => ?_⟩
  obtain ⟨f, hf, hcur, -⟩ := hs.live_job j hj hc
  have hid : some j.id = some k.id := hcur.symm.trans (hs.live_current hf hks hkc hh)
  obtain rfl := hs.job_unique hj hks (Option.some.inj hid)
  exact hlater ⟨rfl, rfl, le_rfl⟩

/-- Where no command waits for an earlier job of its context, the completion of a cancelled job takes no live job along. -/
theorem State.Inv.live_mem_jobsAfter {s : State} (hs : s.Inv) {j k : PrimJob} (hj : j ∈ s.jobs)
    (he : s.earlierJob j = false) (hc : j.cancelled = true) (hk : k ∈ s.jobs) (hkc : k.cancelled = false) :
    k ∈ s.jobsAfter j := by
  refine State.mem_jobsAfter.mpr ⟨hk, fun ⟨hh, hctx, hid⟩ => ?_⟩
  rcases hid.lt_or_eq with hlt | heq
  · exact absurd (State.earlierJob_iff.mpr ⟨k, hk, hh, hctx, hlt, hkc⟩) (by simp [he])
  · rw [hs.job_unique hk hj heq, hc] at hkc
    cases hkc

/-- A job of another handle stays. -/
theorem State.mem_jobsAfter_of_handle_ne {s : State} {j k : PrimJob} (hk : k ∈ s.jobs) (hne : k.handle ≠ j.handle) :
    k ∈ s.jobsAfter j :=
  State.mem_jobsAfter.mpr ⟨hk, fun h => hne h.1⟩

/-- The completion of a cancelled job keeps the invariant. -/
theorem State.Inv.dropCancelled {s : State} (hs : s.Inv) {j : PrimJob} (hj : j ∈ s.jobs) (he : s.earlierJob j = false)
    (hc : j.cancelled = true) : ({ s with jobs := s.jobsAfter j } : State).Inv :=
  { hs with
    job_ids := hs.job_ids.filter _
    jobs_before := fun k hk => hs.jobs_before k (List.mem_of_mem_filter hk)
    current_job := fun h f n hf hn => by
      obtain ⟨k, hk, hid, hh, hkc⟩ := hs.current_job h f n hf hn
      exact ⟨k, hs.live_mem_jobsAfter hj he hc hk hkc, hid, hh, hkc⟩
    live_job := fun k hk => hs.live_job k (List.mem_of_mem_filter hk) }

/-- The end of a live job keeps the invariant. -/
theorem State.Inv.jobEnded {s : State} (hs : s.Inv) {j : PrimJob} (hj : j ∈ s.jobs) (hc : j.cancelled = false)
    {f : InFlight} (hf : s.lookup j.handle = some (.busy f)) (r : JobResult) :
    ({ s with jobs := s.jobsAfter j }.jobEnded j.handle f r).Inv := by
  have ids : (s.jobsAfter j).Pairwise fun j k => j.id < k.id := hs.job_ids.filter _
  have before : ∀ k ∈ s.jobsAfter j, k.id < s.nextJob := fun k hk => hs.jobs_before k (List.mem_of_mem_filter hk)
  rcases State.jobEnded_cases { s with jobs := s.jobsAfter j } j.handle f r with ⟨c, e, hcommit⟩ | ⟨-, hleft, e⟩
  · rw [e]
    refine hs.finish_busy hf rfl rfl rfl rfl rfl rfl ids before
      (fun _ hk hne _ => State.mem_jobsAfter_of_handle_ne hk hne) (fun _ hk => hs.live_jobsAfter hj hc hk) ?_ ?_
    · rcases hcommit with ⟨-, -, rfl⟩ | ⟨e, -, rfl⟩
      · exact (hs.busy_ok hf).commit_ok
      · exact nofun
    · rcases hcommit with ⟨-, -, rfl⟩ | ⟨e, -, rfl⟩
      · exact hs.busy_reportOk hf
      · exact fun _ _ => rfl
  · rw [e]
    exact hs.replace_busy hf (g := { f with current := none, jobsDone := f.jobsDone + 1 })
      ⟨rfl, rfl, rfl, rfl, rfl, rfl⟩ (fun _ => hleft) rfl rfl rfl rfl rfl rfl ids before nofun
      (fun _ hk hne _ => State.mem_jobsAfter_of_handle_ne hk hne) fun _ hk hkc => .inl (hs.live_jobsAfter hj hc hk hkc)

/-- The completion of a job keeps the invariant. -/
theorem State.Inv.of_completeJob {s t : State} (hs : s.Inv) {n : Nat} {r : JobResult}
    (ht : completeJob n r s = .next t) : t.Inv := by
  obtain ⟨j, -, hj, -, he, -, ⟨hc, rfl⟩ | ⟨hc, f, hf, rfl⟩⟩ := completeJob_next ht
  · exact hs.dropCancelled hj he hc
  · exact hs.jobEnded hj hc hf r

/-! ### ABORT -/

/-- A job is in the Block Primitive after a cancellation as it was, or marked as cancelled. -/
theorem State.mem_cancelJob {s : State} {cur : Option Nat} {k : PrimJob} (hk : k ∈ (s.cancelJob cur).jobs) :
    k ∈ s.jobs ∧ cur ≠ some k.id ∨ ∃ j ∈ s.jobs, k = { j with cancelled := true } := by
  obtain ⟨j, hj, rfl⟩ := List.mem_map.mp hk
  split
  · exact .inr ⟨j, hj, rfl⟩
  · exact .inl ⟨hj, ‹_›⟩

/-- A cancellation keeps the job numbers. -/
theorem State.cancelJob_ids (s : State) (cur : Option Nat) :
    (s.cancelJob cur).jobs.map PrimJob.id = s.jobs.map PrimJob.id := by
  simp only [State.cancelJob, List.map_map]
  refine List.map_congr_left fun j _ => ?_
  simp only [Function.comp_apply]
  split <;> rfl

/-- The rollback of a command in flight keeps the invariant. -/
theorem State.Inv.cancel {s : State} (hs : s.Inv) {h : Handle} {f : InFlight} (hf : s.lookup h = some (.busy f)) :
    (s.cancel h f).Inv := by
  refine hs.finish_busy hf (t := s.cancelJob f.current) rfl rfl rfl rfl rfl rfl ?_ ?_ ?_ ?_
    (hs.busy_ok hf).snapshot_ok fun _ _ => rfl
  · have := hs.job_ids
    rw [← List.pairwise_map (f := PrimJob.id) (R := (· < ·))] at this ⊢
    rwa [State.cancelJob_ids]
  · intro j hj
    have hmem : j.id ∈ s.jobs.map PrimJob.id := s.cancelJob_ids f.current ▸ List.mem_map_of_mem hj
    obtain ⟨k, hk, hid⟩ := List.mem_map.mp hmem
    exact hid ▸ hs.jobs_before k hk
  · intro job hj hne hc
    refine List.mem_map.mpr ⟨job, hj, if_neg fun hcur => ?_⟩
    obtain ⟨k, hk, hid, hh, -⟩ := hs.current_job h f job.id hf hcur
    exact hne (hs.job_unique hj hk hid.symm ▸ hh)
  · intro job hj hc
    rcases State.mem_cancelJob hj with ⟨hj, hcur⟩ | ⟨k, -, rfl⟩
    · exact ⟨hj, fun hh => hcur (hs.live_current hf hj hc hh)⟩
    · cases hc

/-- ABORT keeps the invariant. -/
theorem State.Inv.of_abortCommand {s t : State} (hs : s.Inv) (ht : abortCommand s = .next t) : t.Inv := by
  rcases abortCommand_next ht with ⟨f, hf, rfl⟩ | ⟨-, rfl⟩
  · exact (hs.cancel hf).answer fun h => absurd rfl h
  · exact hs.answer fun h => absurd rfl h

/-! ### Every step -/

/-- Every command keeps the invariant. -/
theorem State.Inv.of_exec {s t : State} (hs : s.Inv) {i : Instr} (ht : exec i s = .next t) : t.Inv := by
  rcases eq_abort_or_instrOf i with rfl | ⟨op, m, d, a, rfl⟩
  · exact hs.of_abortCommand ht
  · exact hs.exec_instrOf ht

/-- The issue of a word, reserved or not, keeps the invariant. -/
theorem State.Inv.of_issueCommand {s t : State} (hs : s.Inv) {w : CommandWord} {o : Operands}
    (ht : issueCommand w o s = .next t) : t.Inv := by
  have hs' : ({ s with args := o } : State).Inv := hs.reschedule s.events o
  unfold issueCommand at ht
  split at ht
  · exact hs'.of_exec ht
  · cases ht
    exact hs'.answer fun _ _ => rfl

/-- Settles O8: each agent's step, and each command, keeps the invariant. -/
theorem stepKeepsInvariant : Obligations.StepKeepsInvariant := by
  unfold Obligations.StepKeepsInvariant
  intro s t hs ht
  rcases step_next ht with ⟨e, rest, -, hr⟩ | ⟨-, -, rfl⟩
  · have hs' := hs.reschedule rest s.args
    cases e with
    | configure cfg => exact hs'.of_configure hr
    | issue w o => exact hs'.of_issueCommand hr
    | submit h => exact hs'.of_submitJob hr
    | complete n r => exact hs'.of_completeJob hr
    | hostWrite addr b => exact hs'.of_hostWrite hr
  · exact hs

/-! ### Reset -/

@[simp] theorem State.reset_table : State.reset.table = [] := rfl
@[simp] theorem State.reset_jobs : State.reset.jobs = [] := rfl
@[simp] theorem State.reset_known : State.reset.known = [] := rfl
@[simp] theorem State.reset_reports : State.reset.reports = [] := rfl

/-- Every handle is ABSENT after reset (70 R580). -/
@[simp] theorem State.lookup_reset (h : Handle) : State.reset.lookup h = none := rfl

/-- The configuration before the host gives one is in the ranges of 00 R14. -/
theorem configValid_resetConfig : configValid resetConfig = true := by decide

/-- Settles O7: nothing is live or in flight after reset, and its configuration is in range. -/
theorem resetMeetsInvariant : Obligations.ResetMeetsInvariant where
  table_sorted := .nil
  mem_wf := State.reset_mem_wf
  known_nodup := .nil
  table_known := by simp
  slots_ok := by simp
  job_ids := .nil
  jobs_before := by simp
  current_job := by simp
  live_job := by simp
  views_apart := by simp
  room := by simp
  config_ok := configValid_resetConfig
  fresh := fun _ => rfl
  reports_ok := by simp
  commits_ok := by simp

end Sys2Proof.Machine
end

section
/-! SUPPORT. The read-only fields of a context through every step (O10). -/

namespace Sys2Proof.Machine

/-- The context of a slot: the one it holds, or the snapshot of the command in flight, which a rollback brings back. -/
def Slot.context : Slot → Option Context
  | .active c => some c
  | .busy f => f.snapshot

/-- From `s` to `t` the read-only fields of the context on `h` are kept, if `h` is ACTIVE in `t`. -/
def KeepsFixed (s t : State) (h : Handle) : Prop :=
  ∀ x c c', s.lookup h = some x → x.context = some c → t.lookup h = some (.active c') → c.SameFixed c'

/-- A slot left as it was keeps the read-only fields. -/
theorem KeepsFixed.of_lookup_eq {s t : State} {h : Handle} (he : t.lookup h = s.lookup h) : KeepsFixed s t h := by
  intro x c c' hx hc ht
  rw [he, hx] at ht
  cases ht
  cases hc
  exact .rfl' c

/-- A handle that is not ACTIVE afterwards has no context to compare. -/
theorem KeepsFixed.of_not_active {s t : State} {h : Handle} (hn : ∀ c', t.lookup h ≠ some (.active c')) :
    KeepsFixed s t h :=
  fun _ _ c' _ _ ht => absurd ht (hn c')

/-- A completion keeps the read-only fields where its commit does. -/
theorem KeepsFixed.finish {s t : State} {h k : Handle} {id : Nat} {v : View} {r : Commit}
    (ht : t.lookup h = s.lookup h)
    (hr : h = k → ∀ x c c', s.lookup h = some x → x.context = some c → r.ctx = some c' → c.SameFixed c') :
    KeepsFixed s (t.finish id k v r) h := by
  by_cases hk : h = k
  · intro x c c' hx hc hl
    rw [hk, State.lookup_finish_same] at hl
    obtain ⟨c'', hctx, hact⟩ := Option.map_eq_some_iff.mp hl
    cases hact
    exact hr hk x c c' hx hc hctx
  · exact .of_lookup_eq ((State.lookup_finish_ne hk _ _ _ _).trans ht)

/-- A launch keeps the read-only fields where its commit does. -/
theorem KeepsFixed.launch {s : State} {i : Instr} {h k : Handle} {snapshot : Option Context} {inV outV : View}
    {jobs : List Nat} {r : Commit}
    (hr : h = k → ∀ x c c', s.lookup h = some x → x.context = some c → r.ctx = some c' → c.SameFixed c') :
    KeepsFixed s (s.launch i k snapshot inV outV jobs r) h := by
  unfold State.launch
  split
  · exact .finish rfl hr
  · by_cases hk : h = k
    · refine .of_not_active fun c' hl => ?_
      rw [hk] at hl
      cases (State.lookup_put_same _ _ _).symm.trans hl
    · exact .of_lookup_eq (State.lookup_put_ne hk _ _)

/-- Every command but ABORT keeps the read-only fields of every context. -/
theorem KeepsFixed.of_exec_instrOf {s t : State} {op : Op} {m : Mode} {d : Dir} {a : Alg} (h : Handle)
    (ht : exec (instrOf op m d a) s = .next t) : KeepsFixed s t h := by
  have hsh := exec_shape op m d a s
  generalize instrOf op m d a = i at ht hsh
  rw [ht] at hsh
  generalize hR : (Host.Outcome.next t : Result) = R at hsh
  cases hsh with
  | refused r _ => cases hR
  | answered st n _ _ _ =>
    cases hR
    exact .of_lookup_eq rfl
  | terminal c st _ _ _ =>
    cases hR
    by_cases hk : h = s.args.handle
    · refine .of_not_active fun c' hl => ?_
      rw [hk] at hl
      cases (State.lookup_drop_same s s.args.handle).symm.trans hl
    · exact .of_lookup_eq (State.lookup_drop_ne hk s)
  | init _ k jobs hk _ =>
    cases hR
    refine .launch fun hh x c c' hx => ?_
    rw [hh, (room_of_initChecks hk).2.2.1] at hx
    cases hx
  | update c c' out jobs _ hr _ hfix _ _ =>
    cases hR
    refine .launch fun hh x y y' hx hy hy' => ?_
    rw [hh, hr.active] at hx
    cases hx
    cases hy
    cases hy'
    exact hfix
  | final c r jobs _ _ he _ =>
    cases hR
    refine .launch fun _ x y y' _ _ hy' => ?_
    rw [he.ctx] at hy'
    cases hy'
  | atomic k r jobs _ _ _ he _ =>
    cases hR
    refine .launch fun _ x y y' _ _ hy' => ?_
    rw [he.ctx] at hy'
    cases hy'

/-- ABORT gives the snapshot back, whose fields are its own. -/
theorem KeepsFixed.of_abortCommand {s t : State} (h : Handle) (ht : abortCommand s = .next t) :
    KeepsFixed s t h := by
  rcases abortCommand_next ht with ⟨f, hf, rfl⟩ | ⟨-, rfl⟩
  · refine KeepsFixed.finish (t := s.cancelJob f.current) (id := f.id) rfl fun hh x c c' hx hc hc' => ?_
    rw [hh, hf] at hx
    cases hx
    cases hc.symm.trans hc'
    exact .rfl' c
  · exact .of_lookup_eq rfl

/-- The end of a job keeps the read-only fields: the commit agrees with the snapshot on them. -/
theorem KeepsFixed.jobEnded {s q : State} (hs : s.Inv) {k : Handle} {f : InFlight} (hf : s.lookup k = some (.busy f))
    (hq : ∀ h, q.lookup h = s.lookup h) (r : JobResult) (h : Handle) : KeepsFixed s (q.jobEnded k f r) h := by
  rcases q.jobEnded_cases k f r with ⟨c, e, hcommit⟩ | ⟨-, -, e⟩
  · rw [e]
    refine .finish (hq h) fun hh x y y' hx hy hy' => ?_
    rw [hh, hf] at hx
    cases hx
    rcases hcommit with ⟨-, -, rfl⟩ | ⟨e, -, rfl⟩
    · exact (hs.busy_ok hf).fixed y y' hy hy'
    · cases hy'
  · by_cases hk : h = k
    · refine .of_not_active fun c' hl => ?_
      rw [e, hk, State.lookup_put_same] at hl
      cases hl
    · exact .of_lookup_eq ((State.lookup_jobEnded_ne hk q f r).trans (hq h))

/-- The completion of a job keeps the read-only fields of every context. -/
theorem KeepsFixed.of_completeJob {s t : State} (hs : s.Inv) {n : Nat} {r : JobResult} (h : Handle)
    (ht : completeJob n r s = .next t) : KeepsFixed s t h := by
  obtain ⟨j, -, -, -, -, -, ⟨-, rfl⟩ | ⟨-, f, hf, rfl⟩⟩ := completeJob_next ht
  · exact .of_lookup_eq rfl
  · exact .jobEnded (q := { s with jobs := s.jobsAfter j }) hs hf (fun _ => rfl) r h

/-- A submission leaves the handle BUSY. -/
theorem KeepsFixed.of_submitJob {s t : State} {k : Handle} (h : Handle)
    (ht : submitJob k s = .next t) : KeepsFixed s t h := by
  obtain ⟨f, n, rest, -, -, -, rfl⟩ := submitJob_next ht
  by_cases hk : h = k
  · refine .of_not_active fun c' hl => ?_
    rw [hk] at hl
    cases (State.lookup_put_same s k _).symm.trans hl
  · exact .of_lookup_eq (State.lookup_put_ne hk s _)

/-- The issue of a word, reserved or not, keeps the read-only fields of every context. -/
theorem KeepsFixed.of_issueCommand {s t : State} {w : CommandWord} {o : Operands} (h : Handle)
    (ht : issueCommand w o s = .next t) : KeepsFixed s t h := by
  unfold issueCommand at ht
  split at ht
  · rename_i i _
    rcases eq_abort_or_instrOf i with rfl | ⟨op, m, d, a, rfl⟩
    · exact KeepsFixed.of_abortCommand (s := { s with args := o }) h ht
    · exact KeepsFixed.of_exec_instrOf (s := { s with args := o }) h ht
  · cases ht
    exact .of_lookup_eq rfl

/-- Every step keeps the read-only fields of every context. -/
theorem KeepsFixed.of_step {s t : State} (hs : s.Inv) (h : Handle) (ht : step s = .next t) :
    KeepsFixed s t h := by
  rcases step_next ht with ⟨e, rest, -, hr⟩ | ⟨-, -, rfl⟩
  · show KeepsFixed { s with events := rest } t h
    cases e with
    | configure cfg =>
      simp only [runEvent, configure] at hr
      split at hr <;> cases hr
      exact .of_lookup_eq rfl
    | issue w o => exact .of_issueCommand h hr
    | submit k => exact .of_submitJob h hr
    | complete n r => exact .of_completeJob (hs.reschedule rest s.args) h hr
    | hostWrite addr b =>
      obtain ⟨-, rfl⟩ := hostWrite_next hr
      exact .of_lookup_eq rfl
  · exact .of_lookup_eq rfl

/-- Settles O10: an UPDATE commits a context with the same read-only fields, and a rollback brings the snapshot back. -/
theorem readOnlyFieldsKept : Obligations.ReadOnlyFieldsKept := by
  unfold Obligations.ReadOnlyFieldsKept
  intro s t h c' hs ht hl
  have hkeep := KeepsFixed.of_step hs h ht
  exact ⟨fun c hc => hkeep _ c c' hc rfl hl, fun f c hf hc => hkeep _ c c' hf hc hl⟩

end Sys2Proof.Machine
end

section
/-! SUPPORT. What an UPDATE or FINAL does depends on its own context and operands alone (O12). -/

namespace Sys2Proof.Machine

/-- Two states agree on all that an UPDATE or FINAL on the context `c` looks at: the operands, the configuration, the issue number,
the input bytes and the context itself; and neither refuses the command's views. -/
structure SameOwn (s₁ s₂ : State) (inV : View) (c : Context) : Prop where
  args : s₁.args = s₂.args
  config : s₁.config = s₂.config
  issued : s₁.issued = s₂.issued
  input : s₁.input = s₂.input
  active₁ : s₁.lookup s₁.args.handle = some (.active c)
  active₂ : s₂.lookup s₂.args.handle = some (.active c)
  views₁ : s₁.viewRefusal inV s₁.args.outView = none
  views₂ : s₂.viewRefusal inV s₂.args.outView = none

/-- Two results on the states `s₁` and `s₂` are the same answer, the same terminal status, or a launch with the same jobs and the
same commit. -/
inductive SameOutcome (s₁ s₂ : State) : Result → Result → Prop
  | answer (st : Status) (n : Nat) : SameOutcome s₁ s₂ (.next (s₁.answer st n)) (.next (s₂.answer st n))
  | terminal (st : Status) : SameOutcome s₁ s₂ (.next (s₁.raiseTerminal st)) (.next (s₂.raiseTerminal st))
  | update (i : Instr) (c : Context) (jobs : List Nat) (r : Commit) :
    SameOutcome s₁ s₂ (s₁.runUpdate i c jobs r) (s₂.runUpdate i c jobs r)
  | final (i : Instr) (c : Context) (jobs : List Nat) (r : Commit) :
    SameOutcome s₁ s₂ (s₁.runFinal i c jobs r) (s₂.runFinal i c jobs r)

theorem SameOutcome.tooSmall {s₁ s₂ : State} (n : Nat) :
    SameOutcome s₁ s₂ (.next (s₁.tooSmall n)) (.next (s₂.tooSmall n)) :=
  .answer .bufferTooSmall n

/-- A check that reads the same in both states keeps the results alike. -/
theorem SameOutcome.ite {s₁ s₂ : State} {p : Prop} [Decidable p] {x₁ x₂ y₁ y₂ : Result} (hx : SameOutcome s₁ s₂ x₁ x₂)
    (hy : SameOutcome s₁ s₂ y₁ y₂) : SameOutcome s₁ s₂ (if p then x₁ else y₁) (if p then x₂ else y₂) := by
  split
  · exact hx
  · exact hy

namespace SameOwn

section

variable {s₁ s₂ : State} {inV : View} {c : Context} {i : Instr} {m : Mode} {d : Dir} {a : Alg}

/-! ### What a command reads of the state -/

theorem cap_eq (h : SameOwn s₁ s₂ inV c) : s₁.cap = s₂.cap := by
  unfold State.cap
  rw [h.args]

theorem jobBlocks_eq (h : SameOwn s₁ s₂ inV c) (B : Nat) : s₁.jobBlocks B = s₂.jobBlocks B := by
  unfold State.jobBlocks
  rw [h.config]

theorem jobsOf_eq (h : SameOwn s₁ s₂ inV c) (a : Alg) (n : Nat) : s₁.jobsOf a n = s₂.jobsOf a n := by
  unfold State.jobsOf
  rw [h.jobBlocks_eq]

theorem streamJobs_eq (h : SameOwn s₁ s₂ inV c) (x : Context) (n : Nat) :
    streamJobs s₁ x n = streamJobs s₂ x n := by
  simp only [streamJobs, h.jobsOf_eq, h.jobBlocks_eq]

theorem gcmDecJobs_eq (h : SameOwn s₁ s₂ inV c) (a : Alg) (f n : Nat) (p : Option Bytes) :
    gcmDecJobs s₁ a f n p = gcmDecJobs s₂ a f n p := by
  unfold gcmDecJobs
  rw [h.jobsOf_eq, h.jobsOf_eq]

theorem scratchDenied_eq (h : SameOwn s₁ s₂ inV c) : s₁.scratchDenied = s₂.scratchDenied := by
  unfold State.scratchDenied
  rw [h.input, h.args]

/-- The operand checks: a mismatch ends both contexts, else both commands go on with the same one. -/
theorem outcome_onContext (h : SameOwn s₁ s₂ inV c) {k₁ k₂ : Context → Result} (hk : SameOutcome s₁ s₂ (k₁ c) (k₂ c)) :
    SameOutcome s₁ s₂ (onContext s₁ inV m d a k₁) (onContext s₂ inV m d a k₂) := by
  simp only [onContext, h.active₁, h.active₂, h.views₁, h.views₂]
  exact .ite hk (.terminal _)

/-! ### UPDATE -/

/-- UPDATE's operand checks look at its own input view. -/
theorem outcome_onUpdate (h : SameOwn s₁ s₂ s₁.args.inView c) {k₁ k₂ : Context → Result}
    (hk : SameOutcome s₁ s₂ (k₁ c) (k₂ c)) :
    SameOutcome s₁ s₂ (onContext s₁ s₁.args.inView m d a k₁) (onContext s₂ s₂.args.inView m d a k₂) := by
  rw [← h.args]
  exact h.outcome_onContext hk

theorem outcome_updateBlocks (h : SameOwn s₁ s₂ s₁.args.inView c) (upd : Context → Bytes → Bytes × Context) :
    SameOutcome s₁ s₂ (updateBlocks upd i m d a s₁) (updateBlocks upd i m d a s₂) := by
  refine h.outcome_onUpdate ?_
  simp only [h.input, h.cap_eq, h.jobsOf_eq]
  exact .ite (.tooSmall _) (.update ..)

theorem outcome_updatePadDec (h : SameOwn s₁ s₂ s₁.args.inView c) (P : Prim) :
    SameOutcome s₁ s₂ (updatePadDec P i a s₁) (updatePadDec P i a s₂) := by
  refine h.outcome_onUpdate ?_
  simp only [h.input, h.cap_eq, h.jobsOf_eq]
  exact .ite (.tooSmall _) (.update ..)

theorem outcome_updateStream (h : SameOwn s₁ s₂ s₁.args.inView c) (P : Prim) :
    SameOutcome s₁ s₂ (updateStream P i m d a s₁) (updateStream P i m d a s₂) := by
  refine h.outcome_onUpdate ?_
  simp only [h.input, h.cap_eq, h.streamJobs_eq]
  exact .ite (.tooSmall _) (.update ..)

theorem outcome_updateCcmEnc (h : SameOwn s₁ s₂ s₁.args.inView c) (P : Prim) :
    SameOutcome s₁ s₂ (updateCcmEnc P i a s₁) (updateCcmEnc P i a s₂) := by
  refine h.outcome_onUpdate ?_
  simp only [h.input, h.cap_eq, h.jobsOf_eq]
  exact .ite (.terminal _) (.ite (.tooSmall _) (.update ..))

theorem outcome_updateGcmEnc (h : SameOwn s₁ s₂ s₁.args.inView c) (P : Prim) :
    SameOutcome s₁ s₂ (updateGcmEnc P i a s₁) (updateGcmEnc P i a s₂) := by
  refine h.outcome_onUpdate ?_
  simp only [h.input, h.cap_eq, h.jobsOf_eq]
  exact .ite (.tooSmall _) (.update ..)

theorem outcome_growScratch (h : SameOwn s₁ s₂ inV c) (x : Context) :
    SameOutcome s₁ s₂ (growScratch s₁ i x) (growScratch s₂ i x) := by
  unfold growScratch
  rw [h.scratchDenied_eq, h.input]
  exact .ite (.terminal _) (.update ..)

theorem outcome_updateCcmDec (h : SameOwn s₁ s₂ s₁.args.inView c) :
    SameOutcome s₁ s₂ (updateCcmDec i a s₁) (updateCcmDec i a s₂) := by
  refine h.outcome_onUpdate ?_
  rw [h.input]
  exact .ite (.terminal _) (h.outcome_growScratch c)

theorem outcome_updateGcmDec (h : SameOwn s₁ s₂ s₁.args.inView c) :
    SameOutcome s₁ s₂ (updateGcmDec i a s₁) (updateGcmDec i a s₂) :=
  h.outcome_onUpdate (h.outcome_growScratch c)

theorem outcome_updateGmacDec (h : SameOwn s₁ s₂ s₁.args.inView c) :
    SameOutcome s₁ s₂ (updateGmacDec i a s₁) (updateGmacDec i a s₂) := by
  refine h.outcome_onUpdate ?_
  rw [h.input]
  exact .ite (.terminal _) (h.outcome_growScratch c)

theorem outcome_updateGmacEnc (h : SameOwn s₁ s₂ s₁.args.inView c) :
    SameOutcome s₁ s₂ (updateGmacEnc i a s₁) (updateGmacEnc i a s₂) := by
  refine h.outcome_onUpdate ?_
  rw [h.input]
  exact .ite (.terminal _) (.update ..)

/-! ### FINAL -/

theorem outcome_finalBlocks (h : SameOwn s₁ s₂ [] c) :
    SameOutcome s₁ s₂ (finalBlocks i m d a s₁) (finalBlocks i m d a s₂) :=
  h.outcome_onContext (.ite (.terminal _) (.final ..))

theorem outcome_finalStream (h : SameOwn s₁ s₂ [] c) :
    SameOutcome s₁ s₂ (finalStream i m d a s₁) (finalStream i m d a s₂) :=
  h.outcome_onContext (.final ..)

theorem outcome_finalPadEnc (h : SameOwn s₁ s₂ [] c) (P : Prim) :
    SameOutcome s₁ s₂ (finalPadEnc P i a s₁) (finalPadEnc P i a s₂) := by
  refine h.outcome_onContext ?_
  simp only [h.cap_eq, h.jobsOf_eq]
  exact .ite (.tooSmall _) (.final ..)

theorem outcome_finalPadDec (h : SameOwn s₁ s₂ [] c) :
    SameOutcome s₁ s₂ (finalPadDec i a s₁) (finalPadDec i a s₂) := by
  refine h.outcome_onContext ?_
  simp only [h.cap_eq]
  exact .ite (.terminal _) (.ite (.terminal _) (.ite (.tooSmall _) (.final ..)))

theorem outcome_finalCcmEnc (h : SameOwn s₁ s₂ [] c) (P : Prim) :
    SameOutcome s₁ s₂ (finalCcmEnc P i a s₁) (finalCcmEnc P i a s₂) := by
  refine h.outcome_onContext ?_
  simp only [h.cap_eq, h.jobsOf_eq]
  exact .ite (.terminal _) (.ite (.tooSmall _) (.final ..))

theorem outcome_finalCcmDec (h : SameOwn s₁ s₂ [] c) (P : Prim) :
    SameOutcome s₁ s₂ (finalCcmDec P i a s₁) (finalCcmDec P i a s₂) := by
  refine h.outcome_onContext ?_
  simp only [h.cap_eq, h.jobsOf_eq]
  exact .ite (.terminal _) (.ite (.tooSmall _) (.final ..))

theorem outcome_finalGcmEnc (h : SameOwn s₁ s₂ [] c) (P : Prim) :
    SameOutcome s₁ s₂ (finalGcmEnc P i a s₁) (finalGcmEnc P i a s₂) := by
  refine h.outcome_onContext ?_
  simp only [h.cap_eq, h.jobsOf_eq]
  exact .ite (.tooSmall _) (.final ..)

theorem outcome_finalGcmDec (h : SameOwn s₁ s₂ [] c) (P : Prim) :
    SameOutcome s₁ s₂ (finalGcmDec P i a s₁) (finalGcmDec P i a s₂) := by
  refine h.outcome_onContext ?_
  simp only [h.cap_eq, h.gcmDecJobs_eq]
  exact .ite (.terminal _) (.ite (.tooSmall _) (.final ..))

theorem outcome_finalGmacEnc (h : SameOwn s₁ s₂ [] c) (P : Prim) :
    SameOutcome s₁ s₂ (finalGmacEnc P i a s₁) (finalGmacEnc P i a s₂) := by
  refine h.outcome_onContext ?_
  simp only [h.cap_eq, h.jobsOf_eq]
  exact .ite (.tooSmall _) (.final ..)

theorem outcome_finalGmacDec (h : SameOwn s₁ s₂ [] c) (P : Prim) :
    SameOutcome s₁ s₂ (finalGmacDec P i a s₁) (finalGmacDec P i a s₂) := by
  refine h.outcome_onContext ?_
  simp only [h.jobsOf_eq]
  exact .ite (.terminal _) (.final ..)

/-! ### All commands on a context -/

theorem outcome_exec_update (h : SameOwn s₁ s₂ s₁.args.inView c) (m : Mode) (d : Dir) (a : Alg) :
    SameOutcome s₁ s₂ (exec (instrOf .update m d a) s₁) (exec (instrOf .update m d a) s₂) := by
  cases m with
  | ecb => rw [exec_update_ecb, exec_update_ecb]; exact h.outcome_updateBlocks _
  | cbc => rw [exec_update_cbc, exec_update_cbc]; exact h.outcome_updateBlocks _
  | cbcPad => cases d with
    | enc => exact h.outcome_updateBlocks _
    | dec => exact h.outcome_updatePadDec _
  | cfb => rw [exec_update_cfb, exec_update_cfb]; exact h.outcome_updateStream _
  | ctr => rw [exec_update_ctr, exec_update_ctr]; exact h.outcome_updateStream _
  | ccm => cases d with
    | enc => exact h.outcome_updateCcmEnc _
    | dec => exact h.outcome_updateCcmDec
  | gcm => cases d with
    | enc => exact h.outcome_updateGcmEnc _
    | dec => exact h.outcome_updateGcmDec
  | gmac => cases d with
    | enc => exact h.outcome_updateGmacEnc
    | dec => exact h.outcome_updateGmacDec

theorem outcome_exec_final (h : SameOwn s₁ s₂ [] c) (m : Mode) (d : Dir) (a : Alg) :
    SameOutcome s₁ s₂ (exec (instrOf .final m d a) s₁) (exec (instrOf .final m d a) s₂) := by
  cases m with
  | ecb => rw [exec_final_ecb, exec_final_ecb]; exact h.outcome_finalBlocks
  | cbc => rw [exec_final_cbc, exec_final_cbc]; exact h.outcome_finalBlocks
  | cbcPad => cases d with
    | enc => exact h.outcome_finalPadEnc _
    | dec => exact h.outcome_finalPadDec
  | cfb => rw [exec_final_cfb, exec_final_cfb]; exact h.outcome_finalStream
  | ctr => rw [exec_final_ctr, exec_final_ctr]; exact h.outcome_finalStream
  | ccm => cases d with
    | enc => exact h.outcome_finalCcmEnc _
    | dec => exact h.outcome_finalCcmDec _
  | gcm => cases d with
    | enc => exact h.outcome_finalGcmEnc _
    | dec => exact h.outcome_finalGcmDec _
  | gmac => cases d with
    | enc => exact h.outcome_finalGmacEnc _
    | dec => exact h.outcome_finalGmacDec _

/-! ### What shows of an outcome -/

/-- The slot of the operand handle afterwards and the reports added are the same from both states. -/
def SameEffect (s₁ s₂ : State) (o₁ o₂ : Result) : Prop :=
  ∀ t₁, o₁ = .next t₁ → ∃ t₂ r, o₂ = .next t₂ ∧ t₂.lookup s₁.args.handle = t₁.lookup s₁.args.handle ∧
    t₁.reports = s₁.reports ++ r ∧ t₂.reports = s₂.reports ++ r

/-- The same launch has the same effect: it completes with the same commit, or its handle holds the same record. -/
theorem sameEffect_launch (h : SameOwn s₁ s₂ inV c) (i : Instr) (snapshot : Option Context) (inV' : View) (jobs : List Nat)
    (r : Commit) : SameEffect s₁ s₂ (.next (s₁.launch i s₁.args.handle snapshot inV' s₁.args.outView jobs r))
      (.next (s₂.launch i s₂.args.handle snapshot inV' s₂.args.outView jobs r)) := by
  rintro t₁ ⟨⟩
  unfold State.launch
  rw [← h.args, ← h.issued]
  split
  · exact ⟨_, _, rfl, by rw [State.lookup_finish_same, State.lookup_finish_same], State.finish_reports .., by simp⟩
  · exact ⟨_, [], rfl, (State.lookup_put_same ..).trans (State.lookup_put_same ..).symm, by simp, by simp⟩

/-- Outcomes that are the same have the same effect. -/
theorem sameEffect (h : SameOwn s₁ s₂ inV c) {o₁ o₂ : Result} (ho : SameOutcome s₁ s₂ o₁ o₂) :
    SameEffect s₁ s₂ o₁ o₂ := by
  cases ho with
  | answer st n =>
    rintro t₁ ⟨⟩
    exact ⟨_, _, rfl, (h.args ▸ h.active₂).trans h.active₁.symm, rfl, by rw [h.issued]; rfl⟩
  | terminal st =>
    have hslot (s : State) : (s.raiseTerminal st).lookup s.args.handle = none := State.lookup_drop_same s _
    rintro t₁ ⟨⟩
    refine ⟨_, [{ id := s₁.issued, status := st, size := 0, handle := none, output := [] }], rfl, ?_, rfl, ?_⟩
    · rw [hslot s₁, h.args, hslot s₂]
    · rw [h.issued]
      rfl
  | update i c jobs r =>
    unfold State.runUpdate
    rw [← h.args]
    simpa only [← h.args] using h.sameEffect_launch i (some c) s₁.args.inView jobs r
  | final i c jobs r => exact h.sameEffect_launch i (some c) [] jobs r

end

end SameOwn

/-- Settles O12: from two states that agree on what the command reads, it has the same outcome, and so the same effect. -/
theorem outcomeDependsOnlyOnOwnContext : Obligations.OutcomeDependsOnlyOnOwnContext := by
  unfold Obligations.OutcomeDependsOnlyOnOwnContext
  intro s₁ s₂ t₁ op m d a c hop hargs hconfig hissued hinput hl₁ hl₂ hv₁ hv₂
  rw [← hargs] at hv₂
  have h : SameOwn s₁ s₂ (if op = .update then s₁.args.inView else []) c :=
    ⟨hargs, hconfig, hissued, hinput, hl₁, hl₂, hv₁, hargs ▸ hv₂⟩
  have ho : SameOutcome s₁ s₂ (exec (instrOf op m d a) s₁) (exec (instrOf op m d a) s₂) := by
    rcases hop with rfl | rfl
    · exact h.outcome_exec_update m d a
    · exact h.outcome_exec_final m d a
  exact h.sameEffect ho t₁

end Sys2Proof.Machine
end

section
/-! SUPPORT. The machine after reset, and INIT in the modes that need no job (O6, O17). -/

namespace Sys2Proof.Machine

/-! ### The first command -/

/-- INIT answers a next state whatever its operands: its checks are statuses (60 R535). -/
theorem exec_init_next (m : Mode) (d : Dir) (a : Alg) (s : State) :
    ∃ t, exec (instrOf .init m d a) s = .next t := by
  rw [exec_init]
  unfold initCommand
  split <;> exact ⟨_, rfl⟩

/-- When one of INIT's checks fails, ATOMIC reports its status (44 R471). -/
theorem exec_atomic_of_initChecks_error {s : State} {m : Mode} {a : Alg} {st : Status} (d : Dir)
    (hv : s.viewRefusal s.args.inView s.args.outView = none) (hst : s.initChecks m a = .error st) :
    exec (instrOf .atomic m d a) s = .next (s.answer st 0) := by
  have key (k : Handle → Result) : onAtomic s m a k = .next (s.answer st 0) := by
    simp only [onAtomic, hv, hst]
  cases m <;> cases d <;> exact key _

/-- INIT's checks, when they pass, have passed one by one, and allocate the fresh handle. -/
theorem initReady_of_initChecks {s : State} {m : Mode} {a : Alg} {h : Handle} (hh : s.initChecks m a = .ok h)
    (habs : s.lookup s.args.draws.handle = none) : InitReady s m a h := by
  unfold State.initChecks at hh
  split_ifs at hh with hsup hkt hkl hp hroom
  have hdraw : s.args.draws.handle = h := by simpa [State.freshHandle, habs] using hh
  exact
    { supported := by simpa using hsup
      keyType := by simpa using hkt
      keyLen := by simpa using hkl
      params := by simpa using hp
      room := by simpa using hroom
      drawn := hdraw
      absent := hdraw ▸ habs }

/-- ATOMIC whose drawn handle is ABSENT and whose views are not refused answers a next state. -/
theorem exec_atomic_next {s : State} (m : Mode) (d : Dir) (a : Alg)
    (hv : s.viewRefusal s.args.inView s.args.outView = none) (habs : s.lookup s.args.draws.handle = none) :
    ∃ t, exec (instrOf .atomic m d a) s = .next t := by
  cases hc : s.initChecks m a with
  | error st => exact ⟨_, exec_atomic_of_initChecks_error d hv hc⟩
  | ok h =>
    obtain ⟨jobs, he⟩ := exec_atomic_eq (d := d) (initReady_of_initChecks hc habs) hv
    rw [he]
    split
    · exact ⟨_, rfl⟩
    · split
      · exact ⟨_, rfl⟩
      · split <;> exact ⟨_, rfl⟩

/-- UPDATE and FINAL on a handle that was never returned are refused (44 R461). -/
theorem exec_of_unknown {s : State} {op : Op} (hop : op = .update ∨ op = .final) (m : Mode) (d : Dir) (a : Alg)
    (hl : s.lookup s.args.handle = none) (hk : s.args.handle ∉ s.known) :
    exec (instrOf op m d a) s = .refused (.unknownHandle s.args.handle) := by
  have key (inV : View) (k : Context → Result) :
      onContext s inV m d a k = .refused (.unknownHandle s.args.handle) := by
    simp only [onContext, hl, if_neg hk]
  rcases hop with rfl | rfl <;> cases m <;> cases d <;> exact key _ _

/-- ABORT on a handle that was never returned is refused (44 R461). -/
theorem abortCommand_of_unknown {s : State} (hl : s.lookup s.args.handle = none) (hk : s.args.handle ∉ s.known) :
    abortCommand s = .refused (.unknownHandle s.args.handle) := by
  simp only [abortCommand, hl, if_neg hk]

/-- Settles O6: after reset nothing is live, known or in flight, so INIT's checks and ATOMIC's own views decide alone, and no
handle can be named. -/
theorem resetAndFirstCommand : Obligations.ResetAndFirstCommand := by
  unfold Obligations.ResetAndFirstCommand
  refine ⟨State.lookup_reset, rfl, rfl, rfl, fun o m d a => ?_⟩
  intro s
  have hl (h : Handle) : s.lookup h = none := rfl
  have hk : s.args.handle ∉ s.known := List.not_mem_nil
  refine ⟨exec_init_next m d a s, fun hview => exec_atomic_next m d a ?_ (hl _), exec_of_unknown (.inl rfl) m d a (hl _) hk,
    exec_of_unknown (.inr rfl) m d a (hl _) hk, abortCommand_of_unknown (hl _) hk⟩
  have hclash : s.viewsClash o.inView o.outView = false := rfl
  show s.viewRefusal o.inView o.outView = none
  simp [State.viewRefusal, hview, hclash]

/-! ### INIT without jobs -/

/-- A mode without a tag makes no primitive use at INIT. -/
theorem initUses_of_not_aead {m : Mode} (hm : aeadMode m = false) (o : Operands) : initUses m o = 0 := by
  cases m with
  | ecb | cbc | cbcPad | cfb | ctr => rfl
  | ccm | gcm | gmac => cases hm

/-- The context INIT makes in a mode without a tag, field by field (10 R55). -/
theorem newContext_of_not_aead {m : Mode} (hm : aeadMode m = false) (s : State) (P : Prim) (d : Dir) (a : Alg) :
    s.newContext P m d a =
      { alg := a, mode := m, dir := d, ks := { alg := a, key := s.args.key }
        iv := if m = .ecb then [] else s.args.iv
        counterBits := if m = .ctr then s.args.counterBits.toNat else 0
        serial := s.issued } := by
  cases m with
  | ecb | cbc | cbcPad | cfb | ctr => rfl
  | ccm | gcm | gmac => cases hm

/-- A launch without jobs completes at its issue with its commit's effect and no other. -/
theorem State.launch_after (s : State) (i : Instr) (h : Handle) (snapshot : Option Context) (inV outV : View)
    {c : Commit} (hc : c.plain) (hret : ∀ k, c.returns = some k → k = h)
    (hview : outV = s.args.outView ∨ c.output = []) :
    After s (c.effect h) (s.launch i h snapshot inV outV [] c) :=
  State.after_finish hc hret hview (fun _ _ => rfl) rfl rfl rfl rfl rfl rfl rfl rfl (fun _ hk => hk) fun _ hk => .inl hk

/-- What an INIT that passed its checks commits (44 R464). -/
def State.initCommit (s : State) (m : Mode) (d : Dir) (a : Alg) (h : Handle) : Commit where
  status := .success
  size := 0
  ctx := some (s.newContext Prim.external m d a)
  region := .bytes []
  returns := some h

/-- INIT in a mode without a tag launches no job once its checks have passed. -/
theorem exec_init_of_not_aead {s : State} {m : Mode} {a : Alg} {h : Handle} (d : Dir) (hm : aeadMode m = false)
    (r : InitReady s m a h) :
    exec (instrOf .init m d a) s =
      .next (s.launch (instrOf .init m d a) h none [] [] [] (s.initCommit m d a h)) := by
  simp only [exec_init, initCommand, initChecks_of_ready r, initUses_of_not_aead hm, splitJobs_zero, State.initCommit]

/-- Settles O17: with no primitive use INIT launches no job, and its commit's effect is there at once. -/
theorem initWithoutJobs : Obligations.InitWithoutJobs := by
  unfold Obligations.InitWithoutJobs
  intro s m d a h hm r
  rw [exec_init_of_not_aead d hm r, ← newContext_of_not_aead hm s Prim.external d a]
  have hafter := s.launch_after (instrOf .init m d a) h none [] [] (c := s.initCommit m d a h) ⟨[], rfl, .inr rfl⟩
    (fun _ hk => (Option.some.inj hk).symm) (.inr rfl)
  exact ⟨_, rfl, hafter⟩

end Sys2Proof.Machine
end

section
/-! SUPPORT. What each step leaves as it was: the slots of the other handles (O11) and memory outside an output view (O13); and
the output read back (O14). -/

namespace Sys2Proof.Machine

/-! ### The handle a command works on -/

/-- The handle a command works on: INIT and ATOMIC draw one, UPDATE and FINAL name one. -/
def State.ownHandle (s : State) (op : Op) : Handle :=
  if op = .init ∨ op = .atomic then s.freshHandle s.args.draws.handle else s.args.handle

theorem State.ownHandle_of_named {op : Op} (hop : op = .update ∨ op = .final) (s : State) :
    s.ownHandle op = s.args.handle := by
  rcases hop with rfl | rfl <;> rfl

theorem State.ownHandle_of_drawn {op : Op} (hop : op = .init ∨ op = .atomic) (s : State) :
    s.ownHandle op = s.freshHandle s.args.draws.handle :=
  if_pos hop

/-- INIT's checks, when they pass, allocate the fresh handle (44 R462). -/
theorem State.initChecks_ok {s : State} {m : Mode} {a : Alg} {h : Handle} (hh : s.initChecks m a = .ok h) :
    h = s.freshHandle s.args.draws.handle := by
  unfold State.initChecks at hh
  split_ifs at hh
  cases hh
  rfl

/-- An operation names its handle or draws it. -/
theorem drawn_or_named (op : Op) : (op = .init ∨ op = .atomic) ∨ op = .update ∨ op = .final := by
  cases op <;> simp

/-! ### What a command other than ABORT changes -/

/-- The launch of a command: its views clash with none in flight, it writes no view but its output view, INIT none at all, and no
byte beside SUCCESS (but for the unpad failure of ATOMIC.CBC_PAD.DEC); an AEAD decrypt UPDATE has no job and writes nothing. -/
structure LaunchOk (s : State) (op : Op) (m : Mode) (d : Dir) (inV outV : View) (jobs : List Nat) (r : Commit) : Prop where
  clash : s.viewsClash inV outV = false
  outView : outV = [] ∨ op ≠ .init ∧ outV = s.args.outView
  region : r.status = .success ∨ r.region = .bytes [] ∨ m = .cbcPad
  aeadUpdate : op = .update → aeadMode m = true → d = .dec → jobs = [] ∧ r.region = .bytes []

/-- The next states of a command on the handle `ownHandle`: answered at its issue, the end of its context, or its launch. -/
inductive NextOf (s : State) (i : Instr) (op : Op) (m : Mode) (d : Dir) : State → Prop
  | answered (st : Status) (n : Nat) : NextOf s i op m d (s.answer st n)
  | terminal (st : Status) : s.ownHandle op = s.args.handle → NextOf s i op m d (s.raiseTerminal st)
  | launched (snapshot : Option Context) (inV outV : View) (jobs : List Nat) (r : Commit) :
      LaunchOk s op m d inV outV jobs r →
      NextOf s i op m d (s.launch i (s.ownHandle op) snapshot inV outV jobs r)

/-- What a command other than ABORT changes, from its shape; and the handle it works on is not BUSY before it. -/
theorem exec_instrOf_next {s t : State} {op : Op} {m : Mode} {d : Dir} {a : Alg}
    (ht : exec (instrOf op m d a) s = .next t) :
    NextOf s (instrOf op m d a) op m d t ∧ ∀ f, s.lookup (s.ownHandle op) ≠ some (.busy f) := by
  have drawn (hop : op = .init ∨ op = .atomic) (f : InFlight) : s.lookup (s.ownHandle op) ≠ some (.busy f) := by
    rw [State.ownHandle_of_drawn hop, State.lookup_freshHandle]
    exact nofun
  have named (hop : op = .update ∨ op = .final) {c : Context} (hl : s.lookup s.args.handle = some (.active c))
      (f : InFlight) : s.lookup (s.ownHandle op) ≠ some (.busy f) := by
    rw [State.ownHandle_of_named hop, hl]
    exact nofun
  have hsh := exec_shape op m d a s
  generalize instrOf op m d a = i at ht hsh ⊢
  rw [ht] at hsh
  generalize hR : (Host.Outcome.next t : Result) = R at hsh
  cases hsh with
  | refused r _ => cases hR
  | answered st n _ _ hl =>
    cases hR
    refine ⟨.answered st n, ?_⟩
    rcases drawn_or_named op with hop | hop
    · exact drawn hop
    · exact named hop (hl hop).choose_spec
  | terminal c st hop hl _ =>
    cases hR
    exact ⟨.terminal st (State.ownHandle_of_named hop s), named hop hl⟩
  | init hop h jobs hh _ =>
    cases hR
    rw [State.initChecks_ok hh, ← State.ownHandle_of_drawn (.inl hop)]
    refine ⟨.launched _ _ _ _ _ ⟨s.viewsClash_nil, .inl rfl, .inl rfl, fun hu => ?_⟩, drawn (.inl hop)⟩
    cases hop.symm.trans hu
  | update c c' out jobs hop hr _ _ haead _ =>
    cases hR
    rw [← State.ownHandle_of_named (.inl hop)]
    refine ⟨.launched _ _ _ _ _ ⟨State.viewsClash_of_viewRefusal hr.views, .inr ⟨by rw [hop]; decide, rfl⟩, .inl rfl,
      fun _ hm hd => ?_⟩, named (.inl hop) hr.active⟩
    obtain ⟨rfl, rfl⟩ := haead hm hd
    exact ⟨rfl, rfl⟩
  | final c r jobs hop hr he _ =>
    cases hR
    rw [← State.ownHandle_of_named (.inr hop)]
    refine ⟨.launched _ _ _ _ _ ⟨State.viewsClash_of_viewRefusal hr.views, .inr ⟨by rw [hop]; decide, rfl⟩, he.region,
      fun hu => ?_⟩, named (.inr hop) hr.active⟩
    cases hop.symm.trans hu
  | atomic h r jobs hop hv hh he _ =>
    cases hR
    rw [State.initChecks_ok hh, ← State.ownHandle_of_drawn (.inr hop)]
    refine ⟨.launched _ _ _ _ _ ⟨State.viewsClash_of_viewRefusal hv, .inr ⟨by rw [hop]; decide, rfl⟩, he.region,
      fun hu => ?_⟩, drawn (.inr hop)⟩
    cases hop.symm.trans hu

/-! ### Slots -/

theorem State.lookup_raiseTerminal_ne {s : State} {h : Handle} (hne : h ≠ s.args.handle) (st : Status) :
    (s.raiseTerminal st).lookup h = s.lookup h :=
  State.lookup_drop_ne hne s

/-- A command other than ABORT leaves every slot but that of the handle it works on. -/
theorem exec_lookup_ne {s t : State} {op : Op} {m : Mode} {d : Dir} {a : Alg}
    (ht : exec (instrOf op m d a) s = .next t) {h : Handle} (hne : h ≠ s.ownHandle op) : t.lookup h = s.lookup h := by
  cases (exec_instrOf_next ht).1 with
  | answered st n => rfl
  | terminal st hown => exact State.lookup_raiseTerminal_ne (hown ▸ hne) st
  | launched => exact State.lookup_launch_ne hne _ _ _ _ _ _ _

/-- ABORT leaves every slot but that of the handle it names. -/
theorem abortCommand_lookup_ne {s t : State} (ht : abortCommand s = .next t) {h : Handle} (hne : h ≠ s.args.handle) :
    t.lookup h = s.lookup h := by
  rcases abortCommand_next ht with ⟨f, -, rfl⟩ | ⟨-, rfl⟩
  · exact State.lookup_finish_ne (s := s.cancelJob f.current) hne f.id f.outView _
  · rfl

/-- A submission leaves every slot but that of the handle it is for. -/
theorem submitJob_lookup_ne {s t : State} {k : Handle} (ht : submitJob k s = .next t) {h : Handle} (hne : h ≠ k) :
    t.lookup h = s.lookup h := by
  obtain ⟨f, n, rest, -, -, -, rfl⟩ := submitJob_next ht
  exact State.lookup_put_ne hne s _

/-- A completion leaves every slot but that of its job's handle. -/
theorem completeJob_lookup_ne {s t : State} {n : Nat} {r : JobResult} (ht : completeJob n r s = .next t) {h : Handle}
    (hne : (s.jobs.find? fun j => j.id = n).map PrimJob.handle ≠ some h) : t.lookup h = s.lookup h := by
  obtain ⟨j, hj, -, -, -, -, ⟨-, rfl⟩ | ⟨-, f, -, rfl⟩⟩ := completeJob_next ht
  · rfl
  · rw [hj] at hne
    exact State.lookup_jobEnded_ne (fun hh => hne (congrArg some hh.symm)) _ f r

/-- A configuration that is accepted is all that changes. -/
theorem configure_next {cfg : HostConfig} {s t : State} (ht : configure cfg s = .next t) :
    t = { s with config := cfg } := by
  unfold configure at ht
  split at ht
  · cases ht
    rfl
  · cases ht

/-- The issue of a command runs it on the operand record, and a reserved word is answered (44 R460, R465). -/
theorem issueCommand_next {w : CommandWord} {o : Operands} {s t : State} (ht : issueCommand w o s = .next t) :
    (∃ i, decode w = some i ∧ exec i { s with args := o } = .next t) ∨
      t = ({ s with args := o } : State).answer .mechanismInvalid 0 := by
  unfold issueCommand at ht
  split at ht
  · exact .inl ⟨_, ‹_›, ht⟩
  · cases ht
    exact .inr rfl

/-- ABORT addresses the handle it names. -/
theorem State.addressed_abort {w : CommandWord} (hw : decode w = some .abort) (o : Operands) (s : State) :
    s.addressed (.issue w o) = some o.handle := by
  simp [State.addressed, hw, Instr.parts]

/-- UPDATE and FINAL address the handle they name. -/
theorem State.addressed_named {w : CommandWord} {op : Op} {m : Mode} {d : Dir} {a : Alg}
    (hw : decode w = some (instrOf op m d a)) (hop : op = .update ∨ op = .final) (o : Operands) (s : State) :
    s.addressed (.issue w o) = some o.handle := by
  rcases hop with rfl | rfl <;> simp [State.addressed, hw, parts_instrOf]

/-- The issue of a word leaves every live handle that it does not address: the one an INIT or ATOMIC draws is ABSENT. -/
theorem issueCommand_lookup {w : CommandWord} {o : Operands} {s t : State} (ht : issueCommand w o s = .next t)
    {h : Handle} (hne : s.addressed (.issue w o) ≠ some h) {x : Slot} (hx : s.lookup h = some x) :
    t.lookup h = s.lookup h := by
  rcases issueCommand_next ht with ⟨i, hw, hi⟩ | rfl
  · rcases eq_abort_or_instrOf i with rfl | ⟨op, m, d, a, rfl⟩
    · rw [State.addressed_abort hw] at hne
      exact abortCommand_lookup_ne hi fun hh => hne (congrArg some hh.symm)
    · refine exec_lookup_ne hi fun hh => ?_
      rcases drawn_or_named op with hop | hop
      · rw [State.ownHandle_of_drawn hop] at hh
        have habs := State.lookup_freshHandle { s with args := o } o.draws.handle
        rw [← hh] at habs
        cases habs.symm.trans hx
      · rw [State.ownHandle_of_named hop] at hh
        rw [State.addressed_named hw hop] at hne
        exact hne (congrArg some hh.symm)
  · rfl

/-- Settles O11: each agent's step leaves every slot but one, and that one is addressed or ABSENT. -/
theorem otherContextsUnchanged : Obligations.OtherContextsUnchanged := by
  unfold Obligations.OtherContextsUnchanged
  intro s t e rest h x he ht hne hx
  unfold step at ht
  rw [he] at ht
  have hkept : t.lookup h = ({ s with events := rest } : State).lookup h := by
    cases e with
    | configure cfg =>
      rw [configure_next ht]
      rfl
    | issue w o => exact issueCommand_lookup ht hne hx
    | submit k => exact submitJob_lookup_ne ht fun hh => hne (congrArg some hh.symm)
    | complete n r => exact completeJob_lookup_ne ht hne
    | hostWrite a b =>
      rw [(hostWrite_next ht).2]
      rfl
  exact hkept.trans hx

/-! ### Memory -/

/-- An effect on the empty view changes no byte. -/
theorem State.applyRegion_nil_mem (s : State) (r : Region) : (s.applyRegion [] r).mem = s.mem := by
  cases r <;> rfl

/-- A launch with no output view changes no byte. -/
theorem State.launch_mem_of_nil (s : State) (i : Instr) (h : Handle) (snapshot : Option Context) (inV : View)
    (jobs : List Nat) (r : Commit) : (s.launch i h snapshot inV [] jobs r).mem = s.mem := by
  unfold State.launch
  split
  · rw [State.finish_mem, State.applyRegion_nil_mem]
    rfl
  · rfl

/-- A command other than ABORT changes no byte outside its output view (20 R82). -/
theorem exec_read {s t : State} {op : Op} {m : Mode} {d : Dir} {a : Alg} (ht : exec (instrOf op m d a) s = .next t)
    {addr : Nat} (ha : addr ∉ View.addrs s.args.outView) : Memory.read t.mem addr = Memory.read s.mem addr := by
  cases (exec_instrOf_next ht).1 with
  | answered => rfl
  | terminal => rfl
  | launched snapshot inV outV jobs r hok =>
    refine State.read_launch (fun hin => ?_) _ _ _ _ _ _ _
    rcases hok.outView with rfl | ⟨-, rfl⟩
    · cases hin
    · exact ha hin

/-- INIT changes no byte. -/
theorem exec_init_mem {s t : State} {m : Mode} {d : Dir} {a : Alg} (ht : exec (instrOf .init m d a) s = .next t) :
    t.mem = s.mem := by
  cases (exec_instrOf_next ht).1 with
  | answered => rfl
  | terminal => rfl
  | launched snapshot inV outV jobs r hok =>
    obtain rfl : outV = [] := hok.outView.resolve_right fun h => h.1 rfl
    exact State.launch_mem_of_nil s _ _ _ _ _ _

/-- ABORT changes no byte outside the output view of the command it cancels (20 R85). -/
theorem abortCommand_read {s t : State} (ht : abortCommand s = .next t) {addr : Nat}
    (ha : ∀ f, s.lookup s.args.handle = some (.busy f) → addr ∉ View.addrs f.outView) :
    Memory.read t.mem addr = Memory.read s.mem addr := by
  rcases abortCommand_next ht with ⟨f, hf, rfl⟩ | ⟨-, rfl⟩
  · exact State.read_finish (ha f hf) (s.cancelJob f.current) f.id _ _
  · rfl

/-- A submission changes no byte. -/
theorem submitJob_mem {s t : State} {h : Handle} (ht : submitJob h s = .next t) : t.mem = s.mem := by
  obtain ⟨f, n, rest, -, -, -, rfl⟩ := submitJob_next ht
  rfl

/-- A completion changes no byte outside the output view of the command its job belongs to. -/
theorem completeJob_read {s t : State} {n : Nat} {r : JobResult} (ht : completeJob n r s = .next t) {addr : Nat}
    (ha : ∀ job f, job ∈ s.jobs → job.id = n → s.lookup job.handle = some (.busy f) → addr ∉ View.addrs f.outView) :
    Memory.read t.mem addr = Memory.read s.mem addr := by
  obtain ⟨j, -, hj, hid, -, -, ⟨-, rfl⟩ | ⟨-, f, hf, rfl⟩⟩ := completeJob_next ht
  · rfl
  · exact State.read_jobEnded (ha j f hj hid hf) _ _ _

/-- Settles O13: a completion writes its output view alone, and nothing else writes. -/
theorem memoryFrame : Obligations.MemoryFrame := by
  unfold Obligations.MemoryFrame
  refine ⟨fun s t i addr ht hi ha => ?_, fun s t addr ht ha => abortCommand_read ht ha, fun s t m d a => exec_init_mem,
    fun s t h => submitJob_mem, fun s t n r addr ht ha => completeJob_read ht ha⟩
  obtain ⟨op, m, d, a, rfl⟩ := (eq_abort_or_instrOf i).resolve_left hi
  exact exec_read ht ha

/-- A view names as many addresses as it has bytes. -/
theorem View.addrs_length (v : View) : (View.addrs v).length = View.size v := by
  simp [View.addrs, View.size, List.length_flatMap]

/-- Settles O14: the output is written to distinct addresses in order, and nowhere else. -/
theorem outputReadsBack : Obligations.OutputReadsBack := by
  unfold Obligations.OutputReadsBack
  intro s u e hafter hnodup hlen
  rw [hafter.mem]
  exact ⟨Memory.read_writeAll_map _ _ _ hnodup (hlen.trans_eq (View.addrs_length _).symm),
    fun addr ha => Memory.read_writeAll_of_notMem _ _ _ ha⟩

end Sys2Proof.Machine
end

section
/-! SUPPORT. A command in flight through every step, a launched command once its jobs have completed, and no plaintext before
verification (O60). -/

namespace Sys2Proof.Machine

/-! ### A command in flight -/

/-- From `s` to `t` the command `f` in flight on `h`, if it is still in flight, is the same and its output view holds the same bytes
(20 R96). -/
def KeepsFlight (s t : State) (h : Handle) (f : InFlight) : Prop :=
  ∀ f', t.lookup h = some (.busy f') →
    f.SameCommand f' ∧ ∀ addr, addr ∈ View.addrs f.outView → Memory.read t.mem addr = Memory.read s.mem addr

theorem InFlight.SameCommand.refl (f : InFlight) : f.SameCommand f := ⟨rfl, rfl, rfl, rfl, rfl, rfl⟩

section

variable {s t : State} {h : Handle} {f : InFlight}

/-- A slot left as it was holds the same command. -/
theorem KeepsFlight.of_lookup_eq (hf : s.lookup h = some (.busy f)) (hl : t.lookup h = s.lookup h)
    (hread : ∀ addr ∈ View.addrs f.outView, Memory.read t.mem addr = Memory.read s.mem addr) : KeepsFlight s t h f := by
  intro f' hf'
  rw [hl, hf] at hf'
  cases hf'
  exact ⟨.refl f, hread⟩

/-- Bytes written to views that clash with none in flight are not those of a command in flight. -/
theorem State.not_mem_of_viewsClash {inV outV : View} (hv : s.viewsClash inV outV = false)
    (hf : s.lookup h = some (.busy f)) {addr : Nat} (ha : addr ∈ View.addrs f.outView) : addr ∉ View.addrs outV := by
  intro hout
  have hoverlap := View.overlaps_of_mem hout ha
  rw [(State.apart_of_viewsClash hv hf).1] at hoverlap
  cases hoverlap

/-- Two commands in flight write to no common address (20 R97). -/
theorem State.Inv.outViews_disjoint (hs : s.Inv) {k : Handle} {g : InFlight} (hne : h ≠ k)
    (hf : s.lookup h = some (.busy f)) (hg : s.lookup k = some (.busy g)) {addr : Nat}
    (ha : addr ∈ View.addrs f.outView) : addr ∉ View.addrs g.outView := by
  intro hg'
  have hoverlap := View.overlaps_of_mem ha hg'
  rw [(hs.views_apart h k f g hne hf hg).1] at hoverlap
  cases hoverlap

/-- A command other than ABORT works on another handle and writes to other addresses. -/
theorem KeepsFlight.of_exec_instrOf (hf : s.lookup h = some (.busy f)) {op : Op} {m : Mode} {d : Dir} {a : Alg}
    (ht : exec (instrOf op m d a) s = .next t) : KeepsFlight s t h f := by
  obtain ⟨hnext, hbusy⟩ := exec_instrOf_next ht
  refine .of_lookup_eq hf (exec_lookup_ne ht fun hh => hbusy f (hh ▸ hf)) fun addr ha => ?_
  cases hnext with
  | answered => rfl
  | terminal => rfl
  | launched snapshot inV outV jobs r hok =>
    exact State.read_launch (State.not_mem_of_viewsClash hok.clash hf ha) _ _ _ _ _ _ _

/-- ABORT ends the command in flight on the handle it names, and writes to that one's output view alone. -/
theorem KeepsFlight.of_abortCommand (hs : s.Inv) (hf : s.lookup h = some (.busy f)) (ht : abortCommand s = .next t) :
    KeepsFlight s t h f := by
  by_cases hh : h = s.args.handle
  · rcases abortCommand_next ht with ⟨g, -, rfl⟩ | ⟨hno, -⟩
    · intro f' hf'
      rw [hh] at hf'
      exact absurd hf' (State.not_busy_finish (s := s.cancelJob g.current) (id := g.id) f')
    · exact absurd (hh ▸ hf) (hno f)
  · exact .of_lookup_eq hf (abortCommand_lookup_ne ht hh) fun addr ha =>
      abortCommand_read ht fun g hg => hs.outViews_disjoint hh hf hg ha

/-- The issue of a word, reserved or not, keeps every command that stays in flight. -/
theorem KeepsFlight.of_issueCommand (hs : s.Inv) (hf : s.lookup h = some (.busy f)) {w : CommandWord} {o : Operands}
    (ht : issueCommand w o s = .next t) : KeepsFlight s t h f := by
  rcases issueCommand_next ht with ⟨i, -, hi⟩ | rfl
  · rcases eq_abort_or_instrOf i with rfl | ⟨op, m, d, a, rfl⟩
    · exact KeepsFlight.of_abortCommand (s := { s with args := o }) (hs.reschedule s.events o) hf hi
    · exact KeepsFlight.of_exec_instrOf (s := { s with args := o }) hf hi
  · exact .of_lookup_eq hf rfl fun _ _ => rfl

/-- A submission takes a job of the command and leaves the rest of its record. -/
theorem KeepsFlight.of_submitJob (hf : s.lookup h = some (.busy f)) {k : Handle} (ht : submitJob k s = .next t) :
    KeepsFlight s t h f := by
  by_cases hh : h = k
  · subst hh
    obtain ⟨g, n, rest, hg, -, -, rfl⟩ := submitJob_next ht
    cases hf.symm.trans hg
    intro f' hf'
    cases (State.lookup_put_same s h _).symm.trans hf'
    exact ⟨⟨rfl, rfl, rfl, rfl, rfl, rfl⟩, fun _ _ => rfl⟩
  · exact .of_lookup_eq hf (submitJob_lookup_ne ht hh) fun addr _ => by rw [submitJob_mem ht]

/-- The end of a job of the command commits it, or goes on to its next job and writes nothing. -/
theorem KeepsFlight.jobEnded_same {q : State} (hq : q.mem = s.mem) (r : JobResult) :
    KeepsFlight s (q.jobEnded h f r) h f := by
  intro f' hf'
  rcases q.jobEnded_cases h f r with ⟨c, e, -⟩ | ⟨-, -, e⟩
  · rw [e] at hf'
    exact absurd hf' (State.not_busy_finish f')
  · rw [e, State.lookup_put_same] at hf'
    cases hf'
    refine ⟨⟨rfl, rfl, rfl, rfl, rfl, rfl⟩, fun addr _ => ?_⟩
    rw [e, State.put_mem, hq]

/-- The completion of a job keeps every command that stays in flight. -/
theorem KeepsFlight.of_completeJob (hs : s.Inv) (hf : s.lookup h = some (.busy f)) {n : Nat} {r : JobResult}
    (ht : completeJob n r s = .next t) : KeepsFlight s t h f := by
  obtain ⟨j, -, -, -, -, -, ⟨-, rfl⟩ | ⟨-, g, hg, rfl⟩⟩ := completeJob_next ht
  · exact .of_lookup_eq hf rfl fun _ _ => rfl
  · by_cases hh : h = j.handle
    · subst hh
      cases hf.symm.trans hg
      exact .jobEnded_same rfl r
    · exact .of_lookup_eq hf (State.lookup_jobEnded_ne hh _ g r) fun addr ha =>
        State.read_jobEnded (hs.outViews_disjoint hh hf hg ha) _ _ _

/-- A store of a caller or the host lands outside every view in flight (70 R592). -/
theorem KeepsFlight.of_hostWrite (hf : s.lookup h = some (.busy f)) {addr : Nat} {b : Bytes}
    (ht : hostWrite addr b s = .next t) : KeepsFlight s t h f := by
  obtain ⟨hclash, rfl⟩ := hostWrite_next ht
  exact .of_lookup_eq hf rfl fun x hx =>
    Memory.read_writeAll_of_notMem _ _ _ fun hin => State.not_mem_of_viewsClash hclash hf hx (List.mem_of_mem_take hin)

/-- Every step keeps every command that stays in flight. -/
theorem KeepsFlight.of_step (hs : s.Inv) (hf : s.lookup h = some (.busy f)) (ht : step s = .next t) :
    KeepsFlight s t h f := by
  rcases step_next ht with ⟨e, rest, -, hr⟩ | ⟨-, -, rfl⟩
  · show KeepsFlight { s with events := rest } t h f
    have hs' := hs.reschedule rest s.args
    cases e with
    | configure cfg =>
      rw [configure_next hr]
      exact .of_lookup_eq hf rfl fun _ _ => rfl
    | issue w o => exact .of_issueCommand hs' hf hr
    | submit k => exact .of_submitJob hf hr
    | complete n r => exact .of_completeJob hs' hf hr
    | hostWrite addr b => exact .of_hostWrite hf hr
  · exact .of_lookup_eq hf rfl fun _ _ => rfl

end

/-! ### A command once its jobs have completed -/

/-- `q` is `s` after the issue of a command on `h`, but for that handle's slot, its being known and the job numbers. -/
structure IssuedOn (s : State) (h : Handle) (q : State) : Prop where
  others : ∀ k, k ≠ h → q.lookup k = s.lookup k
  reports : q.reports = s.reports
  issued : q.issued = s.issued + 1
  mem : q.mem = s.mem
  config : q.config = s.config
  jobs : q.jobs = s.jobs
  events : q.events = s.events
  args : q.args = {}
  known : ∀ k ∈ s.known, k ∈ q.known
  learned : ∀ k ∈ q.known, k ∈ s.known ∨ k = h

/-- A handle that is not BUSY has nothing to settle. -/
theorem State.settle_of_not_busy {s : State} {h : Handle} (hl : ∀ f, s.lookup h ≠ some (.busy f)) : s.settle h = s := by
  unfold State.settle
  split
  · exact absurd ‹_› (hl _)
  · rfl

/-- A launch without jobs is its completion. -/
theorem State.launch_nil (s : State) (i : Instr) (h : Handle) (snapshot : Option Context) (inV outV : View) (r : Commit) :
    s.launch i h snapshot inV outV [] r = s.accept.finish s.issued h outV r := by
  simp [State.launch]

/-- A launched command completes, at its issue or once its jobs have, with its commit on the state it was issued on (60 R543). -/
theorem State.settle_launch (s : State) (i : Instr) (h : Handle) (snapshot : Option Context) (inV outV : View)
    (jobs : List Nat) (r : Commit) : ∃ q, IssuedOn s h q ∧
      (s.launch i h snapshot inV outV jobs r).settle h = q.finish s.issued h outV r := by
  by_cases hj : jobs = []
  · subst hj
    rw [State.launch_nil, State.settle_of_not_busy State.not_busy_finish]
    exact ⟨s.accept, ⟨fun _ _ => rfl, rfl, rfl, rfl, rfl, rfl, rfl, rfl, fun _ hk => hk, fun _ hk => .inl hk⟩, rfl⟩
  · have hbusy : (s.launch i h snapshot inV outV jobs r).lookup h = some (.busy
        { id := s.issued, command := i, snapshot := snapshot, inView := inV, outView := outV, jobsLeft := jobs
          current := none, jobsDone := 0, commit := r }) := by
      rw [State.launch, if_neg hj]
      exact State.lookup_put_same s.accept h _
    unfold State.settle
    rw [hbusy]
    refine ⟨_, ?_, rfl⟩
    rw [State.launch, if_neg hj]
    exact
      { others := fun k hk => State.lookup_put_ne hk s.accept _
        reports := rfl, issued := rfl, mem := rfl, config := rfl, jobs := rfl, events := rfl, args := rfl
        known := fun k hk => State.mem_know.mpr (.inr hk)
        learned := fun k hk => (State.mem_know.mp hk).symm }

/-- While its jobs are not complete nothing of a launched command shows (20 R96). -/
theorem State.launch_pending (s : State) (i : Instr) (h : Handle) (snapshot : Option Context) (inV outV : View)
    {jobs : List Nat} (hj : jobs ≠ []) (r : Commit) :
    Pending s h snapshot (s.launch i h snapshot inV outV jobs r) := by
  rw [State.launch, if_neg hj]
  exact
    { slot := ⟨_, State.lookup_put_same s.accept h _, rfl, rfl, rfl, hj⟩
      others := fun k hk => State.lookup_put_ne hk s.accept _
      reports := rfl, issued := rfl, mem := rfl, config := rfl, jobs := rfl, events := rfl, free := rfl, args := rfl
      known := State.mem_know.mpr (.inl rfl) }

/-! ### No plaintext before verification -/

/-- Memory is as before, or the one report added is a SUCCESS. -/
def WritesOnlyOnSuccess (s t : State) : Prop :=
  t.mem = s.mem ∨ ∃ r, t.reports = s.reports ++ [r] ∧ r.status = .success

/-- A commit that writes nothing beside SUCCESS changes memory on SUCCESS alone. -/
theorem WritesOnlyOnSuccess.finish {s q : State} (hmem : q.mem = s.mem) (hreports : q.reports = s.reports) {r : Commit}
    (hr : r.status = .success ∨ r.region = .bytes []) (id : Nat) (h : Handle) (v : View) :
    WritesOnlyOnSuccess s (q.finish id h v r) := by
  rcases hr with hr | hr
  · exact .inr ⟨_, by rw [State.finish_reports, hreports], hr⟩
  · refine .inl ?_
    rw [State.finish_mem, hr]
    simpa [State.applyRegion] using hmem

/-- So does the launch of such a commit, both at its issue and once its jobs have completed. -/
theorem WritesOnlyOnSuccess.launch (s : State) (i : Instr) (h : Handle) (snapshot : Option Context) (inV outV : View)
    (jobs : List Nat) {r : Commit} (hr : r.status = .success ∨ r.region = .bytes []) :
    WritesOnlyOnSuccess s (s.launch i h snapshot inV outV jobs r) ∧
      WritesOnlyOnSuccess s ((s.launch i h snapshot inV outV jobs r).settle h) := by
  constructor
  · unfold State.launch
    split
    · exact .finish rfl rfl hr _ _ _
    · exact .inl rfl
  · obtain ⟨q, hq, he⟩ := s.settle_launch i h snapshot inV outV jobs r
    rw [he]
    exact .finish hq.mem hq.reports hr _ _ _

/-- A command but ABORT, in a mode other than CBC_PAD, changes memory on SUCCESS alone, both at its issue and once its jobs have
completed. -/
theorem WritesOnlyOnSuccess.of_exec {s t : State} {op : Op} {m : Mode} {d : Dir} {a : Alg} (hm : m ≠ .cbcPad)
    (ht : exec (instrOf op m d a) s = .next t) :
    WritesOnlyOnSuccess s t ∧ WritesOnlyOnSuccess s (t.settle (s.ownHandle op)) := by
  obtain ⟨hnext, hbusy⟩ := exec_instrOf_next ht
  cases hnext with
  | answered st n =>
    rw [State.settle_of_not_busy (s := s.answer st n) hbusy]
    exact ⟨.inl rfl, .inl rfl⟩
  | terminal st hown =>
    have habs : (s.raiseTerminal st).lookup (s.ownHandle op) = none := hown ▸ State.lookup_drop_same s _
    rw [State.settle_of_not_busy fun f hf => by rw [habs] at hf; cases hf]
    exact ⟨.inl rfl, .inl rfl⟩
  | launched snapshot inV outV jobs r hok =>
    exact WritesOnlyOnSuccess.launch s _ _ snapshot inV outV jobs (hok.region.imp_right fun h => h.resolve_right hm)

/-- An AEAD decrypt UPDATE completes at its issue and writes nothing: its input goes to scratch (42 R309, 43 R393). -/
theorem exec_aeadUpdate_dec {s t : State} {m : Mode} {a : Alg} (hm : aeadMode m = true)
    (ht : exec (instrOf .update m .dec a) s = .next t) :
    t.mem = s.mem ∧ ∀ f, t.lookup s.args.handle ≠ some (.busy f) := by
  obtain ⟨hnext, hbusy⟩ := exec_instrOf_next ht
  cases hnext with
  | answered => exact ⟨rfl, hbusy⟩
  | terminal st =>
    have habs : (s.raiseTerminal st).lookup s.args.handle = none := State.lookup_drop_same s _
    exact ⟨rfl, fun f hf => by rw [habs] at hf; cases hf⟩
  | launched snapshot inV outV jobs r hok =>
    obtain ⟨rfl, hr⟩ := hok.aeadUpdate rfl hm rfl
    rw [State.launch_nil]
    refine ⟨?_, State.not_busy_finish⟩
    rw [State.finish_mem, hr]
    simp [State.applyRegion]

/-- Settles O60: an AEAD decryption commits bytes only beside SUCCESS, at its issue or with its last job, and no other step touches
the output view of a command in flight. -/
theorem noPlaintextBeforeVerification : Obligations.NoPlaintextBeforeVerification := by
  unfold Obligations.NoPlaintextBeforeVerification
  refine ⟨fun s t op m a h hm hop ht hh => ?_, fun u v h f f' hs ht hf hf' => KeepsFlight.of_step hs hf ht f' hf'⟩
  have hpad : m ≠ .cbcPad := by
    rintro rfl
    cases hm
  obtain rfl : h = s.ownHandle op := by
    rw [hh, State.ownHandle]
    simp [hop]
  obtain ⟨hissue, hsettled⟩ := WritesOnlyOnSuccess.of_exec hpad ht
  refine ⟨?_, hsettled, hissue⟩
  rintro rfl
  exact exec_aeadUpdate_dec hm ht

end Sys2Proof.Machine
end

section
/-! SUPPORT. The completion of a job: a failure, a cancelled job, and the order of completions (O51). -/

namespace Sys2Proof.Machine

section

variable {s t : State} {job : PrimJob}

/-- The Block Primitive can give any of its errors (60 R541). -/
theorem State.possibleResult_eq_none {r : JobResult} (hr : ∀ e, r = .error e → e ∈ s.config.primErrors) :
    s.possibleResult r = none := by
  cases r with
  | ok => rfl
  | error e => exact if_pos (hr e rfl)

/-- A job of a command in flight that fails ends the command with PRIM(e) (60 R541). -/
theorem completeJob_error (hs : s.Inv) (hj : job ∈ s.jobs) (hc : job.cancelled = false) (he : s.earlierJob job = false)
    {f : InFlight} (hf : s.lookup job.handle = some (.busy f)) {e : Nat} (hprim : e ∈ s.config.primErrors) :
    completeJob job.id (.error e) s =
      .next ({ s with jobs := s.jobsAfter job }.finish f.id job.handle f.outView (.failAny (.prim e))) :=
  completeJob_live hs hj he hc (State.possibleResult_eq_none fun _ h => by cases h; exact hprim) hf

/-- The completion of a job leaves the jobs that are not before it in its context. -/
theorem completeJob_jobs (hs : s.Inv) (hj : job ∈ s.jobs) {r : JobResult} (ht : completeJob job.id r s = .next t) :
    t.jobs = s.jobsAfter job := by
  obtain ⟨j, -, hmem, hid, -, -, ⟨-, rfl⟩ | ⟨-, f, -, rfl⟩⟩ := completeJob_next ht
  · rw [hs.job_unique hmem hj hid]
  · rw [State.jobEnded_jobs, hs.job_unique hmem hj hid]

end

/-- Settles O51: a failure is the commit PRIM(e), a cancelled job only leaves the list, and the list keeps the order. -/
theorem jobFailureAndCancelledJob : Obligations.JobFailureAndCancelledJob := by
  unfold Obligations.JobFailureAndCancelledJob
  refine ⟨?_, ?_, ?_, ?_⟩
  · intro s job f e hs hj hc he hf hprim
    refine ⟨_, completeJob_error hs hj hc he hf hprim, State.lookup_finish_same _ _ _ _ _,
      fun k hk => State.lookup_finish_ne hk _ _ _ _, State.finish_reports _ _ _ _ _, State.finish_jobs _ _ _ _ _,
      fun addr ha => State.read_finish ha _ _ _ _, State.finish_known _ _ _ _ _, State.finish_config _ _ _ _ _,
      State.finish_events _ _ _ _ _, State.finish_issued _ _ _ _ _⟩
  · intro s job r hs hj hc he hr
    exact completeJob_cancelled hs hj he hc (State.possibleResult_eq_none hr)
  · intro s t job early r r' hs hj hearly hh hctx hid ht
    exact completeJob_overtaken hs hearly hh hctx hid.le (completeJob_jobs hs hj ht) r'
  · intro s job early r hs hj hearly hh hctx hid hc
    exact completeJob_early hs hj (State.earlierJob_iff.mpr ⟨early, hearly, hh, hctx, hid, hc⟩) r

end Sys2Proof.Machine
end

section
/-! SUPPORT. ATOMIC of CBC_PAD decryption (O45). -/

namespace Sys2Proof.Machine

/-- CBC decryption of whole blocks gives as many bytes as it takes (40 R156). -/
theorem cbcDecBlocks_chunks_length {D : Bytes → Bytes} {B : Nat} (hB : 0 < B) (hD : ∀ X, (D X).length = B) {v : Bytes}
    (hv : v.length = B) {x : Bytes} (hx : x.length % B = 0) : (cbcDecBlocks D v (chunks B x)).1.length = x.length := by
  rw [cbcDecBlocks_length hD hv fun X hX => length_of_mem_chunks hB hx hX, chunks_length, ceilDiv_of_mod hB hx,
    Nat.div_mul_cancel (Nat.dvd_of_mod_eq_zero hx)]

/-- A pad byte in range, and the capacity for what it leaves: the plaintext is released (41 R267). -/
theorem atomicPadDecCommit_of_fits {B cap : Nat} {x : Bytes} (h1 : 1 ≤ padByte x) (hB : padByte x ≤ B)
    (hcap : x.length - padByte x ≤ cap) :
    atomicPadDecCommit B cap x = .consume (x.take (x.length - padByte x)) := by
  simp [atomicPadDecCommit, padByteOk, h1, hB, hcap]

/-- A pad byte in range, and too little capacity: BUFFER_TOO_SMALL (41 R267). -/
theorem atomicPadDecCommit_of_tooSmall {B cap : Nat} {x : Bytes} (h1 : 1 ≤ padByte x) (hB : padByte x ≤ B)
    (hcap : cap < x.length - padByte x) : atomicPadDecCommit B cap x = .tooSmall (x.length - padByte x) := by
  simp [atomicPadDecCommit, padByteOk, h1, hB, hcap]

/-- A pad byte out of range: the unpad failure (41 R252). -/
theorem atomicPadDecCommit_of_badPad {B cap : Nat} {x : Bytes} (h : padByte x < 1 ∨ B < padByte x) :
    atomicPadDecCommit B cap x = .failAny .encryptedDataLenRange := by
  have hbad : padByteOk (padByte x) B = false := by
    simp only [padByteOk, Bool.and_eq_false_iff, decide_eq_false_iff_not]
    omega
  simp [atomicPadDecCommit, hbad]

/-- At least one use calls for a job. -/
theorem jobsOf_ne_nil {n : Nat} (hn : 0 < n) (s : State) (a : Alg) : s.jobsOf a n ≠ [] := by
  intro h
  have hsum : (s.jobsOf a n).sum = n := splitJobs_sum _ _
  rw [h] at hsum
  exact hn.ne hsum

/-- ATOMIC of CBC_PAD decryption of a legal length submits jobs and then commits what the pad byte and the capacity allow. -/
theorem exec_atomicCbcPadDec {s : State} {a : Alg} {h : Handle} (r : InitReady s .cbcPad a h)
    (hv : s.viewRefusal s.args.inView s.args.outView = none) (hmod : s.input.length % blockSize a = 0)
    (hle : blockSize a ≤ s.input.length) : ∃ jobs, jobs ≠ [] ∧ exec (.atomicCbcPadDec a) s =
      s.runAtomic (.atomicCbcPadDec a) h jobs
        (atomicPadDecCommit (blockSize a) s.cap
          (cbcDecBlocks (decryptBlock ⟨a, s.args.key⟩) s.args.iv (chunks (blockSize a) s.input)).1) := by
  refine ⟨_, jobsOf_ne_nil (Nat.div_pos hle (blockSize_pos a)) s a, ?_⟩
  show atomicPadDec Prim.external (.atomicCbcPadDec a) a s = _
  unfold atomicPadDec
  rw [onAtomic_of_ready r hv]
  exact if_neg (by omega)

/-- Settles O45: the commit by the pad byte and the capacity, and its effect once the jobs have completed. -/
theorem atomicCbcPadDec : Obligations.AtomicCbcPadDec := by
  unfold Obligations.AtomicCbcPadDec
  intro s a h r hv hmod hle ks x pl n
  obtain ⟨jobs, hjobs, hexec⟩ := exec_atomicCbcPadDec r hv hmod hle
  have hlen : x.length = s.input.length :=
    cbcDecBlocks_chunks_length (blockSize_pos a) (decryptBlock_length ks) (by simpa [paramsOk] using r.params) hmod
  have hn : x.length - padByte x = n := by rw [hlen]; rfl
  rw [hexec]
  refine ⟨fun h1 hB hcap => ?_, fun h1 hB hcap => ?_, fun hpad => ?_⟩
  · rw [atomicPadDecCommit_of_fits h1 hB (hn.trans_le hcap), hn]
    refine runAtomic_completes ?_
    rw [List.length_take, hlen]
    exact Nat.min_eq_left (Nat.sub_le _ _)
  · rw [atomicPadDecCommit_of_tooSmall h1 hB (hcap.trans_eq hn.symm), hn]
    exact runAtomic_plain_completes (Commit.plain_tooSmall n) rfl
  · rw [atomicPadDecCommit_of_badPad hpad]
    refine ⟨_, rfl, s.launch_pending _ h none _ _ hjobs _, ?_⟩
    obtain ⟨q, hq, he⟩ := s.settle_launch (.atomicCbcPadDec a) h none s.args.inView s.args.outView jobs
      (.failAny .encryptedDataLenRange)
    rw [he]
    refine ⟨fun k => ?_, ?_, fun addr ha => ?_, ?_, ?_, ?_, ?_, ?_, ?_, ?_⟩
    · by_cases hk : k = h
      · rw [hk, State.lookup_finish_same, r.absent]
        rfl
      · rw [State.lookup_finish_ne hk, hq.others k hk]
    · rw [State.finish_reports, hq.reports]
      rfl
    · rw [State.read_finish ha, hq.mem]
    · rw [State.finish_config, hq.config]
    · rw [State.finish_jobs, hq.jobs]
    · rw [State.finish_events, hq.events]
    · rw [State.finish_issued, hq.issued]
    · rw [State.finish_args, hq.args]
    · rw [State.finish_known]
      exact hq.known
    · rw [State.finish_known]
      exact hq.learned

end Sys2Proof.Machine
end

section
/-! SUPPORT. Multiplication in GF(2^128) (O57). -/

namespace Sys2Proof.Machine

/-- Multiplication by the polynomial x: a shift to the right, reduced by x^128 + x^7 + x^2 + x + 1 (43 R381). -/
def gfTimesX (v : Nat) : Nat := if v.testBit 0 then (v >>> 1) ^^^ (0xE1 <<< 120) else v >>> 1

/-- One round of the loop of `gf_mult`. -/
theorem gfLoop_succ (x n z v : Nat) :
    gfLoop x (n + 1) z v = gfLoop x n (if x.testBit n then z ^^^ v else z) (gfTimesX v) := rfl

theorem gfTimesX_xor (v v' : Nat) : gfTimesX (v ^^^ v') = gfTimesX v ^^^ gfTimesX v' := by
  unfold gfTimesX
  rw [Nat.testBit_xor, Nat.shiftRight_xor_distrib]
  cases v.testBit 0 <;> cases v'.testBit 0 <;> simp [Nat.xor_assoc, Nat.xor_comm, Nat.xor_left_comm]

theorem gfTimesX_lt {v : Nat} (hv : v < 2 ^ 128) : gfTimesX v < 2 ^ 128 := by
  have hshift : v >>> 1 < 2 ^ 128 := (Nat.shiftRight_le v 1).trans_lt hv
  unfold gfTimesX
  split
  · exact Nat.xor_lt_two_pow hshift (by decide)
  · exact hshift

/-- The loop is additive in the multiplier and the sum so far. -/
theorem gfLoop_xor_left (x x' n z z' v : Nat) :
    gfLoop (x ^^^ x') n (z ^^^ z') v = gfLoop x n z v ^^^ gfLoop x' n z' v := by
  induction n generalizing z z' v with
  | zero => rfl
  | succ n ih =>
    rw [gfLoop_succ, gfLoop_succ, gfLoop_succ, ← ih, Nat.testBit_xor]
    congr 1
    cases x.testBit n <;> cases x'.testBit n <;> simp [Nat.xor_comm, Nat.xor_left_comm]

/-- The loop is additive in the sum so far and the multiplicand. -/
theorem gfLoop_xor_right (x n z z' v v' : Nat) :
    gfLoop x n (z ^^^ z') (v ^^^ v') = gfLoop x n z v ^^^ gfLoop x n z' v' := by
  induction n generalizing z z' v v' with
  | zero => rfl
  | succ n ih =>
    rw [gfLoop_succ, gfLoop_succ, gfLoop_succ, ← ih, gfTimesX_xor]
    congr 1
    cases x.testBit n <;> simp [Nat.xor_assoc, Nat.xor_left_comm]

theorem gfLoop_lt (x n : Nat) {z v : Nat} (hz : z < 2 ^ 128) (hv : v < 2 ^ 128) : gfLoop x n z v < 2 ^ 128 := by
  induction n generalizing z v with
  | zero => exact hz
  | succ n ih =>
    refine ih ?_ (gfTimesX_lt hv)
    split
    · exact Nat.xor_lt_two_pow hz hv
    · exact hz

/-- Below the one bit of a multiplier the loop adds nothing. -/
theorem gfLoop_two_pow_of_le {k n : Nat} (hn : n ≤ k) (z v : Nat) : gfLoop (2 ^ k) n z v = z := by
  induction n generalizing v with
  | zero => rfl
  | succ n ih =>
    have hbit : (2 ^ k).testBit n = false := Nat.testBit_two_pow_of_ne (by omega)
    rw [gfLoop_succ, hbit, if_neg Bool.false_ne_true, ih (by omega)]

/-- At the one bit of a multiplier the loop adds the multiplicand. -/
theorem gfLoop_two_pow_succ (k z v : Nat) : gfLoop (2 ^ k) (k + 1) z v = z ^^^ v := by
  rw [gfLoop_succ, Nat.testBit_two_pow_self, if_pos rfl, gfLoop_two_pow_of_le le_rfl]

/-- The block with bit 126 alone is the polynomial x. -/
theorem gfMult_x (y : Nat) : gfMult (2 ^ 126) y = gfTimesX y := by
  have hbit : (2 ^ 126).testBit 127 = false := Nat.testBit_two_pow_of_ne (by decide)
  rw [gfMult, gfLoop_succ, hbit, if_neg Bool.false_ne_true, gfLoop_two_pow_succ, Nat.zero_xor]

/-- Multiplication by x in numbers. -/
theorem gfTimesX_eq (y : Nat) : gfTimesX y =
    if y % 2 = 1 then (y / 2) ^^^ ((2 ^ 7 + 2 ^ 6 + 2 ^ 5 + 1) * 2 ^ 120) else y / 2 := by
  have hpoly : (0xE1 <<< 120 : Nat) = (2 ^ 7 + 2 ^ 6 + 2 ^ 5 + 1) * 2 ^ 120 := by decide
  simp only [gfTimesX, Nat.testBit_zero, decide_eq_true_eq, Nat.shiftRight_one, hpoly]

/-- Settles O57: the loop is linear in either factor, and a factor with one bit adds one multiple. -/
theorem gfMultiplication : Obligations.GfMultiplication := by
  unfold Obligations.GfMultiplication
  refine ⟨fun x x' y => ?_, fun x y y' => ?_, fun x y hy => ?_, fun y => ?_, fun y => ?_⟩
  · exact gfLoop_xor_left x x' 128 0 0 y
  · exact gfLoop_xor_right x 128 0 0 y y'
  · exact gfLoop_lt x 128 (by decide) hy
  · exact (gfLoop_two_pow_succ 127 0 y).trans (Nat.zero_xor y)
  · rw [gfMult_x, gfTimesX_eq]

end Sys2Proof.Machine
end

section
/-! SUPPORT. The command word: its fields, the encoder and the decoder (O1, O2, O3). -/

namespace Sys2Proof

open Machine

/-! ### The field codes -/

theorem opOfCode_eq_some {n : Nat} {op : Op} : opOfCode n = some op ↔ n = op.code := by
  constructor
  · intro h
    unfold opOfCode at h
    split at h <;> cases h <;> rfl
  · rintro rfl
    cases op <;> rfl

theorem modeOfCode_eq_some {n : Nat} {m : Mode} : modeOfCode n = some m ↔ n = m.code := by
  constructor
  · intro h
    unfold modeOfCode at h
    split at h <;> cases h <;> rfl
  · rintro rfl
    cases m <;> rfl

theorem dirOfCode_eq_some {n : Nat} {d : Dir} : dirOfCode n = some d ↔ n = d.code := by
  constructor
  · intro h
    unfold dirOfCode at h
    split at h <;> cases h <;> rfl
  · rintro rfl
    cases d <;> rfl

theorem algOfCode_eq_some {n : Nat} {a : Alg} : algOfCode n = some a ↔ n = a.code := by
  constructor
  · intro h
    unfold algOfCode at h
    split at h <;> cases h <;> rfl
  · rintro rfl
    cases a <;> rfl

theorem Op.code_lt (op : Op) : op.code < 4 := by cases op <;> decide

theorem Mode.code_lt (m : Mode) : m.code < 8 := by cases m <;> decide

theorem Dir.code_lt (d : Dir) : d.code < 2 := by cases d <;> decide

theorem Alg.code_lt (a : Alg) : a.code < 5 := by cases a <;> decide

theorem exists_op_code {n : Nat} : (∃ op : Op, n = op.code) ↔ n < 4 := by
  refine ⟨fun ⟨op, h⟩ => h ▸ op.code_lt, fun h => ?_⟩
  interval_cases n
  exacts [⟨.init, rfl⟩, ⟨.update, rfl⟩, ⟨.final, rfl⟩, ⟨.atomic, rfl⟩]

theorem exists_mode_code {n : Nat} : (∃ m : Mode, n = m.code) ↔ n < 8 := by
  refine ⟨fun ⟨m, h⟩ => h ▸ m.code_lt, fun h => ?_⟩
  interval_cases n
  exacts [⟨.ecb, rfl⟩, ⟨.cbc, rfl⟩, ⟨.cbcPad, rfl⟩, ⟨.cfb, rfl⟩, ⟨.ctr, rfl⟩, ⟨.ccm, rfl⟩, ⟨.gcm, rfl⟩, ⟨.gmac, rfl⟩]

theorem exists_dir_code {n : Nat} : (∃ d : Dir, n = d.code) ↔ n < 2 := by
  refine ⟨fun ⟨d, h⟩ => h ▸ d.code_lt, fun h => ?_⟩
  interval_cases n
  exacts [⟨.enc, rfl⟩, ⟨.dec, rfl⟩]

theorem exists_alg_code {n : Nat} : (∃ a : Alg, n = a.code) ↔ n < 5 := by
  refine ⟨fun ⟨a, h⟩ => h ▸ a.code_lt, fun h => ?_⟩
  interval_cases n
  exacts [⟨.aes128, rfl⟩, ⟨.aes192, rfl⟩, ⟨.aes256, rfl⟩, ⟨.des, rfl⟩, ⟨.tdes, rfl⟩]

/-! ### The word of a command -/

/-- Bits of a word in numbers (00 R21). -/
theorem wordBits_eq (w : CommandWord) (hi lo : Nat) : wordBits w hi lo = w.toNat / 2 ^ lo % 2 ^ (hi + 1 - lo) := by
  rw [wordBits, Nat.shiftRight_eq_div_pow]

/-- The fields of a word do not overlap, so its number is the sum of theirs (30 R110). -/
theorem wordFields_eq_iff {w : CommandWord} {f : WordFields} (ho : f.op < 2 ^ 4) (hm : f.mode < 2 ^ 4) (hd : f.dir < 2)
    (ha : f.alg < 2 ^ 3) (hr : f.rsv < 2 ^ 20) :
    wordFields w = f ↔ w.toNat = f.op + 2 ^ 4 * f.mode + 2 ^ 8 * f.dir + 2 ^ 9 * f.alg + 2 ^ 12 * f.rsv := by
  have hw := w.isLt
  obtain ⟨op, mode, dir, alg, rsv⟩ := f
  simp only [wordFields, wordBits_eq, WordFields.mk.injEq] at *
  omega

/-- The fields of the word of an operation, a mode, a direction and an algorithm (30 R116). -/
def fieldsOf (op : Op) (m : Mode) (d : Dir) (a : Alg) : WordFields := ⟨op.code, m.code, d.code, a.code, 0⟩

/-- A field set above the bits of a number adds to it. -/
theorem or_shiftLeft {x k : Nat} (h : x < 2 ^ k) (y : Nat) : x ||| y <<< k = x + 2 ^ k * y := by
  rw [Nat.or_comm, ← Nat.shiftLeft_add_eq_or_of_lt h, Nat.shiftLeft_eq, Nat.mul_comm, Nat.add_comm]

theorem toNat_encode_instrOf (op : Op) (m : Mode) (d : Dir) (a : Alg) :
    (encode (instrOf op m d a)).toNat = op.code + 2 ^ 4 * m.code + 2 ^ 8 * d.code + 2 ^ 9 * a.code := by
  have ho := op.code_lt
  have hm := m.code_lt
  have hd := d.code_lt
  have ha := a.code_lt
  have h4 := or_shiftLeft (x := op.code) (k := 4) (by omega) m.code
  have h8 := or_shiftLeft (x := op.code + 2 ^ 4 * m.code) (k := 8) (by omega) d.code
  have h9 := or_shiftLeft (x := op.code + 2 ^ 4 * m.code + 2 ^ 8 * d.code) (k := 9) (by omega) a.code
  rw [encode, parts_instrOf]
  simp only [h4, h8, h9, BitVec.toNat_ofNat]
  omega

/-- A word is that of a command exactly when it has the command's fields and no reserved bit (30 R116). -/
theorem wordFields_eq_fieldsOf_iff {w : CommandWord} {op : Op} {m : Mode} {d : Dir} {a : Alg} :
    wordFields w = fieldsOf op m d a ↔ w = encode (instrOf op m d a) := by
  have ho := op.code_lt
  have hm := m.code_lt
  have hd := d.code_lt
  have ha := a.code_lt
  rw [← BitVec.toNat_inj, toNat_encode_instrOf, fieldsOf, wordFields_eq_iff] <;> dsimp only <;> omega

/-! ### The decoder -/

theorem instrOf_ne_abort (op : Op) (m : Mode) (d : Dir) (a : Alg) : instrOf op m d a ≠ .abort := by
  intro h
  have := parts_instrOf op m d a
  rw [h] at this
  cases this

theorem instrOf_inj {op op' : Op} {m m' : Mode} {d d' : Dir} {a a' : Alg} :
    instrOf op m d a = instrOf op' m' d' a' ↔ op = op' ∧ m = m' ∧ d = d' ∧ a = a' := by
  refine ⟨fun h => ?_, fun ⟨ho, hm, hd, ha⟩ => by rw [ho, hm, hd, ha]⟩
  have := congrArg Instr.parts h
  simpa only [parts_instrOf, Option.some.injEq, Prod.mk.injEq] using this

theorem wordFields_eq_fieldsOf {w : CommandWord} {op : Op} {m : Mode} {d : Dir} {a : Alg} :
    wordFields w = fieldsOf op m d a ↔
      (wordFields w).op = op.code ∧ (wordFields w).mode = m.code ∧ (wordFields w).dir = d.code ∧
        (wordFields w).alg = a.code ∧ (wordFields w).rsv = 0 := by
  simp only [fieldsOf, wordFields, WordFields.mk.injEq]

/-- A word decodes to a command but ABORT exactly when it has the command's fields (30 R117). -/
theorem decode_eq_instrOf_iff {w : CommandWord} {op : Op} {m : Mode} {d : Dir} {a : Alg} :
    decode w = some (instrOf op m d a) ↔ wordFields w = fieldsOf op m d a := by
  rw [wordFields_eq_fieldsOf]
  unfold decode
  dsimp only
  split_ifs with h4 hbits hrsv
  · have := op.code_lt
    exact iff_of_false (fun h => instrOf_ne_abort _ _ _ _ (Option.some.inj h).symm) (by omega)
  · have := op.code_lt
    exact iff_of_false nofun (by omega)
  · exact iff_of_false nofun fun h => hrsv h.2.2.2.2
  · rw [← opOfCode_eq_some, ← modeOfCode_eq_some, ← dirOfCode_eq_some, ← algOfCode_eq_some]
    split
    next op' m' d' a' ho hm hd ha =>
      rw [ho, hm, hd, ha, Option.some_inj, instrOf_inj]
      simp [not_not.mp hrsv]
    next hnone => exact iff_of_false nofun fun ⟨ho, hm, hd, ha, _⟩ => hnone _ _ _ _ ho hm hd ha

/-- ABORT's word is 4 (30 R115). -/
theorem decode_eq_abort_iff {w : CommandWord} : decode w = some .abort ↔ w.toNat = 4 := by
  have hop : (wordFields w).op = w.toNat / 2 ^ 0 % 2 ^ 4 := wordBits_eq w 3 0
  have hrest := wordBits_eq w 31 4
  have hw := w.isLt
  unfold decode
  dsimp only
  split_ifs with h4 hbits hrsv
  · exact iff_of_true rfl (by omega)
  · exact iff_of_false nofun (by omega)
  · exact iff_of_false nofun (by omega)
  · refine iff_of_false (fun h => ?_) (by omega)
    split at h
    · exact instrOf_ne_abort _ _ _ _ (Option.some.inj h)
    · cases h

/-! ### The obligations -/

/-- Settles O2: the fields of a word determine its command, and do not overlap. -/
theorem decodeInvertsEncode : Obligations.DecodeInvertsEncode := by
  unfold Obligations.DecodeInvertsEncode
  intro w i
  rcases eq_abort_or_instrOf i with rfl | ⟨op, m, d, a, rfl⟩
  · rw [decode_eq_abort_iff, ← BitVec.toNat_inj]
    rfl
  · rw [decode_eq_instrOf_iff, wordFields_eq_fieldsOf_iff]

/-- Settles O3: the words that decode are ABORT's and those whose every field is a code. -/
theorem reservedWordsAreRefused : Obligations.ReservedWordsAreRefused := by
  unfold Obligations.ReservedWordsAreRefused
  intro w
  have hdecodes : (∃ i, decode w = some i) ↔ w.toNat = 4 ∨ ∃ op m d a, wordFields w = fieldsOf op m d a := by
    constructor
    · rintro ⟨i, hi⟩
      rcases eq_abort_or_instrOf i with rfl | ⟨op, m, d, a, rfl⟩
      · exact .inl (decode_eq_abort_iff.mp hi)
      · exact .inr ⟨op, m, d, a, decode_eq_instrOf_iff.mp hi⟩
    · rintro (h | ⟨op, m, d, a, h⟩)
      · exact ⟨_, decode_eq_abort_iff.mpr h⟩
      · exact ⟨_, decode_eq_instrOf_iff.mpr h⟩
  have hcodes : (∃ op m d a, wordFields w = fieldsOf op m d a) ↔
      (wordFields w).op < 4 ∧ (wordFields w).mode < 8 ∧ (wordFields w).dir < 2 ∧ (wordFields w).alg < 5 ∧
        (wordFields w).rsv = 0 := by
    simp only [wordFields_eq_fieldsOf, exists_and_left, exists_and_right, exists_op_code, exists_mode_code,
      exists_dir_code, exists_alg_code]
  have hw := w.isLt
  rw [Option.eq_none_iff_forall_ne_some, ← not_exists, hdecodes, hcodes]
  simp only [wordFields, wordBits_eq]
  omega

/-- Settles O1: each word is evaluated. -/
theorem decodeSpecWords : Obligations.DecodeSpecWords := by
  unfold Obligations.DecodeSpecWords
  decide

end Sys2Proof
end

section
/-! SUPPORT. Cutting an input into UPDATEs in every mode, and ATOMIC as a run of one UPDATE (O54). -/

namespace Sys2Proof.Machine

/-! ### The authenticated modes in two UPDATEs -/

theorem ccmEncBlocks_append (E : Bytes → Bytes) (cb : Nat) (k : MacCtr) (Xs Ys : List Bytes) :
    ccmEncBlocks E cb k (Xs ++ Ys) =
      ((ccmEncBlocks E cb k Xs).1 ++ (ccmEncBlocks E cb (ccmEncBlocks E cb k Xs).2 Ys).1,
        (ccmEncBlocks E cb (ccmEncBlocks E cb k Xs).2 Ys).2) := by
  induction Xs generalizing k with
  | nil => rfl
  | cons X Xs ih => simp [ccmEncBlocks, ih]

theorem gcmEncBlocks_append (E : Bytes → Bytes) (H : Bytes) (k : HashCtr) (Xs Ys : List Bytes) :
    gcmEncBlocks E H k (Xs ++ Ys) =
      ((gcmEncBlocks E H k Xs).1 ++ (gcmEncBlocks E H (gcmEncBlocks E H k Xs).2 Ys).1,
        (gcmEncBlocks E H (gcmEncBlocks E H k Xs).2 Ys).2) := by
  induction Xs generalizing k with
  | nil => rfl
  | cons X Xs ih => simp [gcmEncBlocks, ih]

theorem ccmEncUpdate_append (P : Prim) (c : Context) (x y : Bytes) :
    ccmEncUpdate P c (x ++ y) =
      ((ccmEncUpdate P c x).1 ++ (ccmEncUpdate P (ccmEncUpdate P c x).2 y).1,
        (ccmEncUpdate P (ccmEncUpdate P c x).2 y).2) := by
  unfold ccmEncUpdate
  simp only [partition_append, ccmEncBlocks_append, List.length_append, ← Nat.add_assoc]
  rfl

theorem gcmEncUpdate_append (P : Prim) (c : Context) (x y : Bytes) :
    gcmEncUpdate P c (x ++ y) =
      ((gcmEncUpdate P c x).1 ++ (gcmEncUpdate P (gcmEncUpdate P c x).2 y).1,
        (gcmEncUpdate P (gcmEncUpdate P c x).2 y).2) := by
  unfold gcmEncUpdate
  simp only [partition_append, gcmEncBlocks_append, List.length_append, ← Nat.add_assoc]
  rfl

theorem Context.grow_append (c : Context) (x y : Bytes) : c.grow (x ++ y) = (c.grow x).grow y := by
  simp [grow]

/-! ### UPDATE past and at its length check -/

/-- An UPDATE whose length check fails ends with its status (44 R473). -/
theorem Context.update_of_updateError {c : Context} {x : Bytes} {st : Status} (h : c.updateError x.length = some st) :
    c.update x = .error st := by
  rw [update, h]

/-- An UPDATE that succeeds has passed its length check. -/
theorem Context.updateError_of_update {c : Context} {x : Bytes} {r : Bytes × Context} (h : c.update x = .ok r) :
    c.updateError x.length = none := by
  cases he : c.updateError x.length with
  | none => rfl
  | some st => rw [update_of_updateError he] at h; cases h

theorem Context.update_ccm_enc {c : Context} (hm : c.mode = .ccm) (hd : c.dir = .enc) {x : Bytes}
    (h : c.updateError x.length = none) : c.update x = .ok (ccmEncUpdate Prim.external c x) := by
  simp only [update, h, hm, hd]

theorem Context.update_gcm_enc {c : Context} (hm : c.mode = .gcm) (hd : c.dir = .enc) {x : Bytes}
    (h : c.updateError x.length = none) : c.update x = .ok (gcmEncUpdate Prim.external c x) := by
  simp only [update, h, hm, hd]

theorem Context.update_gmac_enc {c : Context} (hm : c.mode = .gmac) (hd : c.dir = .enc) {x : Bytes}
    (h : c.updateError x.length = none) : c.update x = .ok ([], c) := by
  simp only [update, h, hm, hd]

/-- An AEAD decrypt UPDATE emits nothing and grows scratch (42 R309, 43 R393). -/
theorem Context.update_aead_dec {c : Context} (ha : aeadMode c.mode = true) (hd : c.dir = .dec) {x : Bytes}
    (h : c.updateError x.length = none) : c.update x = .ok ([], c.grow x) := by
  cases hm : c.mode with
  | ccm | gcm | gmac => simp only [update, h, hm, hd]
  | ecb | cbc | cbcPad | cfb | ctr => rw [hm] at ha; cases ha

/-! ### However the input of two UPDATEs is cut -/

/-- Two UPDATEs in a row fail where one UPDATE of both inputs fails, with its status, or do what it does. -/
def Context.UpdatesAgree (c : Context) (x y : Bytes) : Prop :=
  (∃ st, c.update x = .error st ∧ c.update (x ++ y) = .error st) ∨
  (∃ u c₁ st, c.update x = .ok (u, c₁) ∧ c₁.update y = .error st ∧ c.update (x ++ y) = .error st) ∨
  c.UpdatesJoin x y

/-- UPDATEs agree when their length checks and the operation that they run join. -/
theorem Context.updatesAgree_of {c : Context} {upd : Context → Bytes → Bytes × Context} {x y : Bytes}
    (hupd : ∀ c', c.SameFixed c' → ∀ z : Bytes, c'.updateError z.length = none → c'.update z = .ok (upd c' z))
    (hf : c.SameFixed (upd c x).2)
    (herr : c.updateError (x.length + y.length) = (c.updateError x.length).or ((upd c x).2.updateError y.length))
    (happ : upd c (x ++ y) = ((upd c x).1 ++ (upd (upd c x).2 y).1, (upd (upd c x).2 y).2)) : c.UpdatesAgree x y := by
  rw [← List.length_append] at herr
  cases hx : c.updateError x.length with
  | some st =>
    rw [hx, Option.some_or] at herr
    exact .inl ⟨st, update_of_updateError hx, update_of_updateError herr⟩
  | none =>
    rw [hx, Option.none_or] at herr
    have hupdx := hupd c (.rfl' c) x hx
    cases hy : (upd c x).2.updateError y.length with
    | some st => exact .inr (.inl ⟨_, _, st, hupdx, update_of_updateError hy, update_of_updateError (herr.trans hy)⟩)
    | none =>
      refine .inr (.inr ⟨_, _, _, _, _, hupdx, hupd _ hf y hy, ?_, rfl⟩)
      rw [hupd c (.rfl' c) _ (herr.trans hy), happ]

/-- A check of two inputs that fails exactly where that of one of them does is the first of the two that fails. -/
theorem check_or {p q r : Prop} [Decidable p] [Decidable q] [Decidable r] (h : r ↔ p ∨ q) (st : Status) :
    (if r then some st else none) = (if p then some st else none).or (if q then some st else none) := by
  by_cases hp : p <;> simp [h, hp]

/-- However the input of two UPDATEs of an AEAD decryption is cut, the outcome is the same. -/
theorem Context.updatesAgree_aead_dec {c : Context} (ha : aeadMode c.mode = true) (hd : c.dir = .dec) (x y : Bytes) :
    c.UpdatesAgree x y := by
  have hf := sameFixed_grow c x
  refine updatesAgree_of (upd := fun c z => ([], c.grow z))
    (fun c' h z => update_aead_dec (h.mode ▸ ha) (h.dir.trans hd)) hf ?_ (by rw [grow_append]; rfl)
  have hgrow : (c.grow x).scratch.length = c.scratch.length + x.length := List.length_append
  cases hm : c.mode with
  | ccm =>
    simp only [updateError, hf.mode, hf.dir, hf.dataLen, hf.tagLen, hm, hd, hgrow]
    exact check_or (by omega) _
  | gcm => simp only [updateError, hf.mode, hf.dir, hm, hd, Option.or_none]
  | gmac =>
    simp only [updateError, hf.mode, hf.dir, hf.tagLen, hm, hd, hgrow]
    exact check_or (by omega) _
  | ecb | cbc | cbcPad | cfb | ctr => rw [hm] at ha; cases ha

/-- However the input of two UPDATEs is cut, the outcome is the same (44 R470). -/
theorem Context.updatesAgree {c : Context} (hok : c.Ok) (x y : Bytes) : c.UpdatesAgree x y := by
  cases ha : aeadMode c.mode with
  | false => exact .inr (.inr (updatesJoin hok ha x y))
  | true =>
    cases hd : c.dir with
    | dec => exact updatesAgree_aead_dec ha hd x y
    | enc =>
      cases hm : c.mode with
      | ccm =>
        have hf := sameFixed_ccmEncUpdate Prim.external c x
        have hcount : (ccmEncUpdate Prim.external c x).2.processedDataLen = c.processedDataLen + x.length := rfl
        refine updatesAgree_of (fun c' h z => update_ccm_enc (h.mode.trans hm) (h.dir.trans hd)) hf ?_
          (ccmEncUpdate_append _ c x y)
        simp only [updateError, hf.mode, hf.dir, hf.dataLen, hm, hd, hcount]
        exact check_or (by omega) _
      | gcm =>
        have hf := sameFixed_gcmEncUpdate Prim.external c x
        refine updatesAgree_of (fun c' h z => update_gcm_enc (h.mode.trans hm) (h.dir.trans hd)) hf ?_
          (gcmEncUpdate_append _ c x y)
        simp only [updateError, hf.mode, hf.dir, hm, hd, Option.or_none]
      | gmac =>
        refine updatesAgree_of (upd := fun c _ => ([], c))
          (fun c' h z => update_gmac_enc (h.mode.trans hm) (h.dir.trans hd)) (.rfl' c) ?_ rfl
        simp only [updateError, hm, hd]
        exact check_or (by omega) _
      | ecb | cbc | cbcPad | cfb | ctr => rw [hm] at ha; cases ha

/-! ### A run depends on its input alone -/

theorem Context.run_cons_error {c : Context} {x : Bytes} {st : Status} (h : c.update x = .error st) (xs : List Bytes) :
    c.run (x :: xs) = ([], st) := by
  rw [run, h]

/-- Two runs end with the same status, and on SUCCESS give the same output. -/
def SameRun (r r' : Bytes × Status) : Prop := r.2 = r'.2 ∧ (r.2 = .success → r.1 = r'.1)

/-- The length check of an UPDATE never fails with SUCCESS. -/
theorem Context.updateError_ne_success {c : Context} {n : Nat} {st : Status} (h : c.updateError n = some st) :
    st ≠ .success := by
  rintro rfl
  cases hm : c.mode <;> cases hd : c.dir <;> simp [updateError, hm, hd] at h

theorem Context.update_error_ne_success {c : Context} {x : Bytes} {st : Status} (h : c.update x = .error st) :
    st ≠ .success := by
  cases he : c.updateError x.length with
  | some st' =>
    rw [update_of_updateError he] at h
    cases h
    exact updateError_ne_success he
  | none =>
    simp only [update, he] at h
    split at h <;> cases h

/-- A run gives the same status, and on SUCCESS the same output, however its input is cut (44 R470). -/
theorem Context.sameRun_flatten {c : Context} (hok : c.Ok) (xs : List Bytes) :
    SameRun (c.run xs) (c.run [xs.flatten]) := by
  induction xs generalizing c with
  | nil =>
    rw [List.flatten_nil, run_cons (update_nil hok)]
    exact ⟨rfl, fun _ => rfl⟩
  | cons x xs ih =>
    rw [List.flatten_cons]
    rcases updatesAgree hok x xs.flatten with ⟨st, hx, hxy⟩ | ⟨u, c₁, st, hx, hy, hxy⟩ |
        ⟨u, c₁, v, c₂, c', hx, hy, hxy, hfin⟩
    · rw [run_cons_error hx, run_cons_error hxy]
      exact ⟨rfl, fun _ => rfl⟩
    · obtain ⟨hst, -⟩ := ih (update_spec hok hx).2.1
      rw [run_cons_error hy] at hst
      rw [run_cons hx, run_cons_error hxy]
      exact ⟨hst, fun h => absurd (hst.symm.trans h) (update_error_ne_success hy)⟩
    · obtain ⟨hst, hout⟩ := ih (update_spec hok hx).2.1
      rw [run_cons hy] at hst hout
      rw [run_cons hx, run_cons hxy, run_nil_congr hfin]
      exact ⟨hst, fun h => by rw [hout h, List.append_assoc]⟩

/-! ### No output before the tag is checked -/

/-- The contexts that emit nothing before FINAL: GMAC and AEAD decryption (42 R309, 43 R393, R398). -/
def Context.Silent (c : Context) : Prop := c.mode = .gmac ∨ (aeadMode c.mode = true ∧ c.dir = .dec)

theorem Context.Silent.update_eq_nil {c c' : Context} (hs : c.Silent) {x y : Bytes} (h : c.update x = .ok (y, c')) :
    y = [] := by
  have he := updateError_of_update h
  cases hd : c.dir with
  | dec =>
    have ha : aeadMode c.mode = true := hs.elim (fun hm => by rw [hm]; rfl) And.left
    rw [update_aead_dec ha hd he] at h
    cases h
    rfl
  | enc =>
    have hm : c.mode = .gmac := hs.resolve_right fun h => by rw [hd] at h; cases h.2
    rw [update_gmac_enc hm hd he] at h
    cases h
    rfl

/-- A run of a silent context that fails has given no output (70 R600). -/
theorem Context.Silent.run_fst_of_failure {c : Context} (hs : c.Silent) (hok : c.Ok) (xs : List Bytes)
    (h : (c.run xs).2 ≠ .success) : (c.run xs).1 = [] := by
  induction xs generalizing c with
  | nil =>
    rw [run] at h ⊢
    cases hf : c.final with
    | error st => rfl
    | ok y => rw [hf] at h; exact absurd rfl h
  | cons x xs ih =>
    cases hx : c.update x with
    | error st => rw [run_cons_error hx]
    | ok r =>
      obtain ⟨y, c₁⟩ := r
      obtain ⟨-, hok₁, hfix⟩ := update_spec hok hx
      rw [run_cons hx] at h ⊢
      have hs₁ : c₁.Silent := by rwa [Silent, hfix.mode, hfix.dir]
      rw [hs.update_eq_nil hx, ih hs₁ hok₁ h]
      rfl

/-! ### FINAL of the authenticated modes -/

theorem Context.final_ccm_enc {c : Context} (hm : c.mode = .ccm) (hd : c.dir = .enc) :
    c.final = if c.processedDataLen = c.dataLen then .ok (ccmFinalOutput Prim.external c)
      else .error .dataLenRange := by
  by_cases h : c.processedDataLen = c.dataLen <;> simp [final, finalError, hm, hd, h]

theorem Context.final_ccm_dec {c : Context} (hm : c.mode = .ccm) (hd : c.dir = .dec) :
    c.final = if c.scratch.length = c.dataLen + c.tagLen then verified (ccmFinalPlain Prim.external c)
      else .error .encryptedDataLenRange := by
  by_cases h : c.scratch.length = c.dataLen + c.tagLen <;> simp [final, finalError, hm, hd, h]

theorem Context.final_gcm_enc {c : Context} (hm : c.mode = .gcm) (hd : c.dir = .enc) :
    c.final = .ok (gcmFinalOutput Prim.external c) := by
  simp [final, finalError, hm, hd]

theorem Context.final_gcm_dec {c : Context} (hm : c.mode = .gcm) (hd : c.dir = .dec) :
    c.final = if c.scratch.length < c.tagLen then .error .encryptedDataLenRange
      else verified (gcmFinalPlain Prim.external c) := by
  by_cases h : c.scratch.length < c.tagLen <;> simp only [final, finalError, hm, hd, h, if_true, if_false]

theorem Context.final_gmac_enc {c : Context} (hm : c.mode = .gmac) (hd : c.dir = .enc) :
    c.final = .ok (gmacTag Prim.external c) := by
  simp [final, finalError, hm, hd]

theorem Context.final_gmac_dec {c : Context} (hm : c.mode = .gmac) (hd : c.dir = .dec) :
    c.final = if c.scratch.length = c.tagLen then verified (gcmFinalPlain Prim.external c)
      else .error .encryptedDataLenRange := by
  by_cases h : c.scratch.length = c.tagLen <;> simp [final, finalError, hm, hd, h]

/-- FINAL of CBC_PAD decryption fails on missing data or a pad byte out of range (41 R258). -/
theorem Context.final_cbcPad_dec_error {c : Context} (hm : c.mode = .cbcPad) (hd : c.dir = .dec)
    (h : c.residue ≠ [] ∨ c.heldValid = false ∨ padByte c.lastBlock < 1 ∨ c.B < padByte c.lastBlock) :
    c.final = .error .encryptedDataLenRange := by
  simp only [final, finalError, hm, hd, if_pos h]

/-! ### ATOMIC's commit is what a run of one UPDATE gives -/

/-- The commit of a command that reports a run: its output on SUCCESS, else its status alone (44 R471). -/
def Commit.ofRun (r : Bytes × Status) : Commit := if r.2 = .success then .consume r.1 else .fail r.2

theorem Commit.ofRun_success (y : Bytes) : Commit.ofRun (y, .success) = .consume y := if_pos rfl

/-- Past its checks a tag comparison decides a run and the commit alike (60 R532). -/
theorem Commit.ofRun_verified {c c' : Context} {x : Bytes} {p : Option Bytes} (h : c.update x = .ok ([], c'))
    (hf : c'.final = Machine.verified p) : Commit.ofRun (c.run [x]) = Commit.verified p := by
  rw [Context.run_cons h, Context.run, hf]
  cases p with
  | none => exact if_neg (by decide)
  | some y => exact if_pos rfl

/-- ATOMIC's length check on the operands of `s` fails with the status a run of one UPDATE ends with, and where it
passes ATOMIC commits what that run gives. -/
structure AtomicRuns (m : Mode) (d : Dir) (a : Alg) (s : State) : Prop where
  error : ∀ st, atomicError m d a s.args s.input.length = some st →
    ((initContext Prim.external m d a s.args).run [s.input]).2 = st
  commit : atomicError m d a s.args s.input.length = none →
    atomicCommit m d a s = Commit.ofRun ((initContext Prim.external m d a s.args).run [s.input])

/-- Where ATOMIC's length check is one test, the test decides between the run's status and its commit. -/
theorem AtomicRuns.of_check {m : Mode} {d : Dir} {a : Alg} {s : State} {p : Prop} [Decidable p] {st : Status}
    (hcheck : atomicError m d a s.args s.input.length = if p then some st else none)
    (hfail : p → ((initContext Prim.external m d a s.args).run [s.input]).2 = st)
    (hpass : ¬p → atomicCommit m d a s = Commit.ofRun ((initContext Prim.external m d a s.args).run [s.input])) :
    AtomicRuns m d a s := by
  by_cases hp : p
  · rw [if_pos hp] at hcheck
    refine ⟨fun st' he => ?_, fun he => ?_⟩ <;> rw [hcheck] at he <;> cases he
    exact hfail hp
  · rw [if_neg hp] at hcheck
    refine ⟨fun st' he => ?_, fun _ => hpass hp⟩
    rw [hcheck] at he
    cases he

/-- A run of ECB or CBC whose input is not whole blocks ends with the length status (44 R474). -/
theorem Context.run_block_of_not_whole {c : Context} (hm : c.mode = .ecb ∨ c.mode = .cbc) (hr : c.residue = [])
    {x : Bytes} (hx : x.length % c.B ≠ 0) : (c.run [x]).2 = lengthStatus c.dir := by
  have hres := partition_residue_length c x
  rw [hr, List.length_nil, Nat.zero_add] at hres
  have hne : (c.partition x).2.residue ≠ [] := fun h => hx (by rw [← hres, h]; rfl)
  rcases hm with hm | hm
  · exact run_single_snd (update_ecb hm x)
      ((final_block (c := (ecbUpdate Prim.external c x).2) (.inl hm)).trans (if_neg hne))
  · exact run_single_snd (update_cbc hm x)
      ((final_block (c := (cbcUpdate Prim.external c x).2) (.inr hm)).trans (if_neg hne))

theorem atomicRuns_ecb (d : Dir) (a : Alg) (s : State) : AtomicRuns .ecb d a s := by
  refine .of_check (p := s.input.length % blockSize a ≠ 0) rfl
    (fun hne => Context.run_block_of_not_whole (.inl rfl) rfl hne) fun hx => ?_
  have hx : s.input.length % (initContext Prim.external .ecb d a s.args).B = 0 := not_not.mp hx
  rw [Context.run_ecb rfl rfl hx, Commit.ofRun_success]
  simp only [atomicCommit, ecbUpdate, partition_of_whole rfl hx]
  rfl

theorem atomicRuns_cbc (d : Dir) (a : Alg) (s : State) : AtomicRuns .cbc d a s := by
  refine .of_check (p := s.input.length % blockSize a ≠ 0) rfl
    (fun hne => Context.run_block_of_not_whole (.inr rfl) rfl hne) fun hx => ?_
  have hx : s.input.length % (initContext Prim.external .cbc d a s.args).B = 0 := not_not.mp hx
  rw [Context.run_cbc rfl rfl hx, Commit.ofRun_success]
  simp only [atomicCommit, cbcUpdate, partition_of_whole rfl hx]
  rfl

theorem atomicRuns_cbcPad_enc (a : Alg) (s : State) : AtomicRuns .cbcPad .enc a s where
  error := nofun
  commit _ := by
    rw [Context.run_cbcPad_enc rfl rfl rfl, Commit.ofRun_success]
    rfl

theorem atomicRuns_cfb (d : Dir) (a : Alg) (s : State) : AtomicRuns .cfb d a s where
  error := nofun
  commit _ := by
    rw [Context.run_stream (.inl rfl), Commit.ofRun_success]
    rfl

theorem atomicRuns_ctr (d : Dir) (a : Alg) (s : State) : AtomicRuns .ctr d a s where
  error := nofun
  commit _ := by
    rw [Context.run_stream (.inr rfl), Commit.ofRun_success]
    rfl

/-- A run whose length check fails at its one UPDATE. -/
theorem Context.run_single_of_updateError {c : Context} {x : Bytes} {st : Status}
    (h : c.updateError x.length = some st) : (c.run [x]).2 = st := by
  rw [run_cons_error (update_of_updateError h)]

/-- A run of CCM encryption of another length than the one declared ends with DATA_LEN_RANGE (42 R308). -/
theorem Context.run_ccm_enc_of_ne {c : Context} (hm : c.mode = .ccm) (hd : c.dir = .enc) (hp : c.processedDataLen = 0)
    {x : Bytes} (hx : x.length ≠ c.dataLen) : (c.run [x]).2 = .dataLenRange := by
  by_cases hgt : x.length > c.dataLen
  · exact run_single_of_updateError (by simp [updateError, hm, hd, hp, hgt])
  · have hfin := final_ccm_enc (c := (ccmEncUpdate Prim.external c x).2) hm hd
    refine run_single_snd (update_ccm_enc hm hd (by simp [updateError, hm, hd, hp, hgt])) (hfin.trans (if_neg ?_))
    show c.processedDataLen + x.length ≠ c.dataLen
    rwa [hp, Nat.zero_add]

/-- A run of CCM encryption of the length declared (42 R305, R307). -/
theorem Context.run_ccm_enc_of_eq {c : Context} (hm : c.mode = .ccm) (hd : c.dir = .enc) (hp : c.processedDataLen = 0)
    {x : Bytes} (hx : x.length = c.dataLen) :
    c.run [x] = ((ccmEncUpdate Prim.external c x).1 ++ ccmFinalOutput Prim.external (ccmEncUpdate Prim.external c x).2,
      .success) := by
  have hfin := final_ccm_enc (c := (ccmEncUpdate Prim.external c x).2) hm hd
  refine run_single_of (update_ccm_enc hm hd (by simp [updateError, hm, hd, hp, hx])) (hfin.trans (if_pos ?_))
  show c.processedDataLen + x.length = c.dataLen
  rw [hp, Nat.zero_add, hx]

theorem atomicRuns_ccm_enc (a : Alg) (s : State) : AtomicRuns .ccm .enc a s := by
  refine .of_check (p := s.input.length ≠ s.args.dataLen.toNat) rfl
    (fun hne => Context.run_ccm_enc_of_ne rfl rfl rfl hne) fun heq => ?_
  rw [Context.run_ccm_enc_of_eq rfl rfl rfl (not_not.mp heq), Commit.ofRun_success]
  rfl

theorem atomicRuns_ccm_dec (a : Alg) (s : State) : AtomicRuns .ccm .dec a s := by
  have hupd (h : ¬0 + s.input.length > s.args.dataLen.toNat + s.args.tagLen.toNat) :=
    Context.update_aead_dec (c := initContext Prim.external .ccm .dec a s.args) rfl rfl (if_neg h)
  have hfin := Context.final_ccm_dec (c := (initContext Prim.external .ccm .dec a s.args).grow s.input) rfl rfl
  refine ⟨fun st he => ?_, fun he => ?_⟩ <;> simp only [atomicError] at he <;> split_ifs at he with hgt hlt
  · cases he
    exact Context.run_single_of_updateError (if_pos (by rwa [← Nat.zero_add s.input.length] at hgt))
  · cases he
    exact Context.run_single_snd (hupd (by omega)) (hfin.trans (if_neg (Nat.ne_of_lt hlt)))
  · exact (Commit.ofRun_verified (hupd (by omega))
      (hfin.trans (if_pos (show s.input.length = s.args.dataLen.toNat + s.args.tagLen.toNat by omega)))).symm

theorem atomicRuns_gcm_enc (a : Alg) (s : State) : AtomicRuns .gcm .enc a s where
  error := nofun
  commit _ := by
    rw [Context.run_single_of (Context.update_gcm_enc rfl rfl rfl) (Context.final_gcm_enc rfl rfl),
      Commit.ofRun_success]
    rfl

theorem atomicRuns_gcm_dec (a : Alg) (s : State) : AtomicRuns .gcm .dec a s := by
  have hupd := Context.update_aead_dec (c := initContext Prim.external .gcm .dec a s.args) (x := s.input) rfl rfl rfl
  have hfin := Context.final_gcm_dec (c := (initContext Prim.external .gcm .dec a s.args).grow s.input) rfl rfl
  exact .of_check (p := s.input.length < s.args.tagLen.toNat) rfl
    (fun hlt => Context.run_single_snd hupd (hfin.trans (if_pos hlt)))
    fun hle => (Commit.ofRun_verified hupd (hfin.trans (if_neg hle))).symm

theorem atomicRuns_gmac_enc (a : Alg) (s : State) : AtomicRuns .gmac .enc a s := by
  refine .of_check (p := s.input.length > 0) rfl
    (fun hpos => Context.run_single_of_updateError (if_pos hpos)) fun hnil => ?_
  have hupd := Context.update_gmac_enc (c := initContext Prim.external .gmac .enc a s.args) rfl rfl (if_neg hnil)
  rw [Context.run_single_of hupd (Context.final_gmac_enc rfl rfl), Commit.ofRun_success]
  rfl

theorem atomicRuns_gmac_dec (a : Alg) (s : State) : AtomicRuns .gmac .dec a s := by
  have hupd (h : ¬0 + s.input.length > s.args.tagLen.toNat) :=
    Context.update_aead_dec (c := initContext Prim.external .gmac .dec a s.args) rfl rfl (if_neg h)
  have hfin := Context.final_gmac_dec (c := (initContext Prim.external .gmac .dec a s.args).grow s.input) rfl rfl
  refine ⟨fun st he => ?_, fun he => ?_⟩ <;> simp only [atomicError] at he <;> split_ifs at he with hgt hlt
  · cases he
    exact Context.run_single_of_updateError (if_pos (by rwa [← Nat.zero_add s.input.length] at hgt))
  · cases he
    exact Context.run_single_snd (hupd (by omega)) (hfin.trans (if_neg (Nat.ne_of_lt hlt)))
  · exact (Commit.ofRun_verified (hupd (by omega))
      (hfin.trans (if_pos (show s.input.length = s.args.tagLen.toNat by omega)))).symm

/-- In every mode but CBC_PAD decryption ATOMIC does what a run of one UPDATE does (44 R471). -/
theorem atomicRuns {m : Mode} {d : Dir} (h : ¬(m = .cbcPad ∧ d = .dec)) (a : Alg) (s : State) :
    AtomicRuns m d a s := by
  cases m with
  | ecb => exact atomicRuns_ecb d a s
  | cbc => exact atomicRuns_cbc d a s
  | cbcPad =>
    cases d with
    | enc => exact atomicRuns_cbcPad_enc a s
    | dec => exact absurd ⟨rfl, rfl⟩ h
  | cfb => exact atomicRuns_cfb d a s
  | ctr => exact atomicRuns_ctr d a s
  | ccm =>
    cases d with
    | enc => exact atomicRuns_ccm_enc a s
    | dec => exact atomicRuns_ccm_dec a s
  | gcm =>
    cases d with
    | enc => exact atomicRuns_gcm_enc a s
    | dec => exact atomicRuns_gcm_dec a s
  | gmac =>
    cases d with
    | enc => exact atomicRuns_gmac_enc a s
    | dec => exact atomicRuns_gmac_dec a s

/-! ### CBC_PAD decryption in one UPDATE -/

/-- The pad byte is the last block's. -/
theorem padByte_drop {B : Nat} (hB : 0 < B) {X : Bytes} (hle : B ≤ X.length) :
    padByte (X.drop (X.length - B)) = padByte X := by
  conv_rhs => rw [← List.take_append_drop (X.length - B) X]
  exact (padByte_append _ (List.ne_nil_of_length_pos (by rw [List.length_drop]; omega))).symm

theorem cbcPadDecUpdate_residue (P : Prim) (c : Context) (x : Bytes) :
    (cbcPadDecUpdate P c x).2.residue = (c.partition x).2.residue := by
  unfold cbcPadDecUpdate
  dsimp only
  split <;> rfl

/-- A run of CBC_PAD decryption of no block, or of a partial one, ends with ENCRYPTED_DATA_LEN_RANGE (41 R258). -/
theorem Context.run_cbcPad_dec_of_length {c : Context} (hok : c.Ok) (hm : c.mode = .cbcPad) (hd : c.dir = .dec)
    (hr : c.residue = []) (hh : c.heldValid = false) {x : Bytes} (hx : x.length % c.B ≠ 0 ∨ x.length < c.B) :
    (c.run [x]).2 = .encryptedDataLenRange := by
  by_cases hmod : x.length % c.B = 0
  · have hnil : x = [] := by
      have hlt := hx.resolve_left (not_not.mpr hmod)
      rwa [Nat.mod_eq_of_lt hlt, List.length_eq_zero_iff] at hmod
    subst hnil
    exact run_single_snd (update_nil hok) (final_cbcPad_dec_error hm hd (.inr (.inl hh)))
  · have hf := sameFixed_cbcPadDecUpdate Prim.external c x
    have hres : ((cbcPadDecUpdate Prim.external c x).2.residue).length = x.length % c.B := by
      rw [cbcPadDecUpdate_residue, partition_residue_length, hr, List.length_nil, Nat.zero_add]
    refine run_single_snd (update_cbcPad_dec hm hd x)
      (final_cbcPad_dec_error (hf.mode.trans hm) (hf.dir.trans hd) (.inl fun hnil => hmod ?_))
    exact hres.symm.trans (congrArg List.length hnil)

/-- A run of CBC_PAD decryption of whole blocks whose pad byte is out of range ends with ENCRYPTED_DATA_LEN_RANGE (41
R258). -/
theorem Context.run_cbcPad_dec_of_badPad {c : Context} (hm : c.mode = .cbcPad) (hd : c.dir = .dec) (hr : c.residue = [])
    {x X : Bytes} (hx : x.length % c.B = 0) (hX : (cbcDecBlocks (decryptBlock c.ks) c.iv (chunks c.B x)).1 = X)
    (hle : c.B ≤ X.length) (hbad : padByte X < 1 ∨ c.B < padByte X) : (c.run [x]).2 = .encryptedDataLenRange := by
  have hpart := partition_of_whole hr hx
  have hX : (cbcUpdate Prim.external c x).1 = X := by
    unfold cbcUpdate
    rw [hpart, hd]
    exact hX
  have hne : (cbcUpdate Prim.external c x).1 ≠ [] := hX ▸ List.ne_nil_of_length_pos (c.B_pos.trans_le hle)
  have hupd := update_cbcPad_dec hm hd x
  rw [cbcPadDecUpdate_of_ne_nil hne, hX] at hupd
  refine run_single_snd hupd (final_cbcPad_dec_error hm hd (.inr (.inr ?_)))
  show padByte (X.drop _) < 1 ∨ c.B < padByte (X.drop _)
  rwa [padByte_drop c.B_pos hle]

/-- ATOMIC of CBC_PAD decryption, with capacity for its input, commits what a run of one UPDATE gives; after its unpad
failure the output region holds any bytes (41 R267, 20 R85). -/
theorem atomicCommit_cbcPad_dec {a : Alg} {s : State} (hiv : s.args.iv.length = blockSize a)
    (hmod : s.input.length % blockSize a = 0) (hle : blockSize a ≤ s.input.length) (hcap : s.input.length ≤ s.cap) :
    let r := (initContext Prim.external .cbcPad .dec a s.args).run [s.input]
    atomicCommit .cbcPad .dec a s = if r.2 = .success then .consume r.1 else .failAny r.2 := by
  intro r
  obtain ⟨X, hX⟩ : ∃ X, (cbcDecBlocks (decryptBlock ⟨a, s.args.key⟩) s.args.iv (chunks (blockSize a) s.input)).1 = X :=
    ⟨_, rfl⟩
  have hlen : X.length = s.input.length :=
    hX ▸ cbcDecBlocks_chunks_length (blockSize_pos a) (decryptBlock_length _) hiv hmod
  have hcommit : atomicCommit .cbcPad .dec a s = atomicPadDecCommit (blockSize a) s.cap X :=
    congrArg (atomicPadDecCommit (blockSize a) s.cap) hX
  rw [hcommit]
  by_cases hpad : 1 ≤ padByte X ∧ padByte X ≤ blockSize a
  · have hrun : r = (X.take (X.length - padByte X), .success) :=
      Context.run_cbcPad_dec rfl rfl rfl rfl hmod hX (hlen ▸ hle) hpad.1 hpad.2
    rw [atomicPadDecCommit_of_fits hpad.1 hpad.2 (by omega), hrun, if_pos rfl]
  · have hbad : padByte X < 1 ∨ blockSize a < padByte X := by omega
    have hrun : r.2 = .encryptedDataLenRange := Context.run_cbcPad_dec_of_badPad rfl rfl rfl hmod hX (hlen ▸ hle) hbad
    rw [atomicPadDecCommit_of_badPad hbad, hrun, if_neg (by decide)]

/-! ### ATOMIC with enough capacity -/

@[simp] theorem Commit.fail_output (st : Status) : (Commit.fail st).output = [] := by cases st <;> rfl

@[simp] theorem Commit.failAny_output (st : Status) : (Commit.failAny st).output = [] := by cases st <;> rfl

theorem blockSize_le_16 (a : Alg) : blockSize a ≤ 16 := by cases a <;> decide

section

variable {s : State} {m : Mode} {d : Dir} {a : Alg} {h : Handle}

/-- Where its length check passes, no ATOMIC needs more capacity than its input and a block or a tag (44 R469). -/
theorem atomicNeed_le (r : InitReady s m a h) (he : atomicError m d a s.args s.input.length = none) :
    atomicNeed m d a s.args s.input.length ≤ s.input.length + 16 := by
  have htag (ha : aeadMode m = true) : s.args.tagLen.toNat ≤ 16 :=
    initContext_tagLen m d a s.args ha ▸ ((r.context_ok d).tag_range (by rwa [initContext_mode])).2
  cases m with
  | ecb | cbc | cfb | ctr => exact Nat.le_add_right _ _
  | cbcPad =>
    cases d with
    | enc =>
      have hdiv := Nat.div_mul_le_self s.input.length (blockSize a)
      have hB := blockSize_le_16 a
      show (_ + 1) * _ ≤ _
      rw [Nat.add_mul]
      omega
    | dec => exact Nat.zero_le _
  | ccm =>
    have := htag rfl
    cases d <;> simp only [atomicError] at he <;> simp only [atomicNeed] <;> split_ifs at he <;> omega
  | gcm =>
    have := htag rfl
    cases d <;> simp only [atomicNeed] <;> omega
  | gmac =>
    have := htag rfl
    cases d <;> simp only [atomicNeed] <;> omega

/-- ATOMIC's length check never fails with SUCCESS. -/
theorem atomicError_ne_success (m : Mode) (d : Dir) (a : Alg) (o : Operands) (n : Nat) :
    atomicError m d a o n ≠ some .success := by
  cases m <;> cases d <;> simp [atomicError, lengthStatus, ite_eq_iff]

/-- Where ATOMIC's length check fails, a run of one UPDATE ends with its status. -/
theorem run_snd_of_atomicError (r : InitReady s m a h) {st : Status}
    (he : atomicError m d a s.args s.input.length = some st) :
    ((initContext Prim.external m d a s.args).run [s.input]).2 = st := by
  by_cases hpad : m = .cbcPad ∧ d = .dec
  · obtain ⟨rfl, rfl⟩ := hpad
    simp only [atomicError] at he
    split_ifs at he with hlen
    cases he
    exact Context.run_cbcPad_dec_of_length (r.context_ok .dec) rfl rfl rfl rfl hlen
  · exact (atomicRuns hpad a s).error st he

/-- Where ATOMIC's length check passes, it commits what a run of one UPDATE gives (44 R471). -/
theorem atomicCommit_eq_of_run (r : InitReady s m a h) (he : atomicError m d a s.args s.input.length = none)
    (hcap : s.input.length ≤ s.cap) :
    let run := (initContext Prim.external m d a s.args).run [s.input]
    atomicCommit m d a s = .ofRun run ∨
      atomicCommit m d a s = if run.2 = .success then .consume run.1 else .failAny run.2 := by
  by_cases hpad : m = .cbcPad ∧ d = .dec
  · obtain ⟨rfl, rfl⟩ := hpad
    simp only [atomicError] at he
    split_ifs at he with hlen
    exact .inr (atomicCommit_cbcPad_dec (by simpa [paramsOk] using r.params) (by omega) (by omega) hcap)
  · exact .inl ((atomicRuns hpad a s).commit he)

variable (r : InitReady s m a h) (hv : s.viewRefusal s.args.inView s.args.outView = none)
include r hv

/-- An ATOMIC whose length check fails answers its status (44 R467). -/
theorem exec_atomic_of_error {st : Status} (he : atomicError m d a s.args s.input.length = some st) :
    exec (instrOf .atomic m d a) s = .next (s.answer st 0) := by
  obtain ⟨jobs, hexec⟩ := exec_atomic_eq (d := d) r hv
  rw [hexec, he]

variable (hscratch : s.args.draws.scratchOk = true) (hcap : s.input.length + 16 ≤ s.cap)
include hscratch hcap

/-- An ATOMIC whose length check passes, its allocation granted and its capacity enough, launches its commit. -/
theorem exec_atomic_of_fits (he : atomicError m d a s.args s.input.length = none) :
    ∃ jobs, exec (instrOf .atomic m d a) s = s.runAtomic (instrOf .atomic m d a) h jobs (atomicCommit m d a s) := by
  obtain ⟨jobs, hexec⟩ := exec_atomic_eq (d := d) r hv
  have hneed := (atomicNeed_le r he).trans hcap
  exact ⟨jobs, by rw [hexec, he]; simp [Nat.not_lt.mpr hneed, hscratch]⟩

/-- ATOMIC completes with the output of a run of one UPDATE that succeeds (44 R471). -/
theorem exec_atomic_of_run_success
    (hst : ((initContext Prim.external m d a s.args).run [s.input]).2 = .success) :
    Completes s (exec (instrOf .atomic m d a) s) none
      { handle := h, status := .success
        size := ((initContext Prim.external m d a s.args).run [s.input]).1.length, ctx := none
        output := ((initContext Prim.external m d a s.args).run [s.input]).1 } := by
  have he : atomicError m d a s.args s.input.length = none := by
    cases he : atomicError m d a s.args s.input.length with
    | none => rfl
    | some st =>
      rw [← run_snd_of_atomicError r he, hst] at he
      exact absurd he (atomicError_ne_success m d a s.args s.input.length)
  obtain ⟨jobs, hexec⟩ := exec_atomic_of_fits r hv hscratch hcap he
  have hk : atomicCommit m d a s = .consume ((initContext Prim.external m d a s.args).run [s.input]).1 :=
    (atomicCommit_eq_of_run r he (by omega)).elim (·.trans (if_pos hst)) (·.trans (if_pos hst))
  rw [hexec, hk]
  exact runAtomic_completes rfl

/-- ATOMIC reports the status of a run of one UPDATE that fails, and no output (44 R471). -/
theorem exec_atomic_of_run_failure
    (hst : ((initContext Prim.external m d a s.args).run [s.input]).2 ≠ .success) :
    ∃ t, exec (instrOf .atomic m d a) s = .next t ∧ (t.settle h).reports = s.reports ++
      [{ id := s.issued, status := ((initContext Prim.external m d a s.args).run [s.input]).2, size := 0
         handle := none, output := [] }] := by
  cases he : atomicError m d a s.args s.input.length with
  | some st =>
    obtain ⟨t, ht, -, hafter⟩ := answer_completes r (st := st)
    rw [exec_atomic_of_error r hv he, run_snd_of_atomicError r he]
    exact ⟨t, ht, hafter.report⟩
  | none =>
    obtain ⟨jobs, hexec⟩ := exec_atomic_of_fits r hv hscratch hcap he
    rw [hexec]
    obtain ⟨q, hq, hsettle⟩ := s.settle_launch (instrOf .atomic m d a) h none s.args.inView s.args.outView jobs
      (atomicCommit m d a s)
    refine ⟨_, rfl, ?_⟩
    rw [hsettle, State.finish_reports, hq.reports]
    rcases atomicCommit_eq_of_run r he (by omega) with hk | hk
    · rw [hk.trans (if_neg hst), Commit.fail_output]
      rfl
    · rw [hk.trans (if_neg hst), Commit.failAny_output]
      rfl

end

/-! ### The obligation -/

/-- Settles O54: a run depends on its joined input alone, ATOMIC commits what the run of one UPDATE gives, and INIT's
checks come first in both. -/
theorem streamingEquivalence : Obligations.StreamingEquivalence := by
  unfold Obligations.StreamingEquivalence
  refine ⟨fun c xs hok => ?_, fun s m d a h xs r hv hscratch hcap hxs => ?_, fun s m d a xs st hst hv => ?_⟩
  · obtain ⟨hst, hout⟩ := c.sameRun_flatten hok xs
    exact ⟨hst, hout, fun hs => Context.Silent.run_fst_of_failure hs hok xs⟩
  · obtain ⟨hst, hout⟩ := Context.sameRun_flatten (r.context_ok d) xs
    rw [hxs] at hst hout
    rw [r.run d xs]
    refine ⟨fun hs => ?_, fun hs => ?_⟩
    · rw [hout hs]
      exact exec_atomic_of_run_success r hv hscratch hcap (hst ▸ hs)
    · rw [hst] at hs ⊢
      exact exec_atomic_of_run_failure r hv hscratch hcap hs
  · refine ⟨?_, _, exec_atomic_of_initChecks_error d hv hst, answer_answered⟩
    rw [State.run, hst]

end Sys2Proof.Machine
end

section
/-! SUPPORT. UPDATE and FINAL on a state against `RUN` on a context (O42). -/

namespace Sys2Proof.Machine

/-- Settles O42: past its checks UPDATE commits what `Context.update` gives, and FINAL what `Context.final` gives. -/
theorem commandsFollowRun : Obligations.CommandsFollowRun := by
  unfold Obligations.CommandsFollowRun
  refine ⟨fun s c c' m d a y r hok hscratch hupd hcap => ?_, fun s c m d a y r hok hfin hcap => ?_⟩
  · have herr := Context.updateError_of_update hupd
    obtain ⟨hlen, -, -⟩ := Context.update_spec hok hupd
    obtain ⟨jobs, y', c'', hexec, hres, -⟩ := exec_update_eq r hok
    cases hupd.symm.trans (hres herr)
    have hdenied : s.scratchDenied = false := by simp [State.scratchDenied, hscratch]
    rw [hexec, herr]
    dsimp only
    rw [if_neg (by omega), if_neg (by simp [hdenied])]
    exact runUpdate_completes rfl
  · obtain ⟨herr, hcommit, hlen⟩ := Context.final_spec hok hfin
    obtain ⟨jobs, hexec, -⟩ := exec_final_eq r
    rw [hexec, herr]
    dsimp only
    rw [if_neg (by omega), hcommit]
    exact runFinal_completes rfl

end Sys2Proof.Machine
end

section
/-! SUPPORT. The counter increment (O59), and UPDATE in the modes without a tag (O20, O21, O23, O24, O25). -/

namespace Sys2Proof.Machine

/-! ### The counter increment -/

/-- Settles O59: the number of an increment splits at bit `cb` into the old high part and the low part plus one. -/
theorem counterIncrement : Obligations.CounterIncrement := by
  unfold Obligations.CounterIncrement
  intro ctr cb _ hcb
  have hpos : 0 < 2 ^ cb := Nat.two_pow_pos cb
  have hlow : (beInt ctr + 1) % 2 ^ cb < 2 ^ cb := Nat.mod_lt _ hpos
  have hnum := beInt_inc ctr hcb
  rw [Nat.mul_comm] at hnum
  refine ⟨inc_length ctr cb, ?_, ?_⟩
  · rw [hnum, Nat.mul_add_mod, Nat.mod_mod, Nat.mod_add_mod]
  · rw [hnum, Nat.mul_add_div hpos, Nat.div_eq_of_lt hlow, Nat.add_zero]

/-! ### UPDATE completes with what it gives on its context -/

/-- In a mode without a tag an UPDATE with enough capacity completes with the output and the context that the context's
own UPDATE gives: no scratch is allocated (44 R469, R476). -/
theorem exec_update_completes {s : State} {c : Context} {m : Mode} {d : Dir} {a : Alg} (hm : aeadMode m = false)
    (r : Ready s s.args.inView c m d a) (hok : c.Ok) {y : Bytes} {c' : Context}
    (hupd : c.update s.input = .ok (y, c')) (hcap : c.updateNeed s.input.length ≤ s.cap) :
    Completes s (exec (instrOf .update m d a) s) (some c)
      { handle := s.args.handle, status := .success, size := c.updateNeed s.input.length, ctx := some c'
        output := y } := by
  have herr := Context.updateError_of_update hupd
  obtain ⟨hlen, -, -⟩ := Context.update_spec hok hupd
  obtain ⟨jobs, y', c'', hexec, hres, -⟩ := exec_update_eq r hok
  cases hupd.symm.trans (hres herr)
  rw [hexec, herr]
  dsimp only
  rw [if_neg (Nat.not_lt.mpr hcap), if_neg (by simp [hm])]
  exact runUpdate_completes hlen

/-- The required size of an UPDATE of ECB, CBC and CBC_PAD encryption, the whole blocks of residue and input (44 R469). -/
theorem Context.updateNeed_block {c : Context}
    (hm : c.mode = .ecb ∨ c.mode = .cbc ∨ (c.mode = .cbcPad ∧ c.dir = .enc)) (x : Bytes) :
    c.updateNeed x.length = (c.residue ++ x).length / c.B * c.B := by
  rcases hm with hm | hm | ⟨hm, hd⟩
  · simp [updateNeed, hm]
  · simp [updateNeed, hm]
  · simp [updateNeed, hm, hd]

/-- The required size of an UPDATE of CFB and CTR, its input's length (44 R469). -/
theorem Context.updateNeed_stream {c : Context} (hm : c.mode = .cfb ∨ c.mode = .ctr) (n : Nat) : c.updateNeed n = n := by
  rcases hm with hm | hm <;> simp [updateNeed, hm]

/-- Settles O20: an ECB UPDATE commits E or D of each whole block. -/
theorem updateEcb : Obligations.UpdateEcb := by
  unfold Obligations.UpdateEcb
  intro s c d a r hok data n hcap
  have hneed : c.updateNeed s.input.length = n := Context.updateNeed_block (.inl r.mode) s.input
  have h := exec_update_completes rfl r hok (Context.update_ecb r.mode s.input) (hneed.trans_le hcap)
  rw [hneed] at h
  obtain rfl := r.dir
  exact h

/-- Settles O21: a CBC UPDATE commits the chained whole blocks, and the last ciphertext block as the next chaining value. -/
theorem updateCbc : Obligations.UpdateCbc := by
  unfold Obligations.UpdateCbc
  intro s c m d a hm r hok data n Xs out ciphertext hcap
  have hneed : c.updateNeed s.input.length = n :=
    Context.updateNeed_block (by rw [r.mode, r.dir]; exact .inr hm) s.input
  have hupd : c.update s.input = .ok (cbcUpdate Prim.external c s.input) := by
    rcases hm with rfl | ⟨rfl, rfl⟩
    · exact Context.update_cbc r.mode s.input
    · exact Context.update_cbcPad_enc r.mode r.dir s.input
  have hm' : aeadMode m = false := by rcases hm with rfl | ⟨rfl, -⟩ <;> rfl
  rw [cbcUpdate_eq hok s.input d r.dir] at hupd
  have h := exec_update_completes hm' r hok hupd (hneed.trans_le hcap)
  rw [hneed] at h
  exact h

/-! ### The stream modes -/

/-- Settles O23: a CFB or CTR UPDATE commits what the drain and then the block loop give. (`updateStream` is the model's own
name.) -/
theorem updateStream_completes : Obligations.UpdateStream := by
  unfold Obligations.UpdateStream
  intro s c m d a hm r hok hcap p k drained rest
  have hmode : c.mode = .cfb ∨ c.mode = .ctr := r.mode.symm ▸ hm
  have hneed := Context.updateNeed_stream hmode s.input.length
  have haead : aeadMode m = false := by rcases hm with rfl | rfl <;> rfl
  have h := exec_update_completes haead r hok (Context.update_stream hmode s.input) (hneed.trans_le hcap)
  rw [hneed] at h
  obtain rfl := r.mode
  obtain rfl := r.dir
  exact h

/-- What an UPDATE of CFB or CTR does on a context that is ready (40 R202, R212). -/
theorem exec_update_stream {s : State} {c : Context} {m : Mode} {d : Dir} {a : Alg} (hm : m = .cfb ∨ m = .ctr)
    (r : Ready s s.args.inView c m d a) : exec (instrOf .update m d a) s =
      if s.cap < s.input.length then .next (s.tooSmall s.input.length)
      else s.runUpdate (instrOf .update m d a) c (streamJobs s c s.input.length)
        (.keep (streamUpdate Prim.external c s.input).2 (streamUpdate Prim.external c s.input).1) := by
  rcases hm with rfl | rfl
  · rw [exec_update_cfb]
    exact onContext_of_ready r _
  · rw [exec_update_ctr]
    exact onContext_of_ready r _

/-- Input that the cache covers calls for no job (40 R170). -/
theorem streamJobs_of_cached (s : State) {c : Context} {n : Nat} (h : n ≤ c.lbPad) : streamJobs s c n = [] := by
  have huses : streamUses c.B c.lbPad n = 0 := by rw [streamUses, Nat.sub_eq_zero_of_le h, ceilDiv_zero c.B_pos]
  simp [streamJobs, huses, State.jobsOf, splitJobs_zero, splitCtrJobs]

/-- Input that the cache covers is only drained (40 R167, R170). -/
theorem stream_of_cached (E : Bytes → Bytes) {p : StreamParams} (hB : 0 < p.B) {k : Keystream} {x : Bytes}
    (h : x.length ≤ k.pad) : stream E p k x = ((drain p k x).1, (drain p k x).2.1) := by
  have hx := stream_append_of_cached E p h []
  simpa [stream_nil E p hB] using hx

/-- Settles O24: no keystream block is missing, so there is no job, and draining is the XOR with the cached bytes. -/
theorem cachedKeystreamNeedsNoJob : Obligations.CachedKeystreamNeedsNoJob := by
  unfold Obligations.CachedKeystreamNeedsNoJob
  intro s c m d a hm r hok hcap hcached
  obtain ⟨hout, hpad, -⟩ := drain_cached c.streamParams c.keystream s.input hcached hok.pad_lt.le fun h =>
    hok.pad_block (Nat.pos_of_ne_zero h)
  have hstream := stream_of_cached (encryptBlock c.ks) (p := c.streamParams) c.B_pos (k := c.keystream) hcached
  have hupd : (streamUpdate Prim.external c s.input).1 = xorBytes s.input (c.lastBlock.drop (c.B - c.lbPad)) :=
    (congrArg Prod.fst hstream).trans hout
  have hlen : (streamUpdate Prim.external c s.input).1.length = s.input.length :=
    stream_length (E := encryptBlock c.ks) (p := c.streamParams) c.B_pos hok.E_length _ _
  obtain ⟨t, ht, hafter⟩ := runUpdate_after (s := s) (i := instrOf .update m d a) (c := c)
    (c' := (streamUpdate Prim.external c s.input).2) (out := (streamUpdate Prim.external c s.input).1)
  rw [exec_update_stream hm r, if_neg (Nat.not_lt.mpr hcap), streamJobs_of_cached s hcached]
  rw [hlen, hupd] at hafter
  exact ⟨t, _, ht, (congrArg (fun q => q.2.pad) hstream).trans hpad, hafter⟩

/-! ### The length of the keystream cache -/

/-- `p` bytes are cached after `total` bytes exactly when `p` is less than a block and the two make whole blocks. -/
theorem cacheLength_iff {B : Nat} (hB : 0 < B) (total p : Nat) :
    p = (B - total % B) % B ↔ p < B ∧ B ∣ total + p := by
  have hdvd : B ∣ total + (B - total % B) % B := by
    apply Nat.dvd_of_mod_eq_zero
    rw [Nat.add_mod_mod, ← Nat.mod_add_mod, Nat.add_sub_cancel' (Nat.mod_lt _ hB).le, Nat.mod_self]
  constructor
  · rintro rfl
    exact ⟨Nat.mod_lt _ hB, hdvd⟩
  · rintro ⟨hlt, hp⟩
    have hmod : total + p ≡ total + (B - total % B) % B [MOD B] :=
      ((Nat.modEq_zero_iff_dvd).mpr hp).trans ((Nat.modEq_zero_iff_dvd).mpr hdvd).symm
    exact (hmod.add_left_cancel' total).eq_of_lt_of_lt hlt (Nat.mod_lt _ hB)

/-- Past the cache the block loop takes the rest of the input, and leaves what its last block does not use (40 R168). -/
theorem stream_pad_of_lt (E : Bytes → Bytes) {p : StreamParams} (hB : 0 < p.B) {k : Keystream} {x : Bytes}
    (h : k.pad ≤ x.length) : (stream E p k x).2.pad = (p.B - (x.length - k.pad) % p.B) % p.B := by
  obtain ⟨hpad, hrest⟩ := drain_pad p k x
  rw [← List.length_drop, ← hrest]
  exact streamBlocks_pad E p hB _ (by rw [hpad, Nat.sub_eq_zero_of_le h]) _

/-- Draining within the cache takes as many bytes from it as the input has (40 R167). -/
theorem stream_pad_of_le (E : Bytes → Bytes) {p : StreamParams} (hB : 0 < p.B) {k : Keystream} {x : Bytes}
    (h : x.length ≤ k.pad) : (stream E p k x).2.pad = k.pad - x.length := by
  rw [stream_of_cached E hB h]
  exact (drain_pad p k x).1

/-- The cache and the bytes taken so far still make whole blocks after an input (40 R169). -/
theorem stream_pad_eq (E : Bytes → Bytes) {p : StreamParams} (hB : 0 < p.B) {k : Keystream} {total : Nat}
    (hk : k.pad = (p.B - total % p.B) % p.B) (x : Bytes) :
    (stream E p k x).2.pad = (p.B - (total + x.length) % p.B) % p.B := by
  obtain ⟨hlt, hdvd⟩ := (cacheLength_iff hB total k.pad).mp hk
  rw [cacheLength_iff hB]
  rcases Nat.le_total x.length k.pad with hle | hle
  · rw [stream_pad_of_le E hB hle, Nat.add_assoc, Nat.add_sub_cancel' hle]
    exact ⟨(Nat.sub_le _ _).trans_lt hlt, hdvd⟩
  · obtain ⟨hlt', hdvd'⟩ := (cacheLength_iff hB (x.length - k.pad) _).mp (stream_pad_of_lt E hB hle)
    have hsplit (q : Nat) : total + x.length + q = total + k.pad + (x.length - k.pad + q) := by omega
    rw [hsplit]
    exact ⟨hlt', Nat.dvd_add hdvd hdvd'⟩

/-- Settles O25: INIT caches nothing, and an UPDATE keeps cache and total a whole number of blocks. -/
theorem keystreamCacheLength : Obligations.KeystreamCacheLength := by
  unfold Obligations.KeystreamCacheLength
  refine ⟨fun m d a o => by cases m <;> rfl, fun c x total hok hm hpad => ?_⟩
  have hupd := Context.update_stream hm x
  obtain ⟨hlen, -, -⟩ := Context.update_spec hok hupd
  exact ⟨_, _, hupd, hlen.trans (Context.updateNeed_stream hm _),
    stream_pad_eq (encryptBlock c.ks) (p := c.streamParams) c.B_pos (k := c.keystream) hpad x⟩

end Sys2Proof.Machine
end

section
/-! SUPPORT. ATOMIC in the modes without a tag (O44). -/

namespace Sys2Proof.Machine

/-- An ATOMIC of a mode without a tag, its length legal and its capacity enough, completes with the output of a run of one
UPDATE: no scratch is allocated (44 R469, R471). -/
theorem exec_atomic_completes {s : State} {m : Mode} {d : Dir} {a : Alg} {h : Handle} (hm : aeadMode m = false)
    (hpad : ¬(m = .cbcPad ∧ d = .dec)) (r : InitReady s m a h)
    (hv : s.viewRefusal s.args.inView s.args.outView = none)
    (herr : atomicError m d a s.args s.input.length = none)
    (hcap : atomicNeed m d a s.args s.input.length ≤ s.cap) {y : Bytes} {n : Nat}
    (hrun : (initContext Prim.external m d a s.args).run [s.input] = (y, .success)) (hn : y.length = n) :
    Completes s (exec (instrOf .atomic m d a) s) none
      { handle := h, status := .success, size := n, ctx := none, output := y } := by
  obtain ⟨jobs, hexec⟩ := exec_atomic_eq (d := d) r hv
  have hcommit : atomicCommit m d a s = .consume y := by
    rw [(atomicRuns hpad a s).commit herr, hrun, Commit.ofRun_success]
  rw [hexec, herr]
  dsimp only
  rw [if_neg (Nat.not_lt.mpr hcap), if_neg (by simp [hm]), hcommit]
  exact runAtomic_completes hn

/-- A block function on whole blocks emits as many bytes as it takes (40 R154). -/
theorem ecbBlocks_chunks_length {f : Bytes → Bytes} {B : Nat} (hB : 0 < B) (hf : ∀ X, (f X).length = B) {x : Bytes}
    (hx : x.length % B = 0) : (ecbBlocks f (chunks B x)).length = x.length := by
  rw [ecbBlocks_length hf, chunks_length, ceilDiv_of_mod hB hx, Nat.div_mul_cancel (Nat.dvd_of_mod_eq_zero hx)]

/-- CBC encryption of whole blocks emits as many bytes as it takes (40 R156). -/
theorem cbcEncBlocks_chunks_length {E : Bytes → Bytes} {B : Nat} (hB : 0 < B) (hE : ∀ X, (E X).length = B) (v : Bytes)
    {x : Bytes} (hx : x.length % B = 0) : (cbcEncBlocks E v (chunks B x)).1.length = x.length := by
  rw [cbcEncBlocks_length hE, chunks_length, ceilDiv_of_mod hB hx, Nat.div_mul_cancel (Nat.dvd_of_mod_eq_zero hx)]

/-- CFB does not look at the counter's width (40 R163). -/
theorem streamBlocks_counterBits (E : Bytes → Bytes) {p : StreamParams} (hc : p.cfb = true) (cb : Nat) (k : Keystream)
    (Xs : List Bytes) : streamBlocks E { p with counterBits := cb } k Xs = streamBlocks E p k Xs := by
  induction Xs generalizing k with
  | nil => rfl
  | cons X Xs ih =>
    have hX : streamBlock E { p with counterBits := cb } k X = streamBlock E p k X := by simp [streamBlock, hc]
    rw [streamBlocks, streamBlocks, hX, ih]

/-- The context INIT makes has no byte cached, so a run of CFB or CTR is the block loop alone (40 R165). -/
theorem run_initContext_stream {m : Mode} (hm : m = .cfb ∨ m = .ctr) (d : Dir) (a : Alg) (o : Operands) (x : Bytes) :
    (initContext Prim.external m d a o).run [x] = ((streamBlocks (encryptBlock ⟨a, o.key⟩)
      { cfb := decide (m = .cfb), dir := d, B := blockSize a, counterBits := o.counterBits.toNat }
      { iv := o.iv, last := [], pad := 0 } (chunks (blockSize a) x)).1, .success) := by
  have hstream (p : StreamParams) := stream_of_pad_zero (encryptBlock ⟨a, o.key⟩) p
    (k := { iv := o.iv, last := [], pad := 0 }) rfl x
  rw [Context.run_stream ((initContext_mode m d a o).symm ▸ hm)]
  rcases hm with rfl | rfl
  · exact congrArg (fun q => (q.1, Status.success))
      ((hstream (initContext Prim.external .cfb d a o).streamParams).trans (streamBlocks_counterBits _ rfl _ _ _).symm)
  · exact congrArg (fun q => (q.1, Status.success)) (hstream (initContext Prim.external .ctr d a o).streamParams)

/-- Settles O44: ATOMIC gives what a run of one UPDATE gives, the whole input through the mode's block function, chaining or
block loop. -/
theorem atomicUnauthenticated : Obligations.AtomicUnauthenticated := by
  unfold Obligations.AtomicUnauthenticated
  intro s m d a h r hv haead hpad B ks p out n hwhole hcap
  have hB : 0 < B := blockSize_pos a
  have hE (X : Bytes) : (encryptBlock ks X).length = B := encryptBlock_length ks X
  have hD (X : Bytes) : (decryptBlock ks X).length = B := decryptBlock_length ks X
  have hstream :
      (streamBlocks (encryptBlock ks) p { iv := s.args.iv, last := [], pad := 0 } (chunks B s.input)).1.length =
        s.input.length := by
    rw [streamBlocks_length hE _ fun X hX => (length_mem_chunks_le hB hX).2, chunks_flatten hB]
  cases m with
  | ecb =>
    have hx := hwhole (.inl rfl)
    have herr : atomicError .ecb d a s.args s.input.length = none := if_neg (not_not.mpr hx)
    cases d with
    | enc =>
      exact exec_atomic_completes rfl hpad r hv herr hcap (Context.run_ecb rfl rfl hx) (ecbBlocks_chunks_length hB hE hx)
    | dec =>
      exact exec_atomic_completes rfl hpad r hv herr hcap (Context.run_ecb rfl rfl hx) (ecbBlocks_chunks_length hB hD hx)
  | cbc =>
    have hx := hwhole (.inr rfl)
    have hiv : s.args.iv.length = B := by simpa [paramsOk] using r.params
    have herr : atomicError .cbc d a s.args s.input.length = none := if_neg (not_not.mpr hx)
    cases d with
    | enc =>
      exact exec_atomic_completes rfl hpad r hv herr hcap (Context.run_cbc rfl rfl hx)
        (cbcEncBlocks_chunks_length hB hE _ hx)
    | dec =>
      exact exec_atomic_completes rfl hpad r hv herr hcap (Context.run_cbc rfl rfl hx)
        (cbcDecBlocks_chunks_length hB hD hiv hx)
  | cbcPad =>
    cases d with
    | enc =>
      have hlen : (pad s.input B).length = n := pad_length hB s.input
      refine exec_atomic_completes rfl hpad r hv rfl hcap (Context.run_cbcPad_enc rfl rfl rfl s.input) ?_
      exact (cbcEncBlocks_chunks_length hB hE _ (hlen ▸ Nat.mul_mod_left _ _)).trans hlen
    | dec => exact absurd ⟨rfl, rfl⟩ hpad
  | cfb =>
    exact exec_atomic_completes rfl hpad r hv rfl hcap (run_initContext_stream (.inl rfl) d a s.args s.input) hstream
  | ctr =>
    exact exec_atomic_completes rfl hpad r hv rfl hcap (run_initContext_stream (.inr rfl) d a s.args s.input) hstream
  | ccm | gcm | gmac => cases haead

end Sys2Proof.Machine
end

section
/-! SUPPORT. The jobs of a command in flight (O52). -/

namespace Sys2Proof.Machine

/-! ### Jobs and the roll-over of the counter -/

/-- Jobs of counter blocks, taken in order from a counter of value `v`: none runs the counter, which counts modulo `M`, past
a roll-over (40 R171). -/
def NoRollOver (M v : Nat) (jobs : List Nat) : Prop :=
  ∀ before job after, jobs = before ++ job :: after → (v + before.sum) % M + job ≤ M

theorem noRollOver_nil (M v : Nat) : NoRollOver M v [] := by simp [NoRollOver]

theorem noRollOver_cons {M v n : Nat} {jobs : List Nat} :
    NoRollOver M v (n :: jobs) ↔ v % M + n ≤ M ∧ NoRollOver M (v + n) jobs := by
  constructor
  · intro h
    refine ⟨h [] n jobs rfl, fun before job after hj => ?_⟩
    have := h (n :: before) job after (by rw [hj, List.cons_append])
    rwa [List.sum_cons, ← Nat.add_assoc] at this
  · rintro ⟨hn, h⟩ before job after hj
    cases before with
    | nil =>
      cases hj
      exact hn
    | cons b before =>
      rw [List.cons_append, List.cons.injEq] at hj
      obtain ⟨rfl, hj⟩ := hj
      rw [List.sum_cons, ← Nat.add_assoc]
      exact h before job after hj

theorem NoRollOver.append {M v : Nat} {xs ys : List Nat} (hx : NoRollOver M v xs) (hy : NoRollOver M (v + xs.sum) ys) :
    NoRollOver M v (xs ++ ys) := by
  induction xs generalizing v with
  | nil => exact hy
  | cons x xs ih =>
    obtain ⟨h1, h2⟩ := noRollOver_cons.mp hx
    rw [List.sum_cons, ← Nat.add_assoc] at hy
    exact noRollOver_cons.mpr ⟨h1, ih h2 hy⟩

/-- Jobs that all fit before the roll-over. -/
theorem noRollOver_of_sum_le {M v : Nat} {jobs : List Nat} (h : v % M + jobs.sum ≤ M) : NoRollOver M v jobs := by
  rintro before job after rfl
  rw [List.sum_append, List.sum_cons] at h
  have hmod : (v + before.sum) % M ≤ v % M + before.sum := by
    rw [← Nat.mod_add_mod]
    exact Nat.mod_le _ _
  omega

/-- Splitting jobs further runs no counter past a roll-over. -/
theorem NoRollOver.split {M v : Nat} {runs : List Nat} (h : NoRollOver M v runs) (cap : Nat) :
    NoRollOver M v (runs.flatMap (splitJobs cap)) := by
  induction runs generalizing v with
  | nil => exact noRollOver_nil M v
  | cons n runs ih =>
    obtain ⟨h1, h2⟩ := noRollOver_cons.mp h
    rw [← splitJobs_sum cap n] at h1 h2
    exact (noRollOver_of_sum_le h1).append (ih h2)

/-- Splitting jobs further keeps the blocks they cover. -/
theorem sum_flatMap_splitJobs (cap : Nat) (runs : List Nat) : (runs.flatMap (splitJobs cap)).sum = runs.sum := by
  induction runs with
  | nil => rfl
  | cons n runs ih => rw [List.flatMap_cons, List.sum_append, splitJobs_sum, ih, List.sum_cons]

/-- From a roll-over on, runs of a whole period each and then the rest. -/
theorem noRollOver_splitJobs {M v : Nat} (hM : 0 < M) (hv : v % M = 0) (n : Nat) : NoRollOver M v (splitJobs M n) := by
  have whole (k : Nat) : NoRollOver M v (List.replicate k M) := by
    induction k generalizing v with
    | zero => exact noRollOver_nil M v
    | succ k ih => exact noRollOver_cons.mpr ⟨by omega, ih (by rw [Nat.add_mod_right, hv])⟩
  refine (whole _).append (noRollOver_of_sum_le ?_)
  have hrest : (if n % M = 0 then [] else [n % M]).sum = n % M := by split <;> simp [*]
  have hlt := Nat.mod_lt n hM
  rw [hrest, List.sum_replicate, smul_eq_mul, Nat.add_mul_mod_self_right, hv]
  omega

/-- The runs of `n` counter blocks from a counter of value `v` between roll-overs: to the first roll-over, then a period
each, then the rest (40 R171). -/
def counterRuns (M v n : Nat) : List Nat :=
  if n ≤ M - v % M then [n] else (M - v % M) :: splitJobs M (n - (M - v % M))

theorem counterRuns_sum (M v n : Nat) : (counterRuns M v n).sum = n := by
  unfold counterRuns
  split
  · exact List.sum_singleton
  · rw [List.sum_cons, splitJobs_sum]
    omega

theorem noRollOver_counterRuns {M : Nat} (hM : 0 < M) (v n : Nat) : NoRollOver M v (counterRuns M v n) := by
  have hlt := Nat.mod_lt v hM
  unfold counterRuns
  split
  · exact noRollOver_cons.mpr ⟨by omega, noRollOver_nil M _⟩
  · refine noRollOver_cons.mpr ⟨by omega, noRollOver_splitJobs hM ?_ _⟩
    rw [← Nat.mod_add_mod, Nat.add_sub_cancel' hlt.le, Nat.mod_self]

/-- CTR's jobs are the runs between roll-overs, split by the cap (40 R171, R172). -/
theorem splitCtrJobs_eq (cap cb n : Nat) (ctr : Bytes) :
    splitCtrJobs cap cb ctr n = (counterRuns (2 ^ cb) (beInt ctr) n).flatMap (splitJobs cap) := by
  unfold splitCtrJobs counterRuns
  dsimp only
  split <;> simp

theorem splitCtrJobs_sum (cap cb n : Nat) (ctr : Bytes) : (splitCtrJobs cap cb ctr n).sum = n := by
  rw [splitCtrJobs_eq, sum_flatMap_splitJobs, counterRuns_sum]

theorem noRollOver_splitCtrJobs (cap cb n : Nat) (ctr : Bytes) :
    NoRollOver (2 ^ cb) (beInt ctr) (splitCtrJobs cap cb ctr n) := by
  rw [splitCtrJobs_eq]
  exact (noRollOver_counterRuns (Nat.two_pow_pos cb) _ n).split cap

/-! ### The jobs of the command just issued -/

section

variable {s t : State} {h : Handle} {f : InFlight}

/-- No command in flight has the next issue number. -/
theorem State.Inv.id_ne_issued (hs : s.Inv) (hf : s.lookup h = some (.busy f)) : f.id ≠ s.issued :=
  (hs.busy_ok hf).id_lt.ne

/-- The command just launched is in flight with all its jobs left. -/
theorem State.Inv.jobsLeft_of_launch (hs : s.Inv) {i : Instr} {k : Handle} {snapshot : Option Context} {inV outV : View}
    {jobs : List Nat} {r : Commit} (hf : (s.launch i k snapshot inV outV jobs r).lookup h = some (.busy f))
    (hid : f.id = s.issued) : f.jobsLeft = jobs := by
  by_cases hk : h = k
  · subst hk
    unfold State.launch at hf
    split at hf
    · exact absurd hf (State.not_busy_finish f)
    · cases (State.lookup_put_same s.accept h _).symm.trans hf
      rfl
  · rw [State.lookup_launch_ne hk] at hf
    exact absurd hid (hs.id_ne_issued hf)

/-- What is in flight after a terminal status was so before. -/
theorem State.Inv.id_ne_issued_of_raiseTerminal (hs : s.Inv) {st : Status}
    (hf : (s.raiseTerminal st).lookup h = some (.busy f)) : f.id ≠ s.issued := by
  by_cases hk : h = s.args.handle
  · rw [hk, show (s.raiseTerminal st).lookup s.args.handle = none from State.lookup_drop_same s _] at hf
    cases hf
  · rw [State.lookup_raiseTerminal_ne hk] at hf
    exact hs.id_ne_issued hf

/-- What a command that went in flight has: jobs within the cap, and operand checks that passed. -/
structure WentInFlight (s : State) (op : Op) (m : Mode) (d : Dir) (a : Alg) (jobs : List Nat) : Prop where
  jobs_ok : JobsOk s a jobs
  update : op = .update → ∃ c, Ready s s.args.inView c m d a
  atomic : op = .atomic → s.viewRefusal s.args.inView s.args.outView = none ∧ ∃ k, s.initChecks m a = .ok k

theorem exec_wentInFlight (hs : s.Inv) {op : Op} {m : Mode} {d : Dir} {a : Alg}
    (ht : exec (instrOf op m d a) s = .next t) (hf : t.lookup h = some (.busy f)) (hid : f.id = s.issued) :
    WentInFlight s op m d a f.jobsLeft := by
  have hsh := exec_shape op m d a s
  generalize instrOf op m d a = i at ht hsh
  rw [ht] at hsh
  generalize hR : (Host.Outcome.next t : Result) = R at hsh
  cases hsh with
  | refused => cases hR
  | answered =>
    cases hR
    exact absurd hid (hs.id_ne_issued hf)
  | terminal =>
    cases hR
    exact absurd hid (hs.id_ne_issued_of_raiseTerminal hf)
  | init hop k jobs hk hjobs =>
    cases hR
    rw [hs.jobsLeft_of_launch hf hid]
    exact ⟨hjobs, by simp [hop], by simp [hop]⟩
  | update c c' out jobs hop hr _ _ _ hjobs =>
    cases hR
    rw [hs.jobsLeft_of_launch hf hid]
    exact ⟨hjobs, fun _ => ⟨c, hr⟩, by simp [hop]⟩
  | final c r jobs hop _ _ hjobs =>
    cases hR
    rw [hs.jobsLeft_of_launch hf hid]
    exact ⟨hjobs, by simp [hop], by simp [hop]⟩
  | atomic k r jobs hop hv hk _ hjobs =>
    cases hR
    rw [hs.jobsLeft_of_launch hf hid]
    exact ⟨hjobs, by simp [hop], fun _ => ⟨hv, k, hk⟩⟩

/-- An UPDATE of CFB or CTR in flight has the jobs of its missing keystream (40 R171, R172). -/
theorem jobsLeft_of_update_stream (hs : s.Inv) {c : Context} {m : Mode} {d : Dir} {a : Alg} (hm : m = .cfb ∨ m = .ctr)
    (r : Ready s s.args.inView c m d a) (ht : exec (instrOf .update m d a) s = .next t)
    (hf : t.lookup h = some (.busy f)) (hid : f.id = s.issued) : f.jobsLeft = streamJobs s c s.input.length := by
  rw [exec_update_stream hm r] at ht
  split at ht <;> cases ht
  · exact absurd hid (hs.id_ne_issued hf)
  · exact hs.jobsLeft_of_launch hf hid

/-- What an ATOMIC of CTR does once its views and INIT's checks have passed (40 R216). -/
theorem exec_atomic_ctr_of_initChecks {d : Dir} {a : Alg} {k : Handle}
    (hv : s.viewRefusal s.args.inView s.args.outView = none) (hk : s.initChecks .ctr a = .ok k) :
    exec (instrOf .atomic .ctr d a) s =
      if s.cap < s.input.length then .next (s.tooSmall s.input.length)
      else s.runAtomic (instrOf .atomic .ctr d a) k
        (streamJobs s (initContext Prim.external .ctr d a s.args) s.input.length) (atomicCommit .ctr d a s) := by
  rw [exec_atomic_ctr]
  simp only [atomicStream, onAtomic, hv, hk]
  rfl

/-- An ATOMIC of CTR in flight has the jobs of its whole keystream (40 R171, R172). -/
theorem jobsLeft_of_atomic_ctr (hs : s.Inv) {d : Dir} {a : Alg} {k : Handle}
    (hv : s.viewRefusal s.args.inView s.args.outView = none) (hk : s.initChecks .ctr a = .ok k)
    (ht : exec (instrOf .atomic .ctr d a) s = .next t) (hf : t.lookup h = some (.busy f)) (hid : f.id = s.issued) :
    f.jobsLeft = streamJobs s (initContext Prim.external .ctr d a s.args) s.input.length := by
  rw [exec_atomic_ctr_of_initChecks hv hk] at ht
  split at ht <;> cases ht
  · exact absurd hid (hs.id_ne_issued hf)
  · exact hs.jobsLeft_of_launch hf hid

end

/-- The jobs of a CTR command on a context. -/
theorem streamJobs_of_ctr (s : State) {c : Context} (hm : c.mode = .ctr) (n : Nat) :
    streamJobs s c n = splitCtrJobs (s.jobBlocks c.B) c.counterBits c.iv (ceilDiv (n - c.lbPad) c.B) := by
  simp [streamJobs, streamUses, hm]

/-- A job of the most blocks it may cover is within MAX_XFER, which holds a block of any algorithm (00 R14). -/
theorem jobBlocks_mul_le {s : State} (hs : s.Inv) (a : Alg) :
    s.jobBlocks (blockSize a) * blockSize a ≤ s.config.maxXfer := by
  have hxfer : 16 ≤ s.config.maxXfer := by
    have hcfg := hs.config_ok
    simp only [configValid, Bool.and_eq_true, decide_eq_true_eq] at hcfg
    exact hcfg.1.2
  have hone : 1 ≤ s.config.maxXfer / blockSize a :=
    Nat.div_pos ((blockSize_le_16 a).trans hxfer) (blockSize_pos a)
  rw [State.jobBlocks, Nat.max_eq_right hone]
  exact Nat.div_mul_le_self _ _

/-- Settles O52: what went in flight has the jobs it was launched with, which a split made: within the cap, and for CTR
within the runs between roll-overs. -/
theorem jobsWithinLimits : Obligations.JobsWithinLimits := by
  unfold Obligations.JobsWithinLimits
  refine ⟨fun s t i h f op m d a hs ht hf hid hi n hn => ?_, fun s t h f c d a hs ht hf hid hl => ?_,
    fun s t h f d a hs ht hf hid => ?_, fun cap cb n ctr hcap => ?_⟩
  · rw [instrOf_of_parts hi] at ht
    obtain ⟨h1, hle⟩ := (exec_wentInFlight hs ht hf hid).jobs_ok n hn
    exact ⟨h1, (Nat.mul_le_mul_right _ hle).trans (jobBlocks_mul_le hs a)⟩
  · obtain ⟨c', r⟩ := (exec_wentInFlight hs ht hf hid).update rfl
    cases hl.symm.trans r.active
    rw [jobsLeft_of_update_stream hs (.inr rfl) r ht hf hid, streamJobs_of_ctr s r.mode]
    exact ⟨splitCtrJobs_sum _ _ _ _, noRollOver_splitCtrJobs _ _ _ _⟩
  · obtain ⟨hv, k, hk⟩ := (exec_wentInFlight hs ht hf hid).atomic rfl
    rw [jobsLeft_of_atomic_ctr hs hv hk ht hf hid, streamJobs_of_ctr s rfl]
    exact ⟨splitCtrJobs_sum _ _ _ _, noRollOver_splitCtrJobs _ _ _ _⟩
  · refine ⟨splitCtrJobs_sum cap cb n ctr, fun before job after hj => ?_⟩
    obtain ⟨h1, hle⟩ := mem_splitCtrJobs (cb := cb) (n := n) (ctr := ctr) hcap (show job ∈ _ by rw [hj]; simp)
    exact ⟨h1, hle, noRollOver_splitCtrJobs cap cb n ctr before job after hj⟩

end Sys2Proof.Machine
end

section
/-! SUPPORT. CBC_PAD: unpadding (O58), UPDATE of decryption (O22), and FINAL (O34, O35). -/

namespace Sys2Proof.Machine

/-! ### Padding -/

/-- Whole blocks whose pad byte is in range lose as many bytes as it says (41 R252). -/
theorem unpad_of_padByteOk {B : Nat} {x : Bytes} (hmod : x.length % B = 0) (hle : B ≤ x.length)
    (hpad : padByteOk (padByte x) B = true) : unpad x B = some (x.take (x.length - padByte x)) := by
  unfold unpad
  rw [if_neg (by omega), if_pos hpad]

/-- Settles O58: a padded string is whole blocks, and its last byte names how many bytes were appended. -/
theorem unpadInvertsPad : Obligations.UnpadInvertsPad := by
  unfold Obligations.UnpadInvertsPad
  intro P B hB hB'
  have hlen := pad_length hB P
  have hbyte := padByte_pad hB hB' P
  have hrange : padByteOk (padByte (pad P B)) B = true := by
    have hmod := Nat.mod_lt P.length hB
    simp only [padByteOk, hbyte, Bool.and_eq_true, decide_eq_true_eq]
    omega
  rw [unpad_of_padByteOk (hlen ▸ Nat.mul_mod_left _ _) (hlen ▸ Nat.le_mul_of_pos_left _ (Nat.succ_pos _)) hrange, hbyte,
    take_pad]

/-! ### UPDATE of decryption -/

/-- The block held is a block (10 R51). -/
theorem Context.Ok.held_length {c : Context} (hok : c.Ok) : c.held.length = if c.heldValid then c.B else 0 := by
  cases hv : c.heldValid with
  | false => simp [Context.held, hv]
  | true => simpa [Context.held, hv] using hok.held_block hv

/-- The required size of an UPDATE of CBC_PAD decryption: the block held, and every block completed but the last (41 R257). -/
theorem Context.Ok.updateNeed_cbcPad_dec {c : Context} (hok : c.Ok) (hm : c.mode = .cbcPad) (hd : c.dir = .dec)
    (x : Bytes) :
    c.updateNeed x.length =
      if (c.residue ++ x).length / c.B = 0 then 0
      else c.held.length + ((c.residue ++ x).length / c.B - 1) * c.B := by
  simp only [Context.updateNeed, hm, hd, hok.held_length, List.length_append]

/-- An UPDATE of CBC_PAD decryption that completes no block only keeps its input (41 R255). -/
theorem cbcPadDecUpdate_of_noBlock {c : Context} (hok : c.Ok) (hd : c.dir = .dec) {x : Bytes}
    (hn : (c.residue ++ x).length / c.B = 0) :
    cbcPadDecUpdate Prim.external c x = ([], { c with residue := c.residue ++ x }) := by
  have hupd := cbcUpdate_eq hok x .dec hd
  simp only [hn, Nat.zero_mul, List.take_zero, List.drop_zero, if_true, chunks_nil c.B_pos, cbcDecBlocks] at hupd
  rw [cbcPadDecUpdate_of_nil (congrArg Prod.fst hupd), hupd]

/-- An UPDATE of CBC_PAD decryption that completes a block emits the block held and all it decrypts but the last block, which
it holds (41 R255, R256). -/
theorem cbcPadDecUpdate_of_blocks {c : Context} (hok : c.Ok) (hm : c.mode = .cbcPad) (hd : c.dir = .dec) {x : Bytes}
    (hn : 0 < (c.residue ++ x).length / c.B) :
    let data := c.residue ++ x
    let n := data.length / c.B
    let y := (cbcDecBlocks (decryptBlock c.ks) c.iv (chunks c.B (data.take (n * c.B)))).1
    cbcPadDecUpdate Prim.external c x =
      (c.held ++ y.take ((n - 1) * c.B),
        { c with
          residue := data.drop (n * c.B), iv := (data.take (n * c.B)).drop ((n - 1) * c.B)
          lastBlock := y.drop ((n - 1) * c.B), heldValid := true }) := by
  intro data n y
  have hpos : 0 < n * c.B := Nat.mul_pos hn c.B_pos
  have hlast : n * c.B - c.B = (n - 1) * c.B := (Nat.sub_one_mul n c.B).symm
  have hupd := cbcUpdate_eq hok x .dec hd
  have hlen : (cbcUpdate Prim.external c x).1.length = n * c.B := by
    rw [cbcUpdate_length hok (by simp [hm]), ← List.length_append]
  rw [cbcPadDecUpdate_of_ne_nil (List.ne_nil_of_length_pos (hlen ▸ hpos)), hlen, hlast, hupd]
  dsimp only
  rw [if_neg hpos.ne', hlast]
  rfl

/-- Settles O22: an UPDATE commits what the context's own UPDATE gives, which holds its last block back if it completes one. -/
theorem updateCbcPadDec : Obligations.UpdateCbcPadDec := by
  unfold Obligations.UpdateCbcPadDec
  intro s c a r hok data n Xs y held
  have hneed := hok.updateNeed_cbcPad_dec r.mode r.dir s.input
  have hupd := Context.update_cbcPad_dec r.mode r.dir s.input
  refine ⟨fun hn => ?_, fun hn hcap => ?_⟩
  · rw [if_pos hn] at hneed
    rw [cbcPadDecUpdate_of_noBlock hok r.dir hn] at hupd
    have h := exec_update_completes rfl r hok hupd (hneed.trans_le (Nat.zero_le _))
    rwa [hneed] at h
  · rw [if_neg hn.ne'] at hneed
    rw [cbcPadDecUpdate_of_blocks hok r.mode r.dir hn] at hupd
    have h := exec_update_completes rfl r hok hupd (hneed.trans_le hcap)
    rwa [hneed] at h

/-! ### FINAL of encryption -/

/-- FINAL of CBC_PAD encryption encrypts one block, the padded residue (41 R251, R264). -/
theorem Context.Ok.final_cbcPad_enc {c : Context} (hok : c.Ok) (hm : c.mode = .cbcPad) (hd : c.dir = .enc) :
    c.final = .ok (encryptBlock c.ks (xorBytes (c.residue ++ List.replicate (c.B - c.residue.length)
      (BitVec.ofNat 8 (c.B - c.residue.length))) c.iv)) := by
  have hlt := hok.residue_lt
  have hpad : pad c.residue c.B =
      c.residue ++ List.replicate (c.B - c.residue.length) (BitVec.ofNat 8 (c.B - c.residue.length)) := by
    rw [pad, Nat.mod_eq_of_lt hlt]
  have hlen : (pad c.residue c.B).length = c.B := by
    rw [pad_length c.B_pos, Nat.div_eq_of_lt hlt, Nat.zero_add, Nat.one_mul]
  have hblock : chunks c.B (pad c.residue c.B) = [pad c.residue c.B] :=
    chunks_of_length_le c.B_pos (List.ne_nil_of_length_pos (c.B_pos.trans_eq hlen.symm)) hlen.le
  rw [Context.final_cbcPad_enc hm hd, hblock, hpad, cbcEncBlocks, cbcEncBlocks, List.append_nil]

/-- Settles O34: FINAL commits what the context's own FINAL gives, one block. -/
theorem finalCbcPadEnc : Obligations.FinalCbcPadEnc := by
  unfold Obligations.FinalCbcPadEnc
  intro s c a r hok hcap pl
  obtain ⟨-, hfinal⟩ := commandsFollowRun
  have h := hfinal s c .cbcPad .enc a _ r hok (hok.final_cbcPad_enc r.mode r.dir) ((hok.E_length _).trans_le hcap)
  rwa [hok.E_length] at h

/-! ### FINAL of decryption -/

/-- A FINAL whose length check fails ends the context with its status (44 R474). -/
theorem exec_final_of_error {s : State} {c : Context} {m : Mode} {d : Dir} {a : Alg} (r : Ready s [] c m d a)
    {st : Status} (he : c.finalError = some st) : exec (instrOf .final m d a) s = .next (s.raiseTerminal st) := by
  obtain ⟨jobs, hexec, -⟩ := exec_final_eq r
  rw [hexec, he]

/-- A FINAL past its length check with too little capacity reports the required size (44 R472). -/
theorem exec_final_of_tooSmall {s : State} {c : Context} {m : Mode} {d : Dir} {a : Alg} (r : Ready s [] c m d a)
    (he : c.finalError = none) (hcap : s.cap < c.finalNeed) :
    exec (instrOf .final m d a) s = .next (s.tooSmall c.finalNeed) := by
  obtain ⟨jobs, hexec, -⟩ := exec_final_eq r
  rw [hexec, he]
  exact if_pos hcap

/-- An answer on an ACTIVE context leaves it ACTIVE, and has no other effect. -/
theorem Answered.after {s t : State} {st : Status} {n : Nat} (ht : Answered s st n t) {h : Handle} {c : Context}
    (hl : s.lookup h = some (.active c)) : After s { handle := h, ctx := some c, status := st, size := n } t := by
  have hlookup (k : Handle) : t.lookup k = s.lookup k := congrArg (Assoc.get k) ht.table
  exact
    { slot := (hlookup h).trans hl, others := fun k _ => hlookup k, report := ht.report, issued := ht.issued
      mem := by rw [ht.mem]; cases View.addrs s.args.outView <;> rfl
      config := ht.config, jobs := ht.jobs, events := ht.events, free := ht.free, args := ht.args
      known := fun k hk => ht.known ▸ hk, returned := fun k hk => by cases hk
      learned := fun k hk => .inl (ht.known ▸ hk) }

/-- The data condition and the pad check of FINAL of CBC_PAD decryption (41 R258). -/
theorem Context.finalError_cbcPad_dec {c : Context} (hm : c.mode = .cbcPad) (hd : c.dir = .dec) :
    c.finalError =
      if c.residue ≠ [] ∨ c.heldValid = false ∨ padByte c.lastBlock < 1 ∨ c.B < padByte c.lastBlock then
        some .encryptedDataLenRange
      else none := by
  simp only [Context.finalError, hm, hd]

/-- The required size of FINAL of CBC_PAD decryption, the held block without its pad (41 R258). -/
theorem Context.finalNeed_cbcPad_dec {c : Context} (hm : c.mode = .cbcPad) (hd : c.dir = .dec) :
    c.finalNeed = c.B - padByte c.lastBlock := by
  simp only [Context.finalNeed, hm, hd]

/-- FINAL of CBC_PAD decryption past its checks submits no job and emits the held block without its pad (41 R258, R265). -/
theorem exec_finalCbcPadDec_of_fits {s : State} {c : Context} {a : Alg} (r : Ready s [] c .cbcPad .dec a)
    (he : c.finalError = none) (hcap : c.B - padByte c.lastBlock ≤ s.cap) :
    exec (.finalCbcPadDec a) s =
      s.runFinal (.finalCbcPadDec a) c [] (.consume (c.lastBlock.take (c.B - padByte c.lastBlock))) := by
  have hcommit : c.finalCommit = .consume (c.lastBlock.take (c.B - padByte c.lastBlock)) := by
    simp only [Context.finalCommit, r.mode, r.dir]
  obtain ⟨jobs, hexec, hjobs⟩ := exec_final_eq r
  rw [he, Context.finalNeed_cbcPad_dec r.mode r.dir, hcommit, hjobs (by simp)] at hexec
  exact hexec.trans (if_neg (Nat.not_lt.mpr hcap))

/-- Settles O35: the data condition and the pad check are FINAL's length check; past it the capacity decides, and there is no
job to wait for. -/
theorem finalCbcPadDec : Obligations.FinalCbcPadDec := by
  unfold Obligations.FinalCbcPadDec
  intro s c a r pl answers ok
  have herror := Context.finalError_cbcPad_dec r.mode r.dir
  have hnone (hk : ok) (h1 : 1 ≤ padByte c.lastBlock) (hB : padByte c.lastBlock ≤ c.B) : c.finalError = none := by
    obtain ⟨hres, hheld⟩ := hk
    exact herror.trans (if_neg (not_or.mpr ⟨not_not.mpr hres, not_or.mpr ⟨by simp [hheld], by omega⟩⟩))
  have hfails (he : c.finalError = some .encryptedDataLenRange) :
      answers { handle := s.args.handle, ctx := none, status := .encryptedDataLenRange, size := 0 } :=
    ⟨_, exec_final_of_error r he, raiseTerminal_after⟩
  refine ⟨fun hk => hfails (herror.trans (if_pos ?_)), fun _ hpad => hfails (herror.trans (if_pos (.inr (.inr hpad)))),
    fun hk h1 hB hcap => ?_, fun hk h1 hB hcap hlen => ?_⟩
  · by_contra h
    simp only [not_or, not_not, Bool.not_eq_false] at h
    obtain ⟨hres, hheld, -, -⟩ := h
    exact hk ⟨hres, hheld⟩
  · have hneed : c.finalNeed = c.B - pl := Context.finalNeed_cbcPad_dec r.mode r.dir
    rw [← hneed] at hcap ⊢
    exact ⟨_, exec_final_of_tooSmall r (hnone hk h1 hB) hcap, answer_answered.after r.active⟩
  · have hout : (c.lastBlock.take (c.B - pl)).length = c.B - pl :=
      List.length_take_of_le (hlen.symm ▸ Nat.sub_le _ _)
    have hafter := runFinal_after (s := s) (i := .finalCbcPadDec a) (c := c) (out := c.lastBlock.take (c.B - pl))
    rw [hout] at hafter
    obtain ⟨t, ht, ha⟩ := hafter
    exact ⟨t, (exec_finalCbcPadDec_of_fits r (hnone hk h1 hB) hcap).trans ht, ha⟩

end Sys2Proof.Machine
end

section
/-! SUPPORT. Counter mode over blocks, and what an authenticated mode seals and opens, in closed form (O18, O26, O28, O36,
O37, O46, O56). -/

namespace Sys2Proof.Machine

/-! ### Counter mode -/

/-- The blocks of a string XORed with E of the counter, which is incremented from block to block (42 R305, 43 R391). -/
def ctrMask (E : Bytes → Bytes) (cb : Nat) (ctr : Bytes) (Xs : List Bytes) : List Bytes :=
  Xs.zipIdx.map fun e => xorBytes e.1 (E ((inc · cb)^[e.2] ctr))

section

variable {E : Bytes → Bytes} (cb : Nat) (ctr : Bytes)

@[simp] theorem ctrMask_nil : ctrMask E cb ctr [] = [] := rfl

theorem ctrMask_cons (X : Bytes) (Xs : List Bytes) :
    ctrMask E cb ctr (X :: Xs) = xorBytes X (E ctr) :: ctrMask E cb (inc ctr cb) Xs := by
  rw [ctrMask, List.zipIdx_cons, Nat.zero_add, List.map_cons, List.zipIdx_succ, List.map_map]
  rfl

theorem ctrMask_append (Xs Ys : List Bytes) :
    ctrMask E cb ctr (Xs ++ Ys) = ctrMask E cb ctr Xs ++ ctrMask E cb ((inc · cb)^[Xs.length] ctr) Ys := by
  induction Xs generalizing ctr with
  | nil => rfl
  | cons X Xs ih =>
    rw [List.cons_append, ctrMask_cons, ctrMask_cons, ih, List.length_cons, Function.iterate_succ_apply,
      List.cons_append]

variable (hE : ∀ X, (E X).length = 16)
include hE

/-- Masking twice with the same counters gives the blocks back. -/
theorem ctrMask_ctrMask {Xs : List Bytes} (hX : ∀ X ∈ Xs, X.length ≤ 16) :
    ctrMask E cb ctr (ctrMask E cb ctr Xs) = Xs := by
  induction Xs generalizing ctr with
  | nil => rfl
  | cons X Xs ih =>
    rw [ctrMask_cons, ctrMask_cons, xorBytes_xorBytes (by rw [hE]; exact hX X (by simp)),
      ih _ fun Y hY => hX Y (by simp [hY])]

theorem ctrMask_flatten_length (x : Bytes) : (ctrMask E cb ctr (chunks 16 x)).flatten.length = x.length :=
  ctrBlocks_flatten_length hE x fun k => (inc · cb)^[k] ctr

/-- Masking keeps the borders of the blocks. -/
theorem chunks_ctrMask_flatten (x : Bytes) :
    chunks 16 (ctrMask E cb ctr (chunks 16 x)).flatten = ctrMask E cb ctr (chunks 16 x) := by
  have hB : 0 < 16 := by decide
  induction x using chunks_induction hB generalizing ctr with
  | nil => simp [chunks_nil hB]
  | step x hx ih =>
    have hY : (xorBytes (x.take 16) (E ctr)).length = min 16 x.length := by simp [hE]
    rw [chunks_step hB hx, ctrMask_cons, List.flatten_cons]
    rcases Nat.lt_or_ge x.length 16 with hlt | hle
    · rw [Nat.min_eq_right hlt.le] at hY
      rw [List.drop_of_length_le hlt.le, chunks_nil hB, ctrMask_nil, List.flatten_nil, List.append_nil,
        chunks_of_length_le hB (List.ne_nil_of_length_pos (hY ▸ List.length_pos_iff.mpr hx)) (hY.trans_le hlt.le)]
    · rw [Nat.min_eq_left hle] at hY
      rw [chunks_block_append hB hY, ih]

end

/-- Less than a block is one partial block, or none. -/
theorem ctrMask_chunks_of_lt {x : Bytes} (hx : x.length < 16) (E : Bytes → Bytes) (cb : Nat) (ctr : Bytes) :
    (ctrMask E cb ctr (chunks 16 x)).flatten = xorBytes x (E ctr) := by
  by_cases hnil : x = []
  · subst hnil
    rfl
  · rw [chunks_of_length_le (by decide) hnil hx.le, ctrMask_cons, ctrMask_nil, List.flatten_cons, List.flatten_nil,
      List.append_nil]

/-! ### The tags -/

theorem xorBytes_comm (a b : Bytes) : xorBytes a b = xorBytes b a := by
  rw [xorBytes, List.zipWith_comm, xorBytes]
  congr 1
  funext x y
  exact BitVec.xor_comm y x

theorem pad0_of_length_eq {X : Bytes} {n : Nat} (h : X.length = n) : pad0 X n = X := by
  rw [pad0, h, Nat.sub_self]
  exact List.append_nil X

/-- CCM's MAC goes on over the blocks of a string, the last of which may be partial (42 R306, R310). -/
def ccmMac (E : Bytes → Bytes) (acc : Bytes) (Ps : List Bytes) : Bytes :=
  Ps.foldl (fun v P => E (xorBytes v (pad0 P 16))) acc

/-- On whole blocks CCM's MAC is the CBC-MAC (40 R174). -/
theorem ccmMac_of_whole (E : Bytes → Bytes) {acc : Bytes} {Xs : List Bytes} (hX : ∀ X ∈ Xs, X.length = 16) :
    ccmMac E acc Xs = cbcMac E acc Xs := by
  refine List.foldl_ext _ _ _ fun v X hmem => ?_
  rw [pad0_of_length_eq (hX X hmem), xorBytes_comm]

theorem ccmMac_length {E : Bytes → Bytes} (hE : ∀ X, (E X).length = 16) {acc : Bytes} (ha : acc.length = 16)
    (Ps : List Bytes) : (ccmMac E acc Ps).length = 16 := by
  induction Ps generalizing acc with
  | nil => exact ha
  | cons P Ps ih => exact ih (hE _)

/-- Less than a block adds one padded block to CCM's MAC, or none. -/
theorem ccmMac_chunks_of_lt {x : Bytes} (hx : x.length < 16) (E : Bytes → Bytes) (acc : Bytes) :
    ccmMac E acc (chunks 16 x) = if x = [] then acc else E (xorBytes acc (pad0 x 16)) := by
  by_cases hnil : x = []
  · subst hnil
    rfl
  · rw [chunks_of_length_le (by decide) hnil hx.le, if_neg hnil]
    rfl

/-- The input masked with the context's keystream. -/
def Context.masked (c : Context) (x : Bytes) : List Bytes :=
  ctrMask (encryptBlock c.ks) c.counterBits c.iv (chunks 16 x)

/-- The tag of an authenticated mode: over the plaintext in CCM, over the ciphertext in GCM and GMAC (42 R307, 43 R390). -/
def Context.aeadTag (c : Context) (plain : List Bytes) (cipher : Bytes) : Bytes :=
  let E := encryptBlock c.ks
  let S :=
    if c.mode = .ccm then ccmMac E c.acc plain
    else ghash c.hashKey (ghash c.hashKey c.acc cipher) (gcmLengthBlock c.aadLen cipher.length)
  (xorBytes (E c.ctr0) S).take c.tagLen

theorem Context.aeadTag_ccm {c : Context} (hm : c.mode = .ccm) (plain : List Bytes) (cipher : Bytes) :
    c.aeadTag plain cipher = ccmTag (encryptBlock c.ks) c.ctr0 (ccmMac (encryptBlock c.ks) c.acc plain) c.tagLen := by
  simp only [aeadTag, hm, if_true]
  rfl

theorem Context.aeadTag_of_ne_ccm {c : Context} (hm : c.mode ≠ .ccm) (plain : List Bytes) (cipher : Bytes) :
    c.aeadTag plain cipher =
      gcmTag (encryptBlock c.ks) c.hashKey c.ctr0 (ghash c.hashKey c.acc cipher) c.aadLen cipher.length c.tagLen := by
  simp only [aeadTag, if_neg hm]
  rfl

section

variable {c : Context} (hok : c.Ok) (ha : aeadMode c.mode = true)
include hok ha

theorem Context.Ok.E_length_aead (X : Bytes) : (encryptBlock c.ks X).length = 16 :=
  (hok.E_length X).trans (hok.aead_blocks ha).1

theorem Context.Ok.masked_flatten_length (x : Bytes) : (c.masked x).flatten.length = x.length :=
  ctrMask_flatten_length _ _ (hok.E_length_aead ha) x

/-- Masking the masked input gives the input's blocks back (70 R613). -/
theorem Context.Ok.masked_masked (x : Bytes) : c.masked (c.masked x).flatten = chunks 16 x := by
  have hE := hok.E_length_aead ha
  unfold masked
  rw [chunks_ctrMask_flatten _ _ hE,
    ctrMask_ctrMask _ _ hE fun X hX => (length_mem_chunks_le (by decide) hX).2]

/-- A tag has tag_len bytes (42 R307, 43 R390). -/
theorem Context.Ok.aeadTag_length (plain : List Bytes) (cipher : Bytes) :
    (c.aeadTag plain cipher).length = c.tagLen := by
  obtain ⟨-, hacc, -⟩ := hok.aead_blocks ha
  obtain ⟨-, htag⟩ := hok.tag_range ha
  have hE := hok.E_length_aead ha
  by_cases hm : c.mode = .ccm
  · rw [aeadTag_ccm hm, ccmTag, List.length_take, xorBytes_length, hE, ccmMac_length hE hacc, Nat.min_self,
      Nat.min_eq_left htag]
  · rw [aeadTag_of_ne_ccm hm, gcmTag, List.length_take, xorBytes_length, hE, ghash_length (ghash_length hacc _),
      Nat.min_self, Nat.min_eq_left htag]

end

/-! ### CCM on a context -/

/-- The whole blocks at the front of a string, and the rest, which is less than a block. -/
theorem chunks_take_append_drop (x : Bytes) :
    chunks 16 (x.take (x.length / 16 * 16)) ++ chunks 16 (x.drop (x.length / 16 * 16)) = chunks 16 x := by
  rw [← chunks_append (by decide) _ _ (by rw [length_take_whole, Nat.mul_mod_left]), List.take_append_drop]

theorem length_drop_whole_lt (x : Bytes) : (x.drop (x.length / 16 * 16)).length < 16 := by
  rw [List.length_drop]
  omega

theorem length_of_mem_whole {x X : Bytes} (hX : X ∈ chunks 16 (x.take (x.length / 16 * 16))) : X.length = 16 :=
  length_of_mem_chunks (by decide) (by rw [length_take_whole, Nat.mul_mod_left]) hX

/-- A CCM encrypt UPDATE masks the whole blocks and folds them into the MAC (42 R305, R322). -/
theorem ccmEncUpdate_eq {c : Context} (hB : c.B = 16) (x : Bytes) :
    let data := c.residue ++ x
    let n := data.length / 16 * 16
    let Xs := chunks 16 (data.take n)
    ccmEncUpdate Prim.external c x =
      ((ctrMask (encryptBlock c.ks) c.counterBits c.iv Xs).flatten,
        { c with
          residue := data.drop n, processedDataLen := c.processedDataLen + x.length
          acc := cbcMac (encryptBlock c.ks) c.acc Xs, iv := (inc · c.counterBits)^[Xs.length] c.iv }) := by
  simp only [ccmEncUpdate, Context.partition, hB, ccmEncBlocks_eq]
  rfl

/-- A CCM encrypt FINAL emits the masked residue and the tag (42 R306, R307). -/
theorem ccmFinalOutput_eq (c : Context) :
    ccmFinalOutput Prim.external c = xorBytes c.residue (encryptBlock c.ks c.iv) ++
      ccmTag (encryptBlock c.ks) c.ctr0
        (if c.residue = [] then c.acc else encryptBlock c.ks (xorBytes c.acc (pad0 c.residue 16))) c.tagLen := by
  by_cases hr : c.residue = []
  · simp only [ccmFinalOutput, ccmEncFinal, hr, if_true]
    rfl
  · have hpos : c.residue.length > 0 := List.length_pos_iff.mpr hr
    simp only [ccmFinalOutput, ccmEncFinal, if_pos hpos, if_neg hr]
    rfl

/-- What UPDATE and FINAL of CCM encryption emit from the start of the data: the masked input and the tag over it (42 R305
to R307). -/
theorem ccm_seal_eq {c : Context} (hB : c.B = 16) (hm : c.mode = .ccm) (hr : c.residue = []) (x : Bytes) :
    (ccmEncUpdate Prim.external c x).1 ++ ccmFinalOutput Prim.external (ccmEncUpdate Prim.external c x).2 =
      (c.masked x).flatten ++ c.aeadTag (chunks 16 x) (c.masked x).flatten := by
  have hlt := length_drop_whole_lt x
  rw [c.aeadTag_ccm hm, Context.masked, ← chunks_take_append_drop x, ctrMask_append, List.flatten_append,
    ctrMask_chunks_of_lt hlt, ccmMac, List.foldl_append, ← ccmMac, ← ccmMac,
    ccmMac_of_whole _ fun X => length_of_mem_whole, ccmMac_chunks_of_lt hlt, ccmFinalOutput_eq, ccmEncUpdate_eq hB, hr, List.append_assoc]
  rfl

/-- A CCM decrypt FINAL that holds a ciphertext and a tag of the declared lengths compares the tag with the one over the
plaintext, and releases the plaintext only on a match (42 R310). -/
theorem ccmFinalPlain_eq {c : Context} (hm : c.mode = .ccm) {y tag : Bytes} (hs : c.scratch = y ++ tag)
    (hy : y.length = c.dataLen) (htag : tag.length = c.tagLen) :
    ccmFinalPlain Prim.external c =
      if c.aeadTag (c.masked y) y = tag then some (c.masked y).flatten else none := by
  simp only [ccmFinalPlain, ccmDecFinal, ccmDecBlocks_eq, hs, ← hy, ← htag, List.take_left, List.drop_left,
    List.take_length, c.aeadTag_ccm hm]
  rfl

/-! ### GCM and GMAC on a context -/

/-- A GCM encrypt FINAL emits the masked residue and the tag (43 R392). -/
theorem gcmFinalOutput_eq (c : Context) :
    let y := xorBytes c.residue (encryptBlock c.ks c.iv)
    gcmFinalOutput Prim.external c = y ++ gcmTag (encryptBlock c.ks) c.hashKey c.ctr0 (ghash c.hashKey c.acc y) c.aadLen
      c.processedDataLen c.tagLen := by
  by_cases hr : c.residue = []
  · simp only [gcmFinalOutput, gcmEncFinal, hr]
    rfl
  · have hpos : c.residue.length > 0 := List.length_pos_iff.mpr hr
    simp only [gcmFinalOutput, gcmEncFinal, if_pos hpos]
    rfl

/-- A GCM encrypt UPDATE masks the whole blocks and folds the ciphertext into the GHASH (43 R391, R402). -/
theorem gcmEncUpdate_eq {c : Context} (hok : c.Ok) (hm : c.mode = .gcm) (x : Bytes) :
    let data := c.residue ++ x
    let n := data.length / 16 * 16
    let Xs := chunks 16 (data.take n)
    let y := (ctrMask (encryptBlock c.ks) 32 c.iv Xs).flatten
    gcmEncUpdate Prim.external c x =
      (y, { c with
        residue := data.drop n, processedDataLen := c.processedDataLen + x.length
        acc := ghash c.hashKey c.acc y, iv := (inc · 32)^[Xs.length] c.iv }) := by
  intro data n Xs y
  have ha : aeadMode c.mode = true := by rw [hm]; rfl
  obtain ⟨hB, -, -⟩ := hok.aead_blocks ha
  have hE : ∀ X, (Prim.external.E c.ks X).length = 16 := hok.E_length_aead ha
  obtain ⟨hy, hctr⟩ := gcmEncBlocks_eq (Prim.external.E c.ks) c.hashKey { acc := c.acc, ctr := c.iv } Xs
  have hacc := gcmEncBlocks_acc hE c.hashKey { acc := c.acc, ctr := c.iv } Xs fun X => length_of_mem_whole
  simp only [gcmEncUpdate, Context.partition, hB]
  rw [hacc, hctr, hy]
  rfl

/-- What UPDATE and FINAL of GCM encryption emit from the start of the data: the masked input and the tag over the ciphertext
(43 R391, R392). -/
theorem gcm_seal_eq {c : Context} (hok : c.Ok) (hm : c.mode = .gcm) (hcb : c.counterBits = 32) (hr : c.residue = [])
    (hp : c.processedDataLen = 0) (x : Bytes) :
    (gcmEncUpdate Prim.external c x).1 ++ gcmFinalOutput Prim.external (gcmEncUpdate Prim.external c x).2 =
      (c.masked x).flatten ++ c.aeadTag (chunks 16 x) (c.masked x).flatten := by
  have ha : aeadMode c.mode = true := by rw [hm]; rfl
  have hE := hok.E_length_aead ha
  have hwhole :
      (ctrMask (encryptBlock c.ks) 32 c.iv (chunks 16 (x.take (x.length / 16 * 16)))).flatten.length % 16 = 0 := by
    rw [ctrMask_flatten_length _ _ hE, length_take_whole, Nat.mul_mod_left]
  have hmask : (c.masked x).flatten =
      (ctrMask (encryptBlock c.ks) 32 c.iv (chunks 16 (x.take (x.length / 16 * 16)))).flatten ++
        xorBytes (x.drop (x.length / 16 * 16)) (encryptBlock c.ks
          ((inc · 32)^[(chunks 16 (x.take (x.length / 16 * 16))).length] c.iv)) := by
    rw [Context.masked, hcb, ← chunks_take_append_drop x, ctrMask_append, List.flatten_append,
      ctrMask_chunks_of_lt (length_drop_whole_lt x)]
  rw [c.aeadTag_of_ne_ccm (by simp [hm]), hok.masked_flatten_length ha, hmask, ghash_append _ hwhole, gcmFinalOutput_eq,
    gcmEncUpdate_eq hok hm, hr, hp, List.append_assoc, Nat.zero_add]
  rfl

/-- A GCM or GMAC decrypt FINAL that holds a ciphertext and a tag compares the tag with the one over the ciphertext, and
releases the plaintext only on a match (43 R394). -/
theorem gcmFinalPlain_eq {c : Context} (hm : c.mode ≠ .ccm) (hcb : c.counterBits = 32) {y tag : Bytes}
    (hs : c.scratch = y ++ tag) (htag : tag.length = c.tagLen) :
    gcmFinalPlain Prim.external c =
      if c.aeadTag (c.masked y) y = tag then some (c.masked y).flatten else none := by
  simp only [gcmFinalPlain, gcmDecFinal, gcmCtrBlocks_eq, hs, ← htag, List.length_append, Nat.add_sub_cancel,
    List.take_left, List.drop_left, List.take_length, Context.masked, hcb]
  rw [c.aeadTag_of_ne_ccm hm, ← htag]
  rfl

/-- A GMAC encrypt FINAL emits the tag over no ciphertext (43 R398). -/
theorem gmacTag_eq {c : Context} (hm : c.mode = .gmac) : gmacTag Prim.external c = c.aeadTag [] [] := by
  rw [c.aeadTag_of_ne_ccm (by simp [hm])]
  rfl

end Sys2Proof.Machine
end

section
/-! SUPPORT. CCM, GCM and GMAC in one UPDATE: round trip and tag check (O56). -/

namespace Sys2Proof.Machine

/-! ### A run that a comparison decides -/

/-- A decryption in one UPDATE, which only keeps its input, is decided by FINAL's comparison (42 R310, 43 R394). -/
theorem Context.run_single_of_verified {c c' : Context} {x : Bytes} {p : Prop} [Decidable p] {P : Bytes}
    (hupd : c.update x = .ok ([], c')) (hfin : c'.final = verified (if p then some P else none)) :
    c.run [x] = if p then (P, .success) else ([], .invalidMac) := by
  rw [run_cons hupd, run, hfin]
  by_cases hp : p <;> simp [hp, verified]

/-! ### Encryption -/

/-- The lengths an authenticated mode allows: in CCM the declared one, in GMAC none (42 R308, 43 R398). -/
def AeadLengthOk (m : Mode) (o : Operands) (n : Nat) : Prop := (m = .ccm → n = o.dataLen.toNat) ∧ (m = .gmac → n = 0)

section

variable {m : Mode} {a : Alg} {o : Operands} (ha : aeadMode m = true)
include ha

/-- A run of encryption of a legal length gives the masked input, then the tag (42 R307, 43 R392, R398). -/
theorem run_initContext_aead_enc (hok : (initContext Prim.external m .enc a o).Ok) {x : Bytes}
    (hx : AeadLengthOk m o x.length) :
    let c := initContext Prim.external m .enc a o
    c.run [x] = ((c.masked x).flatten ++ c.aeadTag (chunks 16 x) (c.masked x).flatten, .success) := by
  intro c
  obtain ⟨hccm, hgmac⟩ := hx
  cases m with
  | ccm => rw [Context.run_ccm_enc_of_eq rfl rfl rfl (hccm rfl), ccm_seal_eq (hok.aead_blocks rfl).1 rfl rfl]
  | gcm =>
    rw [Context.run_single_of (Context.update_gcm_enc rfl rfl rfl) (Context.final_gcm_enc rfl rfl),
      ← gcm_seal_eq hok rfl rfl rfl rfl]
    rfl
  | gmac =>
    obtain rfl := List.length_eq_zero_iff.mp (hgmac rfl)
    rw [Context.run_single_of (Context.update_gmac_enc rfl rfl rfl) (Context.final_gmac_enc rfl rfl), gmacTag_eq rfl]
    rfl
  | ecb | cbc | cbcPad | cfb | ctr => cases ha

/-- A run of encryption succeeds on a legal length only (42 R308, 43 R398). -/
theorem aeadLengthOk_of_run_success {x : Bytes}
    (h : ((initContext Prim.external m .enc a o).run [x]).2 = .success) : AeadLengthOk m o x.length := by
  cases m with
  | ccm =>
    refine ⟨fun _ => ?_, nofun⟩
    by_contra hne
    rw [Context.run_ccm_enc_of_ne rfl rfl rfl hne] at h
    cases h
  | gcm => exact ⟨nofun, nofun⟩
  | gmac =>
    refine ⟨nofun, fun _ => ?_⟩
    by_contra hne
    have herr : (initContext Prim.external .gmac .enc a o).updateError x.length = some .unsupported :=
      if_pos (Nat.pos_of_ne_zero hne)
    rw [Context.run_single_of_updateError herr] at h
    cases h
  | ecb | cbc | cbcPad | cfb | ctr => cases ha

/-! ### Decryption -/

/-- A run of decryption of a ciphertext of legal length and a tag compares the tag with the one over the plaintext or the
ciphertext, and gives the plaintext only on a match (42 R310, 43 R394, R399). -/
theorem run_initContext_aead_dec {y tag : Bytes} (hy : AeadLengthOk m o y.length) (htag : tag.length = o.tagLen.toNat) :
    let c := initContext Prim.external m .enc a o
    (initContext Prim.external m .dec a o).run [y ++ tag] =
      if c.aeadTag (c.masked y) y = tag then ((c.masked y).flatten, .success) else ([], .invalidMac) := by
  intro c
  obtain ⟨hccm, hgmac⟩ := hy
  let d := (initContext Prim.external m .dec a o).grow (y ++ tag)
  have hkeep : d.scratch = y ++ tag := congrArg (· ++ (y ++ tag)) (initContext_scratch m .dec a o)
  have hlen : d.scratch.length = y.length + o.tagLen.toNat := by rw [hkeep, List.length_append, htag]
  cases m with
  | ccm =>
    have hscratch : d.scratch.length = d.dataLen + d.tagLen := hlen.trans (congrArg (· + _) (hccm rfl))
    have hupd : ¬0 + (y ++ tag).length > d.dataLen + d.tagLen := by
      rw [Nat.zero_add]
      exact hscratch.le.not_gt
    refine Context.run_single_of_verified (Context.update_aead_dec rfl rfl (if_neg hupd)) ?_
    rw [Context.final_ccm_dec (c := d) rfl rfl, if_pos hscratch, ccmFinalPlain_eq (c := d) rfl hkeep (hccm rfl) htag]
    rfl
  | gcm =>
    have hscratch : ¬d.scratch.length < d.tagLen := (hlen ▸ Nat.le_add_left _ _ : d.tagLen ≤ _).not_gt
    refine Context.run_single_of_verified (Context.update_aead_dec rfl rfl rfl) ?_
    rw [Context.final_gcm_dec (c := d) rfl rfl, if_neg hscratch, gcmFinalPlain_eq (c := d) nofun rfl hkeep htag]
    rfl
  | gmac =>
    have hscratch : d.scratch.length = d.tagLen := hlen.trans (by rw [hgmac rfl, Nat.zero_add]; rfl)
    have hupd : ¬0 + (y ++ tag).length > d.tagLen := by
      rw [Nat.zero_add]
      exact hscratch.le.not_gt
    refine Context.run_single_of_verified (Context.update_aead_dec rfl rfl (if_neg hupd)) ?_
    rw [Context.final_gmac_dec (c := d) rfl rfl, if_pos hscratch, gcmFinalPlain_eq (c := d) nofun rfl hkeep htag]
    rfl
  | ecb | cbc | cbcPad | cfb | ctr => cases ha

end

/-! ### The obligation -/

/-- INIT's context is consistent in an authenticated mode on 16-byte blocks whatever the host's table says of the mode. -/
theorem initContext_ok_of_blockSize {m : Mode} {a : Alg} {o : Operands} (d : Dir) (hB : blockSize a = 16)
    (hp : paramsOk m a o = true) : (initContext Prim.external m d a o).Ok :=
  initContext_ok (cfg := resetConfig) d (by simp [algModeSupported, hB, resetConfig]) hp

/-- Settles O56: masking twice gives the plaintext back, and the tag compared is the one encryption gave. -/
theorem aeadRoundTripAndTamper : Obligations.AeadRoundTripAndTamper := by
  unfold Obligations.AeadRoundTripAndTamper
  intro m a o P C ha hB hp henc
  have hok := initContext_ok_of_blockSize .enc hB hp
  have hmode := (initContext_mode m .enc a o).symm ▸ ha
  have hlen := aeadLengthOk_of_run_success ha (congrArg Prod.snd henc)
  rw [run_initContext_aead_enc ha hok hlen] at henc
  set c := initContext Prim.external m .enc a o with hc
  have hy : (c.masked P).flatten.length = P.length := hok.masked_flatten_length hmode P
  have htag : (c.aeadTag (chunks 16 P) (c.masked P).flatten).length = o.tagLen.toNat :=
    (hok.aeadTag_length hmode _ _).trans (initContext_tagLen m .enc a o ha)
  obtain ⟨rfl, -⟩ := Prod.mk.inj henc
  refine ⟨by rw [List.length_append, hy, htag], ?_, fun tag ht hne => ?_⟩
  · rw [run_initContext_aead_dec ha (by rwa [hy]) htag, ← hc, hok.masked_masked hmode, if_pos rfl,
      chunks_flatten (by decide)]
  · rw [List.drop_left' hy] at hne
    rw [List.take_left' hy, run_initContext_aead_dec ha (by rwa [hy]) ht, ← hc, hok.masked_masked hmode,
      if_neg (Ne.symm hne)]

end Sys2Proof.Machine
end

section
/-! SUPPORT. The commands of CCM, and decrypt UPDATE and ATOMIC of the authenticated modes (O18, O26, O28, O36, O37,
O46). -/

namespace Sys2Proof.Machine

/-! ### INIT of CCM -/

/-- The MAC a CCM INIT starts with: E of B0, folded on over the padded AAD where there is one (42 R304). -/
theorem ccmInitMac_eq (E : Bytes → Bytes) (nonce aad : Bytes) (t p : Nat) :
    ccmInitMac E nonce aad t p =
      if aad = [] then E (ccmB0 nonce 0 t p)
      else
        let f := ccmAadPrefix aad.length ++ aad
        cbcMac E (E (ccmB0 nonce aad.length t p)) (chunks 16 (pad0 f (16 * ceilDiv f.length 16))) := by
  by_cases h : aad = []
  · subst h
    rfl
  · rw [if_neg h, ccmInitMac, ccmAadBlocks, if_pos (List.length_pos_iff.mpr h), chunks_map_pad0 (by decide)]

/-- Settles O18: INIT's context holds the counter block with counts 0 and 1, and the MAC it starts with. -/
theorem initCcm : Obligations.InitCcm := by
  unfold Obligations.InitCcm
  intro s d a h r o q ks
  have hctr : inc (ccmCtr0 o.iv) (8 * q) = BitVec.ofNat 8 (q - 1) :: (o.iv ++ beBytes q 1) :=
    inc_zero_tail (BitVec.ofNat 8 (q - 1) :: o.iv) q
  have hinit := initCommand_completes Prim.external (instrOf .init .ccm d a) d r
  rw [← exec_init] at hinit
  simp only [State.newContext, initContext, ccmContext] at hinit
  rw [hctr, ccmInitMac_eq, ccmCtr0, ← beBytes_zero] at hinit
  exact hinit

/-! ### UPDATE -/

/-- An encrypt UPDATE with enough capacity completes with the output and the context that the context's own UPDATE gives: it
allocates no scratch (44 R469, 60 R523). -/
theorem exec_update_enc_completes {s : State} {c : Context} {m : Mode} {a : Alg}
    (r : Ready s s.args.inView c m .enc a) (hok : c.Ok) {y : Bytes} {c' : Context}
    (hupd : c.update s.input = .ok (y, c')) (hcap : c.updateNeed s.input.length ≤ s.cap) :
    Completes s (exec (instrOf .update m .enc a) s) (some c)
      { handle := s.args.handle, status := .success, size := c.updateNeed s.input.length, ctx := some c'
        output := y } := by
  have herr := Context.updateError_of_update hupd
  obtain ⟨hlen, -, -⟩ := Context.update_spec hok hupd
  obtain ⟨jobs, y', c'', hexec, hres, -⟩ := exec_update_eq r hok
  cases hupd.symm.trans (hres herr)
  rw [hexec, herr]
  dsimp only
  rw [if_neg (Nat.not_lt.mpr hcap), if_neg (by simp)]
  exact runUpdate_completes hlen

/-- Settles O26: UPDATE commits what the context's own UPDATE gives, the masked whole blocks. (`updateCcmEnc` is the
model's own name.) -/
theorem updateCcmEnc_completes : Obligations.UpdateCcmEnc := by
  unfold Obligations.UpdateCcmEnc
  intro s c a r hok data n Xs hdata hcap
  obtain ⟨hB, -, -⟩ := hok.aead_blocks (by rw [r.mode]; rfl)
  have hneed : c.updateNeed s.input.length = n := by
    simp only [Context.updateNeed, r.mode, r.dir, hB, n, data, List.length_append]
  have herr : c.updateError s.input.length = none := by
    simp only [Context.updateError, r.mode, r.dir]
    exact if_neg hdata.not_gt
  have hupd := Context.update_ccm_enc r.mode r.dir herr
  rw [ccmEncUpdate_eq hB] at hupd
  have h := exec_update_enc_completes r hok hupd (hneed.trans_le hcap)
  rw [hneed] at h
  exact h

/-- A decrypt UPDATE of an authenticated mode within its limit passes its length check (42 R309, 43 R399). -/
theorem Context.updateError_aead_dec {c : Context} {n : Nat} (ha : aeadMode c.mode = true) (hd : c.dir = .dec)
    (hccm : c.mode = .ccm → c.scratch.length + n ≤ c.dataLen + c.tagLen)
    (hgmac : c.mode = .gmac → c.scratch.length + n ≤ c.tagLen) : c.updateError n = none := by
  cases hm : c.mode with
  | ccm =>
    simp only [updateError, hm, hd]
    exact if_neg (hccm hm).not_gt
  | gcm => simp only [updateError, hm, hd]
  | gmac =>
    simp only [updateError, hm, hd]
    exact if_neg (hgmac hm).not_gt
  | ecb | cbc | cbcPad | cfb | ctr => rw [hm] at ha; cases ha

/-- Settles O28: past its length check a decrypt UPDATE only grows scratch, with no job. -/
theorem updateAeadDec : Obligations.UpdateAeadDec := by
  unfold Obligations.UpdateAeadDec
  intro s c m a ha r hccm hgmac halloc
  have herr : c.updateError s.input.length = none :=
    Context.updateError_aead_dec (r.mode.symm ▸ ha) r.dir (fun h => hccm (r.mode.symm.trans h))
      fun h => hgmac (r.mode.symm.trans h)
  have hgranted : s.scratchDenied = false := by rcases halloc with h | h <;> simp [State.scratchDenied, h]
  obtain ⟨t, ht, hafter⟩ := runUpdate_after (s := s) (i := instrOf .update m .dec a) (c := c) (c' := c.grow s.input)
    (out := [])
  rw [Context.grow, List.length_append] at hafter
  refine ⟨t, ?_, hafter⟩
  rw [exec_update_aeadDec_eq ha r, herr, growScratch, hgranted]
  exact ht

/-! ### FINAL of CCM -/

/-- Settles O36: FINAL commits what the context's own FINAL gives, the masked residue and the tag. (`finalCcmEnc` is the
model's own name.) -/
theorem finalCcmEnc_completes : Obligations.FinalCcmEnc := by
  unfold Obligations.FinalCcmEnc
  intro s c a r hok hdata hcap E acc
  have hlen := ccmFinalOutput_length hok r.mode
  have hfin := (Context.final_ccm_enc r.mode r.dir).trans (if_pos hdata)
  obtain ⟨-, hfinal⟩ := commandsFollowRun
  have h := hfinal s c .ccm .enc a _ r hok hfin (hlen.trans_le hcap)
  rw [hlen, ccmFinalOutput_eq] at h
  exact h

/-- Settles O37: FINAL releases the masked ciphertext where the tag over its plaintext is the one received. (`finalCcmDec`
is the model's own name.) -/
theorem finalCcmDec_completes : Obligations.FinalCcmDec := by
  unfold Obligations.FinalCcmDec
  intro s c a r hok hdata hcap E Cs Ps acc tag
  have hm := r.mode
  have hd := r.dir
  have hy : (c.scratch.take c.dataLen).length = c.dataLen := List.length_take_of_le (by omega)
  have htag : (c.scratch.drop c.dataLen).length = c.tagLen := by rw [List.length_drop, hdata, Nat.add_sub_cancel_left]
  have hPs : Ps.flatten.length = c.dataLen := (hok.masked_flatten_length (by rw [hm]; rfl) _).trans hy
  have hplain := ccmFinalPlain_eq hm (List.take_append_drop c.dataLen c.scratch).symm hy htag
  rw [c.aeadTag_ccm hm] at hplain
  have herr : c.finalError = none := by
    simp only [Context.finalError, hm, hd]
    exact if_neg (not_not.mpr hdata)
  have hneed : c.finalNeed = c.dataLen := by simp only [Context.finalNeed, hm, hd]
  have hcommit : c.finalCommit = .verified (if tag = c.scratch.drop c.dataLen then some Ps.flatten else none) := by
    simp only [Context.finalCommit, hm, hd]
    exact congrArg Commit.verified hplain
  obtain ⟨jobs, hexec, -⟩ := exec_final_eq r
  rw [herr, hneed, hcommit] at hexec
  rw [show exec (.finalCcmDec a) s = _ from hexec.trans (if_neg (Nat.not_lt.mpr hcap))]
  exact runFinal_tagCheck_completes hPs

/-! ### ATOMIC -/

section

variable {s : State} {m : Mode} {d : Dir} {a : Alg} {h : Handle}

/-- An ATOMIC other than of CBC_PAD decryption, past its checks, launches the commit that a run of one UPDATE gives (44
R471). -/
theorem exec_atomic_of_run (r : InitReady s m a h) (hpad : ¬(m = .cbcPad ∧ d = .dec))
    (hv : s.viewRefusal s.args.inView s.args.outView = none)
    (herr : atomicError m d a s.args s.input.length = none) (hcap : atomicNeed m d a s.args s.input.length ≤ s.cap)
    (hscratch : d = .dec → s.args.draws.scratchOk = true) :
    ∃ jobs, exec (instrOf .atomic m d a) s = s.runAtomic (instrOf .atomic m d a) h jobs
      (.ofRun ((initContext Prim.external m d a s.args).run [s.input])) := by
  obtain ⟨jobs, hexec⟩ := exec_atomic_eq (d := d) r hv
  have hgranted : ¬(aeadMode m = true ∧ d = .dec ∧ s.args.draws.scratchOk = false) := by
    rintro ⟨-, hd, hdenied⟩
    exact Bool.false_ne_true (hdenied.symm.trans (hscratch hd))
  refine ⟨jobs, ?_⟩
  rw [hexec, herr, ← (atomicRuns hpad a s).commit herr]
  exact (if_neg (Nat.not_lt.mpr hcap)).trans (if_neg hgranted)

/-- An ATOMIC of an authenticated mode that commits what a comparison decides: the plaintext, or INVALID_MAC (60 R532). -/
theorem runAtomic_tagCheck_completes {i : Instr} {jobs : List Nat} {p : Prop} [Decidable p] {P : Bytes} {n : Nat}
    (hn : P.length = n) :
    Completes s (s.runAtomic i h jobs (.ofRun (if p then (P, .success) else ([], .invalidMac)))) none
      (if p then { handle := h, status := .success, size := n, ctx := none, output := P }
      else { handle := h, status := .invalidMac, size := 0, ctx := none }) := by
  by_cases hp : p
  · rw [if_pos hp, if_pos hp, Commit.ofRun_success]
    exact runAtomic_completes hn
  · rw [if_neg hp, if_neg hp]
    exact runAtomic_plain_completes (Commit.plain_fail .invalidMac) rfl

/-- On a legal length the length check of an authenticated encryption passes (42 R326, 43 R416). -/
theorem atomicError_aead_enc (ha : aeadMode m = true) (a : Alg) {o : Operands} {n : Nat} (hn : AeadLengthOk m o n) :
    atomicError m .enc a o n = none := by
  obtain ⟨hccm, hgmac⟩ := hn
  cases m with
  | ccm => exact if_neg (not_not.mpr (hccm rfl))
  | gcm => rfl
  | gmac => exact if_neg (hgmac rfl).not_gt
  | ecb | cbc | cbcPad | cfb | ctr => cases ha

/-- On a ciphertext of legal length and a tag the length checks of an authenticated decryption pass (42 R327, 43 R407,
R417). -/
theorem atomicError_aead_dec (ha : aeadMode m = true) (a : Alg) {o : Operands} {n : Nat} (hn : AeadLengthOk m o n) :
    atomicError m .dec a o (n + o.tagLen.toNat) = none := by
  obtain ⟨hccm, hgmac⟩ := hn
  cases m with
  | ccm =>
    rw [hccm rfl]
    exact (if_neg (lt_irrefl _)).trans (if_neg (lt_irrefl _))
  | gcm => exact if_neg (Nat.le_add_left _ _).not_gt
  | gmac =>
    rw [hgmac rfl, Nat.zero_add]
    exact (if_neg (lt_irrefl _)).trans (if_neg (lt_irrefl _))
  | ecb | cbc | cbcPad | cfb | ctr => cases ha

/-- The required size of an authenticated encryption, the ciphertext and the tag (44 R469). -/
theorem atomicNeed_aead_enc (ha : aeadMode m = true) (a : Alg) {o : Operands} {n : Nat} (hn : AeadLengthOk m o n) :
    atomicNeed m .enc a o n = n + o.tagLen.toNat := by
  obtain ⟨hccm, hgmac⟩ := hn
  cases m with
  | ccm => rw [hccm rfl]; rfl
  | gcm => rfl
  | gmac => rw [hgmac rfl, Nat.zero_add]; rfl
  | ecb | cbc | cbcPad | cfb | ctr => cases ha

/-- The required size of an authenticated decryption, the plaintext (44 R469). -/
theorem atomicNeed_aead_dec (ha : aeadMode m = true) (a : Alg) {o : Operands} {n : Nat} (hn : AeadLengthOk m o n) :
    atomicNeed m .dec a o (n + o.tagLen.toNat) = n := by
  obtain ⟨hccm, hgmac⟩ := hn
  cases m with
  | ccm => rw [hccm rfl]; rfl
  | gcm => exact Nat.add_sub_cancel n _
  | gmac => rw [hgmac rfl]; rfl
  | ecb | cbc | cbcPad | cfb | ctr => cases ha

end

/-- Settles O46: ATOMIC commits what a run of one UPDATE gives, in encryption the masked input and the tag, in decryption what
the comparison of the tag decides. -/
theorem atomicAead : Obligations.AtomicAead := by
  unfold Obligations.AtomicAead
  intro s m a h ha r hv t c E masked tagOf y n p
  have hmode : aeadMode c.mode = true := (initContext_mode m .enc a s.args).symm ▸ ha
  have hpad (d : Dir) : ¬(m = .cbcPad ∧ d = .dec) := by
    rintro ⟨rfl, -⟩
    cases ha
  have hok : c.Ok := r.context_ok .enc
  have htagLen : c.tagLen = t := initContext_tagLen m .enc a s.args ha
  have htag (plain : List Bytes) (cipher : Bytes) : c.aeadTag plain cipher = tagOf plain cipher := by
    rw [Context.aeadTag, initContext_mode, htagLen]
    rfl
  refine ⟨fun hccm hgmac hcap => ?_, fun hle hccm hgmac hscratch hcap => ?_⟩
  · have hn : AeadLengthOk m s.args s.input.length := ⟨hccm, fun hm => List.length_eq_zero_iff.mpr (hgmac hm)⟩
    obtain ⟨jobs, hexec⟩ := exec_atomic_of_run r (hpad .enc) hv (atomicError_aead_enc ha a hn)
      ((atomicNeed_aead_enc ha a hn).trans_le hcap) nofun
    rw [hexec, run_initContext_aead_enc ha hok hn, Commit.ofRun_success, ← htag]
    refine runAtomic_completes ?_
    rw [List.length_append, hok.masked_flatten_length hmode, hok.aeadTag_length hmode, htagLen]
  · have htake : (s.input.take n).length = n := List.length_take_of_le (Nat.sub_le _ _)
    have hlen : s.input.length = n + t := (Nat.sub_add_cancel hle).symm
    have hdrop : (s.input.drop n).length = t := by rw [List.length_drop, hlen, Nat.add_sub_cancel_left]
    have hn : AeadLengthOk m s.args n := ⟨hccm, hgmac⟩
    obtain ⟨jobs, hexec⟩ := exec_atomic_of_run r (hpad .dec) hv (hlen ▸ atomicError_aead_dec ha a hn)
      ((hlen ▸ atomicNeed_aead_dec ha a hn : atomicNeed m .dec a s.args s.input.length = n).trans_le hcap)
      fun _ => hscratch
    have hrun := run_initContext_aead_dec (a := a) ha (htake.symm ▸ hn) hdrop
    rw [List.take_append_drop] at hrun
    rw [hexec, hrun, ← htag]
    exact runAtomic_tagCheck_completes ((hok.masked_flatten_length hmode _).trans htake)

end Sys2Proof.Machine
end

section
/-! SUPPORT. The commands of GCM and GMAC (O19, O27, O29, O38, O39, O40). -/

namespace Sys2Proof.Machine

/-! ### INIT -/

/-- The last four bytes of J0 after an IV of 12 bytes (43 R385). -/
theorem beBytes_four_one : beBytes 4 1 = [0, 0, 0, 1] := by decide

/-- The contexts a GCM and a GMAC INIT make differ in the mode alone (43 R400, R410). -/
theorem initContext_gcm_gmac (P : Prim) {m : Mode} (hm : m = .gcm ∨ m = .gmac) (d : Dir) (a : Alg) (o : Operands) :
    initContext P m d a o = gcmContext P m d a o := by
  rcases hm with rfl | rfl <;> rfl

/-- Settles O19: INIT's context is the one `gcmContext` makes, whatever the mode and the direction. -/
theorem initGcmGmac : Obligations.InitGcmGmac := by
  unfold Obligations.InitGcmGmac
  intro s m d a h hm r o ks H j0
  have hj0 : gcmJ0 H o.iv = j0 := by rw [gcmJ0, beBytes_four_one]
  have hinit := initCommand_completes Prim.external (instrOf .init m d a) d r
  rw [← exec_init, State.newContext, initContext_gcm_gmac _ hm] at hinit
  rw [← hj0]
  exact hinit

/-! ### UPDATE of encryption -/

/-- Settles O27: UPDATE commits what the context's own UPDATE gives, the masked whole blocks and their GHASH.
(`updateGcmEnc` is the model's own name.) -/
theorem updateGcmEnc_completes : Obligations.UpdateGcmEnc := by
  unfold Obligations.UpdateGcmEnc
  intro s c a r hok data n Xs out hcap
  obtain ⟨hB, -, -⟩ := hok.aead_blocks (by rw [r.mode]; rfl)
  have hneed : c.updateNeed s.input.length = n := by
    simp only [Context.updateNeed, r.mode, r.dir, hB, n, data, List.length_append]
  have herr : c.updateError s.input.length = none := by simp only [Context.updateError, r.mode, r.dir]
  have hupd := Context.update_gcm_enc r.mode r.dir herr
  rw [gcmEncUpdate_eq hok r.mode] at hupd
  have h := exec_update_enc_completes r hok hupd (hneed.trans_le hcap)
  rw [hneed] at h
  exact h

/-- Settles O29: input is UNSUPPORTED and raises it; with none UPDATE keeps the context and submits no job. (`updateGmacEnc`
is the model's own name.) -/
theorem updateGmacEnc_completes : Obligations.UpdateGmacEnc := by
  unfold Obligations.UpdateGmacEnc
  intro s c a r
  have hexec : exec (.updateGmacEnc a) s =
      if s.input.length > 0 then .next (s.raiseTerminal .unsupported)
      else s.runUpdate (.updateGmacEnc a) c [] (.keep c []) :=
    (exec_update_gmac_enc a s).trans (onContext_of_ready r _)
  refine ⟨fun hnone => ?_, fun hsome => ?_⟩
  · obtain ⟨t, ht, hafter⟩ := runUpdate_after (s := s) (i := .updateGmacEnc a) (c := c) (c' := c) (out := [])
    refine ⟨t, ?_, hafter⟩
    rw [hexec, if_neg (by simp [hnone]), ht]
  · exact ⟨_, hexec.trans (if_pos (List.length_pos_iff.mpr hsome)), raiseTerminal_after⟩

/-! ### FINAL of encryption -/

/-- Settles O38: FINAL commits what the context's own FINAL gives, the masked residue and the tag. (`finalGcmEnc` is the
model's own name.) -/
theorem finalGcmEnc_completes : Obligations.FinalGcmEnc := by
  unfold Obligations.FinalGcmEnc
  intro s c a r hok hcap E y S
  have hlen := gcmFinalOutput_length hok r.mode
  obtain ⟨-, hfinal⟩ := commandsFollowRun
  have h := hfinal s c .gcm .enc a _ r hok (Context.final_gcm_enc r.mode r.dir) (hlen.trans_le hcap)
  rw [hlen, gcmFinalOutput_eq] at h
  exact h

/-! ### FINAL of decryption -/

/-- A decrypt FINAL of GCM or GMAC that holds at least a tag compares the last bytes of scratch with the tag over the bytes
before them, and releases those decrypted only on a match (43 R394, R399). -/
theorem gcmFinalPlain_of_tagLen_le {c : Context} (h : c.tagLen ≤ c.scratch.length) :
    let n := c.scratch.length - c.tagLen
    let C := c.scratch.take n
    gcmFinalPlain Prim.external c =
      if gcmTag (encryptBlock c.ks) c.hashKey c.ctr0 (ghash c.hashKey c.acc C) c.aadLen n c.tagLen = c.scratch.drop n then
        some (ctrMask (encryptBlock c.ks) 32 c.iv (chunks 16 C)).flatten
      else none := by
  intro n C
  have htag : (c.scratch.drop n).take c.tagLen = c.scratch.drop n :=
    List.take_of_length_le (by rw [List.length_drop]; omega)
  rw [gcmFinalPlain, gcmDecFinal, gcmCtrBlocks_eq, htag]
  rfl

/-- A FINAL past its checks that commits what a comparison decides completes with the plaintext, or with INVALID_MAC. -/
theorem exec_final_tagCheck_completes {s : State} {c : Context} {m : Mode} {d : Dir} {a : Alg} (r : Ready s [] c m d a)
    (he : c.finalError = none) {n : Nat} (hneed : c.finalNeed = n) (hcap : n ≤ s.cap) {p : Prop} [Decidable p]
    {P : Bytes} (hP : P.length = n) (hcommit : c.finalCommit = .verified (if p then some P else none)) :
    Completes s (exec (instrOf .final m d a) s) (some c)
      (if p then { handle := s.args.handle, status := .success, size := n, ctx := none, output := P }
      else { handle := s.args.handle, status := .invalidMac, size := 0, ctx := none }) := by
  obtain ⟨jobs, hexec, -⟩ := exec_final_eq r
  rw [he, hneed, hcommit] at hexec
  rw [hexec.trans (if_neg (Nat.not_lt.mpr hcap))]
  exact runFinal_tagCheck_completes hP

/-- Settles O39: FINAL commits what the comparison of the tag over the ciphertext decides. (`finalGcmDec` is the model's own
name.) -/
theorem finalGcmDec_completes : Obligations.FinalGcmDec := by
  unfold Obligations.FinalGcmDec
  intro s c a r hok htag n E C S P hcap
  have hm := r.mode
  have hd := r.dir
  have hE : ∀ X, (E X).length = 16 := hok.E_length_aead (by rw [hm]; rfl)
  have hP : P.length = n :=
    (ctrMask_flatten_length 32 c.iv hE C).trans (List.length_take_of_le (Nat.sub_le _ _))
  have herr : c.finalError = none := by
    simp only [Context.finalError, hm, hd]
    exact if_neg htag.not_gt
  have hneed : c.finalNeed = n := by simp only [Context.finalNeed, hm, hd, n]
  refine exec_final_tagCheck_completes r herr hneed hcap hP ?_
  simp only [Context.finalCommit, hm, hd]
  exact congrArg Commit.verified (gcmFinalPlain_of_tagLen_le htag)

/-! ### FINAL of GMAC -/

/-- Settles O40: encryption commits the tag over the AAD; decryption compares it with all of scratch, and the plaintext it
releases is empty. -/
theorem finalGmac : Obligations.FinalGmac := by
  unfold Obligations.FinalGmac
  intro s c d a r hok tag
  have hm := r.mode
  have hd := r.dir
  have htag : gmacTag Prim.external c = tag := by
    rw [gmacTag, gcmTag, gcmLengthBlock, Nat.mul_zero, beBytes_zero]
    rfl
  refine ⟨?_, ?_⟩
  · rintro rfl hcap
    have hlen := gmacTag_length hok hm
    obtain ⟨-, hfinal⟩ := commandsFollowRun
    have h := hfinal s c .gmac .enc a _ r hok (Context.final_gmac_enc hm hd) (hlen.trans_le hcap)
    rw [hlen, htag] at h
    exact h
  · rintro rfl hlen
    have herr : c.finalError = none := by
      simp only [Context.finalError, hm, hd]
      exact if_neg (not_not.mpr hlen)
    have hneed : c.finalNeed = 0 := by simp only [Context.finalNeed, hm, hd]
    have hplain : gcmFinalPlain Prim.external c = if tag = c.scratch then some [] else none := by
      rw [gcmFinalPlain_of_tagLen_le hlen.ge, hlen, Nat.sub_self, List.take_zero, List.drop_zero, ← htag]
      rfl
    have hcommit : c.finalCommit = .verified (if tag = c.scratch then some [] else none) := by
      simp only [Context.finalCommit, hm, hd, hplain]
    have h := exec_final_tagCheck_completes r herr hneed (Nat.zero_le _) rfl hcommit
    by_cases hmatch : tag = c.scratch
    · rwa [if_pos hmatch] at h ⊢
    · rwa [if_neg hmatch] at h ⊢

end Sys2Proof.Machine
end

section
/-! SUPPORT. ATOMIC against the run of INIT, one UPDATE and FINAL, INIT's checks and parameter ranges, and ATOMIC's pre-checks
(O43, O16, O47, O15). -/

namespace Sys2Proof.Machine

/-! ### ATOMIC is a run -/

section

variable {s : State} {m : Mode} {d : Dir} {a : Alg} {h : Handle}

/-- ATOMIC completes with the status of a run of one UPDATE that fails, and writes nothing (44 R471); the unpad failure of
ATOMIC.CBC_PAD.DEC alone leaves any bytes. -/
theorem exec_atomic_completes_of_run_failure (r : InitReady s m a h) (hpad : ¬(m = .cbcPad ∧ d = .dec))
    (hv : s.viewRefusal s.args.inView s.args.outView = none) (hscratch : s.args.draws.scratchOk = true)
    (hcap : s.input.length + 16 ≤ s.cap)
    (hst : ((initContext Prim.external m d a s.args).run [s.input]).2 ≠ .success) :
    Completes s (exec (instrOf .atomic m d a) s) none
      { handle := h, status := ((initContext Prim.external m d a s.args).run [s.input]).2, size := 0, ctx := none } := by
  cases he : atomicError m d a s.args s.input.length with
  | some st =>
    rw [exec_atomic_of_error r hv he, run_snd_of_atomicError r he]
    exact answer_completes r
  | none =>
    obtain ⟨jobs, hexec⟩ := exec_atomic_of_run r hpad hv he ((atomicNeed_le r he).trans hcap) fun _ => hscratch
    have hfail := runAtomic_plain_completes (s := s) (i := instrOf .atomic m d a) (h := h) (jobs := jobs)
      (Commit.plain_fail ((initContext Prim.external m d a s.args).run [s.input]).2) rfl
    rw [Commit.effect, Commit.fail_output] at hfail
    rw [hexec, Commit.ofRun, if_neg hst]
    exact hfail

/-- Settles O43: ATOMIC commits what the run of one UPDATE gives, or answers the status its length check and the run share. -/
theorem atomicIsRun : Obligations.AtomicIsRun := by
  unfold Obligations.AtomicIsRun
  intro s m d a h r hv hscratch hcap
  rw [r.run d [s.input]]
  exact ⟨exec_atomic_of_run_success r hv hscratch hcap,
    fun hst hpad => exec_atomic_completes_of_run_failure r hpad hv hscratch hcap hst⟩

/-! ### ATOMIC's pre-checks -/

/-- An ATOMIC past its length check with too little capacity reports the required size (44 R472). -/
theorem exec_atomic_of_tooSmall (r : InitReady s m a h) (hv : s.viewRefusal s.args.inView s.args.outView = none)
    (he : atomicError m d a s.args s.input.length = none) (hcap : s.cap < atomicNeed m d a s.args s.input.length) :
    exec (instrOf .atomic m d a) s = .next (s.tooSmall (atomicNeed m d a s.args s.input.length)) := by
  obtain ⟨jobs, hexec⟩ := exec_atomic_eq (d := d) r hv
  rw [hexec, he]
  exact if_pos hcap

end

/-- Settles O47: each failing pre-check of ATOMIC is an answer. -/
theorem atomicPreChecks : Obligations.AtomicPreChecks := by
  unfold Obligations.AtomicPreChecks
  intro s m d a h r hv
  exact ⟨fun st he => ⟨_, exec_atomic_of_error r hv he, answer_answered⟩,
    fun he hcap => ⟨_, exec_atomic_of_tooSmall r hv he hcap, answer_answered⟩⟩

/-! ### INIT's checks -/

/-- ALG_MODE_SUPPORTED: the AEAD modes need blocks of 16 bytes, and the host's table decides the rest (00 R15). -/
theorem algModeSupported_iff {cfg : HostConfig} {a : Alg} {m : Mode} :
    algModeSupported cfg a m = true ↔ (aeadMode m = true → blockSize a = 16) ∧ (a, m) ∉ cfg.unsupported := by
  simp [algModeSupported, imp_iff_not_or]

/-- The allocation check: the host's draw, and room under MAX_CONTEXTS (00 R18). -/
theorem State.canAllocate_iff {s : State} :
    s.canAllocate = true ↔
      s.args.draws.contextOk = true ∧ ∀ n, s.config.maxContexts = some n → s.table.length < n := by
  cases hn : s.config.maxContexts <;> simp [State.canAllocate, hn]

/-- When one of INIT's checks fails, INIT reports its status (44 R462). -/
theorem exec_init_of_initChecks_error {s : State} {m : Mode} {a : Alg} {st : Status} (d : Dir)
    (hst : s.initChecks m a = .error st) : exec (instrOf .init m d a) s = .next (s.answer st 0) := by
  rw [exec_init, initCommand, hst]

/-- Settles O16: INIT and ATOMIC answer the status `initChecks` fails with, and the checks before it have passed. -/
theorem initChecksInOrder : Obligations.InitChecksInOrder := by
  unfold Obligations.InitChecksInOrder
  intro s op m d a hop answers supported room
  have report {st : Status} (hst : s.initChecks m a = .error st) : answers st := by
    refine ⟨_, ?_, answer_answered⟩
    rcases hop with rfl | ⟨rfl, hv⟩
    · exact exec_init_of_initChecks_error d hst
    · exact exec_atomic_of_initChecks_error d hv hst
  have hsup (hs : supported) : ¬algModeSupported s.config a m = false := by simpa using algModeSupported_iff.mpr hs
  refine ⟨fun hs => report ?_, fun hs hkt => report ?_, fun hs hkt hkl => report ?_,
    fun hs hkt hkl hp => report ?_, fun hs hkt hkl hp hroom => report ?_⟩
  · have hunsup : algModeSupported s.config a m = false := Bool.eq_false_iff.mpr (mt algModeSupported_iff.mp hs)
    exact if_pos hunsup
  · simp [State.initChecks, hsup hs, hkt]
  · simp [State.initChecks, hsup hs, hkt, hkl]
  · simp [State.initChecks, hsup hs, hkt, hkl, hp]
  · have hfull : s.canAllocate = false := Bool.eq_false_iff.mpr (mt State.canAllocate_iff.mp hroom)
    simp [State.initChecks, hsup hs, hkt, hkl, hp, hfull]

/-- Settles O15: `paramsOk` is the conjunction of its row of the table, mode by mode. -/
theorem parameterRanges : Obligations.ParameterRanges := by
  unfold Obligations.ParameterRanges
  intro a o
  refine ⟨rfl, ?_, ?_, ?_, ?_⟩
  · rintro m (rfl | rfl | rfl) <;> exact decide_eq_true_iff
  · simp only [paramsOk, Bool.and_eq_true, decide_eq_true_eq, and_assoc]
  · simp only [paramsOk, Bool.and_eq_true, decide_eq_true_eq, and_assoc]
  · rintro m (rfl | rfl) <;> simp only [paramsOk, Bool.and_eq_true, decide_eq_true_eq]

end Sys2Proof.Machine
end

section
/-! SUPPORT. ABORT: what it does to a command in flight, what that command left in flight since its issue, and that it is undone
however far its jobs have come (O50, O49). -/

namespace Sys2Proof.Machine

/-! ### What ABORT does -/

/-- `t` is the state `s` after an ABORT has cancelled the command `f` in flight on the handle it names (60 R548): the handle
takes the snapshot, the command's job is only marked, and two reports are added. -/
structure Cancelled (s : State) (f : InFlight) (t : State) : Prop where
  slot : t.lookup s.args.handle = f.snapshot.map .active
  others : ∀ k, k ≠ s.args.handle → t.lookup k = s.lookup k
  reports : t.reports = s.reports ++
    [{ id := f.id, status := .canceled, size := 0, handle := none, output := [] },
      { id := s.issued, status := .success, size := 0, handle := none, output := [] }]
  jobs : t.jobs = s.jobs.map fun j => if f.current = some j.id then { j with cancelled := true } else j
  read : ∀ addr, addr ∉ View.addrs f.outView → Memory.read t.mem addr = Memory.read s.mem addr
  known : t.known = s.known
  config : t.config = s.config
  events : t.events = s.events
  issued : t.issued = s.issued + 1

/-- ABORT cancels the command in flight on the handle it names (44 R475). -/
theorem exec_abort_of_busy {s : State} {f : InFlight} (hf : s.lookup s.args.handle = some (.busy f)) :
    ∃ t, exec .abort s = .next t ∧ Cancelled s f t := by
  refine ⟨(s.cancel s.args.handle f).answer .success 0, ?_, ?_⟩
  · show abortCommand s = _
    simp only [abortCommand, hf]
  · exact
      { slot := State.lookup_finish_same (s.cancelJob f.current) f.id _ _ _
        others := fun k hk => State.lookup_finish_ne hk (s.cancelJob f.current) f.id _ _
        reports := by simp [State.cancel, Commit.output]
        jobs := State.finish_jobs (s.cancelJob f.current) f.id _ _ _
        read := fun addr ha => State.read_finish ha (s.cancelJob f.current) f.id _ _
        known := State.finish_known (s.cancelJob f.current) f.id _ _ _
        config := State.finish_config (s.cancelJob f.current) f.id _ _ _
        events := State.finish_events (s.cancelJob f.current) f.id _ _ _
        issued := congrArg (· + 1) (State.finish_issued (s.cancelJob f.current) f.id _ _ _) }

/-- ABORT on a handle that is not BUSY, but live or once returned, only answers SUCCESS (44 R475). -/
theorem exec_abort_of_not_busy {s : State} (hb : ∀ f, s.lookup s.args.handle ≠ some (.busy f))
    (hk : (s.lookup s.args.handle).isSome = true ∨ s.args.handle ∈ s.known) :
    exec .abort s = .next (s.answer .success 0) := by
  show abortCommand s = _
  cases hl : s.lookup s.args.handle with
  | none =>
    have hknown : s.args.handle ∈ s.known := hk.resolve_left (by simp [hl])
    simp only [abortCommand, hl, if_pos hknown]
  | some x =>
    cases x with
    | active c => simp only [abortCommand, hl]
    | busy f => exact absurd hl (hb f)

/-- Settles O49: the cancellation of the command in flight, or an answer. -/
theorem abortCancels : Obligations.AbortCancels := by
  unfold Obligations.AbortCancels
  refine ⟨fun s f hf => ?_, fun s hb hk => ⟨_, exec_abort_of_not_busy hb hk, answer_answered⟩⟩
  obtain ⟨t, ht, hc⟩ := exec_abort_of_busy hf
  exact ⟨t, ht, hc.slot, hc.others, hc.reports, hc.jobs, hc.read, hc.known, hc.config, hc.events, hc.issued⟩

/-! ### A command that just went in flight -/

section

variable {s t : State} {h : Handle} {f : InFlight}

/-- A command launched on a handle whose slot is the snapshot is pending on it. -/
theorem State.Inv.pending_of_launch (hs : s.Inv) {i : Instr} {k : Handle} {snapshot : Option Context} {inV outV : View}
    {jobs : List Nat} {r : Commit} (hk : s.lookup k = snapshot.map .active)
    (hf : (s.launch i k snapshot inV outV jobs r).lookup h = some (.busy f)) (hid : f.id = s.issued) :
    ∃ snapshot', s.lookup h = snapshot'.map .active ∧
      Pending s h snapshot' (s.launch i k snapshot inV outV jobs r) := by
  by_cases hh : h = k
  · subst hh
    refine ⟨snapshot, hk, s.launch_pending i h snapshot inV outV (fun hj => ?_) r⟩
    rw [hj, State.launch_nil] at hf
    exact State.not_busy_finish f hf
  · rw [State.lookup_launch_ne hh] at hf
    exact absurd hid (hs.id_ne_issued hf)

/-- A command that went in flight is pending on its handle, whose slot before it is the snapshot (10 R50, 20 R96). -/
theorem exec_pending (hs : s.Inv) {i : Instr} (ht : exec i s = .next t) (hf : t.lookup h = some (.busy f))
    (hid : f.id = s.issued) : ∃ snapshot, s.lookup h = snapshot.map .active ∧ Pending s h snapshot t := by
  rcases eq_abort_or_instrOf i with rfl | ⟨op, m, d, a, rfl⟩
  · rcases abortCommand_next ht with ⟨g, -, rfl⟩ | ⟨-, rfl⟩
    · by_cases hh : h = s.args.handle
      · rw [hh] at hf
        exact absurd hf (State.not_busy_finish (s := s.cancelJob g.current) (id := g.id) f)
      · exact absurd hid (hs.id_ne_issued ((abortCommand_lookup_ne ht hh).symm.trans hf))
    · exact absurd hid (hs.id_ne_issued hf)
  · have hsh := exec_shape op m d a s
    generalize instrOf op m d a = i at ht hsh
    rw [ht] at hsh
    generalize hR : (Host.Outcome.next t : Result) = R at hsh
    cases hsh with
    | refused => cases hR
    | answered =>
      cases hR
      exact absurd hid (hs.id_ne_issued hf)
    | terminal =>
      cases hR
      exact absurd hid (hs.id_ne_issued_of_raiseTerminal hf)
    | init _ k jobs hk _ =>
      cases hR
      obtain ⟨-, -, habsent, -⟩ := room_of_initChecks hk
      exact hs.pending_of_launch habsent hf hid
    | update c c' out jobs _ hr _ _ _ _ =>
      cases hR
      exact hs.pending_of_launch hr.active hf hid
    | final c r jobs _ hr _ _ =>
      cases hR
      exact hs.pending_of_launch hr.active hf hid
    | atomic k r jobs _ _ hk _ _ =>
      cases hR
      obtain ⟨-, -, habsent, -⟩ := room_of_initChecks hk
      exact hs.pending_of_launch habsent hf hid

end

/-! ### A command in flight through a run -/

section

variable {s t : State}

/-- A launch takes the next issue number. -/
theorem State.launch_issued (s : State) (i : Instr) (h : Handle) (snapshot : Option Context) (inV outV : View)
    (jobs : List Nat) (r : Commit) : (s.launch i h snapshot inV outV jobs r).issued = s.issued + 1 := by
  unfold State.launch
  split <;> simp

/-- Every command takes the next issue number. -/
theorem exec_issued {i : Instr} (ht : exec i s = .next t) : t.issued = s.issued + 1 := by
  rcases eq_abort_or_instrOf i with rfl | ⟨op, m, d, a, rfl⟩
  · rcases abortCommand_next ht with ⟨f, -, rfl⟩ | ⟨-, rfl⟩
    · exact congrArg (· + 1) (State.finish_issued (s.cancelJob f.current) f.id _ _ _)
    · rfl
  · obtain ⟨hnext, -⟩ := exec_instrOf_next ht
    cases hnext with
    | answered => rfl
    | terminal => rfl
    | launched => exact State.launch_issued _ _ _ _ _ _ _ _

/-- No step takes an issue number back. -/
theorem step_issued_le (ht : step s = .next t) : s.issued ≤ t.issued := by
  rcases step_next ht with ⟨e, rest, -, hr⟩ | ⟨-, -, rfl⟩
  · cases e with
    | configure cfg =>
      rw [configure_next hr]
    | issue w o =>
      rcases issueCommand_next hr with ⟨i, -, hi⟩ | rfl
      · exact (exec_issued hi).ge.trans' (Nat.le_succ _)
      · exact Nat.le_succ _
    | submit h =>
      obtain ⟨f, n, js, -, -, -, rfl⟩ := submitJob_next hr
      exact le_rfl
    | complete n r =>
      obtain ⟨j, -, -, -, -, -, ⟨-, rfl⟩ | ⟨-, f, -, rfl⟩⟩ := completeJob_next hr
      · exact le_rfl
      · rw [State.jobEnded_issued]
    | hostWrite addr b =>
      obtain ⟨-, rfl⟩ := hostWrite_next hr
      exact le_rfl
  · exact le_rfl

/-- A run of `n + 1` steps is a step and a run of `n`. -/
theorem run_succ_next {n : Nat} {v : State} (hv : Host.Core.run Sys2Proof.core (n + 1) s = .next v) :
    ∃ t, step s = .next t ∧ Host.Core.run Sys2Proof.core n t = .next v := by
  replace hv := (Host.Core.run.eq_2 Sys2Proof.core s n).symm.trans hv
  split at hv
  · exact ⟨_, ‹_›, hv⟩
  · cases hv
  · cases hv

/-- The records of one command at three moments. -/
theorem InFlight.SameCommand.trans {f g k : InFlight} (h : f.SameCommand g) (h' : g.SameCommand k) : f.SameCommand k where
  id := h'.id.trans h.id
  command := h'.command.trans h.command
  snapshot := h'.snapshot.trans h.snapshot
  inView := h'.inView.trans h.inView
  outView := h'.outView.trans h.outView
  commit := h'.commit.trans h.commit

/-- What is in flight after a run with a number issued before the run was in flight then, as the same command: numbers are not
given again, so no step of the run issued it. -/
theorem run_sameCommand {h : Handle} {f : InFlight} {v : State} :
    ∀ {n : Nat} {s : State}, Host.Core.run Sys2Proof.core n s = .next v → v.lookup h = some (.busy f) →
      f.id < s.issued → ∃ g, s.lookup h = some (.busy g) ∧ g.SameCommand f
  | 0, s, hv, hf, _ => by
    cases hv
    exact ⟨f, hf, .refl f⟩
  | n + 1, s, hv, hf, hid => by
    obtain ⟨t, ht, hv⟩ := run_succ_next hv
    obtain ⟨g, hg, hsame⟩ := run_sameCommand hv hf (hid.trans_le (step_issued_le ht))
    rcases step_busy ht hg with hnew | ⟨k, hk, hsame'⟩
    · rw [hsame.id] at hid
      exact absurd hnew hid.ne
    · exact ⟨k, hk, hsame'.trans hsame⟩

end

/-! ### The obligation -/

/-- Settles O50: before its first job a command has only taken its handle, whose snapshot is what it held; and through any run it
keeps that snapshot, so its cancellation gives back the slot from before it. -/
theorem abortUndoesCommand : Obligations.AbortUndoesCommand := by
  unfold Obligations.AbortUndoesCommand
  intro s t i h f hs ht hf hid
  obtain ⟨snapshot, hslot, hp⟩ := exec_pending hs ht hf hid
  obtain ⟨f₀, hf₀, rfl, -, hcurrent, -⟩ := hp.slot
  cases hf₀.symm.trans hf
  refine ⟨?_, fun n v f' hv hf' hid' => ?_⟩
  · obtain ⟨u, hu, hc⟩ := exec_abort_of_busy (s := { t with args := { handle := h } }) hf
    refine ⟨u, hu, fun k => ?_, ?_, hc.config.trans hp.config, hc.events.trans hp.events, ?_, fun addr ha => ?_⟩
    · by_cases hk : k = h
      · rw [hk, hslot]
        exact hc.slot
      · exact (hc.others k hk).trans (hp.others k hk)
    · rw [hc.jobs, hcurrent]
      simpa using hp.jobs
    · rw [hc.reports]
      simp only [hp.reports, hp.issued, hid]
    · exact (hc.read addr ha).trans (by rw [hp.mem])
  · have hlt : f'.id < t.issued := by
      rw [hid', hid, hp.issued]
      exact Nat.lt_succ_self _
    obtain ⟨g, hg, hsame⟩ := run_sameCommand hv hf' hlt
    cases hg.symm.trans hf
    obtain ⟨u, hu, hc⟩ := exec_abort_of_busy (s := { v with args := { handle := h } }) hf'
    refine ⟨u, hu, ?_, hc.others, hc.jobs, hc.config, hc.events, ?_, fun addr ha => hc.read addr (hsame.outView ▸ ha)⟩
    · rw [hslot, ← hsame.snapshot]
      exact hc.slot
    · rw [← hsame.id]
      exact hc.reports

end Sys2Proof.Machine
end

section
/-! SUPPORT. A step and the decoded word, and the checks of UPDATE and FINAL before they run: refusals, the word against the
context, lengths and capacity (O5, O4, O53, O30, O31, O33, O41). -/

namespace Sys2Proof.Machine

/-! ### Steps and words -/

/-- The issue of a word that decodes is the command on the latched operand record (44 R460). -/
theorem issueCommand_of_decode {w : CommandWord} {i : Instr} (hw : decode w = some i) (args : Operands) (s : State) :
    issueCommand w args s = exec i { s with args := args } := by
  simp only [issueCommand, hw]

/-- A reserved word is answered with MECHANISM_INVALID (44 R465). -/
theorem issueCommand_of_reserved {w : CommandWord} (hw : decode w = none) (args : Operands) (s : State) :
    issueCommand w args s = .next ({ s with args := args }.answer .mechanismInvalid 0) := by
  simp only [issueCommand, hw]

theorem step_of_event {s : State} {e : Event} {rest : List Event} (he : s.events = e :: rest) :
    step s = runEvent e { s with events := rest } := by
  simp only [step, he]

theorem step_of_no_event {s : State} (he : s.events = []) : step s = runOut s := by
  simp only [step, he]

/-- Settles O5: the first event is the issue of the word, and with none left `runOut` decides. -/
theorem stepRunsDecodedCommand : Obligations.StepRunsDecodedCommand := by
  unfold Obligations.StepRunsDecodedCommand
  refine ⟨fun s w args rest i he hw => ?_, fun s nbits w i hw => ?_, fun s he hb => ?_, fun s he hb => ?_⟩
  · exact (step_of_event he).trans (issueCommand_of_decode hw args _)
  · have hplaced : (s.withFetchWord nbits w).events = .issue (tableWord nbits w) {} :: s.events := rfl
    exact (step_of_event hplaced).trans (issueCommand_of_decode hw {} s)
  · rw [step_of_no_event he, runOut, hb]
    rfl
  · rw [step_of_no_event he, runOut, hb]
    rfl

/-! ### The operand checks of UPDATE, FINAL and ATOMIC -/

section

variable {s : State} {op : Op} {m : Mode} {a : Alg} {o : Result}

/-- The input view of an UPDATE; FINAL has none. -/
def State.inViewOf (s : State) (op : Op) : View := if op = .update then s.args.inView else []

/-- What the operand check of UPDATE and FINAL decides, whatever comes after it, is what the command does. -/
theorem exec_of_onContext (hop : op = .update ∨ op = .final) (d : Dir)
    (ho : ∀ k, onContext s (s.inViewOf op) m d a k = o) : exec (instrOf op m d a) s = o := by
  rcases hop with rfl | rfl <;> cases m <;> cases d <;> exact ho _

/-- What the operand check of ATOMIC decides, whatever comes after it, is what the command does. -/
theorem exec_of_onAtomic (d : Dir) (ho : ∀ k, onAtomic s m a k = o) : exec (instrOf .atomic m d a) s = o := by
  cases m <;> cases d <;> exact ho _

/-- UPDATE and FINAL on an ABSENT handle once returned are refused (44 R461). -/
theorem exec_of_absent (hop : op = .update ∨ op = .final) (m : Mode) (d : Dir) (a : Alg)
    (hl : s.lookup s.args.handle = none) (hk : s.args.handle ∈ s.known) :
    exec (instrOf op m d a) s = .refused (.absentHandle s.args.handle) :=
  exec_of_onContext hop d fun k => by simp only [onContext, hl, if_pos hk]

/-- UPDATE and FINAL on a BUSY handle are refused (44 R461). -/
theorem exec_of_busy (hop : op = .update ∨ op = .final) (m : Mode) (d : Dir) (a : Alg) {f : InFlight}
    (hl : s.lookup s.args.handle = some (.busy f)) :
    exec (instrOf op m d a) s = .refused (.busyHandle s.args.handle) :=
  exec_of_onContext hop d fun k => by simp only [onContext, hl]

/-- UPDATE and FINAL on an ACTIVE handle with views that call for a refusal are refused (44 R461). -/
theorem exec_of_viewRefusal (hop : op = .update ∨ op = .final) (m : Mode) (d : Dir) (a : Alg) {c : Context} {r : Refusal}
    (hl : s.lookup s.args.handle = some (.active c)) (hv : s.viewRefusal (s.inViewOf op) s.args.outView = some r) :
    exec (instrOf op m d a) s = .refused r :=
  exec_of_onContext hop d fun k => by simp only [onContext, hl, hv]

/-- ATOMIC with views that call for a refusal is refused, before INIT's checks. -/
theorem exec_atomic_of_viewRefusal (m : Mode) (d : Dir) (a : Alg) {r : Refusal}
    (hv : s.viewRefusal s.args.inView s.args.outView = some r) : exec (instrOf .atomic m d a) s = .refused r :=
  exec_of_onAtomic d fun k => by simp only [onAtomic, hv]

/-- UPDATE and FINAL on a handle that is not ACTIVE are refused (44 R461). -/
theorem exec_refused_of_not_active (hop : op = .update ∨ op = .final) (m : Mode) (d : Dir) (a : Alg)
    (hl : ∀ c, s.lookup s.args.handle ≠ some (.active c)) : ∃ r, exec (instrOf op m d a) s = .refused r := by
  cases hslot : s.lookup s.args.handle with
  | none =>
    by_cases hk : s.args.handle ∈ s.known
    · exact ⟨_, exec_of_absent hop m d a hslot hk⟩
    · exact ⟨_, exec_of_unknown hop m d a hslot hk⟩
  | some x =>
    cases x with
    | active c => exact absurd hslot (hl c)
    | busy f => exact ⟨_, exec_of_busy hop m d a hslot⟩

end

/-- Settles O4: a reserved word is an answer, a handle that is not ACTIVE a refusal, and a mismatch ends the context. -/
theorem wordCheckedAgainstContext : Obligations.WordCheckedAgainstContext := by
  unfold Obligations.WordCheckedAgainstContext
  refine ⟨fun s w args hw => ?_, fun s op m d a hop hl => exec_refused_of_not_active hop m d a hl,
    fun s op m d a c hop hl hv hne => ⟨_, exec_of_mismatch hop hl hv hne, raiseTerminal_after⟩⟩
  have hanswer : Answered s .mechanismInvalid 0 ({ s with args := args }.answer .mechanismInvalid 0) :=
    ⟨rfl, rfl, rfl, rfl, rfl, rfl, rfl, rfl, rfl, rfl, rfl⟩
  exact ⟨_, issueCommand_of_reserved hw args s, hanswer⟩

/-! ### Views that are refused -/

section

variable {s : State} {inV outV : View} {addr : Nat}

/-- Views that share a byte and do not name the same addresses are not in place (20 R84). -/
theorem View.inPlaceOk_of_shared (hne : View.addrs inV ≠ View.addrs outV) (hin : addr ∈ View.addrs inV)
    (hout : addr ∈ View.addrs outV) : View.inPlaceOk inV outV = false := by
  simp [View.inPlaceOk, View.overlaps_of_mem hin hout, hne]

theorem View.inPlaceOk_nil (outV : View) : View.inPlaceOk [] outV = true := rfl

/-- Views that share a byte with those of a command in flight, where one of the two writes it, clash with it (20 R97). -/
theorem State.viewsClash_of_shared {k : Handle} {f : InFlight} (hf : s.lookup k = some (.busy f))
    (hshared : (addr ∈ View.addrs outV ∧ (addr ∈ View.addrs f.inView ∨ addr ∈ View.addrs f.outView)) ∨
      (addr ∈ View.addrs inV ∧ addr ∈ View.addrs f.outView)) : s.viewsClash inV outV = true := by
  refine List.any_eq_true.mpr ⟨_, Assoc.mem_of_get hf, ?_⟩
  rcases hshared with ⟨hout, hin' | hout'⟩ | ⟨hin, hout'⟩
  · simp [View.overlaps_of_mem hout hin']
  · simp [View.overlaps_of_mem hout hout']
  · simp [View.overlaps_of_mem hin hout']

theorem State.viewRefusal_of_not_inPlace (s : State) (h : View.inPlaceOk inV outV = false) :
    s.viewRefusal inV outV = some .viewsOverlap :=
  if_pos h

theorem State.viewRefusal_of_clash (hp : View.inPlaceOk inV outV = true) (hc : s.viewsClash inV outV = true) :
    s.viewRefusal inV outV = some .viewsInFlight := by
  simp [State.viewRefusal, hp, hc]

/-- A store that touches a view of a command in flight is refused (70 R592). -/
theorem hostWrite_of_shared {base : Nat} {b : Bytes} {k : Handle} {f : InFlight} (hf : s.lookup k = some (.busy f))
    (hle : base ≤ addr) (hlt : addr < base + b.length)
    (hshared : addr ∈ View.addrs f.inView ∨ addr ∈ View.addrs f.outView) :
    hostWrite base b s = .refused .storeInFlight := by
  have hmem : addr ∈ View.addrs [{ base := base, len := b.length }] := by
    simp [View.addrs, List.mem_range'_1, hle, hlt]
  exact if_pos (State.viewsClash_of_shared hf (.inl ⟨hmem, hshared⟩))

end

/-- Settles O53: the handle is looked up first, then the views, before any status check. -/
theorem callerDutyRefusals : Obligations.CallerDutyRefusals := by
  unfold Obligations.CallerDutyRefusals
  refine ⟨?_, fun s op m d a hop => ⟨exec_of_absent hop m d a, fun f => exec_of_busy hop m d a⟩, ?_, ?_, ?_⟩
  · rintro s i op m d a (rfl | ⟨rfl, hinit, hatomic⟩) hl hk
    · exact abortCommand_of_unknown hl hk
    · exact exec_of_unknown ((drawn_or_named op).resolve_left (by simp [hinit, hatomic])) m d a hl hk
  · intro s op m d a hop
    have refuse {r : Refusal} (hv : s.viewRefusal s.args.inView s.args.outView = some r) :
        exec (instrOf op m d a) s = .refused r := by
      rcases hop with rfl | ⟨rfl, c, hl⟩
      · exact exec_atomic_of_viewRefusal m d a hv
      · exact exec_of_viewRefusal (.inl rfl) m d a hl hv
    refine ⟨?_, ?_⟩
    · rintro hne ⟨addr, hin, hout⟩
      exact refuse (s.viewRefusal_of_not_inPlace (View.inPlaceOk_of_shared hne hin hout))
    · rintro hp ⟨k, f, addr, hf, hshared⟩
      exact refuse (State.viewRefusal_of_clash hp (State.viewsClash_of_shared hf hshared))
  · rintro s m d a c hl ⟨k, f, addr, hf, hshared⟩
    exact exec_of_viewRefusal (.inr rfl) m d a hl
      (State.viewRefusal_of_clash (View.inPlaceOk_nil _) (State.viewsClash_of_shared hf (.inl hshared)))
  · rintro s base b ⟨k, f, addr, hf, hle, hlt, hshared⟩
    exact hostWrite_of_shared hf hle hlt hshared

/-! ### UPDATE's pre-checks -/

section

variable {s : State} {c : Context} {m : Mode} {d : Dir} {a : Alg} (r : Ready s s.args.inView c m d a) (hok : c.Ok)
include r hok

/-- An UPDATE whose length check fails ends the context with its status (44 R473, R477). -/
theorem exec_update_of_error {st : Status} (he : c.updateError s.input.length = some st) :
    exec (instrOf .update m d a) s = .next (s.raiseTerminal st) := by
  obtain ⟨jobs, y, c', hexec, -, -⟩ := exec_update_eq r hok
  rw [hexec, he]

/-- An UPDATE past its length check with too little capacity reports the required size (44 R472). -/
theorem exec_update_of_tooSmall (he : c.updateError s.input.length = none)
    (hcap : s.cap < c.updateNeed s.input.length) :
    exec (instrOf .update m d a) s = .next (s.tooSmall (c.updateNeed s.input.length)) := by
  obtain ⟨jobs, y, c', hexec, -, -⟩ := exec_update_eq r hok
  rw [hexec, he]
  exact if_pos hcap

/-- An UPDATE with no input keeps the context and submits no job (44 R476): its length check passes, it needs no capacity and
no allocation. -/
theorem exec_update_of_no_input (hin : s.input = []) :
    exec (instrOf .update m d a) s = s.runUpdate (instrOf .update m d a) c [] (.keep c []) := by
  obtain ⟨jobs, y, c', hexec, hupd, hjobs⟩ := exec_update_eq r hok
  have hnil := Context.update_nil hok
  have herr : c.updateError s.input.length = none := by
    rw [hin]
    exact Context.updateError_of_update hnil
  have hneed : c.updateNeed s.input.length = 0 := by
    rw [hin]
    exact (Context.update_spec hok hnil).1.symm
  have hgranted : s.scratchDenied = false := by simp [State.scratchDenied, hin]
  cases (hupd herr).symm.trans ((congrArg c.update hin).trans hnil)
  rw [hexec, herr, hneed, hjobs hin]
  simp [hgranted]

end

/-- Settles O30: a failing length check raises its status, and too little capacity is an answer. -/
theorem updatePreChecks : Obligations.UpdatePreChecks := by
  unfold Obligations.UpdatePreChecks
  intro s c m d a r hok
  exact ⟨fun st he => ⟨_, exec_update_of_error r hok he, raiseTerminal_after⟩,
    fun he hcap => ⟨_, exec_update_of_tooSmall r hok he hcap, answer_answered⟩⟩

/-- Settles O31: with no input UPDATE commits the context it found and no byte, unless the word does not fit the context. -/
theorem emptyUpdateChangesNothing : Obligations.EmptyUpdateChangesNothing := by
  unfold Obligations.EmptyUpdateChangesNothing
  intro s c m d a hin hok hl hv
  refine ⟨fun ⟨hm, hd, ha⟩ => ?_, fun hne => ⟨_, exec_of_mismatch (.inl rfl) hl hv hne, raiseTerminal_after⟩⟩
  rw [exec_update_of_no_input ⟨hl, hm, hd, ha, hv⟩ hok hin]
  exact runUpdate_after

/-! ### FINAL's pre-checks -/

/-- Settles O41: a failing length check raises its status, and too little capacity is an answer. -/
theorem finalPreChecks : Obligations.FinalPreChecks := by
  unfold Obligations.FinalPreChecks
  intro s c m d a r
  exact ⟨fun st he => ⟨_, exec_final_of_error r he, raiseTerminal_after⟩,
    fun he hcap => ⟨_, exec_final_of_tooSmall r he hcap, answer_answered⟩⟩

/-- FINAL's length check in ECB and CBC: no residue may be left (44 R474). -/
theorem Context.finalError_block {c : Context} (hm : c.mode = .ecb ∨ c.mode = .cbc) :
    c.finalError = if c.residue ≠ [] then some (lengthStatus c.dir) else none := by
  rcases hm with hm | hm <;> simp only [Context.finalError, hm]

/-- FINAL of CFB and CTR has no length check (40 R204, R214). -/
theorem Context.finalError_stream {c : Context} (hm : c.mode = .cfb ∨ c.mode = .ctr) : c.finalError = none := by
  rcases hm with hm | hm <;> simp only [Context.finalError, hm]

/-- FINAL of a mode without padding and without a tag, past its length check, consumes the context and emits nothing, at its
issue (44 R474, R478). -/
theorem exec_final_of_unpadded {s : State} {c : Context} {m : Mode} {d : Dir} {a : Alg} (r : Ready s [] c m d a)
    (hm : m = .ecb ∨ m = .cbc ∨ m = .cfb ∨ m = .ctr) (he : c.finalError = none) :
    exec (instrOf .final m d a) s = s.runFinal (instrOf .final m d a) c [] (.consume []) := by
  obtain ⟨jobs, hexec, hjobs⟩ := exec_final_eq r
  have hnojob : jobs = [] := hjobs (by tauto)
  have hneed : c.finalNeed = 0 := by
    rcases hm with rfl | rfl | rfl | rfl <;> simp only [Context.finalNeed, r.mode]
  have hcommit : c.finalCommit = .consume [] := by
    rcases hm with rfl | rfl | rfl | rfl <;> simp only [Context.finalCommit, r.mode]
  rw [hexec, he, hneed, hcommit, hnojob]
  exact if_neg (Nat.not_lt_zero _)

/-- Settles O33: nothing is emitted; a residue in ECB and CBC is the length error, and CFB and CTR have no length check. -/
theorem finalWithoutPadding : Obligations.FinalWithoutPadding := by
  unfold Obligations.FinalWithoutPadding
  intro s c m d a r
  have succeeds (hm : m = .ecb ∨ m = .cbc ∨ m = .cfb ∨ m = .ctr) (he : c.finalError = none) :
      ∃ t, exec (instrOf .final m d a) s = .next t ∧
        After s { handle := s.args.handle, status := .success, size := 0, ctx := none } t := by
    rw [exec_final_of_unpadded r hm he]
    exact runFinal_after
  refine ⟨fun hm hres => ?_, fun hm hres => ?_, fun hm => ?_⟩
  · refine succeeds (by tauto) ?_
    rw [Context.finalError_block (r.mode ▸ hm), if_neg (not_not.mpr hres)]
  · have he : c.finalError = some (lengthStatus d) := by
      rw [Context.finalError_block (r.mode ▸ hm), if_pos hres, r.dir]
    refine ⟨_, exec_final_of_error r he, ?_⟩
    cases d <;> exact raiseTerminal_after
  · exact succeeds (.inr (.inr hm)) (Context.finalError_stream (r.mode ▸ hm))

end Sys2Proof.Machine
end

section
/-! SUPPORT. The jobs of a command in flight, submitted and completed in order, complete it as `settle` says (O48). -/

namespace Sys2Proof.Machine

/-! ### A slot about to be overwritten -/

section

variable {α : Type}

theorem Assoc.set_set (k : Nat) (v w : α) (l : List (Nat × α)) : Assoc.set k v (Assoc.set k w l) = Assoc.set k v l := by
  induction l with
  | nil => simp [Assoc.set]
  | cons e t ih =>
    obtain ⟨j, x⟩ := e
    by_cases hlt : k < j
    · simp [Assoc.set, hlt]
    · by_cases heq : j = k
      · simp [Assoc.set, heq]
      · simp [Assoc.set, hlt, heq, ih]

theorem Assoc.erase_set (k : Nat) (w : α) (l : List (Nat × α)) : Assoc.erase k (Assoc.set k w l) = Assoc.erase k l := by
  induction l with
  | nil => simp [Assoc.set, Assoc.erase]
  | cons e t ih =>
    obtain ⟨j, x⟩ := e
    unfold Assoc.erase at ih
    by_cases hlt : k < j
    · simp [Assoc.set, Assoc.erase, hlt]
    · by_cases heq : j = k
      · simp [Assoc.set, Assoc.erase, heq]
      · simpa [Assoc.set, Assoc.erase, hlt, heq] using ih

end

section

variable {s t : State} {h : Handle} {f : InFlight} {rest : List Event}

theorem State.put_put (s : State) (h : Handle) (x y : Slot) : (s.put h x).put h y = s.put h y := by
  simp [State.put, Assoc.set_set]

theorem State.setContext_put (s : State) (h : Handle) (x : Slot) (c : Option Context) :
    (s.put h x).setContext h c = s.setContext h c := by
  cases c with
  | none => simp [State.setContext, State.drop, State.put, Assoc.erase_set]
  | some c => exact s.put_put h x _

/-- A completion does not depend on the slot it replaces. -/
theorem State.finish_put (s : State) (h : Handle) (x : Slot) (id : Nat) (v : View) (c : Commit) :
    (s.put h x).finish id h v c = s.finish id h v c := by
  unfold State.finish
  rw [State.setContext_put]

/-- The end of a job does not depend on the slot it replaces. -/
theorem State.jobEnded_put (s : State) (h : Handle) (x : Slot) (f : InFlight) (r : JobResult) :
    (s.put h x).jobEnded h f r = s.jobEnded h f r := by
  cases r with
  | error e => exact s.finish_put h x _ _ _
  | ok => simp only [State.jobEnded, State.jobSucceeded, State.finish_put, State.put_put]

/-- The success of the last job commits (60 R543). -/
theorem State.jobEnded_of_last (s : State) (h : Handle) (hleft : f.jobsLeft = []) :
    s.jobEnded h f .ok = s.finish f.id h f.outView f.commit :=
  if_pos hleft

/-- The success of an earlier one leaves the command in flight, waiting for none. -/
theorem State.jobEnded_of_left (s : State) (h : Handle) (hleft : f.jobsLeft ≠ []) :
    s.jobEnded h f .ok = s.put h (.busy { f with current := none, jobsDone := f.jobsDone + 1 }) :=
  if_neg hleft

/-! ### One job -/

/-- The jobs in the Block Primitive that are not of the context `n` on the handle `h`. -/
def State.jobsOutside (s : State) (h : Handle) (n : Nat) : List PrimJob :=
  s.jobs.filter fun job => ¬(job.handle = h ∧ job.context = n)

/-- The state with none of those jobs in the Block Primitive, `k` more job numbers taken, and the schedule `rest`. -/
def State.clearJobs (s : State) (h : Handle) (n k : Nat) (rest : List Event) : State :=
  { s with events := rest, jobs := s.jobsOutside h n, nextJob := s.nextJob + k }

/-- A completion does not see whether those jobs went out at once or in two goes, nor the handle's slot in between. -/
theorem State.finish_clearJobs_put (s : State) (h : Handle) (n k : Nat) (rest es : List Event) (x : Slot) (id : Nat)
    (v : View) (c : Commit) :
    (((s.clearJobs h n 1 es).put h x).clearJobs h n k rest).finish id h v c =
      (s.clearJobs h n (k + 1) rest).finish id h v c := by
  have htwice : ((s.clearJobs h n 1 es).put h x).clearJobs h n k rest = (s.clearJobs h n (k + 1) rest).put h x := by
    simp [State.clearJobs, State.jobsOutside, State.put, List.filter_filter, Nat.add_assoc, Nat.add_comm 1]
  rw [htwice, State.finish_put]

/-- The completion of a job submitted after all others leaves no job of its context (60 R555). -/
theorem State.jobsAfter_of_last {j : PrimJob} (ht : t.jobs = s.jobs ++ [j]) (hlast : ∀ k ∈ s.jobs, k.id < j.id) :
    t.jobsAfter j = s.jobsOutside j.handle j.context := by
  have hother (k : PrimJob) (hk : k ∈ s.jobs) : (!(k.sameContext j && decide (k.id ≤ j.id))) =
      decide ¬(k.handle = j.handle ∧ k.context = j.context) := by
    simp [PrimJob.sameContext, (hlast k hk).le]
  rw [State.jobsAfter, ht, List.filter_append, List.filter_congr hother]
  simp [State.jobsOutside, PrimJob.sameContext]

/-- The job a command waits for comes in its context's order: no command waits for two (60 R544). -/
theorem State.Inv.earlierJob_of_live (hs : s.Inv) {j : PrimJob} (hj : j ∈ s.jobs) (hc : j.cancelled = false) :
    s.earlierJob j = false := by
  refine Bool.eq_false_iff.mpr fun he => ?_
  obtain ⟨k, hk, hh, -, hlt, hkc⟩ := State.earlierJob_iff.mp he
  obtain ⟨f, hf, hcur, -⟩ := hs.live_job j hj hc
  exact hlt.ne (Option.some.inj ((hs.live_current hf hk hkc hh).symm.trans hcur))

/-- The record of a command in flight once its job `id` is submitted and the jobs `js` are left. -/
def InFlight.submitted (f : InFlight) (id : Nat) (js : List Nat) : InFlight :=
  { f with current := some id, jobsLeft := js }

/-- The job of `n` blocks that the command `f` in flight on `h` submits next. -/
def State.newJob (s : State) (h : Handle) (f : InFlight) (n : Nat) : PrimJob :=
  { id := s.nextJob, handle := h, context := f.context, blocks := n, cancelled := false }

/-- The state once that job is submitted and the jobs `js` are left. -/
def State.submitted (s : State) (h : Handle) (f : InFlight) (n : Nat) (js : List Nat) : State :=
  { s.put h (.busy (f.submitted s.nextJob js)) with jobs := s.jobs ++ [s.newJob h f n], nextJob := s.nextJob + 1 }

section

variable (hs : s.Inv) (hf : s.lookup h = some (.busy f)) (hcur : f.current = none) {n : Nat} {js : List Nat}
  (hleft : f.jobsLeft = n :: js)

include hf hcur hleft

/-- The submission of the next job of a command in flight (60 R544). -/
theorem submitJob_of_busy : submitJob h s = .next (s.submitted h f n js) := by
  simp only [submitJob, hf, hcur, hleft]
  rfl

include hs

/-- The completion of the job just submitted: it is the last of its context, so no job of the context is left. -/
theorem completeJob_of_submitted :
    completeJob s.nextJob .ok (s.submitted h f n js) =
      .next ((s.clearJobs h f.context 1 s.events).jobEnded h (f.submitted s.nextJob js) .ok) := by
  have ht : (s.submitted h f n js).Inv := hs.of_submitJob (submitJob_of_busy hf hcur hleft)
  have hmem : s.newJob h f n ∈ (s.submitted h f n js).jobs :=
    List.mem_append_right _ (List.mem_singleton_self _)
  have hlive := completeJob_live ht hmem (ht.earlierJob_of_live hmem rfl) rfl (r := .ok) rfl
    (State.lookup_put_same s h _)
  rw [State.jobsAfter_of_last rfl hs.jobs_before] at hlive
  have hput := (s.clearJobs h f.context 1 s.events).jobEnded_put h (.busy (f.submitted s.nextJob js))
    (f.submitted s.nextJob js) .ok
  exact hlive.trans (congrArg Host.Outcome.next hput)

/-- Two steps of a command in flight, the submission of its next job and that job's completion (60 R544). -/
theorem step_submit_complete (he : s.events = .submit h :: .complete s.nextJob .ok :: rest) :
    ∃ t, step s = .next t ∧
      step t = .next ((s.clearJobs h f.context 1 rest).jobEnded h (f.submitted s.nextJob js) .ok) := by
  have hsubmit := submitJob_of_busy (s := { s with events := .complete s.nextJob .ok :: rest }) hf hcur hleft
  have hcomplete := completeJob_of_submitted (hs.reschedule rest s.args) hf hcur hleft
  exact ⟨_, (step_of_event he).trans hsubmit, hcomplete⟩

end

/-! ### All the jobs -/

/-- A run of `n + 1` steps whose first step answers `t` is a run of `n` steps from `t`. -/
theorem run_succ_of_step (ht : step s = .next t) (n : Nat) :
    Host.Core.run Sys2Proof.core (n + 1) s = Host.Core.run Sys2Proof.core n t := by
  refine (Host.Core.run.eq_2 Sys2Proof.core s n).trans ?_
  rw [show Sys2Proof.core.step s = .next t from ht]

/-- The events that settle `n + 1` jobs are those of the first and then those that settle the others. -/
theorem settleEvents_succ (h : Handle) (first n : Nat) :
    settleEvents h first (n + 1) = .submit h :: .complete first .ok :: settleEvents h (first + 1) n := by
  simp [settleEvents, List.range_succ_eq_map, List.flatMap_map, Nat.add_assoc, Nat.add_comm 1]

/-- What `settle` does to a command in flight. -/
theorem State.settle_of_busy (hf : s.lookup h = some (.busy f)) :
    s.settle h = { s with nextJob := s.nextJob + f.jobsLeft.length }.finish f.id h f.outView f.commit := by
  simp only [State.settle, hf]

/-- The jobs of a command in flight run to its completion, by induction on the jobs it has left: each goes by in two steps and
leaves the command in flight with the others, and the last completes it. -/
theorem run_settleEvents {js : List Nat} (hs : s.Inv) (hf : s.lookup h = some (.busy f)) (hcur : f.current = none)
    (hleft : f.jobsLeft = js) (he : s.events = settleEvents h s.nextJob js.length ++ rest) :
    Host.Core.run Sys2Proof.core (2 * js.length) s =
      .next ((s.clearJobs h f.context js.length rest).finish f.id h f.outView f.commit) := by
  induction js generalizing s f with
  | nil => exact absurd hleft ((hs.busy_ok hf).running hcur)
  | cons n js ih =>
    rw [List.length_cons, settleEvents_succ] at he
    obtain ⟨t, ht, hu⟩ := step_submit_complete hs hf hcur hleft he
    rw [List.length_cons, Nat.mul_succ, run_succ_of_step ht, run_succ_of_step hu]
    by_cases hjs : js = []
    · subst hjs
      rw [State.jobEnded_of_last _ h (f := f.submitted s.nextJob []) rfl]
      rfl
    · rw [State.jobEnded_of_left _ h (f := f.submitted s.nextJob js) hjs] at hu ⊢
      have hs' := stepKeepsInvariant _ _ (stepKeepsInvariant _ _ hs ht) hu
      have hrun := ih hs' (State.lookup_put_same _ h _) rfl rfl rfl
      exact hrun.trans (congrArg Host.Outcome.next (State.finish_clearJobs_put s h f.context _ rest _ _ _ _ _))

end

/-- Settles O48: the jobs go by two steps at a time, and the last completes the command. -/
theorem settleIsReached : Obligations.SettleIsReached := by
  unfold Obligations.SettleIsReached
  intro s h f rest hs hf hcur he others
  rw [State.settle_of_busy (s := { s with events := rest, jobs := others }) hf]
  exact run_settleEvents hs hf hcur rfl he

end Sys2Proof.Machine
end

section
/-! SUPPORT. The scratch allocation of an authenticated decryption that fails (O32). -/

namespace Sys2Proof.Machine

/-- Settles O32: with the allocation denied, UPDATE with input raises HOST_MEMORY, and ATOMIC past its length check and its
capacity answers it. -/
theorem scratchAllocationFailure : Obligations.ScratchAllocationFailure := by
  unfold Obligations.ScratchAllocationFailure
  refine ⟨fun s c m a ha r herr hin hdenied => ⟨_, ?_, raiseTerminal_after⟩,
    fun s m a h ha r hv herr hcap hdenied => ⟨_, ?_, answer_answered⟩⟩
  · have hscratch : s.scratchDenied = true := by simp [State.scratchDenied, hin, hdenied]
    rw [exec_update_aeadDec_eq ha r, herr, growScratch, hscratch]
    rfl
  · obtain ⟨jobs, hexec⟩ := exec_atomic_eq (d := .dec) r hv
    rw [hexec, herr]
    exact (if_neg hcap.not_gt).trans (if_pos ⟨ha, rfl, hdenied⟩)

end Sys2Proof.Machine
end

section
/-! SUPPORT. The configuration is taken before the first command, and no step changes it after that (O9). -/

namespace Sys2Proof.Machine

section

variable {s t : State}

/-- The host's configuration is taken when no command was issued and it is in range (70 R581). -/
theorem configure_of_unissued {cfg : HostConfig} (h0 : s.issued = 0) (hcfg : configValid cfg = true) :
    configure cfg s = .next { s with config := cfg } :=
  if_pos ⟨h0, hcfg⟩

/-- Once a command was issued no configuration is taken (70 R584). -/
theorem configure_of_issued_pos (hpos : 0 < s.issued) (cfg : HostConfig) :
    configure cfg s = .refused .badConfiguration :=
  if_neg fun h => hpos.ne' h.1

/-- A launch leaves the configuration. -/
theorem State.launch_config (s : State) (i : Instr) (h : Handle) (snapshot : Option Context) (inV outV : View)
    (jobs : List Nat) (r : Commit) : (s.launch i h snapshot inV outV jobs r).config = s.config := by
  unfold State.launch
  split <;> simp

/-- No command changes the configuration. -/
theorem exec_config {i : Instr} (ht : exec i s = .next t) : t.config = s.config := by
  rcases eq_abort_or_instrOf i with rfl | ⟨op, m, d, a, rfl⟩
  · rcases abortCommand_next ht with ⟨f, -, rfl⟩ | ⟨-, rfl⟩
    · exact State.finish_config (s.cancelJob f.current) f.id _ _ _
    · rfl
  · obtain ⟨hnext, -⟩ := exec_instrOf_next ht
    cases hnext with
    | answered => rfl
    | terminal => rfl
    | launched => exact State.launch_config _ _ _ _ _ _ _ _

/-- After the first command no step changes the configuration: the host's is refused, and no other agent writes it. -/
theorem step_config_of_issued_pos (ht : step s = .next t) (hpos : 0 < s.issued) : t.config = s.config := by
  rcases step_next ht with ⟨e, rest, -, hr⟩ | ⟨-, -, rfl⟩
  · cases e with
    | configure cfg =>
      have hrefused := configure_of_issued_pos (s := { s with events := rest }) hpos cfg
      cases hr.symm.trans hrefused
    | issue w o =>
      rcases issueCommand_next hr with ⟨i, -, hi⟩ | rfl
      · exact exec_config (s := { s with events := rest, args := o }) hi
      · rfl
    | submit h =>
      obtain ⟨f, n, js, -, -, -, rfl⟩ := submitJob_next hr
      rfl
    | complete n r =>
      obtain ⟨j, -, -, -, -, -, ⟨-, rfl⟩ | ⟨-, f, -, rfl⟩⟩ := completeJob_next hr
      · rfl
      · exact State.jobEnded_config _ _ _ _
    | hostWrite addr b =>
      obtain ⟨-, rfl⟩ := hostWrite_next hr
      rfl
  · rfl

end

/-- Settles O9: the issue number admits a configuration at zero and shuts it out after, and no step takes that number back. -/
theorem configurationFixedByFirstCommand : Obligations.ConfigurationFixedByFirstCommand := by
  unfold Obligations.ConfigurationFixedByFirstCommand
  refine ⟨fun s cfg rest he h0 hcfg => ?_, fun s t => step_config_of_issued_pos, fun s t => step_issued_le⟩
  exact (step_of_event he).trans (configure_of_unissued h0 hcfg)

end Sys2Proof.Machine
end
